-- ==== Sys2Proof/Word.lean ====
section
/-! DEFINITION. The word types of the block: 32-bit registers, port words, addresses and lengths (00 R6), 16-bit frames and
port snapshots, 8-bit bytes (20 R70). -/

namespace Sys2Proof

/-- A 32-bit register, command word, buffer address (`ADDR_BITS` = 32) or length (`LEN_BITS` = 32): 00 R6. -/
abbrev Word := BitVec 32

/-- A 16-bit frame, output data register or level snapshot (10 R33, R53). -/
abbrev Half := BitVec 16

/-- A byte of buffer memory (20 R70). -/
abbrev Byte := BitVec 8

/-- An IRQ number: the 8-bit operand `HI8` can name 256 (30 R109), the capacity of the model, of which the ones below `N_IRQ` are
inputs of the arbiter (00 R6, log 41). -/
abbrev Irq := Fin 256

end Sys2Proof
end

