-- ==== Sys2Proof/Machine/Units.lean ====
section
/-! DEFINITION. The names of the hardware units (SPI and I2C instances, GPIO ports, peripherals with a clock enable), the
operand values that are legal whatever the parameters (30 R105 to R107, R110), and storage with one copy per unit. -/

namespace Sys2Proof

/-- The SPI instances, fixed: {1, 2, 3} (00 R6). -/
inductive SpiId where
  | spi1 | spi2 | spi3
  deriving DecidableEq, Repr

/-- An I2C instance, by its number less one: the `UNIT` field can name 1 to 15 (30 R107), of which 1 to `N_I2C` exist (00 R6,
log 41). -/
abbrev I2cId := Fin 15

/-- A GPIO port, by its numeric code (30 R107): the 4-bit code can name 16, of which the ones in `PORTS` exist (00 R6, log 41). -/
abbrev Port := BitVec 4

/-- The peripherals that have a clock enable bit (10 R50). -/
inductive Peripheral where
  | afio
  | spi (i : SpiId)
  | i2c (u : I2cId)
  | gpio (p : Port)
  deriving DecidableEq, Repr

/-- `UNIT` of an SPI operation: 1, 2, 3; any other value is illegal (30 R107). -/
def spiOf (unit : BitVec 4) : Option SpiId :=
  match unit with
  | 1#4 => some .spi1
  | 2#4 => some .spi2
  | 3#4 => some .spi3
  | _ => none

/-- The number of an SPI instance, as the histories and the command words write it. -/
def SpiId.number (i : SpiId) : Nat :=
  match i with
  | .spi1 => 1
  | .spi2 => 2
  | .spi3 => 3

/-- The number of an I2C instance (30 R107). -/
def i2cNumber (u : I2cId) : Nat := u.val + 1

/-- Duplex code 3 of the static configuration is illegal (30 R105). -/
def cfgLegal (cfg : BitVec 10) : Bool :=
  cfg.extractLsb' 6 2 != 3#2

/-- Edge code 0b00 is illegal (30 R106). -/
def edgeLegal (edge : BitVec 2) : Bool :=
  edge != 0#2

/-- The legal mode and electrical pairs (30 R110): input (0) with floating (2), pulled (3) or analog (4); output (1, 2, 3)
or alternate function (4) with push-pull (0) or open-drain (1). -/
def pinConfigLegal (mode ecfg : BitVec 3) : Bool :=
  if mode = 0#3 then ecfg = 2#3 || ecfg = 3#3 || ecfg = 4#3
  else if mode.toNat ≤ 4 then ecfg = 0#3 || ecfg = 1#3
  else false

/-- One copy per SPI instance. -/
structure PerSpi (α : Type) where
  spi1 : α
  spi2 : α
  spi3 : α
  deriving DecidableEq, Repr

/-- The copy of instance `i`. -/
def PerSpi.get {α : Type} (x : PerSpi α) (i : SpiId) : α :=
  match i with
  | .spi1 => x.spi1
  | .spi2 => x.spi2
  | .spi3 => x.spi3

/-- Replace the copy of instance `i`. -/
def PerSpi.set {α : Type} (x : PerSpi α) (i : SpiId) (v : α) : PerSpi α :=
  match i with
  | .spi1 => { x with spi1 := v }
  | .spi2 => { x with spi2 := v }
  | .spi3 => { x with spi3 := v }

/-- One copy per I2C instance the `UNIT` field can name. -/
structure PerI2c (α : Type) where
  units : Vector α 15
  deriving DecidableEq, Repr

/-- The same value for every instance. -/
def PerI2c.all {α : Type} (v : α) : PerI2c α := ⟨Vector.replicate 15 v⟩

/-- The copy of instance `u`. -/
def PerI2c.get {α : Type} (x : PerI2c α) (u : I2cId) : α := x.units.get u

/-- Replace the copy of instance `u`. -/
def PerI2c.set {α : Type} (x : PerI2c α) (u : I2cId) (v : α) : PerI2c α := ⟨x.units.set u.val v u.isLt⟩

/-- One copy per port the code can name. -/
structure PerPort (α : Type) where
  ports : Vector α 16
  deriving DecidableEq, Repr

/-- The same value for every port. -/
def PerPort.all {α : Type} (v : α) : PerPort α := ⟨Vector.replicate 16 v⟩

/-- The copy of port `p`. -/
def PerPort.get {α : Type} (x : PerPort α) (p : Port) : α := x.ports.get p.toFin

/-- Replace the copy of port `p`. -/
def PerPort.set {α : Type} (x : PerPort α) (p : Port) (v : α) : PerPort α := ⟨x.ports.set p.toNat v p.isLt⟩

end Sys2Proof
end

