-- ==== Sys2Proof/Machine/RegName.lean ====
section
/-! DEFINITION. The names of the registers (20 R78 to R84). -/

namespace Sys2Proof.Machine

/-- The registers of an SPI instance (20 R79). -/
inductive SpiReg where
  | cr1 | cr2 | sr | dr
  deriving DecidableEq, Repr

/-- The EXTI registers (20 R80). -/
inductive ExtiReg where
  | imr | emr | rtsr | ftsr | swier | pr
  deriving DecidableEq, Repr

/-- The AFIO registers (20 R81): `exticr k` is EXTICR(k+1). -/
inductive AfioReg where
  | evcr | mapr
  | exticr (k : Fin 4)
  deriving DecidableEq, Repr

/-- The registers of a GPIO port (20 R84). -/
inductive GpioReg where
  | crl | crh | idr | odr | bsrr | brr | lckr
  deriving DecidableEq, Repr

/-- The registers of an I2C instance (20 R83). -/
inductive I2cReg where
  | cr1 | cr2 | oar1 | oar2 | dr | sr1 | sr2 | ccr | trise
  deriving DecidableEq, Repr

/-- The clock-control registers (20 R78). -/
inductive RccReg where
  | apb2enr | apb1enr
  deriving DecidableEq, Repr

/-- The interrupt controller's registers (20 R82): set-enable and clear-enable, 32 IRQs each; priority, 4 IRQs each. -/
inductive NvicReg where
  | iser (k : Fin 8)
  | icer (k : Fin 8)
  | ipr (k : Fin 64)
  deriving DecidableEq, Repr

/-- A register that a layout names (20 R78 to R84). -/
inductive Reg where
  | spi (i : SpiId) (r : SpiReg)
  | exti (r : ExtiReg)
  | afio (r : AfioReg)
  | gpio (p : Port) (r : GpioReg)
  | i2c (u : I2cId) (r : I2cReg)
  | rcc (r : RccReg)
  | nvic (r : NvicReg)
  deriving DecidableEq, Repr

end Sys2Proof.Machine
end

