-- ==== Sys2Proof/Machine/State.lean ====
section
/-! DEFINITION. The state of the block (10 R20) as plain data, the reasons a step can stop (60 R240), and the state after
reset (10 R64, 70 R280). -/

namespace Sys2Proof.Machine

/-- Why a step stops with a fault: the source gives the situation no meaning (00 R9); the closed set of 60 R240. A fault is
never a final state, and stopping is safe: no claim about the hardware can be proved through it. -/
inductive Fault where
  /-- Raised by SPI_SEND and SPI_RECV when the remaining length is below the frame width (40 R133, R134 line 4). Safe. -/
  | lengthNotFrameMultiple
  /-- Raised by the TXE and RXNE services of SPI_IRQ reached with no transfer recorded, or with a length that the frame
  would take below zero (42 R167, log 25). Safe. -/
  | serviceWithoutTransfer
  deriving DecidableEq, Repr

/-- Why a step refuses a command: the spec gives it no meaning (00 R9); the closed set of 60 R240 and `notModelled`, which no
command answers. Refusing is safe: it errs toward unprovable. -/
inductive Refusal where
  /-- Raised by `exec` for a command that has no meaning in this model yet; the mnemonic is the opcode table's. Safe. -/
  | notModelled (mnemonic : String)
  /-- Raised by `step` for a word the decoder rejects, and by a meaning whose field value is illegal (30 R112). Safe. -/
  | illegalCommand
  /-- Raised by SPI_SEND, SPI_RECV, SPI_SEND_IT and SPI_RECV_IT for a length that is no multiple of the frame width, and by
  the last two for length 0 (40 R133, 41 R153). Safe. -/
  | badLength
  /-- Raised by the five commands that take a buffer when the range is not admitted (20 R74). Safe. -/
  | badAddress
  /-- Raised by a register access to a peripheral whose clock enable is off (20 R87). Safe. -/
  | clockOff
  /-- Raised by REG_RD and REG_WR for an address that is no register (20 R85, 45 R228). Safe. -/
  | unknownRegister
  /-- Raised by REG_WR to a register whose bits the environment owns (45 R229). Safe. -/
  | envOwnedWrite
  deriving DecidableEq, Repr

/-- The two states of a direction: Idle (0) and Busy (1) (10 R25). -/
inductive XferState where
  | idle | busy
  deriving DecidableEq, Repr

/-- The two directions of a handle; receive is the mirror of transmit (10 R25). -/
inductive Dir where
  | tx | rx
  deriving DecidableEq, Repr

/-- The transfer-state fields of one direction of a handle: `Buf`, `Len`, `State` (10 R21). -/
structure Xfer where
  buf : Word
  len : Word
  st : XferState
  deriving DecidableEq, Repr

/-- A handle `H[s]` (10 R21): TxBuf, TxLen, TxState, RxBuf, RxLen, RxState, Cfg. -/
structure Handle where
  tx : Xfer
  rx : Xfer
  cfg : BitVec 10
  deriving DecidableEq, Repr

/-- The registers and hidden latches of one SPI instance (10 R30 to R35). Bits 31:16 of CR1 and CR2 are reserved and read 0
(20 R79). -/
structure SpiRegs where
  cr1 : BitVec 16
  cr2 : BitVec 16
  txe : Bool
  rxne : Bool
  ovr : Bool
  txd : Half
  rxd : Half
  ovrArm : Bool
  deriving DecidableEq, Repr

/-- The EXTI registers and the edge detector's previous levels (10 R45 to R48). EMR and SWIER have no rule (20 R80). -/
structure ExtiRegs where
  imr : Word
  emr : Word
  rtsr : Word
  ftsr : Word
  swier : Word
  pr : BitVec 16
  prev : BitVec 16
  deriving DecidableEq, Repr

/-- The AFIO registers (10 R49, 20 R81): four routing slots of four 4-bit sub-fields; EVCR and MAPR have no rule. -/
structure AfioRegs where
  evcr : Word
  mapr : Word
  exticr1 : BitVec 16
  exticr2 : BitVec 16
  exticr3 : BitVec 16
  exticr4 : BitVec 16
  deriving DecidableEq, Repr

/-- The clock-control registers that hold the clock enable bits `CLK[p]` (10 R50, 20 R78). -/
structure RccRegs where
  apb2enr : Word
  apb1enr : Word
  deriving DecidableEq, Repr

/-- The interrupt controller but for ACTIVE: enable, pending and priority per IRQ (10 R51). A priority is held in its byte lane of
IPR, of which the top `PRIO_BITS` bits are implemented (20 R82): `PRIO[q]` is `prioOf`. -/
structure NvicRegs where
  en : BitVec 256
  pend : BitVec 256
  lane : Vector (BitVec 8) 256
  deriving DecidableEq, Repr

/-- The registers of one GPIO port (10 R53, 20 R84); `level` is the electrical level of the 16 pins, owned by the pin
environment and read through IDR. MODE and ECFG of a pin are its 4-bit field of CRL or CRH. BSRR, BRR and LCKR have no rule. -/
structure GpioRegs where
  crl : Word
  crh : Word
  odr : Half
  level : Half
  bsrr : Word
  brr : Word
  lckr : Word
  deriving DecidableEq, Repr

/-- The registers of one I2C instance (10 R55 to R57, 20 R83). START and STOP of CR1 are requests and not storage.
`addrArm` says that the last read of SR1 saw ADDR = 1 (10 R56, log 17). -/
structure I2cRegs where
  cr1 : Word
  cr2 : Word
  oar1 : Word
  oar2 : Word
  ccr : Word
  trise : Word
  dr : Byte
  sb : Bool
  addr : Bool
  txe : Bool
  btf : Bool
  sr2 : Word
  addrArm : Bool
  deriving DecidableEq, Repr

/-- The event tags of the callback port (30 R108). -/
inductive Event where
  | txCmplt | rxCmplt | ovrErr
  deriving DecidableEq, Repr

/-- One entry of the I2C output history (10 R55, R56). -/
inductive I2cOut where
  | start
  | stop
  | byte (v : Byte)
  deriving DecidableEq, Repr

/-- The status flags the I2C bus environment owns (10 R57). -/
inductive I2cFlag where
  | sb | addr | txe | btf
  deriving DecidableEq, Repr

/-- What application code does: it writes its port registers (30 R101) and stores bytes to buffer memory (20 R71, R90). A
write of CMD starts the command. -/
inductive AppOp where
  | arg0 (v : Word)
  | arg1 (v : Word)
  | cmd (w : Word)
  | store (a : Word) (v : Byte)
  deriving DecidableEq, Repr

/-- The local variables of a command in progress (10 R27): cursor b, remaining length n, frame width w, the value v (also t
or d) between two accesses, the sampled state st, and the sampled bits t1, t2. -/
structure Locals where
  b : Word
  n : Word
  w : Word
  v : Word
  st : XferState
  t1 : Bool
  t2 : Bool
  deriving DecidableEq, Repr

/-- The locals before a command has written any. -/
def Locals.zero : Locals := ⟨0, 0, 0, 0, .idle, false, false⟩

/-- A sequencer (10 R27): the application operations its code has still to do, the command word in progress if there is
one, the index of its next micro-step, and its locals. -/
structure Act where
  todo : List AppOp
  op : Option Word
  phase : Nat
  loc : Locals
  deriving DecidableEq, Repr

/-- A sequencer with code to run and no command in progress. -/
def Act.start (ops : List AppOp) : Act := ⟨ops, none, 0, Locals.zero⟩

/-- An execution context (10 R24, R27): its command port registers, its sequencer, and the sequencers of the dispatches that
wait for a callback to end, innermost first (42 R170). -/
structure Context where
  cmd : Word
  arg0 : Word
  arg1 : Word
  ret : Word
  act : Act
  below : List Act
  deriving DecidableEq, Repr

/-- A new context whose code is `ops` (60 R249); its port registers hold 0 (10 R64). -/
def Context.start (ops : List AppOp) : Context := ⟨0, 0, 0, 0, Act.start ops, []⟩

/-- The hardware units of the peripheral environment (00 R5): one shift unit per SPI instance, one bus unit per I2C instance. -/
inductive EnvUnit where
  | shift (i : SpiId)
  | bus (u : I2cId)
  deriving DecidableEq, Repr

/-- The five kinds of agent that take steps (00 R5): the foreground; a handler, one activation per interrupt taken, named by its
IRQ; the arbiter; a unit of the peripheral environment; the pin environment. -/
inductive Agent where
  | foreground
  | handler (q : Irq)
  | arbiter
  | peripheral (unit : EnvUnit)
  | pins
  deriving DecidableEq, Repr

/-- What the agents can do next (00 R5): the foreground or the handler of `q` takes a micro-step, the arbiter enters or returns
(60 R248 to R250), an SPI shift unit acts (10 R40 to R42), the I2C bus unit sets or clears a flag (10 R57), a pin changes
(43 R196). `swap` is the scheduler's choice of order for EXTI_EDGE (43 R181, log 20). -/
inductive Move where
  | foreground (swap : Bool)
  | handler (q : Irq) (swap : Bool)
  | enter (q : Irq)
  | leave
  | txEmpty (i : SpiId)
  | rxFrame (i : SpiId) (v : Half)
  | overrun (i : SpiId)
  | i2cFlag (u : I2cId) (f : I2cFlag) (x : Bool)
  | pin (p : Port) (n : BitVec 4) (x : Bool)
  deriving DecidableEq, Repr

/-- A piece of the state a callback can read (42 R171): a byte of buffer memory, a field of a handle, the number of times
(modulo 2^32) an event has been emitted, RET of the context it runs in. -/
inductive Visible where
  | byte (a : Word)
  | buf (i : SpiId) (d : Dir)
  | len (i : SpiId) (d : Dir)
  | state (i : SpiId) (d : Dir)
  | emitted (i : SpiId) (ev : Event)
  | ret
  deriving DecidableEq, Repr

/-- A row of a callback written as a table: on event `ev` of handle `inst`, if every piece of state in `sees` has the value
beside it, the callback issues `ops`. -/
structure CallbackRow where
  inst : SpiId
  ev : Event
  sees : List (Visible × Word)
  ops : List AppOp
  deriving DecidableEq, Repr

/-- The parameter `callback` (42 R170, R171, D15): a function from the handle, the event and the state to a finite list of
operations, named by plain data (log 4). `table rows` is the function whose value the first row that applies gives, and the empty
list where none does, so `table []` is the default no-op; `application n` is a function nothing is known of, one for each n. -/
inductive Callback where
  | table (rows : List CallbackRow)
  | application (n : Nat)
  deriving DecidableEq, Repr

/-- The parameter `RegLayout` (00 R6, D2): the default layout of 20 R78 to R84 but for what the three lists replace (log 41).
`addrs`: the byte address of a register. `clocks`: the clock-control register and the bit that hold a peripheral's clock enable.
`bits`: for a register, the bit positions at which it carries the bits that the default layout has at 0, 1, …, 31. -/
structure RegLayout where
  addrs : List (Reg × Nat)
  clocks : List (Peripheral × RccReg × Nat)
  bits : List (Reg × List Nat)
  deriving DecidableEq, Repr

/-- The parameter `higher` (00 R6, 60 R246): the default `p < r`, or the relation that holds of the listed pairs. -/
inductive PrioOrder where
  | numeric
  | table (pairs : List (BitVec 8 × BitVec 8))
  deriving DecidableEq, Repr

/-- The parameters `irqOfLine` and `irqOfSpi` (00 R6, 60 R242): lines 0 to 4 may have any IRQ each; `irqOfLine` is constant on 5 to 9
and on 10 to 15. -/
structure IrqMap where
  line0 : Irq
  line1 : Irq
  line2 : Irq
  line3 : Irq
  line4 : Irq
  lines5to9 : Irq
  lines10to15 : Irq
  spi1 : Irq
  spi2 : Irq
  spi3 : Irq
  deriving DecidableEq, Repr

/-- The parameter `POLL_TIMEOUT`: `none` is its only value (00 R6, D30). -/
inductive PollTimeout where
  | none
  deriving DecidableEq, Repr

/-- The parameters of the step relation (00 R6, 10 R66): no step changes them. `layout` is RegLayout; `ports` PORTS, by code;
`nI2c` N_I2C; `nIrq` N_IRQ; `prioBits` PRIO_BITS; `order` is `higher`; `irqs` is irqOfLine and irqOfSpi; `cfgCode` lists the
configurations whose CR1 value is not the default mapping's (spiCfgEncode, 40 R132); `rmwAtomic` is RMW_ATOMIC; `pollTimeout`
POLL_TIMEOUT; `callback` is the application's event callback; `handlerBody` maps an IRQ number to the code of its handler; `launch`
lists the (base, size) ranges of buffer memory that a run may touch (20 R71). Logs 4 to 7, 11 and 41. -/
structure Params where
  layout : RegLayout
  ports : List Port
  nI2c : Nat
  nIrq : Nat
  prioBits : Nat
  order : PrioOrder
  irqs : IrqMap
  cfgCode : List (BitVec 10 × Word)
  rmwAtomic : Bool
  pollTimeout : PollTimeout
  callback : Callback
  handlerBody : List (Nat × List AppOp)
  launch : List (Nat × Nat)
  deriving DecidableEq, Repr

/-- Buffer memory (20 R71): the bytes some agent has written, by address; an address that is not listed holds no value
(10 R64, log 9). -/
abbrev Memory := List Host.Cell

/-- The state of the block and of what surrounds it as far as the spec gives it state. `frozen` holds the pre-empted
contexts, innermost first, each with the IRQ whose handler pre-empted it: its IRQ numbers are the stack ACTIVE (10 R51,
60 R249). `ctx` is the context that runs. `sched`, `swap` and `draws` are the model's own fields (logs 2, 20 and 21). -/
structure State where
  handles : PerSpi Handle
  spi : PerSpi SpiRegs
  exti : ExtiRegs
  afio : AfioRegs
  rcc : RccRegs
  nvic : NvicRegs
  gpio : PerPort GpioRegs
  i2c : PerI2c I2cRegs
  mem : Memory
  spiOut : List (SpiId × Half)
  i2cOut : List (I2cId × I2cOut)
  cbOut : List (SpiId × Event)
  ctx : Context
  frozen : List (Irq × Context)
  params : Params
  sched : List Move
  swap : Bool
  draws : Nat
  deriving DecidableEq, Repr

/-- A clean direction: no buffer, no length, Idle (10 R22 I3). -/
def Xfer.clean : Xfer := ⟨0, 0, .idle⟩

/-- A handle after reset (10 R64). -/
def Handle.reset : Handle := ⟨Xfer.clean, Xfer.clean, 0⟩

/-- An SPI instance after reset: control registers and latches 0; the flags at the simulator defaults (10 R64, log 10). -/
def SpiRegs.reset : SpiRegs :=
  { cr1 := 0, cr2 := 0, txe := true, rxne := false, ovr := false, txd := 0, rxd := 0, ovrArm := false }

/-- A GPIO port after reset: every pin input, floating, so each 4-bit field is 0b0100 (10 R64, 20 R84); output data 0;
levels 0 (log 10). -/
def GpioRegs.reset : GpioRegs :=
  { crl := 0x44444444, crh := 0x44444444, odr := 0, level := 0, bsrr := 0, brr := 0, lckr := 0 }

/-- An I2C instance after reset (10 R64, 20 R85, logs 10 and 11). -/
def I2cRegs.reset : I2cRegs :=
  { cr1 := 0, cr2 := 0, oar1 := 0, oar2 := 0, ccr := 0, trise := 0, dr := 0,
    sb := false, addr := false, txe := false, btf := false, sr2 := 0, addrArm := false }

/-- The parameters after reset, each at the default of 00 R6: the layout of 20 R78 to R84, ports A to G with codes 0 to 6, two I2C
instances, 60 IRQs, 4 priority bits, `p < r`, the IRQ numbers of 60 R242 and the mapping of 40 R132 (log 11); RMW_ATOMIC `false`; no
timeout; the callback a no-op (42 R170); the SPI handlers at their default body SPI_IRQ s (30 R115), no other handler; the whole
address space but address 0 as launch memory (log 7). -/
def Params.reset : Params :=
  { layout := ⟨[], [], []⟩
    ports := [0, 1, 2, 3, 4, 5, 6]
    nI2c := 2
    nIrq := 60
    prioBits := 4
    order := .numeric
    irqs := ⟨6, 7, 8, 9, 10, 23, 40, 35, 36, 51⟩
    cfgCode := []
    rmwAtomic := false
    pollTimeout := .none
    callback := .table []
    handlerBody := [(35, [.cmd 0x06100000]), (36, [.cmd 0x06200000]), (51, [.cmd 0x06300000])]
    launch := [(1, 2 ^ 32 - 1)] }

/-- The state after reset (10 R64, 70 R280, R281): nothing in flight, nothing enabled, nothing pending, no program. -/
def State.reset : State :=
  { handles := ⟨Handle.reset, Handle.reset, Handle.reset⟩
    spi := ⟨SpiRegs.reset, SpiRegs.reset, SpiRegs.reset⟩
    exti := { imr := 0, emr := 0, rtsr := 0, ftsr := 0, swier := 0, pr := 0, prev := 0 }
    afio := { evcr := 0, mapr := 0, exticr1 := 0, exticr2 := 0, exticr3 := 0, exticr4 := 0 }
    rcc := { apb2enr := 0, apb1enr := 0 }
    nvic := { en := 0, pend := 0, lane := Vector.replicate 256 0 }
    gpio := .all GpioRegs.reset
    i2c := .all I2cRegs.reset
    mem := []
    spiOut := []
    i2cOut := []
    cbOut := []
    ctx := Context.start []
    frozen := []
    params := Params.reset
    sched := []
    swap := false
    draws := 0 }

end Sys2Proof.Machine
end

