-- ==== Sys2Proof/Machine/Parameters.lean ====
section
/-! DEFINITION. What the parameters of the block say (00 R6, 10 R66): which units, IRQs and priorities exist and the operands that
name them (30 R107, R109, R111), the priority order (60 R246), the IRQ numbers of the request sources (60 R242). -/

namespace Sys2Proof.Machine

/-! ## Units -/

/-- Whether an I2C instance exists: its number is at most `N_I2C` (00 R6). -/
def hasI2c (P : Params) (u : I2cId) : Bool := decide (i2cNumber u ≤ P.nI2c)

/-- Whether a port exists: its code is in `PORTS` (00 R6). -/
def hasPort (P : Params) (p : Port) : Bool := P.ports.contains p

/-- `UNIT` of I2C_MSEND: 1..N_I2C (30 R107). -/
def i2cOf (P : Params) (unit : BitVec 4) : Option I2cId :=
  if h : 0 < unit.toNat then
    let u : I2cId := ⟨unit.toNat - 1, by have := unit.isLt; omega⟩
    if hasI2c P u then some u else none
  else none

/-- A port code; a code outside `PORTS` names no port (30 R107). -/
def portOf (P : Params) (code : BitVec 4) : Option Port := if hasPort P code then some code else none

/-- The PCLK peripheral identifiers: 0x00 AFIO; 0x01..0x03 SPI; 0x10 + u I2C; 0x20 + code a GPIO port (30 R111). -/
def peripheralOf (P : Params) (id : BitVec 8) : Option Peripheral :=
  let low := id.extractLsb' 0 4
  match id.extractLsb' 4 4 with
  | 0#4 => if low = 0 then some .afio else (spiOf low).map .spi
  | 1#4 => (i2cOf P low).map .i2c
  | 2#4 => (portOf P low).map .gpio
  | _ => none

/-- Whether a peripheral exists: AFIO and the three SPI instances always do (00 R6). -/
def hasPeripheral (P : Params) (p : Peripheral) : Bool :=
  match p with
  | .afio => true
  | .spi _ => true
  | .i2c u => hasI2c P u
  | .gpio q => hasPort P q

/-! ## IRQs -/

/-- Whether an IRQ exists: `q < N_IRQ` (00 R6, 10 R51). -/
def hasIrq (P : Params) (q : Irq) : Bool := decide (q.val < P.nIrq)

/-- The IRQ number operand: `0 <= q < N_IRQ`, larger is illegal (30 R109). -/
def irqOf (P : Params) (q : BitVec 8) : Option Irq := if hasIrq P q.toFin then some q.toFin else none

/-- The priority operand: the bits above `PRIO_BITS` must be zero (30 R109). -/
def priorityOf (P : Params) (p : BitVec 8) : Option (BitVec 8) := if p.toNat < 2 ^ P.prioBits then some p else none

/-- `higher(p, r)`: p is a strictly higher priority than r; by default the numerically lower value is (60 R246). -/
def higher (P : Params) (p r : BitVec 8) : Bool :=
  match P.order with
  | .numeric => p.ult r
  | .table pairs => pairs.contains (p, r)

/-- `irqOfLine`: the IRQ of each EXTI line; 5 to 9 share one and 10 to 15 share one (60 R242, 43 R191). -/
def irqOfLine (P : Params) (n : BitVec 4) : Irq :=
  match n.toNat with
  | 0 => P.irqs.line0
  | 1 => P.irqs.line1
  | 2 => P.irqs.line2
  | 3 => P.irqs.line3
  | 4 => P.irqs.line4
  | 5 | 6 | 7 | 8 | 9 => P.irqs.lines5to9
  | _ => P.irqs.lines10to15

/-- `irqOfSpi`: the IRQ of each SPI instance (60 R242). -/
def irqOfSpi (P : Params) (i : SpiId) : Irq :=
  match i with
  | .spi1 => P.irqs.spi1
  | .spi2 => P.irqs.spi2
  | .spi3 => P.irqs.spi3

end Sys2Proof.Machine
end

