-- ==== Sys2Proof/Syntax.lean ====
section
/-! DEFINITION. The 22 commands (30 R104), one constructor per row of the opcode table. Operands are the fields of the
command word as it holds them; `ARG0` and `ARG1` stand in the issuing context's port registers (30 R101). -/

namespace Sys2Proof

/-- A command. The fields are raw: `Instr.defect` says which values are illegal. -/
inductive Instr where
  /-- SPI_INIT s, cfg (40 R131). -/
  | spiInit (unit : BitVec 4) (cfg : BitVec 10)
  /-- SPI_SEND s, buf, len: blocking send (40 R133). -/
  | spiSend (unit : BitVec 4)
  /-- SPI_RECV s, buf, len: blocking receive (40 R134). -/
  | spiRecv (unit : BitVec 4)
  /-- SPI_SEND_IT s, buf, len: non-blocking send request (41 R151). -/
  | spiSendIt (unit : BitVec 4)
  /-- SPI_RECV_IT s, buf, len: non-blocking receive request (41 R152). -/
  | spiRecvIt (unit : BitVec 4)
  /-- SPI_IRQ s: one interrupt dispatch (42 R160). -/
  | spiIrq (unit : BitVec 4)
  /-- EXTI_EDGE n, edge (43 R181). -/
  | extiEdge (pin : BitVec 4) (edge : BitVec 2)
  /-- EXTI_ROUTE port, n (43 R182). -/
  | extiRoute (port : BitVec 4) (pin : BitVec 4)
  /-- EXTI_ARM n (43 R183). -/
  | extiArm (pin : BitVec 4)
  /-- EXTI_ACK n (43 R184). -/
  | extiAck (pin : BitVec 4)
  /-- IRQ_ENABLE q, en (43 R185). -/
  | irqEnable (q : BitVec 8) (en : Bool)
  /-- IRQ_PRIO q, p (43 R186). -/
  | irqPrio (q : BitVec 8) (prio : BitVec 8)
  /-- I2C_MSEND u, addr7, buf, len (44 R211). -/
  | i2cMsend (unit : BitVec 4) (addr7 : BitVec 7)
  /-- GPIO_CFG p, n, mode, ecfg (45 R221). -/
  | gpioCfg (port : BitVec 4) (pin : BitVec 4) (mode : BitVec 3) (ecfg : BitVec 3)
  /-- GPIO_RD_PIN p, n (45 R222). -/
  | gpioRdPin (port : BitVec 4) (pin : BitVec 4)
  /-- GPIO_RD_PORT p (45 R223). -/
  | gpioRdPort (port : BitVec 4)
  /-- GPIO_WR_PIN p, n, v (45 R224). -/
  | gpioWrPin (port : BitVec 4) (pin : BitVec 4) (value : Bool)
  /-- GPIO_WR_PORT p, v (45 R225). -/
  | gpioWrPort (port : BitVec 4) (value : BitVec 16)
  /-- GPIO_TGL_PIN p, n (45 R226). -/
  | gpioTglPin (port : BitVec 4) (pin : BitVec 4)
  /-- PCLK id, en (45 R227). -/
  | pclk (id : BitVec 8) (en : Bool)
  /-- REG_RD addr, the address in ARG0 (45 R228). -/
  | regRd
  /-- REG_WR addr, v, the address in ARG0 and the value in ARG1 (45 R229). -/
  | regWr
  deriving DecidableEq, Repr

end Sys2Proof
end

