-- ==== Sys2Proof/WellFormed.lean ====
section
/-! DEFINITION. Which commands are well formed: every field value that the rules 30 R105 to R111 do not call illegal
(30 R112), under given parameters. -/

namespace Sys2Proof

open Sys2Proof.Machine

/-- Why a command's field value is illegal. -/
inductive Defect where
  /-- An SPI `UNIT` outside 1..3 (30 R107). -/
  | spiUnit
  /-- An I2C `UNIT` outside 1..N_I2C (30 R107). -/
  | i2cUnit
  /-- A port code outside `PORTS` (30 R107). -/
  | port
  /-- Duplex code 3 (30 R105). -/
  | duplex
  /-- Edge code 0b00 (30 R106). -/
  | edge
  /-- An IRQ number not below `N_IRQ` (30 R109). -/
  | irq
  /-- A priority that does not fit `PRIO_BITS` (30 R109). -/
  | priority
  /-- A mode, an electrical configuration or a pair of them that is illegal (30 R110). -/
  | pinConfig
  /-- No PCLK peripheral identifier (30 R111). -/
  | peripheral
  deriving DecidableEq, Repr

/-- `none` if the check holds, the defect otherwise. -/
def orDefect (ok : Bool) (d : Defect) : Option Defect :=
  if ok then none else some d

/-- The first illegal field value of a command, if it has one. -/
def Instr.defect (P : Params) (i : Instr) : Option Defect :=
  match i with
  | .spiInit unit cfg => (orDefect (spiOf unit).isSome .spiUnit).or (orDefect (cfgLegal cfg) .duplex)
  | .spiSend unit => orDefect (spiOf unit).isSome .spiUnit
  | .spiRecv unit => orDefect (spiOf unit).isSome .spiUnit
  | .spiSendIt unit => orDefect (spiOf unit).isSome .spiUnit
  | .spiRecvIt unit => orDefect (spiOf unit).isSome .spiUnit
  | .spiIrq unit => orDefect (spiOf unit).isSome .spiUnit
  | .extiEdge _ edge => orDefect (edgeLegal edge) .edge
  | .extiRoute port _ => orDefect (portOf P port).isSome .port
  | .extiArm _ => none
  | .extiAck _ => none
  | .irqEnable q _ => orDefect (irqOf P q).isSome .irq
  | .irqPrio q prio => (orDefect (irqOf P q).isSome .irq).or (orDefect (priorityOf P prio).isSome .priority)
  | .i2cMsend unit _ => orDefect (i2cOf P unit).isSome .i2cUnit
  | .gpioCfg port _ mode ecfg =>
    (orDefect (portOf P port).isSome .port).or (orDefect (pinConfigLegal mode ecfg) .pinConfig)
  | .gpioRdPin port _ => orDefect (portOf P port).isSome .port
  | .gpioRdPort port => orDefect (portOf P port).isSome .port
  | .gpioWrPin port _ _ => orDefect (portOf P port).isSome .port
  | .gpioWrPort port _ => orDefect (portOf P port).isSome .port
  | .gpioTglPin port _ => orDefect (portOf P port).isSome .port
  | .pclk id _ => orDefect (peripheralOf P id).isSome .peripheral
  | .regRd => none
  | .regWr => none

/-- A command is well formed if no field of it holds an illegal value. -/
abbrev Instr.WellFormed (P : Params) (i : Instr) : Prop :=
  i.defect P = none

end Sys2Proof
end

