-- ==== Sys2Proof/Decode.lean ====
section
/-! DEFINITION. The command word (30 R100, R104): the decoder, total on every 32-bit word and rejecting by name (30 R112),
and the encoder written from the same table. -/

namespace Sys2Proof

open Sys2Proof.Machine

/-- Why a command word is illegal (30 R112). -/
inductive DecodeError where
  /-- OPC is not in 30 R104. -/
  | unknownOpcode
  /-- A field that must be zero is not zero. -/
  | nonzeroField
  /-- A field holds a value the rules call illegal. -/
  | illegalValue (d : Defect)
  deriving DecidableEq, Repr

/-- `OPC`, bits 31:24 (30 R100). -/
def opcField (w : Word) : BitVec 8 := w.extractLsb' 24 8

/-- `UNIT`, bits 23:20 (30 R100). -/
def unitField (w : Word) : BitVec 4 := w.extractLsb' 20 4

/-- `PIN`, bits 19:16 (30 R100). -/
def pinField (w : Word) : BitVec 4 := w.extractLsb' 16 4

/-- `IMM16`, bits 15:0 (30 R100). -/
def immField (w : Word) : BitVec 16 := w.extractLsb' 0 16

/-- The command an opcode and its fields stand for; the fields a row of 30 R104 does not list must be zero. -/
def fieldsToInstr (opc : BitVec 8) (unit pin : BitVec 4) (imm : BitVec 16) : Except DecodeError Instr :=
  let row (mustBeZero : Bool) (i : Instr) : Except DecodeError Instr :=
    if mustBeZero then .ok i else .error .nonzeroField
  match opc with
  | 0x01#8 => row (pin == 0 && imm.extractLsb' 10 6 == 0) (.spiInit unit (imm.extractLsb' 0 10))
  | 0x02#8 => row (pin == 0 && imm == 0) (.spiSend unit)
  | 0x03#8 => row (pin == 0 && imm == 0) (.spiRecv unit)
  | 0x04#8 => row (pin == 0 && imm == 0) (.spiSendIt unit)
  | 0x05#8 => row (pin == 0 && imm == 0) (.spiRecvIt unit)
  | 0x06#8 => row (pin == 0 && imm == 0) (.spiIrq unit)
  | 0x10#8 => row (unit == 0 && imm.extractLsb' 2 14 == 0) (.extiEdge pin (imm.extractLsb' 0 2))
  | 0x11#8 => row (imm == 0) (.extiRoute unit pin)
  | 0x12#8 => row (unit == 0 && imm == 0) (.extiArm pin)
  | 0x13#8 => row (unit == 0 && imm == 0) (.extiAck pin)
  | 0x14#8 => row (unit == 0 && pin == 0 && imm.extractLsb' 1 7 == 0)
      (.irqEnable (imm.extractLsb' 8 8) (imm.getLsbD 0))
  | 0x15#8 => row (unit == 0 && pin == 0) (.irqPrio (imm.extractLsb' 8 8) (imm.extractLsb' 0 8))
  | 0x20#8 => row (pin == 0 && imm.extractLsb' 7 9 == 0) (.i2cMsend unit (imm.extractLsb' 0 7))
  | 0x30#8 => row (imm.extractLsb' 6 10 == 0) (.gpioCfg unit pin (imm.extractLsb' 0 3) (imm.extractLsb' 3 3))
  | 0x31#8 => row (imm == 0) (.gpioRdPin unit pin)
  | 0x32#8 => row (pin == 0 && imm == 0) (.gpioRdPort unit)
  | 0x33#8 => row (imm.extractLsb' 1 15 == 0) (.gpioWrPin unit pin (imm.getLsbD 0))
  | 0x34#8 => row (pin == 0) (.gpioWrPort unit imm)
  | 0x35#8 => row (imm == 0) (.gpioTglPin unit pin)
  | 0x40#8 => row (unit == 0 && pin == 0 && imm.extractLsb' 1 7 == 0)
      (.pclk (imm.extractLsb' 8 8) (imm.getLsbD 0))
  | 0x50#8 => row (unit == 0 && pin == 0 && imm == 0) .regRd
  | 0x51#8 => row (unit == 0 && pin == 0 && imm == 0) .regWr
  | _ => .error .unknownOpcode

/-- A command is refused if one of its field values is illegal (30 R112). -/
def checked (P : Params) (i : Instr) : Except DecodeError Instr :=
  match i.defect P with
  | none => .ok i
  | some d => .error (.illegalValue d)

/-- Decode a command word under given parameters, which say what units, IRQs and priorities exist. -/
def decode (P : Params) (w : Word) : Except DecodeError Instr :=
  match fieldsToInstr (opcField w) (unitField w) (pinField w) (immField w) with
  | .ok i => checked P i
  | .error e => .error e

/-- Assemble the four fields of a command word (30 R100). -/
def packFields (opc : BitVec 8) (unit pin : BitVec 4) (imm : BitVec 16) : Word :=
  opc ++ unit ++ pin ++ imm

/-- Two immediates of eight bits, `HI8` and `LO8` (30 R100). -/
def hiLo (hi lo : BitVec 8) : BitVec 16 := hi.setWidth 16 <<< 8 ||| lo.setWidth 16

/-- The command word of a command, from the table of 30 R104. -/
def encode (i : Instr) : Word :=
  match i with
  | .spiInit unit cfg => packFields 0x01 unit 0 (cfg.setWidth 16)
  | .spiSend unit => packFields 0x02 unit 0 0
  | .spiRecv unit => packFields 0x03 unit 0 0
  | .spiSendIt unit => packFields 0x04 unit 0 0
  | .spiRecvIt unit => packFields 0x05 unit 0 0
  | .spiIrq unit => packFields 0x06 unit 0 0
  | .extiEdge pin edge => packFields 0x10 0 pin (edge.setWidth 16)
  | .extiRoute port pin => packFields 0x11 port pin 0
  | .extiArm pin => packFields 0x12 0 pin 0
  | .extiAck pin => packFields 0x13 0 pin 0
  | .irqEnable q en => packFields 0x14 0 0 (hiLo q ((BitVec.ofBool en).setWidth 8))
  | .irqPrio q prio => packFields 0x15 0 0 (hiLo q prio)
  | .i2cMsend unit addr7 => packFields 0x20 unit 0 (addr7.setWidth 16)
  | .gpioCfg port pin mode ecfg => packFields 0x30 port pin (ecfg.setWidth 16 <<< 3 ||| mode.setWidth 16)
  | .gpioRdPin port pin => packFields 0x31 port pin 0
  | .gpioRdPort port => packFields 0x32 port 0 0
  | .gpioWrPin port pin value => packFields 0x33 port pin ((BitVec.ofBool value).setWidth 16)
  | .gpioWrPort port value => packFields 0x34 port 0 value
  | .gpioTglPin port pin => packFields 0x35 port pin 0
  | .pclk id en => packFields 0x40 0 0 (hiLo id ((BitVec.ofBool en).setWidth 8))
  | .regRd => packFields 0x50 0 0 0
  | .regWr => packFields 0x51 0 0 0

/-- The instruction the decoder reads from a word numbered as the opcode table numbers it: one 32-bit command word, bit 0
its least significant bit (30 R100), under the parameters of the reset state. Bits above `nbits` are zero. -/
def decodeTableWord (nbits w : Nat) : Option Instr :=
  match decode Params.reset (BitVec.ofNat 32 (w % 2 ^ nbits)) with
  | .ok i => some i
  | .error _ => none

end Sys2Proof
end

