-- ==== Sys2Proof/Config.lean ====
section
/-! DEFINITION. The free values: what the spec leaves open and no definition of the model may fix. Each is a constant
without a body, so no proof can see what it is. They are applied to the draw counter of State (a fresh value each time), to an
address, or, for the application's callback, to the handle, the event and the state. -/

namespace Sys2Proof

/-- A free bit: whether an incidental DR-then-SR read clears OVR (10 R35), whether a re-routing records an edge (43 R196),
the order of a START and a STOP requested by one write. Logs 19 and 21. -/
opaque Config.drawBit : Nat → Bool

/-- The free content of a byte of buffer memory that no agent has written, by address (10 R64, U20). Log 9. -/
opaque Config.unwrittenByte : Nat → Byte

/-- What a read of an I2C data register returns: the spec gives the write only (10 R55). Log 14. -/
opaque Config.i2cDataRead : Nat → Byte

/-- Which of the three output speeds GPIO_CFG writes for an alternate-function pin, whose speed the source does not mention
(91 N15). Log 15. -/
opaque Config.alternateSpeed : Nat → Fin 3

/-- The application's callback number n: any function from the handle, the event and the state to a finite list of operations
(42 R171, D15). Log 4. -/
opaque Config.application : Nat → SpiId → Machine.Event → Machine.State → List Machine.AppOp

end Sys2Proof
end

