-- ==== Sys2Proof/Machine/Bits.lean ====
section
/-! DEFINITION. Bit and field updates of a register value: bit 0 is the least significant bit (00 R7). -/

namespace Sys2Proof.Machine

/-- `v` with bit `k` replaced by `x`. -/
def setBit {n : Nat} (v : BitVec n) (k : Nat) (x : Bool) : BitVec n :=
  if x then v ||| (1#n <<< k) else v &&& ~~~(1#n <<< k)

/-- `v` with the field of `len` bits from bit `lo` up replaced by `x`. -/
def setField {n len : Nat} (v : BitVec n) (lo : Nat) (x : BitVec len) : BitVec n :=
  (v &&& ~~~((BitVec.allOnes len).setWidth n <<< lo)) ||| (x.setWidth n <<< lo)

/-- The word with bit `k` equal to `x` and every other bit 0. -/
def bitAt (k : Nat) (x : Bool) : Word :=
  if x then 1#32 <<< k else 0#32

/-- The IRQ mask with bit `q` equal to `x` and every other bit 0. -/
def irqBit (q : Irq) (x : Bool) : BitVec 256 :=
  if x then 1#256 <<< q.val else 0#256

/-- The mask of the IRQ numbers below `n`. -/
def irqsBelow (n : Nat) : BitVec 256 := BitVec.allOnes 256 >>> (256 - n)

end Sys2Proof.Machine
end

