-- ==== Sys2Proof/Machine/RegMap.lean ====
section
/-! DEFINITION. The register map: the default layout of 20 R78 to R84 and what the parameter `RegLayout` replaces of it. One list of
registers and one address function; the address decoder searches the list. -/

namespace Sys2Proof.Machine

/-- Default base addresses of the SPI instances (20 R78). -/
def spiBase (i : SpiId) : Nat :=
  match i with
  | .spi1 => 0x40013000
  | .spi2 => 0x40003800
  | .spi3 => 0x40003C00

/-- Default base addresses of the I2C instances (20 R78). DESIGN CHOICE: the pattern goes on for the instances above the second, which
no default parameter has (log 41). -/
def i2cBase (u : I2cId) : Nat := 0x40005400 + 0x400 * u.val

/-- Default base address of a GPIO port: 0x40010800 + 0x400 * code (20 R78); the formula goes on for the codes above 6 (log 41). -/
def gpioBase (p : Port) : Nat := 0x40010800 + 0x400 * p.toNat

/-- Offsets of 20 R79. -/
def spiOffset (r : SpiReg) : Nat :=
  match r with
  | .cr1 => 0x00
  | .cr2 => 0x04
  | .sr => 0x08
  | .dr => 0x0C

/-- Offsets of 20 R80. -/
def extiOffset (r : ExtiReg) : Nat :=
  match r with
  | .imr => 0x00
  | .emr => 0x04
  | .rtsr => 0x08
  | .ftsr => 0x0C
  | .swier => 0x10
  | .pr => 0x14

/-- Offsets of 20 R81. -/
def afioOffset (r : AfioReg) : Nat :=
  match r with
  | .evcr => 0x00
  | .mapr => 0x04
  | .exticr k => 0x08 + 4 * k.val

/-- Offsets of 20 R84. -/
def gpioOffset (r : GpioReg) : Nat :=
  match r with
  | .crl => 0x00
  | .crh => 0x04
  | .idr => 0x08
  | .odr => 0x0C
  | .bsrr => 0x10
  | .brr => 0x14
  | .lckr => 0x18

/-- Offsets of 20 R83. -/
def i2cOffset (r : I2cReg) : Nat :=
  match r with
  | .cr1 => 0x00
  | .cr2 => 0x04
  | .oar1 => 0x08
  | .oar2 => 0x0C
  | .dr => 0x10
  | .sr1 => 0x14
  | .sr2 => 0x18
  | .ccr => 0x1C
  | .trise => 0x20

/-- Offsets of 20 R78. -/
def rccOffset (r : RccReg) : Nat :=
  match r with
  | .apb2enr => 0x18
  | .apb1enr => 0x1C

/-- Offsets of 20 R82 from 0xE000E100. -/
def nvicOffset (r : NvicReg) : Nat :=
  match r with
  | .iser k => 0x000 + 4 * k.val
  | .icer k => 0x080 + 4 * k.val
  | .ipr k => 0x300 + 4 * k.val

/-- The byte address of a register in the default layout (20 R78 to R84). -/
def defaultAddr (r : Reg) : Nat :=
  match r with
  | .spi i x => spiBase i + spiOffset x
  | .exti x => 0x40010400 + extiOffset x
  | .afio x => 0x40010000 + afioOffset x
  | .gpio p x => gpioBase p + gpioOffset x
  | .i2c u x => i2cBase u + i2cOffset x
  | .rcc x => 0x40021000 + rccOffset x
  | .nvic x => 0xE000E100 + nvicOffset x

/-- The byte address of a register: the default one, unless the layout gives another (00 R6, 20 R78). -/
def regAddr (P : Params) (r : Reg) : Nat :=
  match P.layout.addrs.find? fun e => e.1 == r with
  | some e => e.2
  | none => defaultAddr r

/-- The registers of one SPI instance. -/
def spiRegs (i : SpiId) : List Reg :=
  [.spi i .cr1, .spi i .cr2, .spi i .sr, .spi i .dr]

/-- The registers of one GPIO port. -/
def gpioRegs (p : Port) : List Reg :=
  [.gpio p .crl, .gpio p .crh, .gpio p .idr, .gpio p .odr, .gpio p .bsrr, .gpio p .brr, .gpio p .lckr]

/-- The registers of one I2C instance. -/
def i2cRegs (u : I2cId) : List Reg :=
  [.i2c u .cr1, .i2c u .cr2, .i2c u .oar1, .i2c u .oar2, .i2c u .dr, .i2c u .sr1, .i2c u .sr2, .i2c u .ccr,
    .i2c u .trise]

/-- The registers of EXTI, AFIO and RCC. -/
def routingRegs : List Reg :=
  [.exti .imr, .exti .emr, .exti .rtsr, .exti .ftsr, .exti .swier, .exti .pr, .afio .evcr, .afio .mapr,
    .afio (.exticr 0), .afio (.exticr 1), .afio (.exticr 2), .afio (.exticr 3), .rcc .apb2enr, .rcc .apb1enr]

/-- The I2C instances the unit number can name. -/
def allI2c : List I2cId := List.finRange 15

/-- The registers of the interrupt controller that hold a bit or a lane of an IRQ below `N_IRQ` (20 R82). -/
def nvicRegs (P : Params) : List Reg :=
  let words := (List.finRange 8).filter fun k => decide (32 * k.val < P.nIrq)
  words.map (fun k => Reg.nvic (.iser k)) ++ words.map (fun k => Reg.nvic (.icer k)) ++
    ((List.finRange 64).filter fun k => decide (4 * k.val < P.nIrq)).map fun k => Reg.nvic (.ipr k)

/-- Every register the layout names (20 R85): those of the units that exist. -/
def allRegs (P : Params) : List Reg :=
  spiRegs .spi1 ++ spiRegs .spi2 ++ spiRegs .spi3 ++ routingRegs ++ P.ports.flatMap gpioRegs ++
    (allI2c.filter (hasI2c P)).flatMap i2cRegs ++ nvicRegs P

/-- The register at a byte address, if the layout names one there (20 R85). -/
def regAt (P : Params) (a : Nat) : Option Reg :=
  (allRegs P).find? fun r => regAddr P r == a

/-! ## Bit positions on the bus -/

/-- The positions at which a register carries its bits, if the layout gives it others than the default (00 R6, 20 R78). -/
def busOrder (P : Params) (r : Reg) : Option (List Nat) :=
  (P.layout.bits.find? fun e => e.1 == r).map (·.2)

/-- A register's value as an access by address sees it, from the value with the bits in the default order: the model's rules name
fields in the default order, and only REG_RD, REG_WR and `spiCfgEncode` see the layout's (log 41). -/
def toBus (P : Params) (r : Reg) (w : Word) : Word :=
  match busOrder P r with
  | none => w
  | some ps => (List.range 32).foldl (fun m k => setBit m (ps.getD k k) (w.getLsbD k)) 0

/-- The value with the bits in the default order, from the one an access by address writes. -/
def fromBus (P : Params) (r : Reg) (w : Word) : Word :=
  match busOrder P r with
  | none => w
  | some ps => (List.range 32).foldl (fun m k => setBit m k (w.getLsbD (ps.getD k k))) 0

/-! ## Clock gating and ownership -/

/-- The peripheral whose clock enable gates a register; EXTI, RCC and the interrupt controller have none (10 R50, 20 R78). -/
def regPeripheral (r : Reg) : Option Peripheral :=
  match r with
  | .spi i _ => some (.spi i)
  | .exti _ => none
  | .afio _ => some .afio
  | .gpio p _ => some (.gpio p)
  | .i2c u _ => some (.i2c u)
  | .rcc _ => none
  | .nvic _ => none

/-- The registers whose bits the environment owns (45 R229). -/
def envOwned (r : Reg) : Bool :=
  match r with
  | .spi _ .sr => true
  | .i2c _ .sr1 => true
  | .i2c _ .sr2 => true
  | .gpio _ .idr => true
  | _ => false

/-- The clock-control register and the bit that hold a peripheral's clock enable in the default layout (20 R78); the patterns go on
for the units no default parameter has (log 41). -/
def defaultClkPlace (p : Peripheral) : RccReg × Nat :=
  match p with
  | .afio => (.apb2enr, 0)
  | .gpio q => (.apb2enr, 2 + q.toNat)
  | .spi .spi1 => (.apb2enr, 12)
  | .spi .spi2 => (.apb1enr, 14)
  | .spi .spi3 => (.apb1enr, 15)
  | .i2c u => (.apb1enr, 21 + u.val)

/-- The place of a peripheral's clock enable: the default one, unless the layout gives another (00 R6, 20 R78). -/
def clkPlace (P : Params) (p : Peripheral) : RccReg × Nat :=
  match P.layout.clocks.find? fun e => e.1 == p with
  | some e => e.2
  | none => defaultClkPlace p

/-- The clock-control register that holds a peripheral's clock enable bit (20 R78). -/
def clkReg (P : Params) (p : Peripheral) : RccReg := (clkPlace P p).1

/-- The position of a peripheral's clock enable bit in its register (20 R78). -/
def clkBit (P : Params) (p : Peripheral) : Nat := (clkPlace P p).2

end Sys2Proof.Machine
end

