-- ==== Sys2Proof/Machine/Flags.lean ====
section
/-! DEFINITION. Every flag the spec computes: the status words, the interrupt request lines (60 R243, 43 R197), the pending
latch (60 R247), the edge detector (43 R192, R196), the overrun flag's clearing (10 R35), the clock enables (10 R50). -/

namespace Sys2Proof.Machine

/-! ## Bit positions (20 R79, R83) -/

/-- CR1.DFF (20 R79). -/
def bitDff : Nat := 11
/-- CR2.ERRIE (20 R79). -/
def bitErrie : Nat := 5
/-- CR2.RXNEIE (20 R79). -/
def bitRxneie : Nat := 6
/-- CR2.TXEIE (20 R79). -/
def bitTxeie : Nat := 7
/-- SR.RXNE (20 R79). -/
def bitRxne : Nat := 0
/-- SR.TXE (20 R79). -/
def bitTxe : Nat := 1
/-- SR.OVR (20 R79). -/
def bitOvr : Nat := 6
/-- I2C CR1.START (20 R83). -/
def bitStart : Nat := 8
/-- I2C CR1.STOP (20 R83). -/
def bitStop : Nat := 9
/-- I2C SR1.SB (20 R83). -/
def bitSb : Nat := 0
/-- I2C SR1.ADDR (20 R83). -/
def bitAddr : Nat := 1
/-- I2C SR1.BTF (20 R83). -/
def bitBtf : Nat := 2
/-- I2C SR1.TXE (20 R83). -/
def bitI2cTxe : Nat := 7

/-- The interrupt enable bit of a direction (10 R31). -/
def enableBit (d : Dir) : Nat :=
  match d with
  | .tx => bitTxeie
  | .rx => bitRxneie

/-- The status flag bit of a direction (10 R32). -/
def flagBit (d : Dir) : Nat :=
  match d with
  | .tx => bitTxe
  | .rx => bitRxne

/-! ## Status words -/

/-- The value of `SPI[s].SR` (10 R32, 20 R79); its bits without a rule read 0 (log 16). -/
def srWord (r : SpiRegs) : Word :=
  bitAt bitRxne r.rxne ||| bitAt bitTxe r.txe ||| bitAt bitOvr r.ovr

/-- The value of `I2C[u].SR1` (10 R55, 20 R83); its bits without a rule read 0 (log 16). -/
def sr1Word (r : I2cRegs) : Word :=
  bitAt bitSb r.sb ||| bitAt bitAddr r.addr ||| bitAt bitBtf r.btf ||| bitAt bitI2cTxe r.txe

/-! ## Clock enables -/

/-- The value of a clock-control register. -/
def rccWord (s : State) (r : RccReg) : Word :=
  match r with
  | .apb2enr => s.rcc.apb2enr
  | .apb1enr => s.rcc.apb1enr

/-- `CLK[p]` (10 R50): the bit of the clock-control register that the layout names (20 R78). -/
def clkOn (s : State) (p : Peripheral) : Bool :=
  (rccWord s (clkReg s.params p)).getLsbD (clkBit s.params p)

/-- Whether a register may be accessed: its peripheral has no clock enable, or it is on (20 R87). -/
def accessible (s : State) (r : Reg) : Bool :=
  match regPeripheral r with
  | none => true
  | some p => clkOn s p

/-! ## Request lines -/

/-- `spiReq(s)`: the OR of the three flag-and-enable pairs (60 R243). -/
def spiReq (s : State) (i : SpiId) : Bool :=
  let r := s.spi.get i
  (r.txe && r.cr2.getLsbD bitTxeie) || (r.rxne && r.cr2.getLsbD bitRxneie) || (r.ovr && r.cr2.getLsbD bitErrie)

/-- `extiReq(n) = EXTI.PR[n] and EXTI.IMR[n]` (43 R197). -/
def extiReq (s : State) (n : BitVec 4) : Bool :=
  s.exti.pr.getLsbD n.toNat && s.exti.imr.getLsbD n.toNat

/-- The sixteen pin and line numbers. -/
def allPins : List (BitVec 4) :=
  [0, 1, 2, 3, 4, 5, 6, 7, 8, 9, 10, 11, 12, 13, 14, 15]

/-- The request lines of all IRQs, bit q for IRQ q (60 R243, 43 R197); an IRQ without a source requests nothing. -/
def lineWord (s : State) : BitVec 256 :=
  allPins.foldl (fun m n => m ||| irqBit (irqOfLine s.params n) (extiReq s n))
    (irqBit (irqOfSpi s.params .spi1) (spiReq s .spi1) ||| irqBit (irqOfSpi s.params .spi2) (spiReq s .spi2) |||
      irqBit (irqOfSpi s.params .spi3) (spiReq s .spi3))

/-- `line(q)` (60 R243). -/
def line (s : State) (q : Irq) : Bool := (lineWord s).getLsbD q.val

/-- The stack ACTIVE, innermost handler first (10 R51). -/
def active (s : State) : List Irq := s.frozen.map (·.1)

/-- ACTIVE as a mask, bit q for IRQ q. -/
def activeWord (s : State) : BitVec 256 :=
  s.frozen.foldl (fun m e => m ||| irqBit e.1 true) 0

/-- The pending latch (60 R247), applied to the state `s'` after a step from `s`: PEND[q] is set where line(q) is 1 and q is
not in ACTIVE or line(q) was 0 before the step (log 32). -/
def latch (s s' : State) : State :=
  { s' with nvic := { s'.nvic with
      pend := s'.nvic.pend ||| (lineWord s' &&& ~~~(activeWord s' &&& lineWord s)) } }

/-! ## The edge detector -/

/-- `AFIO.EXTICR[k]` (10 R49). -/
def routeSlot (r : AfioRegs) (k : Fin 4) : BitVec 16 :=
  match k with
  | 0 => r.exticr1
  | 1 => r.exticr2
  | 2 => r.exticr3
  | 3 => r.exticr4

/-- Replace `AFIO.EXTICR[k]`. -/
def setRouteSlot (r : AfioRegs) (k : Fin 4) (v : BitVec 16) : AfioRegs :=
  match k with
  | 0 => { r with exticr1 := v }
  | 1 => { r with exticr2 := v }
  | 2 => { r with exticr3 := v }
  | 3 => { r with exticr4 := v }

/-- slot = pin / 4 (43 R182). -/
def slotOf (n : BitVec 4) : Fin 4 := ⟨n.toNat / 4, by have := n.isLt; omega⟩

/-- sub-field = (pin mod 4) * 4 bits (43 R182). -/
def shiftOf (n : BitVec 4) : Nat := n.toNat % 4 * 4

/-- The routing sub-field of line n (10 R49). -/
def routeCode (s : State) (n : BitVec 4) : BitVec 4 :=
  (routeSlot s.afio (slotOf n)).extractLsb' (shiftOf n) 4

/-- The port line n observes; none if its sub-field holds a code outside PORTS (43 R192). -/
def selectedPort (s : State) (n : BitVec 4) : Option Port := portOf s.params (routeCode s n)

/-- `LEVEL[p][n]` (10 R53). -/
def levelOf (s : State) (p : Port) (n : BitVec 4) : Bool := (s.gpio.get p).level.getLsbD n.toNat

/-- Whether the change of line n's level from PREV[n] to `x` is an edge its trigger bits select (43 R196). -/
def edgeHit (e : ExtiRegs) (n : BitVec 4) (x : Bool) : Bool :=
  (!e.prev.getLsbD n.toNat && x && e.rtsr.getLsbD n.toNat) ||
    (e.prev.getLsbD n.toNat && !x && e.ftsr.getLsbD n.toNat)

/-- The edge detector's step for line n whose selected pin is at level `x` (43 R196): an edge that the trigger bits select
sets PR[n] if `record`; PREV[n] follows the level. -/
def detect (e : ExtiRegs) (n : BitVec 4) (x record : Bool) : ExtiRegs :=
  { e with
    pr := setBit e.pr n.toNat (e.pr.getLsbD n.toNat || (edgeHit e n x && record))
    prev := setBit e.prev n.toNat x }

/-- The detector's step for line n after a write of its routing slot, `old` being the state before the write (43 R196): if the
selection of the line has changed, an edge the new pin's level makes is recorded or not, a free bit (log 21). A line that
observes no pin sees no edge. -/
def detectReroute (old s : State) (n : BitVec 4) : State :=
  match selectedPort s n with
  | none => s
  | some p =>
    if selectedPort old n = some p then s
    else
      { s with
        exti := detect s.exti n (levelOf s p n) (Config.drawBit s.draws)
        draws := s.draws + 1 }

/-- The four lines of routing slot k. -/
def slotPins (k : Fin 4) : List (BitVec 4) :=
  match k with
  | 0 => [0, 1, 2, 3]
  | 1 => [4, 5, 6, 7]
  | 2 => [8, 9, 10, 11]
  | 3 => [12, 13, 14, 15]

/-! ## The overrun flag -/

/-- What a read of SR leaves (10 R35): if OVRARM was set, the explicit clear sequence clears OVR and an incidental one clears
it or not, the bit `keep` being free; every read of SR clears OVRARM. -/
def afterSrRead (r : SpiRegs) (explicit keep : Bool) : SpiRegs :=
  { r with
    ovr := if r.ovrArm then r.ovr && (!explicit && keep) else r.ovr
    ovrArm := false }

end Sys2Proof.Machine
end

