-- ==== Sys2Proof/Machine/Ops.lean ====
section
/-! DEFINITION. The named operations over memory, registers, sequencers and contexts (00 R8), and taking an interrupt and
returning from it (60 R248 to R250). -/

namespace Sys2Proof.Machine

/-- What a micro-step answers. -/
abbrev Out := Host.Outcome State Fault Refusal

/-! ## Buffer memory -/

/-- The byte stored at an address, if some agent has written it. -/
def Memory.read (m : Memory) (a : Nat) : Option Byte :=
  match m with
  | [] => none
  | c :: rest => if a = c.1 then some c.2 else Memory.read rest a

/-- Store a byte, keeping the addresses strictly rising. -/
def Memory.write (m : Memory) (a : Nat) (v : Byte) : Memory :=
  match m with
  | [] => [(a, v)]
  | c :: rest =>
    if a < c.1 then (a, v) :: c :: rest
    else if a = c.1 then (a, v) :: rest
    else c :: Memory.write rest a v

/-- The canonical form: addresses strictly rising and inside the 32-bit space. An unlisted address reads as no value, so no
entry equals what an unlisted address reads as. -/
abbrev Memory.wf (m : Memory) : Prop :=
  List.Pairwise (· < ·) (m.map Prod.fst) ∧ ∀ c ∈ m, c.1 < 2 ^ 32

/-- Whether address `a` lies in the launch memory (20 R71). -/
def inLaunch (s : State) (a : Word) : Bool :=
  s.params.launch.any fun r => decide (r.1 ≤ a.toNat) && decide (a.toNat < r.1 + r.2)

/-- The byte of buffer memory at `a`: the stored one, or the free content of a byte nobody wrote (log 9). -/
def byteAt (s : State) (a : Word) : Byte :=
  (s.mem.read a.toNat).getD (Config.unwrittenByte a.toNat)

/-- `MemRead(a, 1)` (00 R8). An access outside the launch memory has no step: the agent is stuck where it is, and the other
agents go on (20 R71, log 7). -/
def loadByte (a : Word) (s : State) (k : Byte → Out) : Out :=
  if inLaunch s a then k (byteAt s a) else .next s

/-- The state with byte `v` stored at `a`. -/
def putByte (a : Word) (v : Byte) (s : State) : State :=
  { s with mem := s.mem.write a.toNat v }

/-- `MemWrite(a, 1, v)` (00 R8). Outside the launch memory the agent is stuck, as for a load (20 R71, log 7). -/
def storeByte (a : Word) (v : Byte) (s : State) (k : State → Out) : Out :=
  if inLaunch s a then k (putByte a v s) else .next s

/-! ## Units -/

/-- Change the registers of one SPI instance. -/
def updSpi (i : SpiId) (f : SpiRegs → SpiRegs) (s : State) : State :=
  { s with spi := s.spi.set i (f (s.spi.get i)) }

/-- Change the registers of one I2C instance. -/
def updI2c (u : I2cId) (f : I2cRegs → I2cRegs) (s : State) : State :=
  { s with i2c := s.i2c.set u (f (s.i2c.get u)) }

/-- Change the registers of one GPIO port. -/
def updGpio (p : Port) (f : GpioRegs → GpioRegs) (s : State) : State :=
  { s with gpio := s.gpio.set p (f (s.gpio.get p)) }

/-- The transfer-state fields of a direction of a handle. -/
def Handle.dir (h : Handle) (d : Dir) : Xfer :=
  match d with
  | .tx => h.tx
  | .rx => h.rx

/-- Replace the transfer-state fields of a direction of a handle. -/
def Handle.setDir (h : Handle) (d : Dir) (x : Xfer) : Handle :=
  match d with
  | .tx => { h with tx := x }
  | .rx => { h with rx := x }

/-- `H[s]`, direction d (10 R21). -/
def xfer (s : State) (i : SpiId) (d : Dir) : Xfer := (s.handles.get i).dir d

/-- Change the transfer-state fields of direction d of `H[s]`. -/
def updXfer (i : SpiId) (d : Dir) (f : Xfer → Xfer) (s : State) : State :=
  { s with handles := s.handles.set i ((s.handles.get i).setDir d (f (xfer s i d))) }

/-! ## The register bus -/

/-- IRQ 4k + j, whose priority is lane j of IPR[k] (20 R82). -/
def iprIrq (k : Fin 64) (j : Fin 4) : Irq :=
  ⟨4 * k.val + j.val, by have := k.isLt; have := j.isLt; omega⟩

/-- The implemented bits of a priority lane, the top `PRIO_BITS` of its 8 (20 R82). -/
def laneMask (P : Params) : BitVec 8 := BitVec.allOnes 8 <<< (8 - P.prioBits)

/-- The lane that holds priority `p`: `p` in its implemented bits (20 R82). -/
def laneOf (P : Params) (p : BitVec 8) : BitVec 8 := p <<< (8 - P.prioBits)

/-- What an access of a lane sees: its implemented bits; the others, and the lane of no IRQ, read 0 (20 R82, R85). -/
def laneVal (P : Params) (r : NvicRegs) (q : Irq) : BitVec 8 :=
  if hasIrq P q then r.lane.get q &&& laneMask P else 0

/-- `PRIO[q]` (10 R51): the number in the implemented bits of the lane (20 R82). -/
def prioOf (s : State) (q : Irq) : BitVec 8 := s.nvic.lane.get q >>> (8 - s.params.prioBits)

/-- A write of the lane of IRQ q; the lane of no IRQ ignores it (20 R85). -/
def setLane (P : Params) (q : Irq) (x : BitVec 8) (r : NvicRegs) : NvicRegs :=
  if hasIrq P q then { r with lane := r.lane.set q.val (x &&& laneMask P) q.isLt } else r

/-- The priorities an IPR register holds, lane j in bits [8j+7 : 8j] (20 R82). -/
def iprWord (P : Params) (r : NvicRegs) (k : Fin 64) : Word :=
  (laneVal P r (iprIrq k 0)).setWidth 32 ||| ((laneVal P r (iprIrq k 1)).setWidth 32 <<< 8) |||
    ((laneVal P r (iprIrq k 2)).setWidth 32 <<< 16) ||| ((laneVal P r (iprIrq k 3)).setWidth 32 <<< 24)

/-- A write of an IPR register: each lane its implemented bits (20 R82). -/
def writeIpr (P : Params) (r : NvicRegs) (k : Fin 64) (v : Word) : NvicRegs :=
  setLane P (iprIrq k 3) (v.extractLsb' 24 8) (setLane P (iprIrq k 2) (v.extractLsb' 16 8)
    (setLane P (iprIrq k 1) (v.extractLsb' 8 8) (setLane P (iprIrq k 0) (v.extractLsb' 0 8) r)))

/-- The enable bits of IRQs 32k .. 32k+31; a position that is no IRQ reads 0 (20 R82, R85; log 13). -/
def enableWord (P : Params) (r : NvicRegs) (k : Fin 8) : Word :=
  ((r.en &&& irqsBelow P.nIrq) >>> (32 * k.val)).setWidth 32

/-- The bits of a word at the positions of IRQs 32k .. 32k+31; a position that is no IRQ is ignored (20 R82, R85). -/
def enableMask (P : Params) (k : Fin 8) (v : Word) : BitVec 256 :=
  (v.setWidth 256 <<< (32 * k.val)) &&& irqsBelow P.nIrq

/-- The value a read of a register returns (10 R30 to R55, 20 R82, R85). -/
def regVal (r : Reg) (s : State) : Word :=
  match r with
  | .spi i .cr1 => (s.spi.get i).cr1.setWidth 32
  | .spi i .cr2 => (s.spi.get i).cr2.setWidth 32
  | .spi i .sr => srWord (s.spi.get i)
  | .spi i .dr => (s.spi.get i).rxd.setWidth 32
  | .exti .imr => s.exti.imr
  | .exti .emr => s.exti.emr
  | .exti .rtsr => s.exti.rtsr
  | .exti .ftsr => s.exti.ftsr
  | .exti .swier => s.exti.swier
  | .exti .pr => s.exti.pr.setWidth 32
  | .afio .evcr => s.afio.evcr
  | .afio .mapr => s.afio.mapr
  | .afio (.exticr k) => (routeSlot s.afio k).setWidth 32
  | .gpio p .crl => (s.gpio.get p).crl
  | .gpio p .crh => (s.gpio.get p).crh
  | .gpio p .idr => (s.gpio.get p).level.setWidth 32
  | .gpio p .odr => (s.gpio.get p).odr.setWidth 32
  | .gpio p .bsrr => (s.gpio.get p).bsrr
  | .gpio p .brr => (s.gpio.get p).brr
  | .gpio p .lckr => (s.gpio.get p).lckr
  | .i2c u .cr1 => (s.i2c.get u).cr1
  | .i2c u .cr2 => (s.i2c.get u).cr2
  | .i2c u .oar1 => (s.i2c.get u).oar1
  | .i2c u .oar2 => (s.i2c.get u).oar2
  | .i2c _ .dr => (Config.i2cDataRead s.draws).setWidth 32
  | .i2c u .sr1 => sr1Word (s.i2c.get u)
  | .i2c u .sr2 => (s.i2c.get u).sr2
  | .i2c u .ccr => (s.i2c.get u).ccr
  | .i2c u .trise => (s.i2c.get u).trise
  | .rcc x => rccWord s x
  | .nvic (.iser k) => enableWord s.params s.nvic k
  | .nvic (.icer k) => enableWord s.params s.nvic k
  | .nvic (.ipr k) => iprWord s.params s.nvic k

/-- A read of `SPI[s].SR` (10 R35); `explicit` for the second read of the overrun service's clear sequence. -/
def readSr (i : SpiId) (explicit : Bool) (s : State) : State :=
  let s1 := updSpi i (fun r => afterSrRead r explicit (Config.drawBit s.draws)) s
  { s1 with draws := s.draws + 1 }

/-- The state after a read of a register: the reads with side effects of 20 R75. -/
def afterRead (r : Reg) (s : State) : State :=
  match r with
  | .spi i .sr => readSr i false s
  | .spi i .dr => updSpi i (fun x => { x with rxne := false, ovrArm := true }) s
  | .i2c u .sr1 => updI2c u (fun x => { x with addrArm := x.addr }) s
  | .i2c u .sr2 => updI2c u (fun x => { x with addr := x.addr && !x.addrArm, addrArm := false }) s
  | .i2c _ .dr => { s with draws := s.draws + 1 }
  | _ => s

/-- A write to an SPI register disarms the overrun clear sequence (10 R35). -/
def writeSpi (i : SpiId) (f : SpiRegs → SpiRegs) (s : State) : State :=
  updSpi i (fun r => { f r with ovrArm := false }) s

/-- A write of `SPI[s].DR` (10 R33): the transmit latch, the output history, TXE cleared. -/
def writeDr (i : SpiId) (v : Half) (s : State) : State :=
  let s1 := writeSpi i (fun r => { r with txd := v, txe := false }) s
  { s1 with spiOut := s.spiOut ++ [(i, v)] }

/-- The requests a write of `I2C[u].CR1` makes (10 R55, R56); the order of two requests made at once is free (log 19). -/
def i2cRequests (startFirst start stop : Bool) : List I2cOut :=
  match start, stop with
  | false, false => []
  | true, false => [.start]
  | false, true => [.stop]
  | true, true => [if startFirst then .start else .stop, if startFirst then .stop else .start]

/-- A write of `I2C[u].CR1` (10 R55): START and STOP are requests and read back as 0; the other bits are storage. -/
def writeI2cCr1 (u : I2cId) (v : Word) (s : State) : State :=
  let s1 := updI2c u (fun r => { r with cr1 := setBit (setBit v bitStart false) bitStop false }) s
  let reqs := i2cRequests (Config.drawBit s.draws) (v.getLsbD bitStart) (v.getLsbD bitStop)
  { s1 with i2cOut := s.i2cOut ++ reqs.map (u, ·), draws := s.draws + 1 }

/-- A write of `I2C[u].DR` (10 R55): 8 significant bits, appended to the output history. -/
def writeI2cDr (u : I2cId) (v : Byte) (s : State) : State :=
  let s1 := updI2c u (fun r => { r with dr := v }) s
  { s1 with i2cOut := s.i2cOut ++ [(u, .byte v)] }

/-- A write of `AFIO.EXTICR[k]` (10 R49): the four lines of the slot may now observe other pins (43 R192, R196). -/
def writeRoute (k : Fin 4) (v : BitVec 16) (s : State) : State :=
  (slotPins k).foldl (detectReroute s) { s with afio := setRouteSlot s.afio k v }

/-- The state after a write of a register (10 R30 to R55, 20 R75, R82, R85). Environment-owned registers are never written
(45 R229); the arms for them change nothing. -/
def afterWrite (r : Reg) (v : Word) (s : State) : State :=
  match r with
  | .spi i .cr1 => writeSpi i (fun x => { x with cr1 := v.setWidth 16 }) s
  | .spi i .cr2 => writeSpi i (fun x => { x with cr2 := v.setWidth 16 }) s
  | .spi _ .sr => s
  | .spi i .dr => writeDr i (v.setWidth 16) s
  | .exti .imr => { s with exti := { s.exti with imr := v } }
  | .exti .emr => { s with exti := { s.exti with emr := v } }
  | .exti .rtsr => { s with exti := { s.exti with rtsr := v } }
  | .exti .ftsr => { s with exti := { s.exti with ftsr := v } }
  | .exti .swier => { s with exti := { s.exti with swier := v } }
  | .exti .pr => { s with exti := { s.exti with pr := s.exti.pr &&& ~~~(v.setWidth 16) } }
  | .afio .evcr => { s with afio := { s.afio with evcr := v } }
  | .afio .mapr => { s with afio := { s.afio with mapr := v } }
  | .afio (.exticr k) => writeRoute k (v.setWidth 16) s
  | .gpio p .crl => updGpio p (fun x => { x with crl := v }) s
  | .gpio p .crh => updGpio p (fun x => { x with crh := v }) s
  | .gpio _ .idr => s
  | .gpio p .odr => updGpio p (fun x => { x with odr := v.setWidth 16 }) s
  | .gpio p .bsrr => updGpio p (fun x => { x with bsrr := v }) s
  | .gpio p .brr => updGpio p (fun x => { x with brr := v }) s
  | .gpio p .lckr => updGpio p (fun x => { x with lckr := v }) s
  | .i2c u .cr1 => writeI2cCr1 u v s
  | .i2c u .cr2 => updI2c u (fun x => { x with cr2 := v }) s
  | .i2c u .oar1 => updI2c u (fun x => { x with oar1 := v }) s
  | .i2c u .oar2 => updI2c u (fun x => { x with oar2 := v }) s
  | .i2c u .dr => writeI2cDr u (v.setWidth 8) s
  | .i2c _ .sr1 => s
  | .i2c _ .sr2 => s
  | .i2c u .ccr => updI2c u (fun x => { x with ccr := v }) s
  | .i2c u .trise => updI2c u (fun x => { x with trise := v }) s
  | .rcc .apb2enr => { s with rcc := { s.rcc with apb2enr := v } }
  | .rcc .apb1enr => { s with rcc := { s.rcc with apb1enr := v } }
  | .nvic (.iser k) => { s with nvic := { s.nvic with en := s.nvic.en ||| enableMask s.params k v } }
  | .nvic (.icer k) => { s with nvic := { s.nvic with en := s.nvic.en &&& ~~~(enableMask s.params k v) } }
  | .nvic (.ipr k) => { s with nvic := writeIpr s.params s.nvic k v }

/-- `RegRead` (00 R8, 20 R76), refused while the peripheral's clock is off (20 R87). -/
def readReg (r : Reg) (s : State) (k : Word → State → Out) : Out :=
  if accessible s r then k (regVal r s) (afterRead r s) else .refused .clockOff

/-- `RegWrite` (00 R8, 20 R76), refused while the peripheral's clock is off (20 R87). -/
def writeReg (r : Reg) (v : Word) (s : State) (k : State → Out) : Out :=
  if accessible s r then k (afterWrite r v s) else .refused .clockOff

/-! ## The sequencer -/

/-- Change the running context's innermost sequencer. -/
def updAct (f : Act → Act) (s : State) : State :=
  { s with ctx := { s.ctx with act := f s.ctx.act } }

/-- The index of the next micro-step of the command in progress (10 R27). -/
def phaseOf (s : State) : Nat := s.ctx.act.phase

/-- The locals of the command in progress (10 R27). -/
def locals (s : State) : Locals := s.ctx.act.loc

/-- `phase <- p` (00 R8). -/
def goto (p : Nat) (s : State) : State := updAct (fun a => { a with phase := p }) s

/-- Change the locals of the command in progress. -/
def updLocals (f : Locals → Locals) (s : State) : State := updAct (fun a => { a with loc := f a.loc }) s

/-- The last micro-step of a command sets `op` to none (10 R27); phase and locals belong to a command and are cleared with
it (log 27). -/
def finish (s : State) : State :=
  updAct (fun a => { a with op := none, phase := 0, loc := Locals.zero }) s

/-- `RET <- v` (30 R101). -/
def setRet (v : Word) (s : State) : State := { s with ctx := { s.ctx with ret := v } }

/-- A write of CMD starts the operation in the context's sequencer (30 R101). -/
def startCommand (w : Word) (s : State) : State :=
  { s with ctx := { s.ctx with
      cmd := w
      act := { s.ctx.act with op := some w, phase := 0, loc := Locals.zero } } }

/-- The first half of `FieldSet` (20 R77): read the register; with RMW_ATOMIC write it in the same micro-step and go on with
`k`, otherwise keep the value read and go to phase `p`, where `rmwWrite` stands. -/
def rmwRead (r : Reg) (f : Word → Word) (p : Nat) (k : State → State) (s : State) : Out :=
  readReg r s fun v s1 =>
    if s1.params.rmwAtomic then .next (k (afterWrite r (f v) s1))
    else .next (goto p (updLocals (fun l => { l with v := v }) s1))

/-- The second half of `FieldSet` (20 R77): write the register with the field of the value read replaced. -/
def rmwWrite (r : Reg) (f : Word → Word) (k : State → State) (s : State) : Out :=
  writeReg r (f (locals s).v) s fun s1 => .next (k s1)

/-- One evaluation of `wait_until` (00 R8, 70 R296): a fresh read of the register; the agent stays at its phase while bit
`bit` is 0 and goes to phase `p` once it is 1. POLL_TIMEOUT has the value `none` alone, and no bound on the wait (60 R257). -/
def waitUntil (r : Reg) (bit : Nat) (p : Nat) (s : State) : Out :=
  match s.params.pollTimeout with
  | .none => readReg r s fun v s1 => .next (if v.getLsbD bit then goto p s1 else s1)

/-! ## The callback port -/

/-- The event tag on the callback port (30 R108): 1 = TX_CMPLT, 2 = RX_CMPLT, 3 = OVR_ERR. -/
def Event.code (ev : Event) : Word :=
  match ev with
  | .txCmplt => 1
  | .rxCmplt => 2
  | .ovrErr => 3

/-- The code of a direction's state (10 R25, 30 R108): 0 = Idle, 1 = Busy. -/
def stateCode (x : XferState) : Word :=
  match x with
  | .idle => 0
  | .busy => 1

/-- The callback port's history as the outside reads it (00 R11, R12): the handle's number and the event tag of every
invocation, oldest first. -/
def callbackPort (s : State) : List (Nat × Word) := s.cbOut.map fun e => (e.1.number, e.2.code)

/-- The value of a piece of state that a callback reads (42 R171). -/
def visibleVal (x : Visible) (s : State) : Word :=
  match x with
  | .byte a => (byteAt s a).setWidth 32
  | .buf i d => (xfer s i d).buf
  | .len i d => (xfer s i d).len
  | .state i d => stateCode (xfer s i d).st
  | .emitted i ev => BitVec.ofNat 32 (s.cbOut.count (i, ev))
  | .ret => s.ctx.ret

/-- Whether a row of a callback table applies to event `ev` of handle `i` in a state. -/
def CallbackRow.applies (r : CallbackRow) (i : SpiId) (ev : Event) (s : State) : Bool :=
  r.inst == i && r.ev == ev && r.sees.all fun x => visibleVal x.1 s == x.2

/-- `callback(s, ev)` in a state (42 R170, R171, D15): the operations the application's callback issues. -/
def callbackOps (i : SpiId) (ev : Event) (s : State) : List AppOp :=
  match s.params.callback with
  | .table rows => ((rows.find? fun r => r.applies i ev s).map (·.ops)).getD []
  | .application n => Config.application n i ev s

/-- The record of an emitted event (42 R170): `(s, ev)` is appended to the callback history; the sequencer will go on at `p`. -/
def recordEvent (i : SpiId) (ev : Event) (p : Nat) (s : State) : State :=
  goto p { s with cbOut := s.cbOut ++ [(i, ev)] }

/-- Run a callback's operations in the current context while its sequencer waits (42 R170); an empty list is a no-op. -/
def runCallback (ops : List AppOp) (s : State) : State :=
  match ops with
  | [] => s
  | op :: rest =>
    { s with ctx := { s.ctx with act := Act.start (op :: rest), below := s.ctx.act :: s.ctx.below } }

/-- `emit CB(s, ev)` (42 R170): append to the callback history and run `callback(s, ev)` in the current context to its end,
before the sequencer goes on at phase `p`. -/
def emitCallback (i : SpiId) (ev : Event) (p : Nat) (s : State) : State :=
  runCallback (callbackOps i ev (recordEvent i ev p s)) (recordEvent i ev p s)

/-! ## The context -/

/-- The micro-step of a context with no command in progress: its next application operation (30 R101, 20 R90); after a
callback's last operation the waiting dispatch goes on (42 R170). A context with nothing to do stays as it is. -/
def issue (s : State) : Out :=
  match s.ctx.act.todo with
  | .arg0 v :: rest =>
    .next (updAct (fun a => { a with todo := rest }) { s with ctx := { s.ctx with arg0 := v } })
  | .arg1 v :: rest =>
    .next (updAct (fun a => { a with todo := rest }) { s with ctx := { s.ctx with arg1 := v } })
  | .cmd w :: rest => .next (startCommand w (updAct (fun a => { a with todo := rest }) s))
  | .store a v :: rest => storeByte a v s fun s1 => .next (updAct (fun x => { x with todo := rest }) s1)
  | [] =>
    match s.ctx.below with
    | a :: rest => .next { s with ctx := { s.ctx with act := a, below := rest } }
    | [] => .next s

/-! ## Taking an interrupt and returning from it -/

/-- The entry condition of IRQ q (60 R248): an IRQ below `N_IRQ`, pending, enabled, not active, and of strictly higher priority than
every active IRQ. -/
def candidate (s : State) (q : Irq) : Bool :=
  hasIrq s.params q && s.nvic.pend.getLsbD q.val && s.nvic.en.getLsbD q.val && !(active s).contains q &&
    (active s).all fun a => higher s.params (prioOf s q) (prioOf s a)

/-- The IRQs that satisfy the entry condition. -/
def candidates (s : State) : List Irq := (List.finRange 256).filter (candidate s)

/-- The arbiter may enter q: q satisfies the entry condition and no other candidate is of strictly higher priority
(60 R248, R253). -/
def canEnter (s : State) (q : Irq) : Bool :=
  candidate s q && (candidates s).all fun r => !higher s.params (prioOf s r) (prioOf s q)

/-- `handlerBody(q)` (60 R252); an IRQ the table does not list has an empty body. -/
def handlerBody (s : State) (q : Irq) : List AppOp :=
  ((s.params.handlerBody.find? fun e => e.1 == q.val).map (·.2)).getD []

/-- `enter q` (60 R249): PEND[q] is cleared, q is pushed on ACTIVE, the pre-empted context is frozen as it stands, and a new
context runs the handler's body. Nothing else changes. -/
def enterIrq (q : Irq) (s : State) : State :=
  { s with
    nvic := { s.nvic with pend := s.nvic.pend &&& ~~~(irqBit q true) }
    frozen := (q, s.ctx) :: s.frozen
    ctx := Context.start (handlerBody s q) }

/-- The running context has issued its last command and that command has finished. -/
def finished (s : State) : Bool :=
  s.ctx.act.todo.isEmpty && s.ctx.act.op.isNone && s.ctx.below.isEmpty

/-- `return` (60 R250): the innermost handler has finished, ACTIVE is popped, and the context below resumes where it was
frozen. Without an active handler, or before it has finished, there is no such step and the state stays as it is. -/
def leaveIrq (s : State) : State :=
  match s.frozen with
  | e :: rest => if finished s then { s with ctx := e.2, frozen := rest } else s
  | [] => s

end Sys2Proof.Machine
end

