-- ==== Sys2Proof/Machine/Operands.lean ====
section
/-! DEFINITION. The operand computations: frame width (10 R34), admission of a buffer (20 R74, 41 R153), frame moves
(20 R91), the static configuration of an SPI instance (40 R132), the I2C address byte (44 R212), a pin's configuration field
(45 R221, 20 R84), and resolving a unit operand (30 R107). -/

namespace Sys2Proof.Machine

/-! ## Unit operands -/

/-- Go on with the SPI instance an operand names; a value that names none is illegal (30 R107, R112). -/
def withSpi (unit : BitVec 4) (k : SpiId → Out) : Out :=
  match spiOf unit with
  | some i => k i
  | none => .refused .illegalCommand

/-- Go on with the I2C instance an operand names; a value that names none is illegal (30 R107, R112). -/
def withI2c (s : State) (unit : BitVec 4) (k : I2cId → Out) : Out :=
  match i2cOf s.params unit with
  | some u => k u
  | none => .refused .illegalCommand

/-- Go on with the port an operand names; a code outside PORTS is illegal (30 R107, R112). -/
def withPort (s : State) (code : BitVec 4) (k : Port → Out) : Out :=
  match portOf s.params code with
  | some p => k p
  | none => .refused .illegalCommand

/-- Go on with the IRQ an operand names; a number not below N_IRQ is illegal (30 R109, R112). -/
def withIrq (s : State) (q : BitVec 8) (k : Irq → Out) : Out :=
  match irqOf s.params q with
  | some x => k x
  | none => .refused .illegalCommand

/-- Go on with the priority an operand holds; one that does not fit PRIO_BITS is illegal (30 R109, R112). -/
def withPriority (s : State) (prio : BitVec 8) (k : BitVec 8 → Out) : Out :=
  match priorityOf s.params prio with
  | some p => k p
  | none => .refused .illegalCommand

/-- Go on with the peripheral an operand names; an identifier of none is illegal (30 R111, R112). -/
def withPeripheral (s : State) (id : BitVec 8) (k : Peripheral → Out) : Out :=
  match peripheralOf s.params id with
  | some p => k p
  | none => .refused .illegalCommand

/-! ## Frames -/

/-- `W(s) = 1 + SPI[s].CR1.DFF` of a value read from CR1 (10 R34). -/
def frameWidth (cr1 : Word) : Word := if cr1.getLsbD bitDff then 2 else 1

/-- `LoadFrame` of the first byte: zero-extended (20 R91). -/
def frameLow (x : Byte) : Word := x.setWidth 32

/-- The byte at the higher address is bits [15:8] of a 16-bit frame (20 R72). -/
def frameHigh (v : Word) (x : Byte) : Word := v ||| (x.setWidth 32 <<< 8)

/-- `d[7:0]`, the byte stored at the cursor (20 R91). -/
def lowByte (d : Word) : Byte := d.extractLsb' 0 8

/-- `d[15:8]`, the byte stored at cursor + 1 (20 R72). -/
def highByte (d : Word) : Byte := d.extractLsb' 8 8

/-! ## Admission of a buffer -/

/-- Whether [lo, hi) is covered by the ranges; each range is used at most once, so their number is enough fuel. -/
def covered (ranges : List (Nat × Nat)) (fuel lo hi : Nat) : Bool :=
  match fuel with
  | 0 => decide (hi ≤ lo)
  | fuel + 1 =>
    decide (hi ≤ lo) ||
      match ranges.find? fun r => decide (r.1 ≤ lo) && decide (lo < r.1 + r.2) with
      | some r => covered ranges fuel (r.1 + r.2) hi
      | none => false

/-- Whether [lo, hi) holds a byte of a register (20 R70, log 8). -/
def overlapsRegisters (P : Params) (lo hi : Nat) : Bool :=
  (allRegs P).any fun r => decide (regAddr P r < hi) && decide (lo < regAddr P r + 4)

/-- The address conditions of 20 R74 on a buffer at `b` of `n` bytes: no wrap past 2^32, not NULL, inside the launch memory and
outside register space. Length 0 meets them all. -/
def admittedBuffer (s : State) (b n : Word) : Bool :=
  n == 0 ||
    (b != 0 && decide (b.toNat + n.toNat ≤ 2 ^ 32) &&
      covered s.params.launch s.params.launch.length b.toNat (b.toNat + n.toNat) &&
      !overlapsRegisters s.params b.toNat (b.toNat + n.toNat))

/-- `len mod W = 0` (41 R153, 40 R133). -/
def wholeFrames (n w : Word) : Bool := n.toNat % w.toNat == 0

/-! ## Static configuration -/

/-- The default mapping of a configuration to CR1 (40 R132). -/
def defaultCfgCode (cfg : BitVec 10) : Word :=
  bitAt 0 (cfg.getLsbD 0) ||| bitAt 1 (cfg.getLsbD 1) ||| bitAt 2 (cfg.getLsbD 2) |||
    ((cfg.extractLsb' 3 3).setWidth 32 <<< 3) ||| bitAt 9 (cfg.getLsbD 9) |||
    bitAt 10 (cfg.extractLsb' 6 2 == 2#2) ||| bitAt bitDff (cfg.getLsbD 8) |||
    bitAt 15 (cfg.extractLsb' 6 2 == 1#2)

/-- `spiCfgEncode(cfg)` (00 R6, 40 R132): the default mapping, unless the parameter gives the configuration another value. -/
def spiCfgEncode (P : Params) (cfg : BitVec 10) : Word :=
  match P.cfgCode.find? fun e => e.1 == cfg with
  | some e => e.2
  | none => defaultCfgCode cfg

/-- `AddrByte(a)`: the 7-bit address shifted left with the write bit cleared (44 R212). -/
def addrByte (a : BitVec 7) : Word := a.setWidth 32 <<< 1

/-! ## Pin configuration -/

/-- The MODE bits of a pin's field (20 R84): 00 input; the speed code of an output; one of the three output speeds for an
alternate function, whose speed the source does not mention (91 N15, logs 15 and 31). -/
def modeBits (mode : BitVec 3) (draw : Nat) : BitVec 2 :=
  if mode = 4#3 then BitVec.ofNat 2 (1 + (Config.alternateSpeed draw).val) else mode.setWidth 2

/-- The CNF bits of a pin's field (20 R84): input analog 00, floating 01, pulled 10; output push-pull 00, open-drain 01;
alternate function push-pull 10, open-drain 11. -/
def cnfBits (mode ecfg : BitVec 3) : BitVec 2 :=
  if mode = 0#3 then (if ecfg = 4#3 then 0 else if ecfg = 2#3 then 1 else 2)
  else if mode = 4#3 then (if ecfg = 0#3 then 2 else 3)
  else (if ecfg = 0#3 then 0 else 1)

/-- A pin's 4-bit field of CRL or CRH: CNF above MODE (20 R84). -/
def pinField4 (mode ecfg : BitVec 3) (draw : Nat) : BitVec 4 := cnfBits mode ecfg ++ modeBits mode draw

/-- The register that holds a pin's field: CRL for pins 0..7, CRH for pins 8..15 (20 R84). -/
def pinReg (n : BitVec 4) : GpioReg := if n.toNat < 8 then .crl else .crh

/-- The position of a pin's field: bit 4 (n mod 8) (20 R84). -/
def pinShift (n : BitVec 4) : Nat := n.toNat % 8 * 4

/-- The 4-bit configuration field of pin n of a port. -/
def pinConfigField (r : GpioRegs) (n : BitVec 4) : BitVec 4 :=
  (if n.toNat < 8 then r.crl else r.crh).extractLsb' (pinShift n) 4

/-- `GPIO[p].MODE[n]` as 45 R221 numbers it: 0 input, 1 to 3 output at a speed, 4 alternate function (10 R53, 20 R84). -/
def pinMode (r : GpioRegs) (n : BitVec 4) : BitVec 3 :=
  let x := pinConfigField r n
  if x.extractLsb' 0 2 = 0#2 then 0
  else if x.getLsbD 3 then 4
  else (x.extractLsb' 0 2).setWidth 3

/-- `GPIO[p].ECFG[n]` as 30 R110 numbers it; none for the input encoding 11, which 20 R84 does not list. -/
def pinEcfg (r : GpioRegs) (n : BitVec 4) : Option (BitVec 3) :=
  let x := pinConfigField r n
  if x.extractLsb' 0 2 = 0#2 then
    (if x.extractLsb' 2 2 = 0#2 then some 4
      else if x.extractLsb' 2 2 = 1#2 then some 2
      else if x.extractLsb' 2 2 = 2#2 then some 3
      else none)
  else if x.getLsbD 2 then some 1 else some 0

end Sys2Proof.Machine
end

