-- ==== Sys2Proof/Machine/Exti.lean ====
section
/-! DEFINITION. EXTI_EDGE, EXTI_ROUTE, EXTI_ARM, EXTI_ACK, IRQ_ENABLE and IRQ_PRIO (43 R181 to R186): one micro-step of
each. -/

namespace Sys2Proof.Machine

/-- The trigger register of one half of EXTI_EDGE: RTSR or, if `falling`, FTSR (43 R181). -/
def triggerReg (falling : Bool) : ExtiReg := if falling then .ftsr else .rtsr

/-- The value of one half of EXTI_EDGE for pin n (43 R181): bit n is 1 if that edge is requested and 0 otherwise. -/
def triggerValue (n : BitVec 4) (edge : BitVec 2) (falling : Bool) (w : Word) : Word :=
  setBit w n.toNat (edge.getLsbD (if falling then 1 else 0))

/-- EXTI_EDGE n, edge (43 R181). Phases 0 and 1 are the first FieldSet and phases 2 and 3 the second. Either line may come
first: the scheduler's choice `swap` at phase 0 says which and t1 keeps it (log 20). -/
def execExtiEdge (n : BitVec 4) (edge : BitVec 2) (s : State) : Out :=
  if edgeLegal edge then
    match phaseOf s with
    | 0 => rmwRead (.exti (triggerReg s.swap)) (triggerValue n edge s.swap) 1 (goto 2)
        (updLocals (fun l => { l with t1 := s.swap }) s)
    | 1 => rmwWrite (.exti (triggerReg (locals s).t1)) (triggerValue n edge (locals s).t1) (goto 2) s
    | 2 => rmwRead (.exti (triggerReg !(locals s).t1)) (triggerValue n edge !(locals s).t1) 3 finish s
    | _ => rmwWrite (.exti (triggerReg !(locals s).t1)) (triggerValue n edge !(locals s).t1) finish s
  else .refused .illegalCommand

/-- EXTI_ROUTE port, n (43 R182). Phases 0 and 1 set CLK[AFIO] and phases 2 and 3 replace the sub-field of the slot. -/
def execExtiRoute (port n : BitVec 4) (s : State) : Out :=
  withPort s port fun p =>
    let clock (w : Word) : Word := setBit w (clkBit s.params .afio) true
    let route (w : Word) : Word := setField w (shiftOf n) p
    match phaseOf s with
    | 0 => rmwRead (.rcc (clkReg s.params .afio)) clock 1 (goto 2) s
    | 1 => rmwWrite (.rcc (clkReg s.params .afio)) clock (goto 2) s
    | 2 => rmwRead (.afio (.exticr (slotOf n))) route 3 finish s
    | _ => rmwWrite (.afio (.exticr (slotOf n))) route finish s

/-- EXTI_ARM n (43 R183). -/
def execExtiArm (n : BitVec 4) (s : State) : Out :=
  let arm (w : Word) : Word := setBit w n.toNat true
  match phaseOf s with
  | 0 => rmwRead (.exti .imr) arm 1 finish s
  | _ => rmwWrite (.exti .imr) arm finish s

/-- EXTI_ACK n (43 R184). Phase 0 is line 1; phase 1 is line 2, a plain write of `1 << n` if bit n was read as 1. -/
def execExtiAck (n : BitVec 4) (s : State) : Out :=
  match phaseOf s with
  | 0 => readReg (.exti .pr) s fun v s1 => .next (goto 1 (updLocals (fun l => { l with v := v }) s1))
  | _ =>
    if (locals s).v.getLsbD n.toNat then
      writeReg (.exti .pr) (bitAt n.toNat true) s fun s1 => .next (finish s1)
    else .next (finish s)

/-- The ISER and ICER register of IRQ q, q / 32 (20 R82). -/
def iserOf (q : Irq) : Fin 8 := ⟨q.val / 32, by have := q.isLt; omega⟩

/-- IRQ_ENABLE q, en (43 R185): one write of ISER or ICER, register q / 32, bit q mod 32. -/
def execIrqEnable (q : BitVec 8) (en : Bool) (s : State) : Out :=
  withIrq s q fun x =>
    writeReg (.nvic (if en then .iser (iserOf x) else .icer (iserOf x))) (bitAt (x.val % 32) true) s fun s1 => .next (finish s1)

/-- The IPR register of IRQ q, q / 4 (20 R82). -/
def iprOf (q : Irq) : Fin 64 := ⟨q.val / 4, by have := q.isLt; omega⟩

/-- IRQ_PRIO q, p (43 R186): FieldSet of byte lane q mod 4 of IPR[q / 4], whose bits without a priority bit ignore the write. -/
def execIrqPrio (q prio : BitVec 8) (s : State) : Out :=
  withIrq s q fun x =>
    withPriority s prio fun p =>
      let set (w : Word) : Word := setField w (8 * (x.val % 4)) (laneOf s.params p)
      match phaseOf s with
      | 0 => rmwRead (.nvic (.ipr (iprOf x))) set 1 finish s
      | _ => rmwWrite (.nvic (.ipr (iprOf x))) set finish s

end Sys2Proof.Machine
end

