-- ==== Sys2Proof/Machine/Gpio.lean ====
section
/-! DEFINITION. The GPIO commands (45 R221 to R226): one micro-step of each. -/

namespace Sys2Proof.Machine

/-- GPIO_CFG p, n, mode, ecfg (45 R221): one FieldSet of pin n's field in CRL or CRH. The field is fixed at the first
micro-step; the speed bits of an alternate function are free (log 15). -/
def execGpioCfg (port n : BitVec 4) (mode ecfg : BitVec 3) (s : State) : Out :=
  withPort s port fun p =>
    if pinConfigLegal mode ecfg then
      let field (w : Word) : Word := setField w (pinShift n) (pinField4 mode ecfg s.draws)
      match phaseOf s with
      | 0 => rmwRead (.gpio p (pinReg n)) field 1 (fun t => finish { t with draws := s.draws + 1 }) s
      | _ => rmwWrite (.gpio p (pinReg n)) field (fun t => finish { t with draws := s.draws + 1 }) s
    else .refused .illegalCommand

/-- GPIO_RD_PIN p, n -> RET (45 R222). Phase 0 reads IDR, phase 1 writes RET. -/
def execGpioRdPin (port n : BitVec 4) (s : State) : Out :=
  withPort s port fun p =>
    match phaseOf s with
    | 0 => readReg (.gpio p .idr) s fun v s1 => .next (goto 1 (updLocals (fun l => { l with v := v }) s1))
    | _ => .next (finish (setRet (bitAt 0 ((locals s).v.getLsbD n.toNat)) s))

/-- GPIO_RD_PORT p -> RET (45 R223). Phase 0 reads IDR, phase 1 writes RET. -/
def execGpioRdPort (port : BitVec 4) (s : State) : Out :=
  withPort s port fun p =>
    match phaseOf s with
    | 0 => readReg (.gpio p .idr) s fun v s1 => .next (goto 1 (updLocals (fun l => { l with v := v }) s1))
    | _ => .next (finish (setRet (((locals s).v.extractLsb' 0 16).setWidth 32) s))

/-- GPIO_WR_PIN p, n, v (45 R224): FieldSet of one ODR bit. -/
def execGpioWrPin (port n : BitVec 4) (value : Bool) (s : State) : Out :=
  withPort s port fun p =>
    let put (w : Word) : Word := setBit w n.toNat value
    match phaseOf s with
    | 0 => rmwRead (.gpio p .odr) put 1 finish s
    | _ => rmwWrite (.gpio p .odr) put finish s

/-- GPIO_WR_PORT p, v (45 R225): one write of ODR. -/
def execGpioWrPort (port : BitVec 4) (value : BitVec 16) (s : State) : Out :=
  withPort s port fun p => writeReg (.gpio p .odr) (value.setWidth 32) s fun s1 => .next (finish s1)

/-- GPIO_TGL_PIN p, n (45 R226): read ODR and write it with bit n inverted. -/
def execGpioTglPin (port n : BitVec 4) (s : State) : Out :=
  withPort s port fun p =>
    let toggle (w : Word) : Word := w ^^^ bitAt n.toNat true
    match phaseOf s with
    | 0 => rmwRead (.gpio p .odr) toggle 1 finish s
    | _ => rmwWrite (.gpio p .odr) toggle finish s

end Sys2Proof.Machine
end

