-- ==== Sys2Proof/Machine/I2c.lean ====
section
/-! DEFINITION. I2C_MSEND (44 R211): one micro-step. -/

namespace Sys2Proof.Machine

/-- The address conditions of a buffer when its length is not 0 (44 R211, 20 R74). DESIGN CHOICE: they are checked at the command's
first micro-step, before the clock, which the first register access of phase 2 checks (log 40). -/
def admitSend (s : State) (k : Out) : Out :=
  if admittedBuffer s s.ctx.arg0 s.ctx.arg1 then k else .refused .badAddress

/-- One micro-step of I2C_MSEND on instance u (44 R211). Phases 0 and 1 are line 0; 2 and 3 the halves of line 1; 4 line 2; 5
line 3; 6 line 4; 7 and 8 line 5; 9 line 6; 10 line 7; 11 and 12 line 8, the load and the write; 13 line 9; 14 line 10; 15
line 11; 16 and 17 the halves of line 12. -/
def msendStep (u : I2cId) (addr7 : BitVec 7) (s : State) : Out :=
  let start (w : Word) : Word := setBit w bitStart true
  let stop (w : Word) : Word := setBit w bitStop true
  match phaseOf s with
  | 0 => admitSend s (.next (goto 1 (updLocals (fun l => { l with b := s.ctx.arg0 }) s)))
  | 1 => .next (goto 2 (updLocals (fun l => { l with n := s.ctx.arg1 }) s))
  | 2 => rmwRead (.i2c u .cr1) start 3 (goto 4) s
  | 3 => rmwWrite (.i2c u .cr1) start (goto 4) s
  | 4 => waitUntil (.i2c u .sr1) bitSb 5 s
  | 5 => writeReg (.i2c u .dr) (addrByte addr7) s fun s1 => .next (goto 6 s1)
  | 6 => waitUntil (.i2c u .sr1) bitAddr 7 s
  | 7 => readReg (.i2c u .sr1) s fun _ s1 => .next (goto 8 s1)
  | 8 => readReg (.i2c u .sr2) s fun _ s1 => .next (goto 9 s1)
  | 9 => .next (goto (if (locals s).n = 0 then 14 else 10) s)
  | 10 => waitUntil (.i2c u .sr1) bitI2cTxe 11 s
  | 11 => loadByte (locals s).b s fun x => .next (goto 12 (updLocals (fun l => { l with v := frameLow x }) s))
  | 12 => writeReg (.i2c u .dr) (locals s).v s fun s1 => .next (goto 13 s1)
  | 13 => .next (goto 9 (updLocals (fun l => { l with n := l.n - 1, b := l.b + 1 }) s))
  | 14 => waitUntil (.i2c u .sr1) bitI2cTxe 15 s
  | 15 => waitUntil (.i2c u .sr1) bitBtf 16 s
  | 16 => rmwRead (.i2c u .cr1) stop 17 finish s
  | _ => rmwWrite (.i2c u .cr1) stop finish s

/-- I2C_MSEND u, addr7, buf, len (44 R211). -/
def execI2cMsend (unit : BitVec 4) (addr7 : BitVec 7) (s : State) : Out :=
  withI2c s unit fun u => msendStep u addr7 s

end Sys2Proof.Machine
end

