-- ==== Sys2Proof/Machine/SpiBlocking.lean ====
section
/-! DEFINITION. SPI_INIT, SPI_SEND and SPI_RECV (40 R131 to R135): one micro-step of each. -/

namespace Sys2Proof.Machine

/-! ## SPI_INIT -/

/-- SPI_INIT s, cfg (40 R131). Phase 0 is line 1, phase 1 is line 2. -/
def execSpiInit (unit : BitVec 4) (cfg : BitVec 10) (s : State) : Out :=
  withSpi unit fun i =>
    if cfgLegal cfg then
      match phaseOf s with
      | 0 => .next (goto 1 { s with handles := s.handles.set i { s.handles.get i with cfg := cfg } })
      | _ => writeReg (.spi i .cr1) (fromBus s.params (.spi i .cr1) (spiCfgEncode s.params cfg)) s fun s1 => .next (finish s1)
    else .refused .illegalCommand

/-! ## The blocking loops -/

/-- The refusals of a blocking call, checked at issue (40 R133, R134): the length no multiple of W(s), the address conditions
of 20 R74, the clock off. A call of length 0 makes no register access at all, so none of them applies (log 22). DESIGN CHOICE:
the micro-step at which "issue" falls is the command's first one (log 38), and which refusal stands first is log 24's. -/
def admitBlocking (i : SpiId) (s : State) (k : Out) : Out :=
  if s.ctx.arg1 = 0 then k
  else readReg (.spi i .cr1) s fun v _ =>
    if wholeFrames s.ctx.arg1 (frameWidth v) then
      if admittedBuffer s s.ctx.arg0 s.ctx.arg1 then k else .refused .badAddress
    else .refused .badLength

/-- The micro-steps the two blocking loops share (40 R133, R134). Phases 0 and 1 are line 0, phase 2 is line 1, phase 3 the
wait of line 2 on the direction's flag, phase 4 is line 3, phase 5 is line 4; phase 9 is line 7 and phase 10 line 8. -/
def blockingStep (d : Dir) (i : SpiId) (s : State) : Out :=
  match phaseOf s with
  | 0 => admitBlocking i s (.next (goto 1 (updLocals (fun l => { l with b := s.ctx.arg0 }) s)))
  | 1 => .next (goto 2 (updLocals (fun l => { l with n := s.ctx.arg1 }) s))
  | 2 => .next (if (locals s).n = 0 then finish s else goto 3 s)
  | 3 => waitUntil (.spi i .sr) (flagBit d) 4 s
  | 4 => readReg (.spi i .cr1) s fun v s1 => .next (goto 5 (updLocals (fun l => { l with w := frameWidth v }) s1))
  | 5 => if (locals s).n.ult (locals s).w then .fault .lengthNotFrameMultiple else .next (goto 6 s)
  | 9 => .next (goto 10 (updLocals (fun l => { l with n := l.n - l.w, b := l.b + l.w }) s))
  | _ => .next (goto 2 s)

/-- One micro-step of SPI_SEND on instance i (40 R133). Phases 6 and 7 are line 5, one byte each, and phase 8 is line 6.
DESIGN CHOICE: the byte at the lower address is loaded first (log 39). -/
def sendStep (i : SpiId) (s : State) : Out :=
  match phaseOf s with
  | 6 => loadByte (locals s).b s fun x =>
      .next (goto (if (locals s).w = 2 then 7 else 8) (updLocals (fun l => { l with v := frameLow x }) s))
  | 7 => loadByte ((locals s).b + 1) s fun x => .next (goto 8 (updLocals (fun l => { l with v := frameHigh l.v x }) s))
  | 8 => writeReg (.spi i .dr) (locals s).v s fun s1 => .next (goto 9 s1)
  | _ => blockingStep .tx i s

/-- One micro-step of SPI_RECV on instance i (40 R134). Phase 6 is line 5, phases 7 and 8 are line 6, one byte each.
DESIGN CHOICE: the byte at the lower address is stored first (log 39). -/
def recvStep (i : SpiId) (s : State) : Out :=
  match phaseOf s with
  | 6 => readReg (.spi i .dr) s fun v s1 => .next (goto 7 (updLocals (fun l => { l with v := v }) s1))
  | 7 => storeByte (locals s).b (lowByte (locals s).v) s fun s1 => .next (goto (if (locals s).w = 2 then 8 else 9) s1)
  | 8 => storeByte ((locals s).b + 1) (highByte (locals s).v) s fun s1 => .next (goto 9 s1)
  | _ => blockingStep .rx i s

/-- SPI_SEND s, buf, len (40 R133). -/
def execSpiSend (unit : BitVec 4) (s : State) : Out := withSpi unit fun i => sendStep i s

/-- SPI_RECV s, buf, len (40 R134). -/
def execSpiRecv (unit : BitVec 4) (s : State) : Out := withSpi unit fun i => recvStep i s

end Sys2Proof.Machine
end

