-- ==== Sys2Proof/Machine/SpiDispatch.lean ====
section
/-! DEFINITION. SPI_IRQ (42 R160): one micro-step of the interrupt dispatch, its three services and the event callback. -/

namespace Sys2Proof.Machine

/-- The completion event of a direction (30 R108). -/
def completionEvent (d : Dir) : Event :=
  match d with
  | .tx => .txCmplt
  | .rx => .rxCmplt

/-- The model guard (42 R167): a service needs a transfer in flight, a buffer, and at least one frame of remaining length. -/
def serviceReady (x : Xfer) (w : Word) : Bool :=
  x.st == .busy && x.buf != 0 && !x.len.ult w

/-- The micro-steps the two transfer services share (42 R161, R162). Phase 0 is line a, phase 1 line b; phases 6 and 7 are
line e and phases 8 and 9 line f, a read and a write each (log 1); phase 10 is line g; phases 11 and 12 are the halves of
g1, phases 13 to 15 are g2 to g4, phase 16 is g5. `base` is the phase of line a and `next` the phase of the dispatch's next
check. A length that the frame would take below zero faults (log 25). DESIGN CHOICE: the cursor of line f wraps modulo 2^32, which
after a double accept (70 R302) a run can reach (log 37). -/
def serviceStep (d : Dir) (i : SpiId) (base next k : Nat) (s : State) : Out :=
  let disable (w : Word) : Word := setBit w (enableBit d) false
  match k with
  | 0 => readReg (.spi i .cr1) s fun v s1 =>
      .next (goto (base + 1) (updLocals (fun l => { l with w := frameWidth v }) s1))
  | 1 => if serviceReady (xfer s i d) (locals s).w then .next (goto (base + 2) s) else .fault .serviceWithoutTransfer
  | 6 => .next (goto (base + 7) (updLocals (fun l => { l with n := (xfer s i d).len }) s))
  | 7 => if (locals s).n.ult (locals s).w then .fault .serviceWithoutTransfer
      else .next (goto (base + 8) (updXfer i d (fun x => { x with len := (locals s).n - (locals s).w }) s))
  | 8 => .next (goto (base + 9) (updLocals (fun l => { l with b := (xfer s i d).buf }) s))
  | 9 => .next (goto (base + 10) (updXfer i d (fun x => { x with buf := (locals s).b + (locals s).w }) s))
  | 10 => .next (goto (if (xfer s i d).len = 0 then base + 11 else next) s)
  | 11 => rmwRead (.spi i .cr2) disable (base + 12) (goto (base + 13)) s
  | 12 => rmwWrite (.spi i .cr2) disable (goto (base + 13)) s
  | 13 => .next (goto (base + 14) (updXfer i d (fun x => { x with buf := 0 }) s))
  | 14 => .next (goto (base + 15) (updXfer i d (fun x => { x with len := 0 }) s))
  | 15 => .next (goto (base + 16) (updXfer i d (fun x => { x with st := .idle }) s))
  | _ => .next (emitCallback i (completionEvent d) next s)

/-- TXE_SERVICE (42 R161). Phase 2 reads the cursor and phases 3 and 4 load the frame's bytes (line c), the one at the lower
address first (DESIGN CHOICE, log 39); phase 5 is line d. -/
def txeService (i : SpiId) (base next k : Nat) (s : State) : Out :=
  match k with
  | 2 => .next (goto (base + 3) (updLocals (fun l => { l with b := (xfer s i .tx).buf }) s))
  | 3 => loadByte (locals s).b s fun x =>
      .next (goto (if (locals s).w = 2 then base + 4 else base + 5) (updLocals (fun l => { l with v := frameLow x }) s))
  | 4 => loadByte ((locals s).b + 1) s fun x =>
      .next (goto (base + 5) (updLocals (fun l => { l with v := frameHigh l.v x }) s))
  | 5 => writeReg (.spi i .dr) (locals s).v s fun s1 => .next (goto (base + 6) s1)
  | _ => serviceStep .tx i base next k s

/-- RXNE_SERVICE (42 R162). Phase 2 is line c; phase 3 reads the cursor and phases 4 and 5 store the frame's bytes (line d),
the one at the lower address first (DESIGN CHOICE, log 39). -/
def rxneService (i : SpiId) (base next k : Nat) (s : State) : Out :=
  match k with
  | 2 => readReg (.spi i .dr) s fun v s1 => .next (goto (base + 3) (updLocals (fun l => { l with v := v }) s1))
  | 3 => .next (goto (base + 4) (updLocals (fun l => { l with b := (xfer s i .rx).buf }) s))
  | 4 => storeByte (locals s).b (lowByte (locals s).v) s fun s1 =>
      .next (goto (if (locals s).w = 2 then base + 5 else base + 6) s1)
  | 5 => storeByte ((locals s).b + 1) (highByte (locals s).v) s fun s1 => .next (goto (base + 6) s1)
  | _ => serviceStep .rx i base next k s

/-- OVR_SERVICE (42 R163). Phase 0 is line a, phases 1 and 2 are a1 and a2, phase 3 is line b. The read of SR at phase 2 is the
second read of the explicit clear sequence (10 R35). -/
def ovrService (i : SpiId) (base next k : Nat) (s : State) : Out :=
  match k with
  | 0 => .next (goto (if (xfer s i .tx).st = .busy then base + 3 else base + 1) s)
  | 1 => readReg (.spi i .dr) s fun _ s1 => .next (goto (base + 2) s1)
  | 2 => if accessible s (.spi i .sr) then .next (goto (base + 3) (readSr i true s)) else .refused .clockOff
  | _ => .next (emitCallback i .ovrErr next s)

/-- The phase of line a of TXE_SERVICE in SPI_IRQ. -/
def txeBase : Nat := 10

/-- The phase of line a of RXNE_SERVICE in SPI_IRQ. -/
def rxneBase : Nat := 30

/-- The phase of line a of OVR_SERVICE in SPI_IRQ. -/
def ovrBase : Nat := 50

/-- The first half of a check (42 R160, R166): a fresh read of SR, one flag kept in t1. -/
def sampleFlag (i : SpiId) (bit p : Nat) (s : State) : Out :=
  readReg (.spi i .sr) s fun v s1 => .next (goto p (updLocals (fun l => { l with t1 := v.getLsbD bit }) s1))

/-- The second half of a check (42 R160, R166): a fresh read of CR2, one enable bit kept in t2. -/
def sampleEnable (i : SpiId) (bit p : Nat) (s : State) : Out :=
  readReg (.spi i .cr2) s fun v s1 => .next (goto p (updLocals (fun l => { l with t2 := v.getLsbD bit }) s1))

/-- Go to the service if both sampled bits are 1 and to the next check otherwise (42 R160). -/
def serviceIf (service next : Nat) (s : State) : Out :=
  .next (goto (if (locals s).t1 && (locals s).t2 then service else next) s)

/-- One micro-step of SPI_IRQ on instance i (42 R160, R164). Phases 0 to 2 are lines 1 and 2, phases 3 to 5 lines 3 and 4,
phases 6 to 8 lines 5 and 6, phase 9 is line 7; the services stand at their base phases. -/
def dispatchStep (i : SpiId) (s : State) : Out :=
  match phaseOf s with
  | 0 => sampleFlag i bitTxe 1 s
  | 1 => sampleEnable i bitTxeie 2 s
  | 2 => serviceIf txeBase 3 s
  | 3 => sampleFlag i bitRxne 4 s
  | 4 => sampleEnable i bitRxneie 5 s
  | 5 => serviceIf rxneBase 6 s
  | 6 => sampleFlag i bitOvr 7 s
  | 7 => sampleEnable i bitErrie 8 s
  | 8 => serviceIf ovrBase 9 s
  | 9 => .next (finish s)
  | k =>
    if k < rxneBase then txeService i txeBase 3 (k - txeBase) s
    else if k < ovrBase then rxneService i rxneBase 6 (k - rxneBase) s
    else ovrService i ovrBase 9 (k - ovrBase) s

/-- SPI_IRQ s (42 R160). -/
def execSpiIrq (unit : BitVec 4) (s : State) : Out := withSpi unit fun i => dispatchStep i s

end Sys2Proof.Machine
end

