-- ==== Sys2Proof/Machine/SpiRequest.lean ====
section
/-! DEFINITION. The non-blocking requests SPI_SEND_IT and SPI_RECV_IT (41 R150 to R155): one micro-step of each. -/

namespace Sys2Proof.Machine

/-- The admission check of an accepted request (41 R153), with W(s) read at this moment. -/
def admitRequest (i : SpiId) (s : State) (k : State → Out) : Out :=
  if (locals s).n = 0 then .refused .badLength
  else readReg (.spi i .cr1) s fun v s1 =>
    if wholeFrames (locals s).n (frameWidth v) then
      if admittedBuffer s (locals s).b (locals s).n then k s1 else .refused .badAddress
    else .refused .badLength

/-- One micro-step of a non-blocking request in direction d (41 R151, R152). Phases 0 and 1 are line 0, phase 2 is line 1,
phase 3 is line 2, phase 4 is line 3, phases 5 to 7 are lines 4 to 6, phases 8 and 9 the two halves of line 7, phase 10 is
line 8. -/
def requestStep (d : Dir) (i : SpiId) (s : State) : Out :=
  let enable (w : Word) : Word := setBit w (enableBit d) true
  match phaseOf s with
  | 0 => .next (goto 1 (updLocals (fun l => { l with b := s.ctx.arg0 }) s))
  | 1 => .next (goto 2 (updLocals (fun l => { l with n := s.ctx.arg1 }) s))
  | 2 => .next (goto 3 (updLocals (fun l => { l with st := (xfer s i d).st }) s))
  | 3 => .next (if (locals s).st = .busy then finish (setRet (stateCode .busy) s) else goto 4 s)
  | 4 => admitRequest i s fun s1 => .next (goto 5 s1)
  | 5 => .next (goto 6 (updXfer i d (fun x => { x with buf := (locals s).b }) s))
  | 6 => .next (goto 7 (updXfer i d (fun x => { x with len := (locals s).n }) s))
  | 7 => .next (goto 8 (updXfer i d (fun x => { x with st := .busy }) s))
  | 8 => rmwRead (.spi i .cr2) enable 9 (goto 10) s
  | 9 => rmwWrite (.spi i .cr2) enable (goto 10) s
  | _ => .next (finish (setRet (stateCode .idle) s))

/-- SPI_SEND_IT s, buf, len -> RET (41 R151). -/
def execSpiSendIt (unit : BitVec 4) (s : State) : Out := withSpi unit fun i => requestStep .tx i s

/-- SPI_RECV_IT s, buf, len -> RET (41 R152). -/
def execSpiRecvIt (unit : BitVec 4) (s : State) : Out := withSpi unit fun i => requestStep .rx i s

end Sys2Proof.Machine
end

