-- ==== Sys2Proof/Machine/System.lean ====
section
/-! DEFINITION. PCLK, REG_RD and REG_WR (45 R227 to R229): one micro-step of each. -/

namespace Sys2Proof.Machine

/-- PCLK id, en (45 R227): FieldSet of the peripheral's clock enable bit. -/
def execPclk (id : BitVec 8) (en : Bool) (s : State) : Out :=
  withPeripheral s id fun p =>
    let put (w : Word) : Word := setBit w (clkBit s.params p) en
    match phaseOf s with
    | 0 => rmwRead (.rcc (clkReg s.params p)) put 1 finish s
    | _ => rmwWrite (.rcc (clkReg s.params p)) put finish s

/-- Go on with the register at a byte address: a multiple of 4 that the layout names (45 R228, 20 R73, R85). -/
def withReg (s : State) (a : Word) (k : Reg → Out) : Out :=
  if a.toNat % 4 = 0 then
    match regAt s.params a.toNat with
    | some r => k r
    | none => .refused .unknownRegister
  else .refused .unknownRegister

/-- REG_RD addr -> RET (45 R228). Phase 0 reads the register, its bits where the layout has them, phase 1 writes RET. -/
def execRegRd (s : State) : Out :=
  match phaseOf s with
  | 0 => withReg s s.ctx.arg0 fun r =>
      readReg r s fun v s1 => .next (goto 1 (updLocals (fun l => { l with v := toBus s1.params r v }) s1))
  | _ => .next (finish (setRet (locals s).v s))

/-- REG_WR addr, v (45 R229): one write of the register, its bits where the layout has them; a register whose bits the environment owns is refused. -/
def execRegWr (s : State) : Out :=
  withReg s s.ctx.arg0 fun r =>
    if envOwned r then .refused .envOwnedWrite
    else writeReg r (fromBus s.params r s.ctx.arg1) s fun s1 => .next (finish s1)

end Sys2Proof.Machine
end

