-- ==== Sys2Proof/Machine/Dispatch.lean ====
section
/-! DEFINITION. The dispatch: the next micro-step of a command in the running context. -/

namespace Sys2Proof.Machine

def exec (i : Instr) (s : State) : Host.Outcome State Fault Refusal :=
  match i with
  | .spiInit unit cfg => Sys2Proof.Machine.execSpiInit unit cfg s
  | .spiSend unit => Sys2Proof.Machine.execSpiSend unit s
  | .spiRecv unit => Sys2Proof.Machine.execSpiRecv unit s
  | .spiSendIt unit => Sys2Proof.Machine.execSpiSendIt unit s
  | .spiRecvIt unit => Sys2Proof.Machine.execSpiRecvIt unit s
  | .spiIrq unit => Sys2Proof.Machine.execSpiIrq unit s
  | .extiEdge pin edge => Sys2Proof.Machine.execExtiEdge pin edge s
  | .extiRoute port pin => Sys2Proof.Machine.execExtiRoute port pin s
  | .extiArm pin => Sys2Proof.Machine.execExtiArm pin s
  | .extiAck pin => Sys2Proof.Machine.execExtiAck pin s
  | .irqEnable q en => Sys2Proof.Machine.execIrqEnable q en s
  | .irqPrio q prio => Sys2Proof.Machine.execIrqPrio q prio s
  | .i2cMsend unit addr7 => Sys2Proof.Machine.execI2cMsend unit addr7 s
  | .gpioCfg port pin mode ecfg => Sys2Proof.Machine.execGpioCfg port pin mode ecfg s
  | .gpioRdPin port pin => Sys2Proof.Machine.execGpioRdPin port pin s
  | .gpioRdPort port => Sys2Proof.Machine.execGpioRdPort port s
  | .gpioWrPin port pin value => Sys2Proof.Machine.execGpioWrPin port pin value s
  | .gpioWrPort port value => Sys2Proof.Machine.execGpioWrPort port value s
  | .gpioTglPin port pin => Sys2Proof.Machine.execGpioTglPin port pin s
  | .pclk id en => Sys2Proof.Machine.execPclk id en s
  | .regRd => Sys2Proof.Machine.execRegRd s
  | .regWr => Sys2Proof.Machine.execRegWr s

end Sys2Proof.Machine
end

