-- ==== Sys2Proof/Machine/Agents.lean ====
section
/-! DEFINITION. The steps of the agents (00 R5): the running context, the arbiter, the SPI shift units, the I2C bus units and
the pins; and which agent moves next. -/

namespace Sys2Proof.Machine

/-! ## The environment -/

/-- `TxEmpty(s)` (10 R40): TXE is set. -/
def envTxEmpty (i : SpiId) (s : State) : State := updSpi i (fun r => { r with txe := true }) s

/-- `RxFrame(s, v)` (10 R41): while RXNE = 0, a frame arrives and RXNE is set; otherwise there is no such step. -/
def envRxFrame (i : SpiId) (v : Half) (s : State) : State :=
  if (s.spi.get i).rxne then s else updSpi i (fun r => { r with rxd := v, rxne := true }) s

/-- `Overrun(s)` (10 R42): OVR is set. -/
def envOverrun (i : SpiId) (s : State) : State := updSpi i (fun r => { r with ovr := true }) s

/-- A flag of an I2C instance. -/
def i2cFlagOf (f : I2cFlag) (r : I2cRegs) : Bool :=
  match f with
  | .sb => r.sb
  | .addr => r.addr
  | .txe => r.txe
  | .btf => r.btf

/-- A flag of an I2C instance replaced. -/
def setI2cFlag (f : I2cFlag) (x : Bool) (r : I2cRegs) : I2cRegs :=
  match f with
  | .sb => { r with sb := x }
  | .addr => { r with addr := x }
  | .txe => { r with txe := x }
  | .btf => { r with btf := x }

/-- A step of the I2C bus environment (10 R57): it may set any flag at any time; it may clear SB, TXE and BTF after a DR
write, a START or a STOP request on the instance, and never ADDR (log 18). Any other step, or one of an instance that does not exist,
is none. -/
def envI2cFlag (u : I2cId) (f : I2cFlag) (x : Bool) (s : State) : State :=
  if hasI2c s.params u && (x || (f != .addr && s.i2cOut.any fun e => e.1 == u)) then updI2c u (setI2cFlag f x) s else s

/-- A step of the pin environment (10 R53, 43 R196): pin n of port p takes level x, and the edge detector reacts if line n
observes that port. A port that does not exist has no pins. -/
def envPin (p : Port) (n : BitVec 4) (x : Bool) (s : State) : State :=
  let s1 := updGpio p (fun r => { r with level := setBit r.level n.toNat x }) s
  if hasPort s.params p then
    if selectedPort s n = some p then { s1 with exti := detect s.exti n x true } else s1
  else s

/-! ## The running context -/

/-- The micro-step of the running context: the next micro-step of its command in progress, decoded from the command word
(10 R27, 30 R112), or its next application operation if it has none. -/
def contextStep (s : State) : Out :=
  match s.ctx.act.op with
  | none => issue s
  | some w =>
    match decode s.params w with
    | .ok i => exec i s
    | .error _ => .refused .illegalCommand

/-! ## Moves -/

/-- The agent that makes a move (00 R5). -/
def Move.agent (m : Move) : Agent :=
  match m with
  | .foreground _ => .foreground
  | .handler q _ => .handler q
  | .enter _ => .arbiter
  | .leave => .arbiter
  | .txEmpty i => .peripheral (.shift i)
  | .rxFrame i _ => .peripheral (.shift i)
  | .overrun i => .peripheral (.shift i)
  | .i2cFlag u _ _ => .peripheral (.bus u)
  | .pin _ _ _ => .pins

/-- The agent whose context runs: the foreground if no handler is active, and the innermost handler otherwise (00 R5, 60 R251).
The other contexts take no step. -/
def runner (s : State) : Agent :=
  match s.frozen with
  | [] => .foreground
  | e :: _ => .handler e.1

/-- The move of the agent whose context runs. -/
def runnerMove (s : State) (swap : Bool) : Move :=
  match s.frozen with
  | [] => .foreground swap
  | e :: _ => .handler e.1 swap

/-- The step of a move. A move that is not enabled is no step of the block and changes nothing (log 2). -/
def makeMove (m : Move) (s : State) : Out :=
  match m with
  | .foreground swap => if runner s = .foreground then contextStep { s with swap := swap } else .next s
  | .handler q swap => if runner s = .handler q then contextStep { s with swap := swap } else .next s
  | .enter q => .next (if canEnter s q then enterIrq q s else s)
  | .leave => .next (leaveIrq s)
  | .txEmpty i => .next (envTxEmpty i s)
  | .rxFrame i v => .next (envRxFrame i v s)
  | .overrun i => .next (envOverrun i s)
  | .i2cFlag u f x => .next (envI2cFlag u f x s)
  | .pin p n x => .next (envPin p n x s)

/-- The move when `sched` names none (log 2): the arbiter enters the enabled IRQ of the lowest number; a finished handler
returns; otherwise the running context takes a micro-step. The environment does nothing of itself. -/
def defaultMove (s : State) : Move :=
  match (candidates s).find? (canEnter s) with
  | some q => .enter q
  | none => if finished s && !s.frozen.isEmpty then .leave else runnerMove s false

/-- The move the schedule names, or the default one. -/
def nextMove (s : State) : Move :=
  match s.sched with
  | m :: _ => m
  | [] => defaultMove s

end Sys2Proof.Machine
end

