-- ==== Sys2Proof/Machine/Step.lean ====
section
/-! DEFINITION. One step of the block: the next move of one agent, and the pending latch applied after it (60 R247). -/

namespace Sys2Proof.Machine

/-- The pending latch applied to what a step from `s` answers. -/
def latchOut (s : State) (o : Out) : Out :=
  match o with
  | .next t => .next (latch s t)
  | .fault f => .fault f
  | .refused r => .refused r

/-- One step: the move at the head of the schedule (or the default one), then the pending latch (60 R247). -/
def step (s : State) : Host.Outcome State Fault Refusal :=
  latchOut s (makeMove (nextMove s) { s with sched := s.sched.tail })

/-- The running context has just written the command word to CMD, and its micro-step comes next (30 R101, log 3). -/
def State.withFetchWord (s : State) (nbits w : Nat) : State :=
  let t := startCommand (BitVec.ofNat 32 (w % 2 ^ nbits)) s
  { t with sched := runnerMove s false :: s.sched }

end Sys2Proof.Machine
end

