-- ==== Sys2Proof/Machine/Outcome.lean ====
section
/-! DEFINITION. The four outcomes of a step of a command (00 R9) and where a command waits. The host's interface has no outcome of
its own for a hold, so `exec` answers it as a next state in which the sequencer stands where it stood (log 26); `outcome` tells
the four apart. -/

namespace Sys2Proof.Machine

/-- The four outcomes of a step of a command (00 R9): the state after it; a hold, which is not final and is lifted only by another
agent; a fault; a refusal. -/
inductive StepOutcome where
  | next (t : State)
  | hold (t : State)
  | fault (f : Fault)
  | refuse (r : Refusal)
  deriving DecidableEq, Repr

/-- The outcome of a micro-step from `s` that answered `o`: a hold exactly if the command is still in progress at the same phase,
because every other micro-step moves the sequencer on (10 R27). -/
def outcome (s : State) (o : Out) : StepOutcome :=
  match o with
  | .next t => if t.ctx.act.op.isSome && t.ctx.act.phase == s.ctx.act.phase then .hold t else .next t
  | .fault f => .fault f
  | .refused r => .refuse r

/-- The register and the bit that a command awaits at a phase (40 R133, R134 line 2; 44 R211 lines 2, 4, 7, 10, 11). -/
def awaited (P : Params) (i : Instr) (phase : Nat) : Option (Reg × Nat) :=
  match i with
  | .spiSend unit => if phase = 3 then (spiOf unit).map fun x => (.spi x .sr, bitTxe) else none
  | .spiRecv unit => if phase = 3 then (spiOf unit).map fun x => (.spi x .sr, bitRxne) else none
  | .i2cMsend unit _ =>
    let flag : Option Nat :=
      if phase = 4 then some bitSb
      else if phase = 6 then some bitAddr
      else if phase = 10 ∨ phase = 14 then some bitI2cTxe
      else if phase = 15 then some bitBtf
      else none
    flag.bind fun b => (i2cOf P unit).map fun u => (.i2c u .sr1, b)
  | _ => none

/-- The byte of buffer memory that a command accesses at its present phase: the first or the second byte of a frame at the
cursor (40 R133 line 5, R134 line 6; 42 R161 line c, R162 line d), or the byte at the cursor (44 R211 line 8). -/
def accessedByte (i : Instr) (s : State) : Option Word :=
  let b := (locals s).b
  let frame (first : Nat) : Option Word :=
    if phaseOf s = first then some b else if phaseOf s = first + 1 then some (b + 1) else none
  match i with
  | .spiSend unit => (spiOf unit).bind fun _ => frame 6
  | .spiRecv unit => (spiOf unit).bind fun _ => frame 7
  | .spiIrq unit => (spiOf unit).bind fun _ => (frame (txeBase + 3)).or (frame (rxneBase + 4))
  | .i2cMsend unit _ => (i2cOf s.params unit).bind fun _ => if phaseOf s = 11 then some b else none
  | _ => none

end Sys2Proof.Machine
end

