-- ==== Sys2Proof/Safety.lean ====
section
/-! DEFINITION. The terms claims use: running a command's micro-steps, holds (00 R9, 70 R296), the end of a run (70 R303), a
clean direction (10 R22), and the invariant of every step. -/

namespace Sys2Proof.Machine

/-! ## Running a command -/

/-- `k` micro-steps of command `i` in a row, each of which must answer a next state: no other agent steps between them. -/
def runOp (i : Instr) (k : Nat) (s : State) : Out :=
  match k with
  | 0 => .next s
  | k + 1 =>
    match exec i s with
    | .next t => runOp i k t
    | .fault f => .fault f
    | .refused r => .refused r

/-- `k` micro-steps of command `i`, with the environment acting by `env` before each of them. -/
def runOpWith (env : State → State) (i : Instr) (k : Nat) (s : State) : Out :=
  match k with
  | 0 => .next s
  | k + 1 =>
    match exec i (env s) with
    | .next t => runOpWith env i k t
    | .fault f => .fault f
    | .refused r => .refused r

/-- The micro-steps of command `i` up to and including its last one, at most `fuel` of them. -/
def runCommand (i : Instr) (fuel : Nat) (s : State) : Out :=
  match fuel with
  | 0 => .next s
  | fuel + 1 =>
    if s.ctx.act.op = none then .next s
    else
      match exec i s with
      | .next t => runCommand i fuel t
      | .fault f => .fault f
      | .refused r => .refused r

/-- The micro-steps a FieldSet takes after its first one (20 R77). -/
def extraStep (s : State) : Nat := if s.params.rmwAtomic then 0 else 1

/-- The non-blocking request of a direction (41 R151, R152). -/
def requestOf (d : Dir) (unit : BitVec 4) : Instr :=
  match d with
  | .tx => .spiSendIt unit
  | .rx => .spiRecvIt unit

/-- The phase of line a of a direction's service in SPI_IRQ (42 R161, R162). -/
def serviceBase (d : Dir) : Nat :=
  match d with
  | .tx => txeBase
  | .rx => rxneBase

/-- The phase of the dispatch's check after a direction's service (42 R160 lines 3 and 5). -/
def nextCheck (d : Dir) : Nat :=
  match d with
  | .tx => 3
  | .rx => 6

/-- `m` dispatches of instance i one after the other, the shift unit having set TXE before each (42 R173): the command word of
SPI_IRQ is issued and run to its end. -/
def dispatchTimes (unit : BitVec 4) (i : SpiId) (m : Nat) (s : State) : Out :=
  match m with
  | 0 => .next s
  | m + 1 =>
    match runCommand (.spiIrq unit) 64 (startCommand (encode (.spiIrq unit)) (envTxEmpty i s)) with
    | .next t => dispatchTimes unit i m t
    | .fault f => .fault f
    | .refused r => .refused r

/-- The shift unit of instance i delivers the frames `f 0`, `f 1`, … one after the other to a blocking receive of frames of `w`
bytes in the running context, each as soon as RXNE is 0 (10 R41): `f 0` before the receive has read DR, and after the DR read of
frame k, while the remaining length still counts that frame, `f (k + 1)`. -/
def frameStream (i : SpiId) (f : Nat → Half) (w : Word) (s : State) : State :=
  envRxFrame i (f (if phaseOf s = 0 then 0 else (s.ctx.arg1.toNat - (locals s).n.toNat) / w.toNat + 1)) s

/-- The I2C bus unit of instance u sets all four flags (10 R57): a bus that never holds the caller up. -/
def obligingBus (u : I2cId) (s : State) : State :=
  updI2c u (fun r => { r with sb := true, addr := true, txe := true, btf := true }) s

/-- The command in progress in the running context. -/
def currentInstr (s : State) : Option Instr :=
  match s.ctx.act.op with
  | none => none
  | some w =>
    match decode s.params w with
    | .ok i => some i
    | .error _ => none

/-! ## Holds -/

/-- The running context is held (00 R9, 70 R296): the next micro-step of its command is a hold, be it a `wait_until` whose flag is
0 or an access that has no step (20 R71). A wait that would be refused, its clock being off, is no hold. -/
def holding (s : State) : Prop :=
  ∃ i t, currentInstr s = some i ∧ outcome s (exec i s) = .hold t

/-! ## The end of a run -/

/-- A run is over (70 R303): the foreground has issued its last command and that command has finished, ACTIVE is empty, no
`enter` step is enabled, and no handle direction is Busy. -/
def runOver (s : State) : Prop :=
  s.frozen = [] ∧ finished s = true ∧ (∀ q, canEnter s q = false) ∧ ∀ i d, (xfer s i d).st = .idle

/-! ## Frames in memory -/

/-- The frame of `w` bytes at `b` (20 R72, R91): zero-extended, the byte at the lower address low. -/
def frameAt (s : State) (b w : Word) : Word :=
  if w = 2 then frameHigh (frameLow (byteAt s b)) (byteAt s (b + 1)) else frameLow (byteAt s b)

/-- The frames of `m` consecutive moves from `b`. -/
def framesAt (s : State) (b w : Word) (m : Nat) : List Half :=
  match m with
  | 0 => []
  | m + 1 => (frameAt s b w).setWidth 16 :: framesAt s (b + w) w m

/-- The `m` bytes from `b`. -/
def bytesAt (s : State) (b : Word) (m : Nat) : List Byte :=
  match m with
  | 0 => []
  | m + 1 => byteAt s b :: bytesAt s (b + 1) m

/-- A direction of a handle is clean and its interrupt enable bit is 0 (10 R22 I3). -/
def cleanDirection (s : State) (i : SpiId) (d : Dir) : Prop :=
  xfer s i d = Xfer.clean ∧ (s.spi.get i).cr2.getLsbD (enableBit d) = false

/-! ## The parameters -/

/-- What the spec asks of the parameters (00 R6, 20 R78, R82, 30 R107, R109, 60 R242, R246) and the model's capacities (log 41): port
codes are listed once; every request source has an IRQ below N_IRQ; `higher` is a strict order; registers have word addresses of
their own, clock enables places of their own, and a register's bits positions of their own; the DFF bit of CR1 is the
configuration's (40 R132, 10 R34). -/
structure Params.wf (P : Params) : Prop where
  ports : P.ports.Nodup
  i2c : P.nI2c ≤ 15
  irqs : P.nIrq ≤ 256
  prioBits : P.prioBits ≤ 8
  lines : ∀ n, (irqOfLine P n).val < P.nIrq
  spis : ∀ i, (irqOfSpi P i).val < P.nIrq
  irreflexive : ∀ p, higher P p p = false
  transitive : ∀ p q r, higher P p q = true → higher P q r = true → higher P p r = true
  addresses : ∀ r ∈ allRegs P, regAddr P r % 4 = 0 ∧ regAddr P r < 2 ^ 32
  distinct : (allRegs P).Pairwise fun r q => regAddr P r ≠ regAddr P q
  clockBits : ∀ p, hasPeripheral P p = true → clkBit P p < 32
  clockPlaces : ∀ p q, hasPeripheral P p = true → hasPeripheral P q = true → clkPlace P p = clkPlace P q → p = q
  positions : ∀ e ∈ P.layout.bits, e.2.Perm (List.range 32)
  frameBit : ∀ i cfg, (fromBus P (.spi i .cr1) (spiCfgEncode P cfg)).getLsbD bitDff = cfg.getLsbD 8

/-! ## The invariant -/

/-- What every step keeps: buffer memory is in its canonical form; no IRQ is active twice (60 R248); PREV[n] is the level of the
pin line n observes (10 R48, 43 R196); START and STOP of every I2C CR1 read 0 (10 R55). -/
structure Inv (s : State) : Prop where
  memory : s.mem.wf
  activeOnce : (active s).Nodup
  previous : ∀ n p, selectedPort s n = some p → s.exti.prev.getLsbD n.toNat = levelOf s p n
  requests : ∀ u, (s.i2c.get u).cr1.getLsbD bitStart = false ∧ (s.i2c.get u).cr1.getLsbD bitStop = false

end Sys2Proof.Machine
end

