-- ==== Sys2Proof/Certificates/Slice0/Obligations.lean ====
section
/-! DEFINITION. The statements for the provers. Each docstring names the rules of spec/ it formalises. In `t = { s with F := t.F }`
the only fields of `t` that may differ from `s` are the ones listed. -/

open Sys2Proof Sys2Proof.Machine

/-! ## Encoding -/

/-- 30 R100, R104: under every choice of the parameters, decoding the word of a well-formed command gives the command back, every
operand at every legal value; and a word the decoder accepts is the word of the well-formed command it gives. -/
def Obligations.DecodeAndEncodeAgree : Prop :=
  ∀ P : Params, (∀ i : Instr, i.WellFormed P → decode P (encode i) = .ok i) ∧
    ∀ (w : Word) (i : Instr), decode P w = .ok i → i.WellFormed P ∧ encode i = w

/-- 30 R112: a word is rejected exactly if it is no well-formed command's word, and a context that has been given such a word
refuses it. -/
def Obligations.IllegalWordsAreRefused : Prop :=
  (∀ (P : Params) (w : Word), (∃ e, decode P w = .error e) ↔ ∀ i : Instr, i.WellFormed P → encode i ≠ w) ∧
    ∀ (w : Word) (e : DecodeError) (s : State), decode s.params w = .error e → s.ctx.act.op = some w →
      contextStep s = .refused .illegalCommand

/-- The command words the rules of 30, 40 and 45 write out stand for the commands beside them, under the default parameters. -/
def Obligations.WrittenWordsDecode : Prop :=
  decode Params.reset 0x01200104 = .ok (.spiInit 2 0x104) ∧
    decode Params.reset 0x04200000 = .ok (.spiSendIt 2) ∧
    decode Params.reset 0x10060002 = .ok (.extiEdge 6 2) ∧
    decode Params.reset 0x11160000 = .ok (.extiRoute 1 6) ∧
    decode Params.reset 0x15001703 = .ok (.irqPrio 23 3) ∧
    decode Params.reset 0x30160010 = .ok (.gpioCfg 1 6 0 2) ∧
    decode Params.reset 0x40000201 = .ok (.pclk 2 true)

/-! ## The step -/

/-- 10 R27, 30 R101: a step that the schedule gives to the running context, its command in progress decoding to i, is the
micro-step `exec i` followed by the pending latch. The other two clauses are the model's choices: an empty schedule with no IRQ to
enter gives the move to the running context (log 2), and `withFetchWord` puts a command word in progress and gives the running
context the move (log 3). -/
def Obligations.StepRunsDecodedInstruction : Prop :=
  (∀ (s : State) (w : Word) (i : Instr) (b : Bool) (rest : List Move),
      s.sched = runnerMove s b :: rest → s.ctx.act.op = some w → decode s.params w = .ok i →
      step s = latchOut s (exec i { s with sched := rest, swap := b })) ∧
    (∀ (s : State) (w : Word) (i : Instr),
      s.sched = [] → candidates s = [] → s.ctx.act.op = some w → decode s.params w = .ok i →
      step s = latchOut s (exec i { s with sched := [], swap := false })) ∧
    ∀ (s : State) (w : Word) (i : Instr), decode s.params w = .ok i →
      step (s.withFetchWord 32 w.toNat) =
        latchOut (s.withFetchWord 32 w.toNat) (exec i { startCommand w s with swap := false })

/-- 20 R71, 60 R248, 43 R196, 10 R55: every step keeps the invariant `Inv`. -/
def Obligations.StepKeepsInvariant : Prop :=
  ∀ s t : State, Inv s → step s = .next t → Inv t

/-- The state after reset meets `Inv`, and its parameters, the defaults of 00 R6, meet what the spec asks of parameters
(`Params.wf`: 20 R78, 60 R242, R246, and the model's capacities, log 41). -/
def Obligations.ResetMeetsInvariant : Prop :=
  Inv State.reset ∧ State.reset.params.wf

/-- 10 R66: no step changes a parameter: RegLayout, PORTS, N_I2C, N_IRQ, PRIO_BITS, `higher`, `irqOfLine`, `irqOfSpi`,
`spiCfgEncode`, RMW_ATOMIC, POLL_TIMEOUT, `callback`, `handlerBody`, and the launch memory. -/
def Obligations.StepKeepsParameters : Prop :=
  ∀ s t : State, step s = .next t → t.params = s.params

/-- 60 R247: after every step the latch sets PEND[q] where line(q) is 1 and q is not active or its line was 0 before; it changes
nothing else; and only the entry of q clears PEND[q]. -/
def Obligations.PendingLatch : Prop :=
  ∀ s u : State, makeMove (nextMove s) { s with sched := s.sched.tail } = .next u →
    step s = .next (latch s u) ∧
      latch s u = { u with nvic := { u.nvic with pend := (latch s u).nvic.pend } } ∧
      (∀ q : Irq, (latch s u).nvic.pend.getLsbD q.val =
        (u.nvic.pend.getLsbD q.val || (line u q && (!(active u).contains q || !line s q)))) ∧
      ∀ q : Irq, s.nvic.pend.getLsbD q.val = true → u.nvic.pend.getLsbD q.val = false →
        nextMove s = .enter q ∧ canEnter { s with sched := s.sched.tail } q = true

/-! ## Reset -/

/-- 70 R280, 10 R64: after reset the foreground is the only context and idle, no handler is active, every direction is clean,
every configuration, latch, routing, clock and port register holds the table's value, and the histories are empty. -/
def Obligations.ResetLeavesNothingInFlight : Prop :=
  State.reset.ctx = Context.start [] ∧ State.reset.frozen = [] ∧ active State.reset = [] ∧
    (∀ i d, xfer State.reset i d = ⟨0, 0, .idle⟩) ∧
    (∀ i, (State.reset.handles.get i).cfg = 0) ∧
    (∀ i, (State.reset.spi.get i).cr1 = 0 ∧ (State.reset.spi.get i).cr2 = 0 ∧ (State.reset.spi.get i).txd = 0 ∧
      (State.reset.spi.get i).rxd = 0 ∧ (State.reset.spi.get i).ovrArm = false) ∧
    (∀ k, routeSlot State.reset.afio k = 0) ∧
    (∀ p, clkOn State.reset p = false) ∧
    (∀ p, (State.reset.gpio.get p).odr = 0 ∧ ∀ n, pinMode (State.reset.gpio.get p) n = 0 ∧
      pinEcfg (State.reset.gpio.get p) n = some 2) ∧
    (∀ u, (State.reset.i2c.get u).cr1 = 0) ∧
    (∀ q, prioOf State.reset q = 0) ∧
    State.reset.spiOut = [] ∧ State.reset.i2cOut = [] ∧ State.reset.cbOut = []

/-- 70 R281: after reset every interrupt is disabled at each of its levels and nothing is pending; no step of the environment or
of the arbiter makes an IRQ enterable then, and in every state with all enables 0 such a step keeps them 0 and leaves no IRQ
enterable, so no handler runs before the program has enabled its IRQ. -/
def Obligations.ResetMasksEveryInterrupt : Prop :=
  (∀ i, (State.reset.spi.get i).cr2.getLsbD bitTxeie = false ∧ (State.reset.spi.get i).cr2.getLsbD bitRxneie = false ∧
      (State.reset.spi.get i).cr2.getLsbD bitErrie = false) ∧
    State.reset.exti.imr = 0 ∧ State.reset.exti.rtsr = 0 ∧ State.reset.exti.ftsr = 0 ∧ State.reset.exti.pr = 0 ∧
    State.reset.nvic.en = 0 ∧ State.reset.nvic.pend = 0 ∧
    (∀ (m : Move) (t : State), m.agent ≠ .foreground → step { State.reset with sched := [m] } = .next t →
      t.exti.pr = 0 ∧ t.nvic.pend = 0 ∧ ∀ q, canEnter t q = false) ∧
    ∀ (m : Move) (rest : List Move) (s t : State), m.agent ≠ .foreground → (∀ q, m.agent ≠ .handler q) →
      s.sched = m :: rest → s.nvic.en = 0 → step s = .next t → t.nvic.en = 0 ∧ ∀ q, canEnter t q = false

/-! ## The register bus -/

/-- 20 R87: a register access to a peripheral whose clock enable is off is refused; with the clock on, or for a register
without a clock enable, it takes place, and the read value does not depend on the clock. -/
def Obligations.ClockGatesRegisterAccess : Prop :=
  ∀ (r : Reg) (v : Word) (s : State) (kr : Word → State → Out) (kw : State → Out),
    (∀ p, regPeripheral r = some p → clkOn s p = false →
      readReg r s kr = .refused .clockOff ∧ writeReg r v s kw = .refused .clockOff) ∧
    ((regPeripheral r = none ∨ ∃ p, regPeripheral r = some p ∧ clkOn s p = true) →
      readReg r s kr = kr (regVal r s) (afterRead r s) ∧ writeReg r v s kw = kw (afterWrite r v s))

/-- 20 R85: a register that is named but has no rule is plain storage: a write stores, a read returns the value written, and
nothing else happens: a read leaves the state as it is, and a write replaces that one field and no other piece of state, so that
every other register reads as before. -/
def Obligations.RegistersWithoutRuleAreStorage : Prop :=
  ∀ (p : Port) (u : I2cId) (v : Word) (s : State),
    (∀ r ∈ [Reg.exti .emr, .exti .swier, .afio .evcr, .afio .mapr, .gpio p .bsrr, .gpio p .brr, .gpio p .lckr, .i2c u .cr2,
        .i2c u .oar1, .i2c u .oar2, .i2c u .ccr, .i2c u .trise],
      regVal r (afterWrite r v s) = v ∧ afterRead r s = s ∧
        ∀ q : Reg, q ≠ r → regVal q (afterWrite r v s) = regVal q s) ∧
    afterWrite (.exti .emr) v s = { s with exti := { s.exti with emr := v } } ∧
    afterWrite (.exti .swier) v s = { s with exti := { s.exti with swier := v } } ∧
    afterWrite (.afio .evcr) v s = { s with afio := { s.afio with evcr := v } } ∧
    afterWrite (.afio .mapr) v s = { s with afio := { s.afio with mapr := v } } ∧
    afterWrite (.gpio p .bsrr) v s = { s with gpio := s.gpio.set p { s.gpio.get p with bsrr := v } } ∧
    afterWrite (.gpio p .brr) v s = { s with gpio := s.gpio.set p { s.gpio.get p with brr := v } } ∧
    afterWrite (.gpio p .lckr) v s = { s with gpio := s.gpio.set p { s.gpio.get p with lckr := v } } ∧
    afterWrite (.i2c u .cr2) v s = { s with i2c := s.i2c.set u { s.i2c.get u with cr2 := v } } ∧
    afterWrite (.i2c u .oar1) v s = { s with i2c := s.i2c.set u { s.i2c.get u with oar1 := v } } ∧
    afterWrite (.i2c u .oar2) v s = { s with i2c := s.i2c.set u { s.i2c.get u with oar2 := v } } ∧
    afterWrite (.i2c u .ccr) v s = { s with i2c := s.i2c.set u { s.i2c.get u with ccr := v } } ∧
    afterWrite (.i2c u .trise) v s = { s with i2c := s.i2c.set u { s.i2c.get u with trise := v } }

/-- 10 R47: the pending register is write-one-to-clear, reading it has no side effect, it is 0 after reset, and its bits are set
by the edge detector only: by a pin that the line observes, or at a change of the line's routing. -/
def Obligations.PendingBitsSetByDetectorOnly : Prop :=
  (∀ (v : Word) (s : State) (n : BitVec 4), (afterWrite (.exti .pr) v s).exti.pr.getLsbD n.toNat =
      (s.exti.pr.getLsbD n.toNat && !v.getLsbD n.toNat)) ∧
    (∀ s : State, afterRead (.exti .pr) s = s ∧ regVal (.exti .pr) s = s.exti.pr.setWidth 32) ∧
    State.reset.exti.pr = 0 ∧
    ∀ (m : Move) (s t : State) (n : BitVec 4), makeMove m s = .next t →
      s.exti.pr.getLsbD n.toNat = false → t.exti.pr.getLsbD n.toNat = true →
      (∃ p x, m = .pin p n x ∧ selectedPort s n = some p) ∨ selectedPort t n ≠ selectedPort s n

/-- 20 R71, R72, R91: a step that changes buffer memory stores one byte, and every other byte reads as before: the byte at the
cursor or the next one, the low or the high byte of the received frame, at line 6 of SPI_RECV (phases 7 and 8) or line d of the
receive service of SPI_IRQ (phases rxneBase + 4 and + 5); or the byte of a store of the application. That a step stores a single byte
even of an aligned 16-bit frame (log 1, DEDUCED), that the byte at the lower address comes first (log 39, DESIGN CHOICE) and that the
application stores one byte a step (log 36, DEDUCED) are the model's. -/
def Obligations.MemoryWrittenByReceiveOrApplication : Prop :=
  ∀ s t : State, step s = .next t → t.mem ≠ s.mem →
    ∃ a x, byteAt t a = x ∧ (∀ c, c ≠ a → byteAt t c = byteAt s c) ∧
      ((∃ first, ((∃ unit, currentInstr s = some (.spiRecv unit) ∧ first = 7) ∨
            ∃ unit, currentInstr s = some (.spiIrq unit) ∧ first = rxneBase + 4) ∧
          ((phaseOf s = first ∧ a = (locals s).b ∧ x = (locals s).v.extractLsb' 0 8) ∨
            (phaseOf s = first + 1 ∧ a = (locals s).b + 1 ∧ x = (locals s).v.extractLsb' 8 8))) ∨
        ∃ rest, s.ctx.act.op = none ∧ s.ctx.act.todo = .store a x :: rest)

/-! ## Admission of a buffer -/

/-- 20 R74: a buffer at B of L bytes is admitted exactly if L = 0, or B is not NULL, B + L is at most 2^32, and every byte of it
lies in the launch memory and in no register. That register space is the four bytes of each register the layout names, so that a
buffer in a gap of a peripheral's window is admitted, is the model's reading (log 8, DEDUCED). -/
def Obligations.AdmissionIsTheRangeCondition : Prop :=
  ∀ (s : State) (b n : Word), admittedBuffer s b n = true ↔
    n = 0 ∨ (b ≠ 0 ∧ b.toNat + n.toNat ≤ 2 ^ 32 ∧ ∀ a, b.toNat ≤ a → a < b.toNat + n.toNat →
      (∃ r ∈ s.params.launch, r.1 ≤ a ∧ a < r.1 + r.2) ∧
        ∀ r ∈ allRegs s.params, ¬ (regAddr s.params r ≤ a ∧ a < regAddr s.params r + 4))

/-! ## SPI configuration and blocking transfers -/

/-- 40 R131, 10 R34: SPI_INIT writes the configuration to the handle and its encoding to CR1, and nothing else; the frame width
read afterwards is 1 + cfg[8], the parameters being well formed (the encoding gives DFF the configuration's bit). Duplex code 3 and a
clock that is off are refused. -/
def Obligations.SpiInitConfiguresInstance : Prop :=
  ∀ (unit : BitVec 4) (cfg : BitVec 10) (i : SpiId) (s : State), spiOf unit = some i →
    (cfg.extractLsb' 6 2 = 3#2 → exec (.spiInit unit cfg) s = .refused .illegalCommand) ∧
    (cfg.extractLsb' 6 2 ≠ 3#2 → phaseOf s = 0 → ∃ s1, exec (.spiInit unit cfg) s = .next s1 ∧
      (clkOn s (.spi i) = false → exec (.spiInit unit cfg) s1 = .refused .clockOff) ∧
      (clkOn s (.spi i) = true → ∃ t, exec (.spiInit unit cfg) s1 = .next t ∧
        t = finish { s with
          handles := s.handles.set i { s.handles.get i with cfg := cfg }
          spi := s.spi.set i { s.spi.get i with
            cr1 := (fromBus s.params (.spi i .cr1) (spiCfgEncode s.params cfg)).setWidth 16, ovrArm := false } } ∧
        (s.params.wf → frameWidth (regVal (.spi i .cr1) t) = if cfg.getLsbD 8 then 2 else 1)))

/-- 40 R132: the bits of CR1 that the default mapping gives a configuration; the parameter `spiCfgEncode` is that mapping where it
gives the configuration no other value. -/
def Obligations.SpiConfigurationBits : Prop :=
  ∀ (P : Params) (cfg : BitVec 10), (∀ e ∈ P.cfgCode, e.1 ≠ cfg) →
    (spiCfgEncode P cfg).getLsbD 0 = cfg.getLsbD 0 ∧ (spiCfgEncode P cfg).getLsbD 1 = cfg.getLsbD 1 ∧
      (spiCfgEncode P cfg).getLsbD 2 = cfg.getLsbD 2 ∧ (spiCfgEncode P cfg).extractLsb' 3 3 = cfg.extractLsb' 3 3 ∧
      (spiCfgEncode P cfg).extractLsb' 6 3 = 0 ∧ (spiCfgEncode P cfg).getLsbD 9 = cfg.getLsbD 9 ∧
      (spiCfgEncode P cfg).getLsbD 10 = decide (cfg.extractLsb' 6 2 = 2) ∧
      (spiCfgEncode P cfg).getLsbD 11 = cfg.getLsbD 8 ∧ (spiCfgEncode P cfg).extractLsb' 12 3 = 0 ∧
      (spiCfgEncode P cfg).getLsbD 15 = decide (cfg.extractLsb' 6 2 = 1) ∧ (spiCfgEncode P cfg).extractLsb' 16 16 = 0

/-- 40 R133, R134, 20 R74, R87: the refusals of a blocking call, and that an admitted call goes on with its cursor set. Three
points are the model's: that "checked at issue" is the command's first micro-step (log 38, DESIGN CHOICE), that a call of length 0
is refused on no ground (log 22, DEDUCED), and which refusal is answered where several apply (log 24, DESIGN CHOICE). -/
def Obligations.BlockingCallAdmission : Prop :=
  ∀ (unit : BitVec 4) (i : SpiId) (s : State), spiOf unit = some i → phaseOf s = 0 →
    ∀ j ∈ [Instr.spiSend unit, .spiRecv unit],
      (s.ctx.arg1 = 0 → ∃ t, exec j s = .next t) ∧
      (s.ctx.arg1 ≠ 0 → clkOn s (.spi i) = false → exec j s = .refused .clockOff) ∧
      (s.ctx.arg1 ≠ 0 → clkOn s (.spi i) = true →
        s.ctx.arg1.toNat % (frameWidth (regVal (.spi i .cr1) s)).toNat ≠ 0 → exec j s = .refused .badLength) ∧
      (s.ctx.arg1 ≠ 0 → clkOn s (.spi i) = true →
        s.ctx.arg1.toNat % (frameWidth (regVal (.spi i .cr1) s)).toNat = 0 →
        admittedBuffer s s.ctx.arg0 s.ctx.arg1 = false → exec j s = .refused .badAddress) ∧
      (s.ctx.arg1 ≠ 0 → clkOn s (.spi i) = true →
        s.ctx.arg1.toNat % (frameWidth (regVal (.spi i .cr1) s)).toNat = 0 →
        admittedBuffer s s.ctx.arg0 s.ctx.arg1 = true →
        exec j s = .next (goto 1 (updLocals (fun l => { l with b := s.ctx.arg0 }) s)))

/-- 40 R133 line 4, R134 line 4: a blocking call whose remaining length is below the frame width faults there, and only then. -/
def Obligations.ShortRemainderFaults : Prop :=
  ∀ (unit : BitVec 4) (i : SpiId) (s : State), spiOf unit = some i → phaseOf s = 5 →
    ∀ j ∈ [Instr.spiSend unit, .spiRecv unit],
      ((locals s).n.toNat < (locals s).w.toNat → exec j s = .fault .lengthNotFrameMultiple) ∧
      ((locals s).w.toNat ≤ (locals s).n.toNat → exec j s = .next (goto 6 s))

/-- 40 R133: for every length L and width W with L divisible by W, a blocking send of an admitted buffer, the shift unit setting
TXE before each micro-step, performs exactly L / W DR writes, the frames of the buffer in order, reaches remaining length 0 and
then finishes; handles, memory, control registers and RET are unchanged, OVR is never set and is as before if the overrun clear
sequence was not armed, which it is not afterwards unless L = 0. -/
def Obligations.BlockingSendWritesTheWholeBuffer : Prop :=
  ∀ (unit : BitVec 4) (i : SpiId) (s : State) (w : Word), spiOf unit = some i → phaseOf s = 0 →
    w = frameWidth (regVal (.spi i .cr1) s) → s.ctx.arg1.toNat % w.toNat = 0 →
    admittedBuffer s s.ctx.arg0 s.ctx.arg1 = true → (s.ctx.arg1 ≠ 0 → clkOn s (.spi i) = true) →
    ∃ s1 u t, exec (.spiSend unit) (envTxEmpty i s) = .next s1 ∧
      runOpWith (envTxEmpty i) (.spiSend unit) (1 + (7 + w.toNat) * (s.ctx.arg1.toNat / w.toNat)) s1 = .next u ∧
      (locals u).n = 0 ∧ exec (.spiSend unit) (envTxEmpty i u) = .next t ∧
      t.spiOut = s.spiOut ++ (framesAt s s.ctx.arg0 w (s.ctx.arg1.toNat / w.toNat)).map (i, ·) ∧
      t = { s with spi := t.spi, spiOut := t.spiOut, draws := t.draws, ctx := (finish s).ctx } ∧
      t.spi = s.spi.set i { s.spi.get i with
        txe := true
        txd := (t.spi.get i).txd
        ovr := (t.spi.get i).ovr
        ovrArm := (s.spi.get i).ovrArm && decide (s.ctx.arg1 = 0) } ∧
      ((t.spi.get i).ovr = true → (s.spi.get i).ovr = true) ∧
      ((s.spi.get i).ovrArm = false → (t.spi.get i).ovr = (s.spi.get i).ovr)

/-- 40 R134: a blocking receive of an admitted buffer of L bytes, L divisible by W, the shift unit delivering the frames f 0, f 1, …
whenever RXNE is 0, performs exactly L / W frame moves, reaches remaining length 0 and finishes: byte k of the buffer is byte
k mod W of frame k / W, every byte outside it reads as before, nothing is transmitted, and OVR is never set. -/
def Obligations.BlockingReceiveFillsTheWholeBuffer : Prop :=
  ∀ (unit : BitVec 4) (i : SpiId) (s : State) (w : Word) (f : Nat → Half), spiOf unit = some i → phaseOf s = 0 →
    w = frameWidth (regVal (.spi i .cr1) s) → s.ctx.arg1.toNat % w.toNat = 0 →
    admittedBuffer s s.ctx.arg0 s.ctx.arg1 = true → (s.ctx.arg1 ≠ 0 → clkOn s (.spi i) = true) →
    ((s.spi.get i).rxne = true → (s.spi.get i).rxd = f 0) →
    ∃ s1 u t, exec (.spiRecv unit) (frameStream i f w s) = .next s1 ∧
      runOpWith (frameStream i f w) (.spiRecv unit) (1 + (7 + w.toNat) * (s.ctx.arg1.toNat / w.toNat)) s1 = .next u ∧
      (locals u).n = 0 ∧ exec (.spiRecv unit) (frameStream i f w u) = .next t ∧
      (∀ k, k < s.ctx.arg1.toNat →
        byteAt t (s.ctx.arg0 + BitVec.ofNat 32 k) = (f (k / w.toNat)).extractLsb' (8 * (k % w.toNat)) 8) ∧
      (∀ a, (∀ k, k < s.ctx.arg1.toNat → a ≠ s.ctx.arg0 + BitVec.ofNat 32 k) → byteAt t a = byteAt s a) ∧
      t = { s with spi := t.spi, mem := t.mem, draws := t.draws, ctx := (finish s).ctx } ∧
      t.spi = s.spi.set i { s.spi.get i with
        rxd := f (s.ctx.arg1.toNat / w.toNat)
        rxne := true
        ovr := (t.spi.get i).ovr
        ovrArm := (s.spi.get i).ovrArm || !decide (s.ctx.arg1 = 0) } ∧
      ((t.spi.get i).ovr = true → (s.spi.get i).ovr = true)

/-- 70 R296, 00 R8, R9, 20 R71: a wait reads its register once; while the awaited flag is 0 the command stays where it is, and
once it is 1 the command goes on. An access of buffer memory outside the launch memory has no step: the command stays where it
is. These are the holds, told apart from the other three outcomes: a micro-step of a command in progress is a hold exactly in one
of these two cases. That a hold is answered as a next state with the phase unchanged is the model's form (log 26). -/
def Obligations.WaitHoldsUntilItsFlag : Prop :=
  (∀ (i : Instr) (r : Reg) (bit : Nat) (s : State), awaited s.params i (phaseOf s) = some (r, bit) → accessible s r = true →
    exec i s = .next (if (regVal r s).getLsbD bit then goto (phaseOf s + 1) (afterRead r s) else afterRead r s)) ∧
  (∀ (i : Instr) (a : Word) (s : State), accessedByte i s = some a → inLaunch s a = false → exec i s = .next s) ∧
  ∀ (i : Instr) (s : State), s.ctx.act.op ≠ none →
    ((∃ t, outcome s (exec i s) = .hold t) ↔
      (∃ r bit, awaited s.params i (phaseOf s) = some (r, bit) ∧ accessible s r = true ∧ (regVal r s).getLsbD bit = false) ∨
        ∃ a, accessedByte i s = some a ∧ inLaunch s a = false)

/-- 10 R40 to R43, R57, 70 R296: the shift unit sets TXE, delivers a frame while RXNE is 0, and sets OVR, and does nothing else;
the bus unit of an I2C instance that exists sets any flag, and clears SB, TXE and BTF once the instance's history holds an entry, and
never ADDR (that it may clear them at any later time, and ADDR never, is log 18, DEDUCED), and does nothing else; no step of a context
or of the arbiter sets a status flag of an SPI or I2C instance, so a wait is lifted by the environment alone. -/
def Obligations.FlagsAreSetByTheEnvironmentOnly : Prop :=
  (∀ (i : SpiId) (v : Half) (s : State),
    makeMove (.txEmpty i) s = .next { s with spi := s.spi.set i { s.spi.get i with txe := true } } ∧
    ((s.spi.get i).rxne = false →
      makeMove (.rxFrame i v) s = .next { s with spi := s.spi.set i { s.spi.get i with rxd := v, rxne := true } }) ∧
    ((s.spi.get i).rxne = true → makeMove (.rxFrame i v) s = .next s) ∧
    makeMove (.overrun i) s = .next { s with spi := s.spi.set i { s.spi.get i with ovr := true } }) ∧
  (∀ (u : I2cId) (f : I2cFlag) (x : Bool) (s : State), ∃ t, makeMove (.i2cFlag u f x) s = .next t ∧
    t = { s with i2c := s.i2c.set u { s.i2c.get u with
      sb := (t.i2c.get u).sb, addr := (t.i2c.get u).addr, txe := (t.i2c.get u).txe, btf := (t.i2c.get u).btf } } ∧
    (∀ g, g ≠ f → i2cFlagOf g (t.i2c.get u) = i2cFlagOf g (s.i2c.get u)) ∧
    i2cFlagOf f (t.i2c.get u) =
      if hasI2c s.params u = true ∧ (x = true ∨ (f ≠ .addr ∧ ∃ e ∈ s.i2cOut, e.1 = u)) then x
      else i2cFlagOf f (s.i2c.get u)) ∧
  ∀ (m : Move) (s t : State), (m.agent = .foreground ∨ (∃ q, m.agent = .handler q) ∨ m.agent = .arbiter) →
    makeMove m s = .next t →
    (∀ i, ((t.spi.get i).txe = true → (s.spi.get i).txe = true) ∧ ((t.spi.get i).rxne = true → (s.spi.get i).rxne = true) ∧
      ((t.spi.get i).ovr = true → (s.spi.get i).ovr = true)) ∧
    ∀ u f, i2cFlagOf f (t.i2c.get u) = true → i2cFlagOf f (s.i2c.get u) = true

/-! ## Non-blocking requests -/

/-- 41 R151, R152: an admitted request on an Idle direction records buffer and length, makes the direction Busy, sets exactly
its interrupt enable bit in CR2, and returns Idle (0). -/
def Obligations.RequestIsAccepted : Prop :=
  ∀ (d : Dir) (unit : BitVec 4) (i : SpiId) (s : State), spiOf unit = some i → phaseOf s = 0 →
    clkOn s (.spi i) = true → (xfer s i d).st = .idle → s.ctx.arg1 ≠ 0 →
    s.ctx.arg1.toNat % (frameWidth (regVal (.spi i .cr1) s)).toNat = 0 →
    admittedBuffer s s.ctx.arg0 s.ctx.arg1 = true →
    ∃ s1, exec (requestOf d unit) s = .next s1 ∧ runOp (requestOf d unit) (9 + extraStep s) s1 =
      .next (finish (setRet 0 { s with
        handles := s.handles.set i ((s.handles.get i).setDir d ⟨s.ctx.arg0, s.ctx.arg1, .busy⟩)
        spi := s.spi.set i { s.spi.get i with cr2 := setBit (s.spi.get i).cr2 (enableBit d) true, ovrArm := false } }))

/-- 41 R151, R152, R153: a request on a Busy direction returns Busy (1) and changes nothing else, whatever its operands. -/
def Obligations.BusyRequestIsRejected : Prop :=
  ∀ (d : Dir) (unit : BitVec 4) (i : SpiId) (s : State), spiOf unit = some i → phaseOf s = 0 →
    (xfer s i d).st = .busy →
    ∃ s1, exec (requestOf d unit) s = .next s1 ∧ runOp (requestOf d unit) 3 s1 = .next (finish (setRet 1 s))

/-- 41 R153: a request on an Idle direction is refused for length 0, for a length that is no multiple of the frame width, and
for a range that is not admitted, and goes on to record the transfer otherwise; a Busy direction rejects whatever the operands
are. Which refusal is answered where several apply is the model's choice (log 24). -/
def Obligations.RequestAdmission : Prop :=
  ∀ (d : Dir) (unit : BitVec 4) (i : SpiId) (s : State), spiOf unit = some i → phaseOf s = 0 →
    ((xfer s i d).st = .busy → runOp (requestOf d unit) 4 s = .next (finish (setRet 1 s))) ∧
    ((xfer s i d).st = .idle → s.ctx.arg1 = 0 → runOp (requestOf d unit) 5 s = .refused .badLength) ∧
    ((xfer s i d).st = .idle → s.ctx.arg1 ≠ 0 → clkOn s (.spi i) = false →
      runOp (requestOf d unit) 5 s = .refused .clockOff) ∧
    ((xfer s i d).st = .idle → clkOn s (.spi i) = true →
      s.ctx.arg1.toNat % (frameWidth (regVal (.spi i .cr1) s)).toNat ≠ 0 →
      runOp (requestOf d unit) 5 s = .refused .badLength) ∧
    ((xfer s i d).st = .idle → clkOn s (.spi i) = true → s.ctx.arg1 ≠ 0 →
      s.ctx.arg1.toNat % (frameWidth (regVal (.spi i .cr1) s)).toNat = 0 →
      admittedBuffer s s.ctx.arg0 s.ctx.arg1 = false → runOp (requestOf d unit) 5 s = .refused .badAddress) ∧
    ((xfer s i d).st = .idle → clkOn s (.spi i) = true → s.ctx.arg1 ≠ 0 →
      s.ctx.arg1.toNat % (frameWidth (regVal (.spi i .cr1) s)).toNat = 0 →
      admittedBuffer s s.ctx.arg0 s.ctx.arg1 = true → runOp (requestOf d unit) 5 s =
        .next (goto 5 (updLocals (fun l => { l with b := s.ctx.arg0, n := s.ctx.arg1, st := .idle }) s)))

/-- 10 R25, 42 R173, 41 R155: a direction becomes Idle only at line g4 of its own service in SPI_IRQ on that instance, and Busy
only at line 6 of its own request. -/
def Obligations.DirectionChangesOnlyByItsService : Prop :=
  ∀ (s t : State) (i : SpiId) (d : Dir), step s = .next t →
    ((xfer s i d).st = .busy → (xfer t i d).st = .idle →
      ∃ unit, spiOf unit = some i ∧ currentInstr s = some (.spiIrq unit) ∧ phaseOf s = serviceBase d + 15) ∧
    ((xfer s i d).st = .idle → (xfer t i d).st = .busy →
      ∃ unit, spiOf unit = some i ∧ currentInstr s = some (requestOf d unit) ∧ phaseOf s = 7)

/-! ## Interrupt dispatch -/

/-- 42 R160: a dispatch with no pair active finishes and changes nothing, but that its first read of SR ends an overrun clear
sequence that was armed (10 R35). -/
def Obligations.SpuriousDispatchChangesNothing : Prop :=
  ∀ (unit : BitVec 4) (i : SpiId) (s : State), spiOf unit = some i → phaseOf s = 0 → clkOn s (.spi i) = true →
    ((s.spi.get i).txe && (s.spi.get i).cr2.getLsbD bitTxeie) = false →
    ((s.spi.get i).rxne && (s.spi.get i).cr2.getLsbD bitRxneie) = false →
    ((s.spi.get i).ovr && (s.spi.get i).cr2.getLsbD bitErrie) = false →
    ∃ s1, exec (.spiIrq unit) s = .next s1 ∧ runOp (.spiIrq unit) 9 s1 =
      .next (finish { s with
        spi := s.spi.set i { s.spi.get i with
          ovr := if (s.spi.get i).ovrArm then (s.spi.get i).ovr && Config.drawBit s.draws else (s.spi.get i).ovr
          ovrArm := false }
        draws := s.draws + 3 })

/-- 42 R161 lines a to g: the transmit service moves one frame from the cursor to DR, clears TXE, moves cursor and length by the
frame width, and goes on to its completion exactly if no length is left. -/
def Obligations.TransmitServiceMovesOneFrame : Prop :=
  ∀ (unit : BitVec 4) (i : SpiId) (s : State) (w : Word), spiOf unit = some i → phaseOf s = serviceBase .tx →
    clkOn s (.spi i) = true → w = frameWidth (regVal (.spi i .cr1) s) →
    (xfer s i .tx).st = .busy → (xfer s i .tx).buf ≠ 0 → w.toNat ≤ (xfer s i .tx).len.toNat →
    inLaunch s (xfer s i .tx).buf = true → (w = 2 → inLaunch s ((xfer s i .tx).buf + 1) = true) →
    ∃ s1 t, exec (.spiIrq unit) s = .next s1 ∧ runOp (.spiIrq unit) (8 + w.toNat) s1 = .next t ∧
      phaseOf t = (if (xfer s i .tx).len = w then serviceBase .tx + 11 else nextCheck .tx) ∧
      t = { s with
        handles := s.handles.set i ((s.handles.get i).setDir .tx
          ⟨(xfer s i .tx).buf + w, (xfer s i .tx).len - w, .busy⟩)
        spi := s.spi.set i { s.spi.get i with
          txe := false
          txd := (frameAt s (xfer s i .tx).buf w).setWidth 16
          ovrArm := false }
        spiOut := s.spiOut ++ [(i, (frameAt s (xfer s i .tx).buf w).setWidth 16)]
        ctx := { s.ctx with act := { s.ctx.act with phase := phaseOf t, loc := locals t } } }

/-- 42 R162 lines a to g: the receive service reads DR, clears RXNE, stores the frame at the cursor, moves cursor and length by
the frame width, and goes on to its completion exactly if no length is left; every other byte of memory reads as before. -/
def Obligations.ReceiveServiceMovesOneFrame : Prop :=
  ∀ (unit : BitVec 4) (i : SpiId) (s : State) (w : Word), spiOf unit = some i → phaseOf s = serviceBase .rx →
    clkOn s (.spi i) = true → w = frameWidth (regVal (.spi i .cr1) s) →
    (xfer s i .rx).st = .busy → (xfer s i .rx).buf ≠ 0 → w.toNat ≤ (xfer s i .rx).len.toNat →
    inLaunch s (xfer s i .rx).buf = true → (w = 2 → inLaunch s ((xfer s i .rx).buf + 1) = true) →
    ∃ s1 t, exec (.spiIrq unit) s = .next s1 ∧ runOp (.spiIrq unit) (8 + w.toNat) s1 = .next t ∧
      phaseOf t = (if (xfer s i .rx).len = w then serviceBase .rx + 11 else nextCheck .rx) ∧
      byteAt t (xfer s i .rx).buf = (s.spi.get i).rxd.extractLsb' 0 8 ∧
      (w = 2 → byteAt t ((xfer s i .rx).buf + 1) = (s.spi.get i).rxd.extractLsb' 8 8) ∧
      (∀ a, a ≠ (xfer s i .rx).buf → (w = 2 → a ≠ (xfer s i .rx).buf + 1) → byteAt t a = byteAt s a) ∧
      t = { s with
        handles := s.handles.set i ((s.handles.get i).setDir .rx
          ⟨(xfer s i .rx).buf + w, (xfer s i .rx).len - w, .busy⟩)
        spi := s.spi.set i { s.spi.get i with rxne := false, ovrArm := true }
        mem := t.mem
        ctx := { s.ctx with act := { s.ctx.act with phase := phaseOf t, loc := locals t } } }

/-- 42 R168, R161 and R162 lines g1 to g5, 10 R22 I3: the completion clears the direction's interrupt enable bit, its cursor,
its length and its state, and only then emits the direction's event, once; the callback sees a clean direction. -/
def Obligations.CompletionIsCleanBeforeTheCallback : Prop :=
  ∀ (d : Dir) (unit : BitVec 4) (i : SpiId) (s : State), spiOf unit = some i → phaseOf s = serviceBase d + 11 →
    clkOn s (.spi i) = true →
    ∃ s1 u, exec (.spiIrq unit) s = .next s1 ∧ runOp (.spiIrq unit) (3 + extraStep s) s1 = .next u ∧
      cleanDirection u i d ∧
      u = { s with
        handles := s.handles.set i ((s.handles.get i).setDir d ⟨0, 0, .idle⟩)
        spi := s.spi.set i { s.spi.get i with cr2 := setBit (s.spi.get i).cr2 (enableBit d) false, ovrArm := false }
        ctx := { s.ctx with act := { s.ctx.act with phase := serviceBase d + 16, loc := locals u } } } ∧
      exec (.spiIrq unit) u = .next (emitCallback i (completionEvent d) (nextCheck d) u)

/-- 42 R167: reached without a transfer in flight, with a NULL cursor, or with less than one frame left, a transfer service
faults; otherwise it goes on. -/
def Obligations.ServiceWithoutTransferFaults : Prop :=
  ∀ (d : Dir) (unit : BitVec 4) (i : SpiId) (s : State), spiOf unit = some i → phaseOf s = serviceBase d + 1 →
    (((xfer s i d).st = .idle ∨ (xfer s i d).buf = 0 ∨ (xfer s i d).len.toNat < (locals s).w.toNat) →
      exec (.spiIrq unit) s = .fault .serviceWithoutTransfer) ∧
    ((xfer s i d).st = .busy → (xfer s i d).buf ≠ 0 → (locals s).w.toNat ≤ (xfer s i d).len.toNat →
      exec (.spiIrq unit) s = .next (goto (serviceBase d + 2) s))

/-- 42 R163: the overrun service clears OVR and RXNE by the two dummy reads if no transmit is Busy, leaves every SPI register
alone if one is, and emits OVR_ERR in both cases. -/
def Obligations.OverrunClearedUnlessTransmitting : Prop :=
  ∀ (unit : BitVec 4) (i : SpiId) (s : State), spiOf unit = some i → phaseOf s = ovrBase → clkOn s (.spi i) = true →
    ((xfer s i .tx).st = .busy → ∃ s1, exec (.spiIrq unit) s = .next s1 ∧
      exec (.spiIrq unit) s1 = .next (emitCallback i .ovrErr 9 s)) ∧
    ((xfer s i .tx).st = .idle → ∃ s1, exec (.spiIrq unit) s = .next s1 ∧
      runOp (.spiIrq unit) 3 s1 = .next (emitCallback i .ovrErr 9 { s with
        spi := s.spi.set i { s.spi.get i with rxne := false, ovr := false, ovrArm := false }
        draws := s.draws + 1 }))

/-- 42 R160, R164, R165, R166: each of the three checks of a dispatch samples its flag by a read of SR, then its enable bit by a read
of CR2, each as it then is, and goes to its service exactly if both are 1 and to the next check otherwise, whatever the other two
checks found; so a dispatch with any choice of active causes reaches each active cause's service and no other. One dispatch with all
three causes active, each transfer at its last frame and the callback a no-op, services each cause once, in the order transmit,
receive, overrun, and finishes with both directions clean and the overrun cleared. -/
def Obligations.DispatchServicesAllCausesInOrder : Prop :=
  (∀ (unit : BitVec 4) (i : SpiId) (s : State) (p flag enable service next : Nat), spiOf unit = some i →
    clkOn s (.spi i) = true →
    (p, flag, enable, service, next) ∈ [(0, bitTxe, bitTxeie, txeBase, 3), (3, bitRxne, bitRxneie, rxneBase, 6),
      (6, bitOvr, bitErrie, ovrBase, 9)] →
    (phaseOf s = p → exec (.spiIrq unit) s = .next (goto (p + 1)
      (updLocals (fun l => { l with t1 := (regVal (.spi i .sr) s).getLsbD flag }) (afterRead (.spi i .sr) s)))) ∧
    (phaseOf s = p + 1 → exec (.spiIrq unit) s = .next (goto (p + 2)
      (updLocals (fun l => { l with t2 := (regVal (.spi i .cr2) s).getLsbD enable }) s))) ∧
    (phaseOf s = p + 2 → exec (.spiIrq unit) s =
      .next (goto (if (locals s).t1 = true ∧ (locals s).t2 = true then service else next) s)) ∧
    (phaseOf s = p → ∃ t, runOp (.spiIrq unit) 3 s = .next t ∧ phaseOf t =
      if (regVal (.spi i .sr) s).getLsbD flag = true ∧ (regVal (.spi i .cr2) s).getLsbD enable = true then service
      else next)) ∧
  ∀ (unit : BitVec 4) (i : SpiId) (s : State) (w : Word), spiOf unit = some i → phaseOf s = 0 →
    clkOn s (.spi i) = true → w = frameWidth (regVal (.spi i .cr1) s) →
    (∀ ev t, t.params = s.params → callbackOps i ev t = []) →
    (s.spi.get i).txe = true → (s.spi.get i).rxne = true → (s.spi.get i).ovr = true → (s.spi.get i).ovrArm = false →
    (s.spi.get i).cr2.getLsbD bitTxeie = true → (s.spi.get i).cr2.getLsbD bitRxneie = true →
    (s.spi.get i).cr2.getLsbD bitErrie = true →
    (∀ d, (xfer s i d).st = .busy ∧ (xfer s i d).buf ≠ 0 ∧ (xfer s i d).len = w ∧ inLaunch s (xfer s i d).buf = true ∧
      (w = 2 → inLaunch s ((xfer s i d).buf + 1) = true)) →
    ∃ s1 k t, exec (.spiIrq unit) s = .next s1 ∧ runOp (.spiIrq unit) k s1 = .next t ∧ t.ctx = (finish s).ctx ∧
      t.cbOut = s.cbOut ++ [(i, .txCmplt), (i, .rxCmplt), (i, .ovrErr)] ∧
      t.spiOut = s.spiOut ++ [(i, (frameAt s (xfer s i .tx).buf w).setWidth 16)] ∧
      byteAt t (xfer s i .rx).buf = (s.spi.get i).rxd.extractLsb' 0 8 ∧
      (w = 2 → byteAt t ((xfer s i .rx).buf + 1) = (s.spi.get i).rxd.extractLsb' 8 8) ∧
      (∀ d, cleanDirection t i d) ∧ (t.spi.get i).ovr = false ∧ (t.spi.get i).rxne = false ∧ (t.spi.get i).txe = false

/-- 42 R173: dispatches that deliver one frame each, TXE set before each, drive the remaining length of a transmit of m frames
from m * W to 0 and emit exactly one transmit-complete callback, on the dispatch where the length reaches zero and not before; the callback is a
no-op. -/
def Obligations.DispatchesDriveATransmitToCompletion : Prop :=
  ∀ (unit : BitVec 4) (i : SpiId) (s : State) (w : Word) (m : Nat), spiOf unit = some i → clkOn s (.spi i) = true →
    w = frameWidth (regVal (.spi i .cr1) s) → (∀ ev t, t.params = s.params → callbackOps i ev t = []) → 0 < m →
    (xfer s i .tx).st = .busy → (xfer s i .tx).buf ≠ 0 → (xfer s i .tx).len.toNat = m * w.toNat →
    admittedBuffer s (xfer s i .tx).buf (xfer s i .tx).len = true →
    (s.spi.get i).cr2.getLsbD bitTxeie = true →
    ((s.spi.get i).rxne && (s.spi.get i).cr2.getLsbD bitRxneie) = false →
    ((s.spi.get i).ovr && (s.spi.get i).cr2.getLsbD bitErrie) = false →
    (∀ j, j < m → ∃ t, dispatchTimes unit i j s = .next t ∧ t.cbOut = s.cbOut ∧ (xfer t i .tx).st = .busy ∧
      (xfer t i .tx).len.toNat = (m - j) * w.toNat ∧ (xfer t i .tx).buf = (xfer s i .tx).buf + BitVec.ofNat 32 (j * w.toNat) ∧
      t.spiOut = s.spiOut ++ (framesAt s (xfer s i .tx).buf w j).map (i, ·)) ∧
    ∃ t, dispatchTimes unit i m s = .next t ∧ t.cbOut = s.cbOut ++ [(i, .txCmplt)] ∧ cleanDirection t i .tx ∧
      t.spiOut = s.spiOut ++ (framesAt s (xfer s i .tx).buf w m).map (i, ·) ∧ t.mem = s.mem

/-- 42 R170, R171, 30 R108: an emitted event is appended to the history, on the port as the handle's number and the tag 1
(TX_CMPLT), 2 (RX_CMPLT) or 3 (OVR_ERR); the operations that the parameter `callback` gives for the handle, the event and the state
run in the same context before the dispatch goes on at its next phase; an empty callback is a no-op, and the default callback is
empty; and when the callback's last command has finished the dispatch goes on where it was. -/
def Obligations.CallbackRunsBeforeTheDispatchGoesOn : Prop :=
  ∀ (i : SpiId) (ev : Event) (p : Nat) (s : State) (op : AppOp) (ops : List AppOp),
    recordEvent i ev p s = { goto p s with cbOut := s.cbOut ++ [(i, ev)] } ∧
    callbackPort (emitCallback i ev p s) = callbackPort s ++
      [(i.number, (match ev with | .txCmplt => 1 | .rxCmplt => 2 | .ovrErr => 3 : Word))] ∧
    (callbackOps i ev (recordEvent i ev p s) = [] → emitCallback i ev p s = recordEvent i ev p s) ∧
    (callbackOps i ev (recordEvent i ev p s) = op :: ops → emitCallback i ev p s =
      { recordEvent i ev p s with
        ctx := { s.ctx with
          act := Act.start (op :: ops)
          below := { s.ctx.act with phase := p } :: s.ctx.below } }) ∧
    (s.params.callback = .table [] → callbackOps i ev s = []) ∧
    ∀ (a : Act) (below : List Act), s.ctx.act.op = none → s.ctx.act.todo = [] → s.ctx.below = a :: below →
      contextStep s = .next { s with ctx := { s.ctx with act := a, below := below } }

/-- 30 R101, 10 R24, R27: a context issues a command by the micro-steps that write its own ARG0, ARG1 and CMD; the write of CMD starts
the command at phase 0. That it starts with cleared locals (`Locals.zero`) is the model's clause (log 27, DESIGN CHOICE). -/
def Obligations.CommandsAreIssuedThroughThePort : Prop :=
  ∀ (s : State) (v : Word) (rest : List AppOp), s.ctx.act.op = none →
    (s.ctx.act.todo = .arg0 v :: rest → contextStep s =
      .next { s with ctx := { s.ctx with arg0 := v, act := { s.ctx.act with todo := rest } } }) ∧
    (s.ctx.act.todo = .arg1 v :: rest → contextStep s =
      .next { s with ctx := { s.ctx with arg1 := v, act := { s.ctx.act with todo := rest } } }) ∧
    (s.ctx.act.todo = .cmd v :: rest → contextStep s =
      .next { s with ctx := { s.ctx with cmd := v, act := ⟨rest, some v, 0, Locals.zero⟩ } })

/-! ## Interrupt routing -/

/-- 43 R181: EXTI_EDGE leaves bit n of RTSR and of FTSR as the edge operand says and changes nothing else, in either order of
its two updates; edge code 0 is refused. -/
def Obligations.EdgeSelectionIsExact : Prop :=
  ∀ (n : BitVec 4) (edge : BitVec 2) (s : State),
    (edge = 0 → exec (.extiEdge n edge) s = .refused .illegalCommand) ∧
    (edge ≠ 0 → phaseOf s = 0 → ∃ s1, exec (.extiEdge n edge) s = .next s1 ∧
      runOp (.extiEdge n edge) (1 + 2 * extraStep s) s1 = .next (finish { s with exti := { s.exti with
        rtsr := setBit s.exti.rtsr n.toNat (edge.getLsbD 0)
        ftsr := setBit s.exti.ftsr n.toNat (edge.getLsbD 1) } }))

/-- 43 R182, R192, R196, 10 R49, R50: EXTI_ROUTE sets the routing peripheral's clock enable and replaces the line's own 4-bit
sub-field by the port code; no other sub-field, clock enable or register changes, but for the edge detector of line n: if the
selection changed, PREV[n] becomes the new pin's level and an edge the trigger bits select is recorded in PR[n] or not. A code
outside PORTS is refused. (The clock enable is at the place the layout gives it, which is one of the register's 32 bits where the
parameters are well formed.) -/
def Obligations.RoutingReplacesOneSubfield : Prop :=
  (∀ (c n : BitVec 4) (s : State), portOf s.params c = none → exec (.extiRoute c n) s = .refused .illegalCommand) ∧
  ∀ (c n : BitVec 4) (p : Port) (s : State), portOf s.params c = some p → phaseOf s = 0 →
    ∃ s1 t, exec (.extiRoute c n) s = .next s1 ∧ runOp (.extiRoute c n) (1 + 2 * extraStep s) s1 = .next t ∧
      t = { s with rcc := t.rcc, afio := t.afio, exti := t.exti, draws := t.draws, ctx := (finish s).ctx } ∧
      (s.params.wf → ∀ r j, (rccWord t r).getLsbD j =
        ((rccWord s r).getLsbD j || (decide (r = clkReg s.params .afio) && decide (j = clkBit s.params .afio)))) ∧
      routeCode t n = c ∧ (∀ m, m ≠ n → routeCode t m = routeCode s m) ∧
      t.afio.evcr = s.afio.evcr ∧ t.afio.mapr = s.afio.mapr ∧
      t.exti = { s.exti with pr := t.exti.pr, prev := t.exti.prev } ∧
      (∀ m, m ≠ n → t.exti.pr.getLsbD m.toNat = s.exti.pr.getLsbD m.toNat ∧
        t.exti.prev.getLsbD m.toNat = s.exti.prev.getLsbD m.toNat) ∧
      (selectedPort s n = some p → t.exti = s.exti) ∧
      (selectedPort s n ≠ some p → t.exti.prev.getLsbD n.toNat = levelOf s p n ∧
        (s.exti.pr.getLsbD n.toNat = true → t.exti.pr.getLsbD n.toNat = true) ∧
        (t.exti.pr.getLsbD n.toNat = true → s.exti.pr.getLsbD n.toNat = true ∨
          (s.exti.prev.getLsbD n.toNat = false ∧ levelOf s p n = true ∧ s.exti.rtsr.getLsbD n.toNat = true) ∨
          (s.exti.prev.getLsbD n.toNat = true ∧ levelOf s p n = false ∧ s.exti.ftsr.getLsbD n.toNat = true)))

/-- 43 R183: EXTI_ARM sets bit n of IMR and changes nothing else. -/
def Obligations.ArmSetsTheMaskBit : Prop :=
  ∀ (n : BitVec 4) (s : State), phaseOf s = 0 →
    ∃ s1, exec (.extiArm n) s = .next s1 ∧ runOp (.extiArm n) (extraStep s) s1 =
      .next (finish { s with exti := { s.exti with imr := setBit s.exti.imr n.toNat true } })

/-- 43 R184: EXTI_ACK clears bit n of PR, if it was set, and no other bit; nothing else changes. -/
def Obligations.AcknowledgeClearsOneBit : Prop :=
  ∀ (n : BitVec 4) (s : State), phaseOf s = 0 →
    ∃ s1, exec (.extiAck n) s = .next s1 ∧ exec (.extiAck n) s1 =
      .next (finish { s with exti := { s.exti with pr := setBit s.exti.pr n.toNat false } })

/-- 43 R196, R192: when pin n of port p changes, the detector of line n reacts if the line observes p: a selected edge sets
PR[n], armed or not, and PREV[n] follows; a line that observes another port, every other line, and every other register of every
port is left alone. A port that does not exist has no pins. -/
def Obligations.DetectorRecordsSelectedEdges : Prop :=
  ∀ (p : Port) (n : BitVec 4) (x : Bool) (s : State),
    (hasPort s.params p = false → makeMove (.pin p n x) s = .next s) ∧
    (hasPort s.params p = true → ∃ t, makeMove (.pin p n x) s = .next t ∧
      t = { s with
        gpio := s.gpio.set p { s.gpio.get p with level := (t.gpio.get p).level }
        exti := t.exti } ∧
      (∀ q m, levelOf t q m = if q = p ∧ m = n then x else levelOf s q m) ∧
      (selectedPort s n ≠ some p → t.exti = s.exti) ∧
      (selectedPort s n = some p →
        t.exti = { s.exti with pr := t.exti.pr, prev := t.exti.prev } ∧
        (∀ m, t.exti.prev.getLsbD m.toNat = if m = n then x else s.exti.prev.getLsbD m.toNat) ∧
        ∀ m, t.exti.pr.getLsbD m.toNat = (s.exti.pr.getLsbD m.toNat || (decide (m = n) &&
          ((!s.exti.prev.getLsbD n.toNat && x && s.exti.rtsr.getLsbD n.toNat) ||
            (s.exti.prev.getLsbD n.toNat && !x && s.exti.ftsr.getLsbD n.toNat))))))

/-- 60 R243, R242, 43 R197, R191: line(q) is the SPI request of the instance whose IRQ is q, or the OR of PR[n] and IMR[n] over
the lines whose IRQ is q; an IRQ without a source requests nothing. For every choice of the parameters `irqOfLine` is constant on 5 to 9
and on 10 to 15 (R242). The numbers 6 to 10, 23, 40, 35, 36 and 51 are the defaults that R242 gives from general knowledge (log 11,
PRESUMED); with them lines 0 to 4 have one IRQ each and share it with no other line (R191). -/
def Obligations.RequestLines : Prop :=
  (∀ (s : State) (q : Irq), line s q = true ↔
    (∃ i, irqOfSpi s.params i = q ∧
      (((s.spi.get i).txe = true ∧ (s.spi.get i).cr2.getLsbD bitTxeie = true) ∨
        ((s.spi.get i).rxne = true ∧ (s.spi.get i).cr2.getLsbD bitRxneie = true) ∨
        ((s.spi.get i).ovr = true ∧ (s.spi.get i).cr2.getLsbD bitErrie = true))) ∨
      ∃ n, irqOfLine s.params n = q ∧ s.exti.pr.getLsbD n.toNat = true ∧ s.exti.imr.getLsbD n.toNat = true) ∧
  (∀ (P : Params) (n m : BitVec 4), (5 ≤ n.toNat ∧ n.toNat ≤ 9 ∧ 5 ≤ m.toNat ∧ m.toNat ≤ 9) ∨ (10 ≤ n.toNat ∧ 10 ≤ m.toNat) →
    irqOfLine P n = irqOfLine P m) ∧
  (∀ n : BitVec 4, (irqOfLine Params.reset n).val =
    if n.toNat ≤ 4 then 6 + n.toNat else if n.toNat ≤ 9 then 23 else 40) ∧
  (irqOfSpi Params.reset .spi1).val = 35 ∧ (irqOfSpi Params.reset .spi2).val = 36 ∧ (irqOfSpi Params.reset .spi3).val = 51 ∧
  ∀ n m : BitVec 4, irqOfLine Params.reset n = irqOfLine Params.reset m ↔
    n = m ∨ (5 ≤ n.toNat ∧ n.toNat ≤ 9 ∧ 5 ≤ m.toNat ∧ m.toNat ≤ 9) ∨ (10 ≤ n.toNat ∧ 10 ≤ m.toNat)

/-- 43 R185, R186, 20 R82, 30 R109: IRQ_ENABLE writes EN[q] in one micro-step and nothing else, PEND and ACTIVE staying as they are;
IRQ_PRIO writes PRIO[q] and nothing else, not the priority of the IRQs that share its register; a number not below N_IRQ and a
priority of more than PRIO_BITS bits are refused. -/
def Obligations.EnableAndPriorityOfOneIrq : Prop :=
  ∀ (q prio : BitVec 8) (en : Bool) (s : State),
    (s.params.nIrq ≤ q.toNat → exec (.irqEnable q en) s = .refused .illegalCommand ∧
      exec (.irqPrio q prio) s = .refused .illegalCommand) ∧
    (2 ^ s.params.prioBits ≤ prio.toNat → exec (.irqPrio q prio) s = .refused .illegalCommand) ∧
    ∀ x : Irq, x.val = q.toNat → x.val < s.params.nIrq →
      exec (.irqEnable q en) s = .next (finish { s with nvic := { s.nvic with en := setBit s.nvic.en x.val en } }) ∧
      (prio.toNat < 2 ^ s.params.prioBits → phaseOf s = 0 →
        ∃ s1 t, exec (.irqPrio q prio) s = .next s1 ∧ runOp (.irqPrio q prio) (extraStep s) s1 = .next t ∧
          prioOf t x = prio ∧ (∀ y, y ≠ x → prioOf t y = prioOf s y) ∧
          t = finish { s with nvic := { s.nvic with lane := t.nvic.lane } })

/-! ## Taking an interrupt and returning from it -/

/-- 60 R248, R253, R246: the arbiter may enter q exactly if q is an IRQ below N_IRQ, pending, enabled, not active and of strictly
higher priority than every active IRQ, and no other such IRQ is of strictly higher priority than q. With the default order a
numerically lower priority is the higher one. -/
def Obligations.EntryCondition : Prop :=
  (∀ (s : State) (q : Irq), canEnter s q = true ↔
    (q.val < s.params.nIrq ∧ s.nvic.pend.getLsbD q.val = true ∧ s.nvic.en.getLsbD q.val = true ∧ q ∉ active s ∧
      ∀ a ∈ active s, higher s.params (prioOf s q) (prioOf s a) = true) ∧
    ∀ r : Irq, r.val < s.params.nIrq → s.nvic.pend.getLsbD r.val = true → s.nvic.en.getLsbD r.val = true → r ∉ active s →
      (∀ a ∈ active s, higher s.params (prioOf s r) (prioOf s a) = true) →
      higher s.params (prioOf s r) (prioOf s q) = false) ∧
  ∀ (P : Params) (p r : BitVec 8), P.order = .numeric → (higher P p r = true ↔ p.toNat < r.toNat)

/-- 60 R249: entering q clears PEND[q], pushes q, freezes the pre-empted context as it stands and starts a new context on the
handler's body; nothing else changes. The second clause, that the move of an entry that is not enabled (R248) changes nothing, is
the form that the model gives to a step that does not exist (log 2, DESIGN CHOICE). -/
def Obligations.EntryFreezesThePreemptedContext : Prop :=
  ∀ (s : State) (q : Irq),
    (canEnter s q = true → ∃ t, makeMove (.enter q) s = .next t ∧ active t = q :: active s ∧
      (∀ r : Irq, t.nvic.pend.getLsbD r.val = (s.nvic.pend.getLsbD r.val && decide (r ≠ q))) ∧
      t = { s with
        nvic := { s.nvic with pend := t.nvic.pend }
        frozen := (q, s.ctx) :: s.frozen
        ctx := Context.start (handlerBody s q) }) ∧
    (canEnter s q = false → makeMove (.enter q) s = .next s)

/-- 60 R250, R247, R255: once the innermost handler has finished, the return pops ACTIVE and resumes the frozen context where it
was; nothing is restored; and if the IRQ's request is still asserted it is pending again after the step. -/
def Obligations.ReturnResumesTheFrozenContext : Prop :=
  ∀ (s : State) (q : Irq) (c : Context) (rest : List (Irq × Context)) (ms : List Move),
    s.sched = .leave :: ms → s.frozen = (q, c) :: rest → (active s).Nodup →
    (finished s = true → ∃ t, step s = .next t ∧ active s = q :: active t ∧
      t = { s with sched := ms, ctx := c, frozen := rest, nvic := { s.nvic with pend := t.nvic.pend } } ∧
      (line s q = true → t.nvic.pend.getLsbD q.val = true)) ∧
    (finished s = false → ∃ t, step s = .next t ∧ t.ctx = s.ctx ∧ t.frozen = s.frozen)

/-- 60 R251, R248, R250, 00 R5: in one step the stack of contexts stays, or grows by a pre-emption of the running context by an
IRQ of strictly higher priority than every active one, or shrinks by a return; a context below the running one never changes. The
foreground and the handlers never run at the same time: a move of one whose context is not the running one is no step. -/
def Obligations.FrozenContextsTakeNoStep : Prop :=
  (∀ s t : State, step s = .next t →
    t.frozen = s.frozen ∨
      (∃ q, t.frozen = (q, s.ctx) :: s.frozen ∧ ∀ a ∈ active s, higher s.params (prioOf s q) (prioOf s a) = true) ∨
      ∃ q, s.frozen = (q, t.ctx) :: t.frozen ∧ finished s = true) ∧
  ∀ (s : State) (b : Bool),
    (s.frozen ≠ [] → makeMove (.foreground b) s = .next s) ∧
    ∀ q, (active s).head? ≠ some q → makeMove (.handler q b) s = .next s

/-! ## I2C -/

/-- 44 R211, R212: a master send of N bytes to address A, the bus unit setting every flag before each micro-step, makes exactly
one start condition, one address write with bit 0 clear, the N data writes in order, and one stop condition, and finishes; it
changes nothing but that instance's DR, flags and clear latch and the output history. A unit number outside 1..N_I2C is refused; a
buffer that the address conditions do not admit is refused unless N = 0; a register access with the clock off is refused. That the
buffer is checked at the first micro-step, before the clock, is the model's (log 40, DESIGN CHOICE). -/
def Obligations.MasterSendProtocol : Prop :=
  (∀ (unit : BitVec 4) (a : BitVec 7) (s : State), i2cOf s.params unit = none →
    exec (.i2cMsend unit a) s = .refused .illegalCommand) ∧
  ∀ (unit : BitVec 4) (u : I2cId) (a : BitVec 7) (s : State), i2cOf s.params unit = some u →
    (phaseOf s = 0 → s.ctx.arg1 ≠ 0 → admittedBuffer s s.ctx.arg0 s.ctx.arg1 = false →
      exec (.i2cMsend unit a) s = .refused .badAddress) ∧
    (phaseOf s = 0 → s.ctx.arg1 = 0 ∨ admittedBuffer s s.ctx.arg0 s.ctx.arg1 = true →
      exec (.i2cMsend unit a) s = .next (goto 1 (updLocals (fun l => { l with b := s.ctx.arg0 }) s)) ∧
      (clkOn s (.i2c u) = false → runOp (.i2cMsend unit a) 3 s = .refused .clockOff)) ∧
    (phaseOf s ∈ [2, 3, 4, 5, 6, 7, 8, 10, 12, 14, 15, 16, 17] → clkOn s (.i2c u) = false →
      exec (.i2cMsend unit a) s = .refused .clockOff) ∧
    (phaseOf s = 0 → clkOn s (.i2c u) = true → admittedBuffer s s.ctx.arg0 s.ctx.arg1 = true →
      (s.i2c.get u).cr1.getLsbD bitStart = false → (s.i2c.get u).cr1.getLsbD bitStop = false →
      ∃ s1 t, exec (.i2cMsend unit a) (obligingBus u s) = .next s1 ∧
        runOpWith (obligingBus u) (.i2cMsend unit a) (11 + 5 * s.ctx.arg1.toNat + 2 * extraStep s) s1 = .next t ∧
        t.i2cOut = s.i2cOut ++ (u, .start) :: (u, .byte ((addrByte a).setWidth 8)) ::
          (bytesAt s s.ctx.arg0 s.ctx.arg1.toNat).map (fun x => (u, .byte x)) ++ [(u, .stop)] ∧
        t = { s with i2c := t.i2c, i2cOut := t.i2cOut, draws := t.draws, ctx := (finish s).ctx } ∧
        t.i2c = s.i2c.set u { s.i2c.get u with
          dr := (t.i2c.get u).dr
          sb := (t.i2c.get u).sb
          addr := (t.i2c.get u).addr
          txe := (t.i2c.get u).txe
          btf := (t.i2c.get u).btf
          addrArm := (t.i2c.get u).addrArm })

/-- 44 R212: the address byte holds the address in bits 7:1 and 0 in bit 0, zero-extended. -/
def Obligations.AddressByte : Prop :=
  ∀ a : BitVec 7, (addrByte a).getLsbD 0 = false ∧ (addrByte a).extractLsb' 1 7 = a ∧ (addrByte a).extractLsb' 8 24 = 0 ∧
    addrByte a = (a.setWidth 32 <<< 1) &&& 0xFE

/-- 44 R213: no micro-step of I2C_MSEND touches SPI state, EXTI state, a handle, buffer memory, or any register but those of an
I2C instance. -/
def Obligations.MasterSendTouchesOnlyI2c : Prop :=
  ∀ (unit : BitVec 4) (a : BitVec 7) (s t : State), exec (.i2cMsend unit a) s = .next t →
    t = { s with i2c := t.i2c, i2cOut := t.i2cOut, draws := t.draws, ctx := { s.ctx with act := t.ctx.act } }

/-! ## GPIO, clocks and raw register access -/

/-- 45 R221, 20 R84: GPIO_CFG gives pin n the mode and the electrical configuration asked for and leaves every other pin's field,
and every other register, alone; an illegal mode, configuration or pair, a code outside PORTS, and a clock that is off are
refused. -/
def Obligations.PinConfiguration : Prop :=
  ∀ (c n : BitVec 4) (mode ecfg : BitVec 3) (s : State),
    (portOf s.params c = none → exec (.gpioCfg c n mode ecfg) s = .refused .illegalCommand) ∧
    (pinConfigLegal mode ecfg = false → exec (.gpioCfg c n mode ecfg) s = .refused .illegalCommand) ∧
    ∀ p, portOf s.params c = some p → pinConfigLegal mode ecfg = true → phaseOf s = 0 →
      (clkOn s (.gpio p) = false → exec (.gpioCfg c n mode ecfg) s = .refused .clockOff) ∧
      (clkOn s (.gpio p) = true →
        ∃ s1 t, exec (.gpioCfg c n mode ecfg) s = .next s1 ∧ runOp (.gpioCfg c n mode ecfg) (extraStep s) s1 = .next t ∧
          pinMode (t.gpio.get p) n = mode ∧ pinEcfg (t.gpio.get p) n = some ecfg ∧
          (∀ m, m ≠ n → pinConfigField (t.gpio.get p) m = pinConfigField (s.gpio.get p) m) ∧
          t = { s with gpio := t.gpio, draws := t.draws, ctx := (finish s).ctx } ∧
          t.gpio = s.gpio.set p { s.gpio.get p with crl := (t.gpio.get p).crl, crh := (t.gpio.get p).crh })

/-- 45 R222, R223: the GPIO reads return the level of the pin, or the 16 levels, and change nothing but RET. -/
def Obligations.PinReads : Prop :=
  ∀ (c n : BitVec 4) (p : Port) (s : State), portOf s.params c = some p → clkOn s (.gpio p) = true → phaseOf s = 0 →
    (∃ s1, exec (.gpioRdPin c n) s = .next s1 ∧ exec (.gpioRdPin c n) s1 =
      .next (finish (setRet (if levelOf s p n then 1 else 0) s))) ∧
    ∃ s1, exec (.gpioRdPort c) s = .next s1 ∧ exec (.gpioRdPort c) s1 =
      .next (finish (setRet ((s.gpio.get p).level.setWidth 32) s))

/-- 45 R224, R225, R226: the GPIO writes set one output bit, all sixteen, or invert one, and change nothing else. -/
def Obligations.PinWrites : Prop :=
  ∀ (c n : BitVec 4) (p : Port) (v : Bool) (x : Half) (s : State), portOf s.params c = some p → clkOn s (.gpio p) = true →
    phaseOf s = 0 →
    (∃ s1, exec (.gpioWrPin c n v) s = .next s1 ∧ runOp (.gpioWrPin c n v) (extraStep s) s1 =
      .next (finish { s with gpio := s.gpio.set p { s.gpio.get p with odr := setBit (s.gpio.get p).odr n.toNat v } })) ∧
    exec (.gpioWrPort c x) s = .next (finish { s with gpio := s.gpio.set p { s.gpio.get p with odr := x } }) ∧
    ∃ s1, exec (.gpioTglPin c n) s = .next s1 ∧ runOp (.gpioTglPin c n) (extraStep s) s1 =
      .next (finish { s with gpio := s.gpio.set p { s.gpio.get p with
        odr := setBit (s.gpio.get p).odr n.toNat (!(s.gpio.get p).odr.getLsbD n.toNat) } })

/-- 45 R227, 10 R50: PCLK writes the clock enable of one peripheral; every other clock enable, and every other register, is
unchanged; an identifier that names none is refused. (The parameters are well formed: no two clock enables share a place.) -/
def Obligations.ClockEnable : Prop :=
  (∀ (id : BitVec 8) (en : Bool) (s : State), peripheralOf s.params id = none → exec (.pclk id en) s = .refused .illegalCommand) ∧
  ∀ (id : BitVec 8) (p : Peripheral) (en : Bool) (s : State), s.params.wf → peripheralOf s.params id = some p → phaseOf s = 0 →
    ∃ s1 t, exec (.pclk id en) s = .next s1 ∧ runOp (.pclk id en) (extraStep s) s1 = .next t ∧
      clkOn t p = en ∧ (∀ q, hasPeripheral s.params q = true → q ≠ p → clkOn t q = clkOn s q) ∧ t = finish { s with rcc := t.rcc } ∧
      ∀ r j, (r ≠ clkReg s.params p ∨ j ≠ clkBit s.params p) → (rccWord t r).getLsbD j = (rccWord s r).getLsbD j

/-- 45 R228: REG_RD performs one read of the register at ARG0, with its side effects, and returns the value, its
bits where the layout has them; an address that is no multiple of 4 or no register, and a clock that is off, are refused. -/
def Obligations.RawRead : Prop :=
  ∀ s : State, phaseOf s = 0 →
    (s.ctx.arg0.toNat % 4 ≠ 0 → exec .regRd s = .refused .unknownRegister) ∧
    (regAt s.params s.ctx.arg0.toNat = none → exec .regRd s = .refused .unknownRegister) ∧
    ∀ r, s.ctx.arg0.toNat % 4 = 0 → regAt s.params s.ctx.arg0.toNat = some r →
      (accessible s r = false → exec .regRd s = .refused .clockOff) ∧
      (accessible s r = true → ∃ s1, exec .regRd s = .next s1 ∧
        exec .regRd s1 = .next (finish (setRet (toBus s.params r (regVal r s)) (afterRead r s))))

/-- 45 R229: REG_WR performs one write of ARG1 to the register at ARG0, with its side effects; the refusals of REG_RD apply, and
a register whose bits the environment owns is refused. That such a register is refused as environment-owned even while its clock is
off is the model's choice (log 24). -/
def Obligations.RawWrite : Prop :=
  ∀ s : State,
    (s.ctx.arg0.toNat % 4 ≠ 0 → exec .regWr s = .refused .unknownRegister) ∧
    (regAt s.params s.ctx.arg0.toNat = none → exec .regWr s = .refused .unknownRegister) ∧
    ∀ r, s.ctx.arg0.toNat % 4 = 0 → regAt s.params s.ctx.arg0.toNat = some r →
      ((∃ i, r = .spi i .sr) ∨ (∃ u, r = .i2c u .sr1) ∨ (∃ u, r = .i2c u .sr2) ∨ (∃ p, r = .gpio p .idr) →
        exec .regWr s = .refused .envOwnedWrite) ∧
      (envOwned r = false → accessible s r = false → exec .regWr s = .refused .clockOff) ∧
      (envOwned r = false → accessible s r = true → exec .regWr s = .next (finish (afterWrite r (fromBus s.params r s.ctx.arg1) s)))

/-- 10 R33, R35, 20 R75, R79: a write of the SPI data register stores the frame, emits it and clears TXE; a read returns the
receive latch, clears RXNE and arms the overrun clear sequence; SR holds the flags; every read of SR disarms the sequence, and,
if it was armed, keeps OVR or clears it where the read is incidental and clears it where it is the overrun service's own. -/
def Obligations.DataAndStatusRegisterAccesses : Prop :=
  ∀ (i : SpiId) (v : Word) (explicit : Bool) (s : State),
    afterWrite (.spi i .dr) v s = { s with
      spi := s.spi.set i { s.spi.get i with txd := v.setWidth 16, txe := false, ovrArm := false }
      spiOut := s.spiOut ++ [(i, v.setWidth 16)] } ∧
    regVal (.spi i .dr) s = (s.spi.get i).rxd.setWidth 32 ∧
    afterRead (.spi i .dr) s = { s with spi := s.spi.set i { s.spi.get i with rxne := false, ovrArm := true } } ∧
    (regVal (.spi i .sr) s).getLsbD 0 = (s.spi.get i).rxne ∧ (regVal (.spi i .sr) s).getLsbD 1 = (s.spi.get i).txe ∧
    (regVal (.spi i .sr) s).getLsbD 6 = (s.spi.get i).ovr ∧
    afterRead (.spi i .sr) s = readSr i false s ∧
    ((s.spi.get i).ovrArm = false → ((readSr i explicit s).spi.get i).ovr = (s.spi.get i).ovr) ∧
    ((s.spi.get i).ovrArm = true → explicit = true → ((readSr i explicit s).spi.get i).ovr = false) ∧
    (((readSr i explicit s).spi.get i).ovr = true → (s.spi.get i).ovr = true) ∧
    readSr i explicit s = { s with
      spi := s.spi.set i { s.spi.get i with ovr := ((readSr i explicit s).spi.get i).ovr, ovrArm := false }
      draws := s.draws + 1 }

/-- 10 R55, R56, 20 R83: a write of I2C CR1 requests a start or a stop condition where its bit is 1 and stores neither; reading SR1 with
ADDR set and then SR2 clears ADDR and nothing else; SR1 holds SB at bit 0, ADDR at 1, BTF at 2 and TXE at 7; a write of DR stores its
low 8 bits and appends them to the output history, and nothing else. A write of CR1 that sets both bits makes both requests, in an
order that is not said (log 19). -/
def Obligations.I2cRegisterAccesses : Prop :=
  ∀ (u : I2cId) (v : Word) (s : State), ∃ reqs : List I2cOut,
    afterWrite (.i2c u .cr1) v s = { s with
      i2c := s.i2c.set u { s.i2c.get u with cr1 := setBit (setBit v bitStart false) bitStop false }
      i2cOut := s.i2cOut ++ reqs.map (u, ·)
      draws := s.draws + 1 } ∧
    (v.getLsbD bitStart = false → v.getLsbD bitStop = false → reqs = []) ∧
    (v.getLsbD bitStart = true → v.getLsbD bitStop = false → reqs = [.start]) ∧
    (v.getLsbD bitStart = false → v.getLsbD bitStop = true → reqs = [.stop]) ∧
    (v.getLsbD bitStart = true → v.getLsbD bitStop = true → reqs = [.start, .stop] ∨ reqs = [.stop, .start]) ∧
    ((s.i2c.get u).addr = true → afterRead (.i2c u .sr2) (afterRead (.i2c u .sr1) s) =
      { s with i2c := s.i2c.set u { s.i2c.get u with addr := false, addrArm := false } }) ∧
    (regVal (.i2c u .sr1) s).getLsbD 0 = (s.i2c.get u).sb ∧ (regVal (.i2c u .sr1) s).getLsbD 1 = (s.i2c.get u).addr ∧
    (regVal (.i2c u .sr1) s).getLsbD 2 = (s.i2c.get u).btf ∧ (regVal (.i2c u .sr1) s).getLsbD 7 = (s.i2c.get u).txe ∧
    afterWrite (.i2c u .dr) v s = { s with
      i2c := s.i2c.set u { s.i2c.get u with dr := v.setWidth 8 }
      i2cOut := s.i2cOut ++ [(u, .byte (v.setWidth 8))] }

/-- 10 R30, R31, R45, R46, R49, R50, R53, R51, 20 R79 to R82, 45 R229: REG_WR of a register that is read and written and has a rule
performs the write, its bits where the layout has them, and the register then holds what was written in the bits its rule names: CR1,
CR2 and EXTICR their low 16 bits, the others reading 0; IMR, RTSR and FTSR a bit for each line; CRL and CRH every bit; ODR 16 bits; the
clock-control registers the clock enables; ISER sets and ICER clears the enables whose bit is 1 and leaves the others; IPR the
priorities of its four IRQs, from the top PRIO_BITS bits of each byte lane, and no other; the bits of a register that belong to no IRQ
below N_IRQ ignore the write. Every other register reads as before, but that a write of EXTICR may set bits of PR and one of ISER or
ICER shows in both; and no other piece of state changes, but that a write to SPI disarms the overrun clear sequence and one of EXTICR
moves PREV. The values are said with the bits in the default order; that an access by address sees the layout's positions is log 41. -/
def Obligations.RuledRegistersHoldWhatIsWritten : Prop :=
  (∀ (i : SpiId) (p : Port) (k : Fin 4) (x : RccReg) (j : Fin 8) (l : Fin 64) (s : State),
    ∀ r ∈ [Reg.spi i .cr1, .spi i .cr2, .exti .imr, .exti .rtsr, .exti .ftsr, .afio (.exticr k), .gpio p .crl, .gpio p .crh,
        .gpio p .odr, .rcc x, .nvic (.iser j), .nvic (.icer j), .nvic (.ipr l)],
      (s.params.wf → r ∈ allRegs s.params → s.ctx.arg0.toNat = regAddr s.params r → accessible s r = true →
        exec .regWr s = .next (finish (afterWrite r (fromBus s.params r s.ctx.arg1) s)) ∧
          ∀ v : Word, fromBus s.params r (toBus s.params r v) = v) ∧
      ∀ (v : Word) (q : Reg), q ≠ r →
        (∀ k, r = .afio (.exticr k) → q ≠ .exti .pr ∧ ∀ u, q ≠ .i2c u .dr) →
        (∀ j, (r = .nvic (.iser j) → q ≠ .nvic (.icer j)) ∧ (r = .nvic (.icer j) → q ≠ .nvic (.iser j))) →
        regVal q (afterWrite r v s) = regVal q s) ∧
  ∀ (v : Word) (s : State),
    (∀ i, afterWrite (.spi i .cr1) v s = { s with
        spi := s.spi.set i { s.spi.get i with cr1 := v.setWidth 16, ovrArm := false } } ∧
      afterWrite (.spi i .cr2) v s = { s with
        spi := s.spi.set i { s.spi.get i with cr2 := v.setWidth 16, ovrArm := false } }) ∧
    (∃ x y z, afterWrite (.exti .imr) v s = { s with exti := { s.exti with imr := x } } ∧
      afterWrite (.exti .rtsr) v s = { s with exti := { s.exti with rtsr := y } } ∧
      afterWrite (.exti .ftsr) v s = { s with exti := { s.exti with ftsr := z } }) ∧
    (∀ k, ∃ (a : BitVec 16) (e : ExtiRegs) (d : Nat), afterWrite (.afio (.exticr k)) v s = { s with
      afio := setRouteSlot s.afio k a, exti := { s.exti with pr := e.pr, prev := e.prev }, draws := d }) ∧
    (∀ p, afterWrite (.gpio p .crl) v s = { s with gpio := s.gpio.set p { s.gpio.get p with crl := v } } ∧
      afterWrite (.gpio p .crh) v s = { s with gpio := s.gpio.set p { s.gpio.get p with crh := v } } ∧
      afterWrite (.gpio p .odr) v s = { s with gpio := s.gpio.set p { s.gpio.get p with odr := v.setWidth 16 } }) ∧
    (∃ x y, afterWrite (.rcc .apb2enr) v s = { s with rcc := { s.rcc with apb2enr := x } } ∧
      afterWrite (.rcc .apb1enr) v s = { s with rcc := { s.rcc with apb1enr := y } }) ∧
    (∀ j, ∃ x y, afterWrite (.nvic (.iser j)) v s = { s with nvic := { s.nvic with en := x } } ∧
      afterWrite (.nvic (.icer j)) v s = { s with nvic := { s.nvic with en := y } }) ∧
    (∀ l, ∃ x, afterWrite (.nvic (.ipr l)) v s = { s with nvic := { s.nvic with lane := x } }) ∧
    (∀ i, ∀ r ∈ [Reg.spi i .cr1, .spi i .cr2], regVal r (afterWrite r v s) = v &&& 0xFFFF) ∧
    (∀ r ∈ [Reg.exti .imr, .exti .rtsr, .exti .ftsr], ∀ n : BitVec 4,
      (regVal r (afterWrite r v s)).getLsbD n.toNat = v.getLsbD n.toNat) ∧
    (∀ k, regVal (.afio (.exticr k)) (afterWrite (.afio (.exticr k)) v s) = v &&& 0xFFFF) ∧
    (∀ p, regVal (.gpio p .crl) (afterWrite (.gpio p .crl) v s) = v ∧ regVal (.gpio p .crh) (afterWrite (.gpio p .crh) v s) = v ∧
      regVal (.gpio p .odr) (afterWrite (.gpio p .odr) v s) = v &&& 0xFFFF) ∧
    (∀ y, clkOn (afterWrite (.rcc (clkReg s.params y)) v s) y = v.getLsbD (clkBit s.params y)) ∧
    (∀ (j : Fin 8) (q : Irq),
      (afterWrite (.nvic (.iser j)) v s).nvic.en.getLsbD q.val =
        (s.nvic.en.getLsbD q.val || (decide (q.val / 32 = j.val ∧ q.val < s.params.nIrq) && v.getLsbD (q.val % 32))) ∧
      (afterWrite (.nvic (.icer j)) v s).nvic.en.getLsbD q.val =
        (s.nvic.en.getLsbD q.val && !(decide (q.val / 32 = j.val ∧ q.val < s.params.nIrq) && v.getLsbD (q.val % 32)))) ∧
    ∀ (l : Fin 64) (q : Irq), prioOf (afterWrite (.nvic (.ipr l)) v s) q =
      if q.val / 4 = l.val ∧ q.val < s.params.nIrq then
        v.extractLsb' (8 * (q.val % 4)) 8 >>> (8 - s.params.prioBits)
      else prioOf s q
end

