-- ==== Sys2Proof/Laws/Bits.lean ====
section
/-! SUPPORT. The bits of the bit and field updates. -/

namespace Sys2Proof.Machine

/-- Bit j of a value with bit k replaced. -/
theorem setBit_getLsbD {n : Nat} (v : BitVec n) (k j : Nat) (x : Bool) (hj : j < n) :
    (setBit v k x).getLsbD j = if j = k then x else v.getLsbD j := by
  unfold setBit
  by_cases h : j = k
  · subst h; cases x <;> simp [hj]
  · cases x <;> simp [hj, h] <;> omega

/-- Replacing a bit by itself changes nothing. -/
theorem setBit_self {n : Nat} (v : BitVec n) (k : Nat) : setBit v k (v.getLsbD k) = v := by
  apply BitVec.eq_of_getLsbD_eq
  intro j hj
  rw [setBit_getLsbD v k j _ hj]
  split <;> simp_all

/-- A second replacement of the same bit wins. -/
theorem setBit_setBit {n : Nat} (v : BitVec n) (k : Nat) (x y : Bool) : setBit (setBit v k x) k y = setBit v k y := by
  apply BitVec.eq_of_getLsbD_eq
  intro j hj
  simp only [setBit_getLsbD _ _ _ _ hj]
  split <;> rfl

/-- Bit j of a value with a field replaced. -/
theorem setField_getLsbD {n len : Nat} (v : BitVec n) (lo j : Nat) (x : BitVec len) (hj : j < n) :
    (setField v lo x).getLsbD j = if lo ≤ j ∧ j < lo + len then x.getLsbD (j - lo) else v.getLsbD j := by
  unfold setField
  by_cases h1 : j < lo
  · have h : ¬ (lo ≤ j ∧ j < lo + len) := by omega
    simp [hj, h1, h]
  · by_cases h2 : j - lo < len
    · have h : lo ≤ j ∧ j < lo + len := by omega
      simp [hj, h1, h2, h]
    · have h : ¬ (lo ≤ j ∧ j < lo + len) := by omega
      have h3 : x.getLsbD (j - lo) = false := BitVec.getLsbD_of_ge _ _ (by omega)
      simp [hj, h1, h2, h, h3]

/-- Bit j of the word with one bit. -/
theorem bitAt_getLsbD (k j : Nat) (x : Bool) (hj : j < 32) : (bitAt k x).getLsbD j = (x && decide (j = k)) := by
  unfold bitAt
  by_cases h : j = k
  · subst h; cases x <;> simp [hj]
  · cases x <;> simp [hj, h]
    omega

/-- Bit j of the mask of one IRQ. -/
theorem irqBit_getLsbD (q : Irq) (j : Nat) (x : Bool) : (irqBit q x).getLsbD j = (x && decide (j = q.val)) := by
  unfold irqBit
  have hq := q.isLt
  by_cases h : j = q.val
  · subst h; cases x <;> simp [hq]
  · cases x <;> simp [h]
    omega

end Sys2Proof.Machine
end

