-- ==== Sys2Proof/Laws/Decode.lean ====
section
/-! SUPPORT. The fields of an assembled command word (30 R100), and how one row decodes. -/

namespace Sys2Proof

open Sys2Proof.Machine

/-- Bit j of an assembled word. -/
theorem packFields_getLsbD (o : BitVec 8) (u p : BitVec 4) (x : BitVec 16) (j : Nat) :
    (packFields o u p x).getLsbD j =
      if j < 16 then x.getLsbD j
      else if j - 16 < 4 then p.getLsbD (j - 16)
      else if j - 16 - 4 < 4 then u.getLsbD (j - 16 - 4)
      else o.getLsbD (j - 16 - 4 - 4) := by
  have h1 := BitVec.getLsbD_append (x := o ++ u ++ p) (y := x) (i := j)
  have h2 := BitVec.getLsbD_append (x := o ++ u) (y := p) (i := j - 16)
  have h3 := BitVec.getLsbD_append (x := o) (y := u) (i := j - 16 - 4)
  refine h1.trans ?_
  rw [h2, h3]

@[simp] theorem opcField_packFields (o : BitVec 8) (u p : BitVec 4) (x : BitVec 16) :
    opcField (packFields o u p x) = o := by
  refine BitVec.eq_of_getLsbD_eq fun i hi => ?_
  rw [opcField, BitVec.getLsbD_extractLsb', packFields_getLsbD, if_neg (by omega), if_neg (by omega),
    if_neg (by omega), show 24 + i - 16 - 4 - 4 = i by omega]
  simp [hi]

@[simp] theorem unitField_packFields (o : BitVec 8) (u p : BitVec 4) (x : BitVec 16) :
    unitField (packFields o u p x) = u := by
  refine BitVec.eq_of_getLsbD_eq fun i hi => ?_
  rw [unitField, BitVec.getLsbD_extractLsb', packFields_getLsbD, if_neg (by omega), if_neg (by omega),
    if_pos (by omega), show 20 + i - 16 - 4 = i by omega]
  simp [hi]

@[simp] theorem pinField_packFields (o : BitVec 8) (u p : BitVec 4) (x : BitVec 16) :
    pinField (packFields o u p x) = p := by
  refine BitVec.eq_of_getLsbD_eq fun i hi => ?_
  rw [pinField, BitVec.getLsbD_extractLsb', packFields_getLsbD, if_neg (by omega), if_pos (by omega),
    show 16 + i - 16 = i by omega]
  simp [hi]

@[simp] theorem immField_packFields (o : BitVec 8) (u p : BitVec 4) (x : BitVec 16) :
    immField (packFields o u p x) = x := by
  refine BitVec.eq_of_getLsbD_eq fun i hi => ?_
  rw [immField, BitVec.getLsbD_extractLsb', packFields_getLsbD, if_pos (by omega), show 0 + i = i by omega]
  simp [hi]

/-- A word is assembled from its own fields. -/
theorem packFields_fields (w : Word) : packFields (opcField w) (unitField w) (pinField w) (immField w) = w := by
  refine BitVec.eq_of_getLsbD_eq fun i hi => ?_
  rw [packFields_getLsbD]
  simp only [opcField, unitField, pinField, immField, BitVec.getLsbD_extractLsb']
  split
  · rw [show 0 + i = i by omega]; simp_all
  · split
    · rw [show 16 + (i - 16) = i by omega]; simp_all
    · split
      · rw [show 20 + (i - 16 - 4) = i by omega]; simp_all
      · rw [show 24 + (i - 16 - 4 - 4) = i by omega]
        have : i - 16 - 4 - 4 < 8 := by omega
        simp_all

/-- Decoding an assembled word looks the row up by its fields. -/
theorem decode_packFields (P : Params) (o : BitVec 8) (u p : BitVec 4) (x : BitVec 16) :
    decode P (packFields o u p x) =
      match fieldsToInstr o u p x with
      | .ok i => checked P i
      | .error e => .error e := by
  cases h : fieldsToInstr o u p x <;> simp [decode, h]

/-- The check accepts exactly the well-formed commands. -/
theorem checked_ok (P : Params) (i j : Instr) : checked P i = .ok j ↔ i = j ∧ i.WellFormed P := by
  unfold checked Instr.WellFormed
  split <;> simp_all

/-- What the decoder accepts is well formed (30 R112). -/
theorem wellFormed_of_decode {P : Params} {w : Word} {i : Instr} (h : decode P w = .ok i) : i.WellFormed P := by
  unfold decode at h
  split at h
  · obtain ⟨rfl, hw⟩ := (checked_ok _ _ _).1 h
    exact hw
  · cases h

end Sys2Proof
end

