-- ==== Sys2Proof/Laws/Memory.lean ====
section
/-! SUPPORT. Buffer memory: a read after a write, and the canonical form. -/

namespace Sys2Proof.Machine

/-- A read of the address just written gives the byte written. -/
@[simp] theorem Memory.read_write_self (m : Memory) (a : Nat) (v : Byte) : (m.write a v).read a = some v := by
  induction m with
  | nil => simp [Memory.write, Memory.read]
  | cons c rest ih =>
    simp only [Memory.write]
    split
    · simp [Memory.read]
    · split
      · simp [Memory.read]
      · simp only [Memory.read, if_neg ‹¬ a = c.1›, ih]

/-- A write leaves every other address alone. -/
theorem Memory.read_write_ne (m : Memory) {a b : Nat} (v : Byte) (h : b ≠ a) : (m.write a v).read b = m.read b := by
  induction m with
  | nil => simp [Memory.write, Memory.read, h]
  | cons c rest ih =>
    simp only [Memory.write]
    split
    · simp [Memory.read, h]
    · split
      · subst_vars; simp [Memory.read, h]
      · simp only [Memory.read, ih]

/-- The addresses a write lists. -/
theorem Memory.mem_write (m : Memory) (a : Nat) (v : Byte) (c : Host.Cell) (hc : c ∈ m.write a v) :
    c.1 = a ∨ c ∈ m := by
  induction m with
  | nil => simp [Memory.write] at hc; simp [hc]
  | cons d rest ih =>
    simp only [Memory.write] at hc
    split at hc
    · rcases List.mem_cons.1 hc with rfl | h
      · exact .inl rfl
      · exact .inr h
    · split at hc
      · rcases List.mem_cons.1 hc with rfl | h
        · exact .inl rfl
        · exact .inr (List.mem_cons_of_mem _ h)
      · rcases List.mem_cons.1 hc with rfl | h
        · exact .inr (List.mem_cons_self ..)
        · exact (ih h).imp id (List.mem_cons_of_mem _)

/-- A write inside the address space keeps the canonical form. -/
theorem Memory.write_wf (m : Memory) (a : Nat) (v : Byte) (h : m.wf) (ha : a < 2 ^ 32) : (m.write a v).wf := by
  refine ⟨?_, fun c hc => ?_⟩
  · have h1 := h.1
    clear h
    induction m with
    | nil => simp [Memory.write]
    | cons c rest ih =>
      rw [List.map_cons, List.pairwise_cons] at h1
      simp only [Memory.write]
      split
      · rename_i hlt
        rw [List.map_cons, List.map_cons, List.pairwise_cons, List.pairwise_cons]
        refine ⟨fun x hx => ?_, h1.1, h1.2⟩
        rcases List.mem_cons.1 hx with rfl | hx
        · exact hlt
        · exact hlt.trans (h1.1 x hx)
      · split
        · subst_vars
          rw [List.map_cons, List.pairwise_cons]
          exact h1
        · rw [List.map_cons, List.pairwise_cons]
          refine ⟨fun x hx => ?_, ih h1.2⟩
          obtain ⟨d, hd, rfl⟩ := List.mem_map.1 hx
          rcases Memory.mem_write rest a v d hd with h2 | h2
          · omega
          · exact h1.1 _ (List.mem_map_of_mem h2)
  · rcases Memory.mem_write m a v c hc with h2 | h2
    · omega
    · exact h.2 c h2

/-- The empty memory of the reset state is canonical. -/
theorem Memory.reset_wf : State.reset.mem.wf := ⟨List.Pairwise.nil, fun _ h => absurd h (List.not_mem_nil)⟩

/-- Storing a byte keeps the canonical form. -/
theorem putByte_wf (a : Word) (v : Byte) (s : State) (h : s.mem.wf) : (putByte a v s).mem.wf :=
  Memory.write_wf _ _ _ h a.isLt

/-- The byte just stored is read back. -/
@[simp] theorem byteAt_putByte_self (a : Word) (v : Byte) (s : State) : byteAt (putByte a v s) a = v := by
  simp [byteAt, putByte]

/-- Every other byte reads as before. -/
theorem byteAt_putByte_ne {a b : Word} (v : Byte) (s : State) (h : b ≠ a) : byteAt (putByte a v s) b = byteAt s b := by
  have h1 : b.toNat ≠ a.toNat := fun e => h (BitVec.eq_of_toNat_eq e)
  simp [byteAt, putByte, Memory.read_write_ne _ _ h1]

end Sys2Proof.Machine
end

