-- ==== Sys2Proof/Laws/State.lean ====
section
/-! SUPPORT. What each update of the state does to each field of the state: true by definition. -/

namespace Sys2Proof.Machine

/-! ## updSpi -/

@[simp] theorem updSpi_handles (i : SpiId) (f : SpiRegs → SpiRegs) (s : State) : (updSpi i f s).handles = s.handles := rfl
@[simp] theorem updSpi_spi (i : SpiId) (f : SpiRegs → SpiRegs) (s : State) : (updSpi i f s).spi = s.spi.set i (f (s.spi.get i)) := rfl
@[simp] theorem updSpi_exti (i : SpiId) (f : SpiRegs → SpiRegs) (s : State) : (updSpi i f s).exti = s.exti := rfl
@[simp] theorem updSpi_afio (i : SpiId) (f : SpiRegs → SpiRegs) (s : State) : (updSpi i f s).afio = s.afio := rfl
@[simp] theorem updSpi_rcc (i : SpiId) (f : SpiRegs → SpiRegs) (s : State) : (updSpi i f s).rcc = s.rcc := rfl
@[simp] theorem updSpi_nvic (i : SpiId) (f : SpiRegs → SpiRegs) (s : State) : (updSpi i f s).nvic = s.nvic := rfl
@[simp] theorem updSpi_gpio (i : SpiId) (f : SpiRegs → SpiRegs) (s : State) : (updSpi i f s).gpio = s.gpio := rfl
@[simp] theorem updSpi_i2c (i : SpiId) (f : SpiRegs → SpiRegs) (s : State) : (updSpi i f s).i2c = s.i2c := rfl
@[simp] theorem updSpi_mem (i : SpiId) (f : SpiRegs → SpiRegs) (s : State) : (updSpi i f s).mem = s.mem := rfl
@[simp] theorem updSpi_spiOut (i : SpiId) (f : SpiRegs → SpiRegs) (s : State) : (updSpi i f s).spiOut = s.spiOut := rfl
@[simp] theorem updSpi_i2cOut (i : SpiId) (f : SpiRegs → SpiRegs) (s : State) : (updSpi i f s).i2cOut = s.i2cOut := rfl
@[simp] theorem updSpi_cbOut (i : SpiId) (f : SpiRegs → SpiRegs) (s : State) : (updSpi i f s).cbOut = s.cbOut := rfl
@[simp] theorem updSpi_ctx (i : SpiId) (f : SpiRegs → SpiRegs) (s : State) : (updSpi i f s).ctx = s.ctx := rfl
@[simp] theorem updSpi_frozen (i : SpiId) (f : SpiRegs → SpiRegs) (s : State) : (updSpi i f s).frozen = s.frozen := rfl
@[simp] theorem updSpi_params (i : SpiId) (f : SpiRegs → SpiRegs) (s : State) : (updSpi i f s).params = s.params := rfl
@[simp] theorem updSpi_sched (i : SpiId) (f : SpiRegs → SpiRegs) (s : State) : (updSpi i f s).sched = s.sched := rfl
@[simp] theorem updSpi_swap (i : SpiId) (f : SpiRegs → SpiRegs) (s : State) : (updSpi i f s).swap = s.swap := rfl
@[simp] theorem updSpi_draws (i : SpiId) (f : SpiRegs → SpiRegs) (s : State) : (updSpi i f s).draws = s.draws := rfl

/-! ## updI2c -/

@[simp] theorem updI2c_handles (u : I2cId) (f : I2cRegs → I2cRegs) (s : State) : (updI2c u f s).handles = s.handles := rfl
@[simp] theorem updI2c_spi (u : I2cId) (f : I2cRegs → I2cRegs) (s : State) : (updI2c u f s).spi = s.spi := rfl
@[simp] theorem updI2c_exti (u : I2cId) (f : I2cRegs → I2cRegs) (s : State) : (updI2c u f s).exti = s.exti := rfl
@[simp] theorem updI2c_afio (u : I2cId) (f : I2cRegs → I2cRegs) (s : State) : (updI2c u f s).afio = s.afio := rfl
@[simp] theorem updI2c_rcc (u : I2cId) (f : I2cRegs → I2cRegs) (s : State) : (updI2c u f s).rcc = s.rcc := rfl
@[simp] theorem updI2c_nvic (u : I2cId) (f : I2cRegs → I2cRegs) (s : State) : (updI2c u f s).nvic = s.nvic := rfl
@[simp] theorem updI2c_gpio (u : I2cId) (f : I2cRegs → I2cRegs) (s : State) : (updI2c u f s).gpio = s.gpio := rfl
@[simp] theorem updI2c_i2c (u : I2cId) (f : I2cRegs → I2cRegs) (s : State) : (updI2c u f s).i2c = s.i2c.set u (f (s.i2c.get u)) := rfl
@[simp] theorem updI2c_mem (u : I2cId) (f : I2cRegs → I2cRegs) (s : State) : (updI2c u f s).mem = s.mem := rfl
@[simp] theorem updI2c_spiOut (u : I2cId) (f : I2cRegs → I2cRegs) (s : State) : (updI2c u f s).spiOut = s.spiOut := rfl
@[simp] theorem updI2c_i2cOut (u : I2cId) (f : I2cRegs → I2cRegs) (s : State) : (updI2c u f s).i2cOut = s.i2cOut := rfl
@[simp] theorem updI2c_cbOut (u : I2cId) (f : I2cRegs → I2cRegs) (s : State) : (updI2c u f s).cbOut = s.cbOut := rfl
@[simp] theorem updI2c_ctx (u : I2cId) (f : I2cRegs → I2cRegs) (s : State) : (updI2c u f s).ctx = s.ctx := rfl
@[simp] theorem updI2c_frozen (u : I2cId) (f : I2cRegs → I2cRegs) (s : State) : (updI2c u f s).frozen = s.frozen := rfl
@[simp] theorem updI2c_params (u : I2cId) (f : I2cRegs → I2cRegs) (s : State) : (updI2c u f s).params = s.params := rfl
@[simp] theorem updI2c_sched (u : I2cId) (f : I2cRegs → I2cRegs) (s : State) : (updI2c u f s).sched = s.sched := rfl
@[simp] theorem updI2c_swap (u : I2cId) (f : I2cRegs → I2cRegs) (s : State) : (updI2c u f s).swap = s.swap := rfl
@[simp] theorem updI2c_draws (u : I2cId) (f : I2cRegs → I2cRegs) (s : State) : (updI2c u f s).draws = s.draws := rfl

/-! ## updGpio -/

@[simp] theorem updGpio_handles (p : Port) (f : GpioRegs → GpioRegs) (s : State) : (updGpio p f s).handles = s.handles := rfl
@[simp] theorem updGpio_spi (p : Port) (f : GpioRegs → GpioRegs) (s : State) : (updGpio p f s).spi = s.spi := rfl
@[simp] theorem updGpio_exti (p : Port) (f : GpioRegs → GpioRegs) (s : State) : (updGpio p f s).exti = s.exti := rfl
@[simp] theorem updGpio_afio (p : Port) (f : GpioRegs → GpioRegs) (s : State) : (updGpio p f s).afio = s.afio := rfl
@[simp] theorem updGpio_rcc (p : Port) (f : GpioRegs → GpioRegs) (s : State) : (updGpio p f s).rcc = s.rcc := rfl
@[simp] theorem updGpio_nvic (p : Port) (f : GpioRegs → GpioRegs) (s : State) : (updGpio p f s).nvic = s.nvic := rfl
@[simp] theorem updGpio_gpio (p : Port) (f : GpioRegs → GpioRegs) (s : State) : (updGpio p f s).gpio = s.gpio.set p (f (s.gpio.get p)) := rfl
@[simp] theorem updGpio_i2c (p : Port) (f : GpioRegs → GpioRegs) (s : State) : (updGpio p f s).i2c = s.i2c := rfl
@[simp] theorem updGpio_mem (p : Port) (f : GpioRegs → GpioRegs) (s : State) : (updGpio p f s).mem = s.mem := rfl
@[simp] theorem updGpio_spiOut (p : Port) (f : GpioRegs → GpioRegs) (s : State) : (updGpio p f s).spiOut = s.spiOut := rfl
@[simp] theorem updGpio_i2cOut (p : Port) (f : GpioRegs → GpioRegs) (s : State) : (updGpio p f s).i2cOut = s.i2cOut := rfl
@[simp] theorem updGpio_cbOut (p : Port) (f : GpioRegs → GpioRegs) (s : State) : (updGpio p f s).cbOut = s.cbOut := rfl
@[simp] theorem updGpio_ctx (p : Port) (f : GpioRegs → GpioRegs) (s : State) : (updGpio p f s).ctx = s.ctx := rfl
@[simp] theorem updGpio_frozen (p : Port) (f : GpioRegs → GpioRegs) (s : State) : (updGpio p f s).frozen = s.frozen := rfl
@[simp] theorem updGpio_params (p : Port) (f : GpioRegs → GpioRegs) (s : State) : (updGpio p f s).params = s.params := rfl
@[simp] theorem updGpio_sched (p : Port) (f : GpioRegs → GpioRegs) (s : State) : (updGpio p f s).sched = s.sched := rfl
@[simp] theorem updGpio_swap (p : Port) (f : GpioRegs → GpioRegs) (s : State) : (updGpio p f s).swap = s.swap := rfl
@[simp] theorem updGpio_draws (p : Port) (f : GpioRegs → GpioRegs) (s : State) : (updGpio p f s).draws = s.draws := rfl

/-! ## updXfer -/

@[simp] theorem updXfer_handles (i : SpiId) (d : Dir) (f : Xfer → Xfer) (s : State) : (updXfer i d f s).handles = s.handles.set i ((s.handles.get i).setDir d (f (xfer s i d))) := rfl
@[simp] theorem updXfer_spi (i : SpiId) (d : Dir) (f : Xfer → Xfer) (s : State) : (updXfer i d f s).spi = s.spi := rfl
@[simp] theorem updXfer_exti (i : SpiId) (d : Dir) (f : Xfer → Xfer) (s : State) : (updXfer i d f s).exti = s.exti := rfl
@[simp] theorem updXfer_afio (i : SpiId) (d : Dir) (f : Xfer → Xfer) (s : State) : (updXfer i d f s).afio = s.afio := rfl
@[simp] theorem updXfer_rcc (i : SpiId) (d : Dir) (f : Xfer → Xfer) (s : State) : (updXfer i d f s).rcc = s.rcc := rfl
@[simp] theorem updXfer_nvic (i : SpiId) (d : Dir) (f : Xfer → Xfer) (s : State) : (updXfer i d f s).nvic = s.nvic := rfl
@[simp] theorem updXfer_gpio (i : SpiId) (d : Dir) (f : Xfer → Xfer) (s : State) : (updXfer i d f s).gpio = s.gpio := rfl
@[simp] theorem updXfer_i2c (i : SpiId) (d : Dir) (f : Xfer → Xfer) (s : State) : (updXfer i d f s).i2c = s.i2c := rfl
@[simp] theorem updXfer_mem (i : SpiId) (d : Dir) (f : Xfer → Xfer) (s : State) : (updXfer i d f s).mem = s.mem := rfl
@[simp] theorem updXfer_spiOut (i : SpiId) (d : Dir) (f : Xfer → Xfer) (s : State) : (updXfer i d f s).spiOut = s.spiOut := rfl
@[simp] theorem updXfer_i2cOut (i : SpiId) (d : Dir) (f : Xfer → Xfer) (s : State) : (updXfer i d f s).i2cOut = s.i2cOut := rfl
@[simp] theorem updXfer_cbOut (i : SpiId) (d : Dir) (f : Xfer → Xfer) (s : State) : (updXfer i d f s).cbOut = s.cbOut := rfl
@[simp] theorem updXfer_ctx (i : SpiId) (d : Dir) (f : Xfer → Xfer) (s : State) : (updXfer i d f s).ctx = s.ctx := rfl
@[simp] theorem updXfer_frozen (i : SpiId) (d : Dir) (f : Xfer → Xfer) (s : State) : (updXfer i d f s).frozen = s.frozen := rfl
@[simp] theorem updXfer_params (i : SpiId) (d : Dir) (f : Xfer → Xfer) (s : State) : (updXfer i d f s).params = s.params := rfl
@[simp] theorem updXfer_sched (i : SpiId) (d : Dir) (f : Xfer → Xfer) (s : State) : (updXfer i d f s).sched = s.sched := rfl
@[simp] theorem updXfer_swap (i : SpiId) (d : Dir) (f : Xfer → Xfer) (s : State) : (updXfer i d f s).swap = s.swap := rfl
@[simp] theorem updXfer_draws (i : SpiId) (d : Dir) (f : Xfer → Xfer) (s : State) : (updXfer i d f s).draws = s.draws := rfl

/-! ## putByte -/

@[simp] theorem putByte_handles (a : Word) (v : Byte) (s : State) : (putByte a v s).handles = s.handles := rfl
@[simp] theorem putByte_spi (a : Word) (v : Byte) (s : State) : (putByte a v s).spi = s.spi := rfl
@[simp] theorem putByte_exti (a : Word) (v : Byte) (s : State) : (putByte a v s).exti = s.exti := rfl
@[simp] theorem putByte_afio (a : Word) (v : Byte) (s : State) : (putByte a v s).afio = s.afio := rfl
@[simp] theorem putByte_rcc (a : Word) (v : Byte) (s : State) : (putByte a v s).rcc = s.rcc := rfl
@[simp] theorem putByte_nvic (a : Word) (v : Byte) (s : State) : (putByte a v s).nvic = s.nvic := rfl
@[simp] theorem putByte_gpio (a : Word) (v : Byte) (s : State) : (putByte a v s).gpio = s.gpio := rfl
@[simp] theorem putByte_i2c (a : Word) (v : Byte) (s : State) : (putByte a v s).i2c = s.i2c := rfl
@[simp] theorem putByte_mem (a : Word) (v : Byte) (s : State) : (putByte a v s).mem = s.mem.write a.toNat v := rfl
@[simp] theorem putByte_spiOut (a : Word) (v : Byte) (s : State) : (putByte a v s).spiOut = s.spiOut := rfl
@[simp] theorem putByte_i2cOut (a : Word) (v : Byte) (s : State) : (putByte a v s).i2cOut = s.i2cOut := rfl
@[simp] theorem putByte_cbOut (a : Word) (v : Byte) (s : State) : (putByte a v s).cbOut = s.cbOut := rfl
@[simp] theorem putByte_ctx (a : Word) (v : Byte) (s : State) : (putByte a v s).ctx = s.ctx := rfl
@[simp] theorem putByte_frozen (a : Word) (v : Byte) (s : State) : (putByte a v s).frozen = s.frozen := rfl
@[simp] theorem putByte_params (a : Word) (v : Byte) (s : State) : (putByte a v s).params = s.params := rfl
@[simp] theorem putByte_sched (a : Word) (v : Byte) (s : State) : (putByte a v s).sched = s.sched := rfl
@[simp] theorem putByte_swap (a : Word) (v : Byte) (s : State) : (putByte a v s).swap = s.swap := rfl
@[simp] theorem putByte_draws (a : Word) (v : Byte) (s : State) : (putByte a v s).draws = s.draws := rfl

/-! ## updAct -/

@[simp] theorem updAct_handles (f : Act → Act) (s : State) : (updAct f s).handles = s.handles := rfl
@[simp] theorem updAct_spi (f : Act → Act) (s : State) : (updAct f s).spi = s.spi := rfl
@[simp] theorem updAct_exti (f : Act → Act) (s : State) : (updAct f s).exti = s.exti := rfl
@[simp] theorem updAct_afio (f : Act → Act) (s : State) : (updAct f s).afio = s.afio := rfl
@[simp] theorem updAct_rcc (f : Act → Act) (s : State) : (updAct f s).rcc = s.rcc := rfl
@[simp] theorem updAct_nvic (f : Act → Act) (s : State) : (updAct f s).nvic = s.nvic := rfl
@[simp] theorem updAct_gpio (f : Act → Act) (s : State) : (updAct f s).gpio = s.gpio := rfl
@[simp] theorem updAct_i2c (f : Act → Act) (s : State) : (updAct f s).i2c = s.i2c := rfl
@[simp] theorem updAct_mem (f : Act → Act) (s : State) : (updAct f s).mem = s.mem := rfl
@[simp] theorem updAct_spiOut (f : Act → Act) (s : State) : (updAct f s).spiOut = s.spiOut := rfl
@[simp] theorem updAct_i2cOut (f : Act → Act) (s : State) : (updAct f s).i2cOut = s.i2cOut := rfl
@[simp] theorem updAct_cbOut (f : Act → Act) (s : State) : (updAct f s).cbOut = s.cbOut := rfl
@[simp] theorem updAct_ctx (f : Act → Act) (s : State) : (updAct f s).ctx = { s.ctx with act := f s.ctx.act } := rfl
@[simp] theorem updAct_frozen (f : Act → Act) (s : State) : (updAct f s).frozen = s.frozen := rfl
@[simp] theorem updAct_params (f : Act → Act) (s : State) : (updAct f s).params = s.params := rfl
@[simp] theorem updAct_sched (f : Act → Act) (s : State) : (updAct f s).sched = s.sched := rfl
@[simp] theorem updAct_swap (f : Act → Act) (s : State) : (updAct f s).swap = s.swap := rfl
@[simp] theorem updAct_draws (f : Act → Act) (s : State) : (updAct f s).draws = s.draws := rfl

/-! ## goto -/

@[simp] theorem goto_handles (p : Nat) (s : State) : (goto p s).handles = s.handles := rfl
@[simp] theorem goto_spi (p : Nat) (s : State) : (goto p s).spi = s.spi := rfl
@[simp] theorem goto_exti (p : Nat) (s : State) : (goto p s).exti = s.exti := rfl
@[simp] theorem goto_afio (p : Nat) (s : State) : (goto p s).afio = s.afio := rfl
@[simp] theorem goto_rcc (p : Nat) (s : State) : (goto p s).rcc = s.rcc := rfl
@[simp] theorem goto_nvic (p : Nat) (s : State) : (goto p s).nvic = s.nvic := rfl
@[simp] theorem goto_gpio (p : Nat) (s : State) : (goto p s).gpio = s.gpio := rfl
@[simp] theorem goto_i2c (p : Nat) (s : State) : (goto p s).i2c = s.i2c := rfl
@[simp] theorem goto_mem (p : Nat) (s : State) : (goto p s).mem = s.mem := rfl
@[simp] theorem goto_spiOut (p : Nat) (s : State) : (goto p s).spiOut = s.spiOut := rfl
@[simp] theorem goto_i2cOut (p : Nat) (s : State) : (goto p s).i2cOut = s.i2cOut := rfl
@[simp] theorem goto_cbOut (p : Nat) (s : State) : (goto p s).cbOut = s.cbOut := rfl
@[simp] theorem goto_ctx (p : Nat) (s : State) : (goto p s).ctx = { s.ctx with act := { s.ctx.act with phase := p } } := rfl
@[simp] theorem goto_frozen (p : Nat) (s : State) : (goto p s).frozen = s.frozen := rfl
@[simp] theorem goto_params (p : Nat) (s : State) : (goto p s).params = s.params := rfl
@[simp] theorem goto_sched (p : Nat) (s : State) : (goto p s).sched = s.sched := rfl
@[simp] theorem goto_swap (p : Nat) (s : State) : (goto p s).swap = s.swap := rfl
@[simp] theorem goto_draws (p : Nat) (s : State) : (goto p s).draws = s.draws := rfl

/-! ## updLocals -/

@[simp] theorem updLocals_handles (f : Locals → Locals) (s : State) : (updLocals f s).handles = s.handles := rfl
@[simp] theorem updLocals_spi (f : Locals → Locals) (s : State) : (updLocals f s).spi = s.spi := rfl
@[simp] theorem updLocals_exti (f : Locals → Locals) (s : State) : (updLocals f s).exti = s.exti := rfl
@[simp] theorem updLocals_afio (f : Locals → Locals) (s : State) : (updLocals f s).afio = s.afio := rfl
@[simp] theorem updLocals_rcc (f : Locals → Locals) (s : State) : (updLocals f s).rcc = s.rcc := rfl
@[simp] theorem updLocals_nvic (f : Locals → Locals) (s : State) : (updLocals f s).nvic = s.nvic := rfl
@[simp] theorem updLocals_gpio (f : Locals → Locals) (s : State) : (updLocals f s).gpio = s.gpio := rfl
@[simp] theorem updLocals_i2c (f : Locals → Locals) (s : State) : (updLocals f s).i2c = s.i2c := rfl
@[simp] theorem updLocals_mem (f : Locals → Locals) (s : State) : (updLocals f s).mem = s.mem := rfl
@[simp] theorem updLocals_spiOut (f : Locals → Locals) (s : State) : (updLocals f s).spiOut = s.spiOut := rfl
@[simp] theorem updLocals_i2cOut (f : Locals → Locals) (s : State) : (updLocals f s).i2cOut = s.i2cOut := rfl
@[simp] theorem updLocals_cbOut (f : Locals → Locals) (s : State) : (updLocals f s).cbOut = s.cbOut := rfl
@[simp] theorem updLocals_ctx (f : Locals → Locals) (s : State) : (updLocals f s).ctx = { s.ctx with act := { s.ctx.act with loc := f s.ctx.act.loc } } := rfl
@[simp] theorem updLocals_frozen (f : Locals → Locals) (s : State) : (updLocals f s).frozen = s.frozen := rfl
@[simp] theorem updLocals_params (f : Locals → Locals) (s : State) : (updLocals f s).params = s.params := rfl
@[simp] theorem updLocals_sched (f : Locals → Locals) (s : State) : (updLocals f s).sched = s.sched := rfl
@[simp] theorem updLocals_swap (f : Locals → Locals) (s : State) : (updLocals f s).swap = s.swap := rfl
@[simp] theorem updLocals_draws (f : Locals → Locals) (s : State) : (updLocals f s).draws = s.draws := rfl

/-! ## finish -/

@[simp] theorem finish_handles (s : State) : (finish s).handles = s.handles := rfl
@[simp] theorem finish_spi (s : State) : (finish s).spi = s.spi := rfl
@[simp] theorem finish_exti (s : State) : (finish s).exti = s.exti := rfl
@[simp] theorem finish_afio (s : State) : (finish s).afio = s.afio := rfl
@[simp] theorem finish_rcc (s : State) : (finish s).rcc = s.rcc := rfl
@[simp] theorem finish_nvic (s : State) : (finish s).nvic = s.nvic := rfl
@[simp] theorem finish_gpio (s : State) : (finish s).gpio = s.gpio := rfl
@[simp] theorem finish_i2c (s : State) : (finish s).i2c = s.i2c := rfl
@[simp] theorem finish_mem (s : State) : (finish s).mem = s.mem := rfl
@[simp] theorem finish_spiOut (s : State) : (finish s).spiOut = s.spiOut := rfl
@[simp] theorem finish_i2cOut (s : State) : (finish s).i2cOut = s.i2cOut := rfl
@[simp] theorem finish_cbOut (s : State) : (finish s).cbOut = s.cbOut := rfl
@[simp] theorem finish_ctx (s : State) : (finish s).ctx = { s.ctx with act := { s.ctx.act with op := none, phase := 0, loc := Locals.zero } } := rfl
@[simp] theorem finish_frozen (s : State) : (finish s).frozen = s.frozen := rfl
@[simp] theorem finish_params (s : State) : (finish s).params = s.params := rfl
@[simp] theorem finish_sched (s : State) : (finish s).sched = s.sched := rfl
@[simp] theorem finish_swap (s : State) : (finish s).swap = s.swap := rfl
@[simp] theorem finish_draws (s : State) : (finish s).draws = s.draws := rfl

/-! ## setRet -/

@[simp] theorem setRet_handles (v : Word) (s : State) : (setRet v s).handles = s.handles := rfl
@[simp] theorem setRet_spi (v : Word) (s : State) : (setRet v s).spi = s.spi := rfl
@[simp] theorem setRet_exti (v : Word) (s : State) : (setRet v s).exti = s.exti := rfl
@[simp] theorem setRet_afio (v : Word) (s : State) : (setRet v s).afio = s.afio := rfl
@[simp] theorem setRet_rcc (v : Word) (s : State) : (setRet v s).rcc = s.rcc := rfl
@[simp] theorem setRet_nvic (v : Word) (s : State) : (setRet v s).nvic = s.nvic := rfl
@[simp] theorem setRet_gpio (v : Word) (s : State) : (setRet v s).gpio = s.gpio := rfl
@[simp] theorem setRet_i2c (v : Word) (s : State) : (setRet v s).i2c = s.i2c := rfl
@[simp] theorem setRet_mem (v : Word) (s : State) : (setRet v s).mem = s.mem := rfl
@[simp] theorem setRet_spiOut (v : Word) (s : State) : (setRet v s).spiOut = s.spiOut := rfl
@[simp] theorem setRet_i2cOut (v : Word) (s : State) : (setRet v s).i2cOut = s.i2cOut := rfl
@[simp] theorem setRet_cbOut (v : Word) (s : State) : (setRet v s).cbOut = s.cbOut := rfl
@[simp] theorem setRet_ctx (v : Word) (s : State) : (setRet v s).ctx = { s.ctx with ret := v } := rfl
@[simp] theorem setRet_frozen (v : Word) (s : State) : (setRet v s).frozen = s.frozen := rfl
@[simp] theorem setRet_params (v : Word) (s : State) : (setRet v s).params = s.params := rfl
@[simp] theorem setRet_sched (v : Word) (s : State) : (setRet v s).sched = s.sched := rfl
@[simp] theorem setRet_swap (v : Word) (s : State) : (setRet v s).swap = s.swap := rfl
@[simp] theorem setRet_draws (v : Word) (s : State) : (setRet v s).draws = s.draws := rfl

/-! ## startCommand -/

@[simp] theorem startCommand_handles (w : Word) (s : State) : (startCommand w s).handles = s.handles := rfl
@[simp] theorem startCommand_spi (w : Word) (s : State) : (startCommand w s).spi = s.spi := rfl
@[simp] theorem startCommand_exti (w : Word) (s : State) : (startCommand w s).exti = s.exti := rfl
@[simp] theorem startCommand_afio (w : Word) (s : State) : (startCommand w s).afio = s.afio := rfl
@[simp] theorem startCommand_rcc (w : Word) (s : State) : (startCommand w s).rcc = s.rcc := rfl
@[simp] theorem startCommand_nvic (w : Word) (s : State) : (startCommand w s).nvic = s.nvic := rfl
@[simp] theorem startCommand_gpio (w : Word) (s : State) : (startCommand w s).gpio = s.gpio := rfl
@[simp] theorem startCommand_i2c (w : Word) (s : State) : (startCommand w s).i2c = s.i2c := rfl
@[simp] theorem startCommand_mem (w : Word) (s : State) : (startCommand w s).mem = s.mem := rfl
@[simp] theorem startCommand_spiOut (w : Word) (s : State) : (startCommand w s).spiOut = s.spiOut := rfl
@[simp] theorem startCommand_i2cOut (w : Word) (s : State) : (startCommand w s).i2cOut = s.i2cOut := rfl
@[simp] theorem startCommand_cbOut (w : Word) (s : State) : (startCommand w s).cbOut = s.cbOut := rfl
@[simp] theorem startCommand_ctx (w : Word) (s : State) : (startCommand w s).ctx = { s.ctx with cmd := w, act := { s.ctx.act with op := some w, phase := 0, loc := Locals.zero } } := rfl
@[simp] theorem startCommand_frozen (w : Word) (s : State) : (startCommand w s).frozen = s.frozen := rfl
@[simp] theorem startCommand_params (w : Word) (s : State) : (startCommand w s).params = s.params := rfl
@[simp] theorem startCommand_sched (w : Word) (s : State) : (startCommand w s).sched = s.sched := rfl
@[simp] theorem startCommand_swap (w : Word) (s : State) : (startCommand w s).swap = s.swap := rfl
@[simp] theorem startCommand_draws (w : Word) (s : State) : (startCommand w s).draws = s.draws := rfl

/-! ## latch -/

@[simp] theorem latch_handles (s₀ s : State) : (latch s₀ s).handles = s.handles := rfl
@[simp] theorem latch_spi (s₀ s : State) : (latch s₀ s).spi = s.spi := rfl
@[simp] theorem latch_exti (s₀ s : State) : (latch s₀ s).exti = s.exti := rfl
@[simp] theorem latch_afio (s₀ s : State) : (latch s₀ s).afio = s.afio := rfl
@[simp] theorem latch_rcc (s₀ s : State) : (latch s₀ s).rcc = s.rcc := rfl
@[simp] theorem latch_nvic (s₀ s : State) : (latch s₀ s).nvic = { s.nvic with pend := s.nvic.pend ||| (lineWord s &&& ~~~(activeWord s &&& lineWord s₀)) } := rfl
@[simp] theorem latch_gpio (s₀ s : State) : (latch s₀ s).gpio = s.gpio := rfl
@[simp] theorem latch_i2c (s₀ s : State) : (latch s₀ s).i2c = s.i2c := rfl
@[simp] theorem latch_mem (s₀ s : State) : (latch s₀ s).mem = s.mem := rfl
@[simp] theorem latch_spiOut (s₀ s : State) : (latch s₀ s).spiOut = s.spiOut := rfl
@[simp] theorem latch_i2cOut (s₀ s : State) : (latch s₀ s).i2cOut = s.i2cOut := rfl
@[simp] theorem latch_cbOut (s₀ s : State) : (latch s₀ s).cbOut = s.cbOut := rfl
@[simp] theorem latch_ctx (s₀ s : State) : (latch s₀ s).ctx = s.ctx := rfl
@[simp] theorem latch_frozen (s₀ s : State) : (latch s₀ s).frozen = s.frozen := rfl
@[simp] theorem latch_params (s₀ s : State) : (latch s₀ s).params = s.params := rfl
@[simp] theorem latch_sched (s₀ s : State) : (latch s₀ s).sched = s.sched := rfl
@[simp] theorem latch_swap (s₀ s : State) : (latch s₀ s).swap = s.swap := rfl
@[simp] theorem latch_draws (s₀ s : State) : (latch s₀ s).draws = s.draws := rfl

/-! ## enterIrq -/

@[simp] theorem enterIrq_handles (q : Irq) (s : State) : (enterIrq q s).handles = s.handles := rfl
@[simp] theorem enterIrq_spi (q : Irq) (s : State) : (enterIrq q s).spi = s.spi := rfl
@[simp] theorem enterIrq_exti (q : Irq) (s : State) : (enterIrq q s).exti = s.exti := rfl
@[simp] theorem enterIrq_afio (q : Irq) (s : State) : (enterIrq q s).afio = s.afio := rfl
@[simp] theorem enterIrq_rcc (q : Irq) (s : State) : (enterIrq q s).rcc = s.rcc := rfl
@[simp] theorem enterIrq_nvic (q : Irq) (s : State) : (enterIrq q s).nvic = { s.nvic with pend := s.nvic.pend &&& ~~~(irqBit q true) } := rfl
@[simp] theorem enterIrq_gpio (q : Irq) (s : State) : (enterIrq q s).gpio = s.gpio := rfl
@[simp] theorem enterIrq_i2c (q : Irq) (s : State) : (enterIrq q s).i2c = s.i2c := rfl
@[simp] theorem enterIrq_mem (q : Irq) (s : State) : (enterIrq q s).mem = s.mem := rfl
@[simp] theorem enterIrq_spiOut (q : Irq) (s : State) : (enterIrq q s).spiOut = s.spiOut := rfl
@[simp] theorem enterIrq_i2cOut (q : Irq) (s : State) : (enterIrq q s).i2cOut = s.i2cOut := rfl
@[simp] theorem enterIrq_cbOut (q : Irq) (s : State) : (enterIrq q s).cbOut = s.cbOut := rfl
@[simp] theorem enterIrq_ctx (q : Irq) (s : State) : (enterIrq q s).ctx = Context.start (handlerBody s q) := rfl
@[simp] theorem enterIrq_frozen (q : Irq) (s : State) : (enterIrq q s).frozen = (q, s.ctx) :: s.frozen := rfl
@[simp] theorem enterIrq_params (q : Irq) (s : State) : (enterIrq q s).params = s.params := rfl
@[simp] theorem enterIrq_sched (q : Irq) (s : State) : (enterIrq q s).sched = s.sched := rfl
@[simp] theorem enterIrq_swap (q : Irq) (s : State) : (enterIrq q s).swap = s.swap := rfl
@[simp] theorem enterIrq_draws (q : Irq) (s : State) : (enterIrq q s).draws = s.draws := rfl

end Sys2Proof.Machine
end

