-- ==== Sys2Proof/Laws/Ops.lean ====
section
/-! SUPPORT. What a micro-step of any command can do to the state, said once: a property that every shared update keeps is kept
by every micro-step. The proofs about invariants and frames cite `exec_keeps` and `contextStep_keeps` and unfold no meaning. -/

namespace Sys2Proof.Machine

/-- `P` holds of the next state, if the answer is one. -/
def Sat (P : State → Prop) (o : Out) : Prop :=
  match o with
  | .next t => P t
  | .fault _ => True
  | .refused _ => True

@[simp] theorem sat_next (P : State → Prop) (t : State) : Sat P (.next t) ↔ P t := Iff.rfl
@[simp] theorem sat_fault (P : State → Prop) (f : Fault) : Sat P (.fault f) ↔ True := Iff.rfl
@[simp] theorem sat_refused (P : State → Prop) (r : Refusal) : Sat P (.refused r) ↔ True := Iff.rfl

theorem sat_iff (P : State → Prop) (o : Out) : Sat P o ↔ ∀ t, o = .next t → P t := by
  cases o <;> simp [Sat]

/-- The updates micro-steps are made of, each keeping `P`: the sequencer and the port registers (`ctx`), the static
configuration, a transfer-state field, a register read and write, the explicit clear of OVR, a byte stored, a callback emitted, a
free value drawn. -/
structure Keeps (P : State → Prop) : Prop where
  ctx : ∀ s c, P s → P { s with ctx := c }
  cfg : ∀ s i c, P s → P { s with handles := s.handles.set i { s.handles.get i with cfg := c } }
  xfer : ∀ s i d f, P s → P (updXfer i d f s)
  read : ∀ s r, P s → P (afterRead r s)
  clear : ∀ s i, P s → P (readSr i true s)
  write : ∀ s r v, P s → P (afterWrite r v s)
  store : ∀ s a v, inLaunch s a = true → P s → P (putByte a v s)
  emit : ∀ s i ev, P s → P { s with cbOut := s.cbOut ++ [(i, ev)] }
  draw : ∀ s n, P s → P { s with draws := n }

variable {P : State → Prop}

namespace Keeps

theorem act (h : Keeps P) {f : Act → Act} {s : State} (hs : P s) : P (updAct f s) := h.ctx s _ hs

theorem goto (h : Keeps P) {p : Nat} {s : State} (hs : P s) : P (goto p s) := h.act hs

theorem updLocals (h : Keeps P) {f : Locals → Locals} {s : State} (hs : P s) : P (updLocals f s) := h.act hs

theorem finish (h : Keeps P) {s : State} (hs : P s) : P (finish s) := h.act hs

theorem setRet (h : Keeps P) {v : Word} {s : State} (hs : P s) : P (setRet v s) := h.ctx s _ hs

theorem emitCallback (h : Keeps P) {i : SpiId} {ev : Event} {p : Nat} {s : State} (hs : P s) :
    P (emitCallback i ev p s) := by
  have h1 : P (recordEvent i ev p s) := h.goto (h.emit s i ev hs)
  unfold Machine.emitCallback runCallback
  split
  · exact h1
  · exact h.ctx _ _ h1

theorem readReg (h : Keeps P) {r : Reg} {s : State} {k : Word → State → Out} (hs : P s)
    (hk : ∀ v t, P t → Sat P (k v t)) : Sat P (readReg r s k) := by
  unfold Machine.readReg
  split
  · exact hk _ _ (h.read s r hs)
  · trivial

theorem writeReg (h : Keeps P) {r : Reg} {v : Word} {s : State} {k : State → Out} (hs : P s)
    (hk : ∀ t, P t → Sat P (k t)) : Sat P (writeReg r v s k) := by
  unfold Machine.writeReg
  split
  · exact hk _ (h.write s r v hs)
  · trivial

theorem rmwRead (h : Keeps P) {r : Reg} {f : Word → Word} {p : Nat} {k : State → State} {s : State} (hs : P s)
    (hk : ∀ t, P t → P (k t)) : Sat P (rmwRead r f p k s) := by
  refine h.readReg hs fun v t ht => ?_
  split
  · exact hk _ (h.write t r _ ht)
  · exact h.goto (h.updLocals ht)

theorem rmwWrite (h : Keeps P) {r : Reg} {f : Word → Word} {k : State → State} {s : State} (hs : P s)
    (hk : ∀ t, P t → P (k t)) : Sat P (rmwWrite r f k s) :=
  h.writeReg hs fun t ht => hk t ht

theorem waitUntil (h : Keeps P) {r : Reg} {bit p : Nat} {s : State} (hs : P s) : Sat P (waitUntil r bit p s) := by
  unfold Machine.waitUntil
  split
  refine h.readReg hs fun v t ht => ?_
  rw [sat_next]
  split
  · exact h.goto ht
  · exact ht

theorem storeByte (h : Keeps P) {a : Word} {v : Byte} {s : State} {k : State → Out} (hs : P s)
    (hk : ∀ t, P t → Sat P (k t)) : Sat P (storeByte a v s k) := by
  unfold Machine.storeByte
  split
  · exact hk _ (h.store s a v ‹_› hs)
  · exact hs

end Keeps

theorem sat_loadByte {a : Word} {s : State} {k : Byte → Out} (hs : P s) (hk : ∀ x, Sat P (k x)) :
    Sat P (loadByte a s k) := by
  unfold loadByte
  split
  · exact hk _
  · exact hs

theorem sat_ite {c : Bool} {a b : Out} (ha : Sat P a) (hb : Sat P b) : Sat P (if c then a else b) := by
  cases c <;> assumption

/-! ## Families -/

theorem blockingStep_keeps (h : Keeps P) {d : Dir} {i : SpiId} {s : State} (hs : P s) : Sat P (blockingStep d i s) := by
  unfold blockingStep
  split
  · unfold admitBlocking
    split
    · exact h.goto (h.updLocals hs)
    · refine h.readReg hs fun v t _ => ?_
      refine sat_ite (sat_ite ?_ trivial) trivial
      exact h.goto (h.updLocals hs)
  · exact h.goto (h.updLocals hs)
  · rw [sat_next]; split
    · exact h.finish hs
    · exact h.goto hs
  · exact h.waitUntil hs
  · exact h.readReg hs fun v t ht => h.goto (h.updLocals ht)
  · exact sat_ite trivial (h.goto hs)
  · exact h.goto (h.updLocals hs)
  · exact h.goto hs

theorem sendStep_keeps (h : Keeps P) {i : SpiId} {s : State} (hs : P s) : Sat P (sendStep i s) := by
  unfold sendStep
  split
  · exact sat_loadByte hs fun x => h.goto (h.updLocals hs)
  · exact sat_loadByte hs fun x => h.goto (h.updLocals hs)
  · exact h.writeReg hs fun t ht => h.goto ht
  · exact blockingStep_keeps h hs

theorem recvStep_keeps (h : Keeps P) {i : SpiId} {s : State} (hs : P s) : Sat P (recvStep i s) := by
  unfold recvStep
  split
  · exact h.readReg hs fun v t ht => h.goto (h.updLocals ht)
  · exact h.storeByte hs fun t ht => h.goto ht
  · exact h.storeByte hs fun t ht => h.goto ht
  · exact blockingStep_keeps h hs

theorem requestStep_keeps (h : Keeps P) {d : Dir} {i : SpiId} {s : State} (hs : P s) : Sat P (requestStep d i s) := by
  unfold requestStep
  simp only []
  split
  · exact h.goto (h.updLocals hs)
  · exact h.goto (h.updLocals hs)
  · exact h.goto (h.updLocals hs)
  · rw [sat_next]; split
    · exact h.finish (h.setRet hs)
    · exact h.goto hs
  · unfold admitRequest
    split
    · trivial
    · refine h.readReg hs fun v t ht => ?_
      refine sat_ite (sat_ite ?_ trivial) trivial
      exact h.goto ht
  · exact h.goto (h.xfer _ _ _ _ hs)
  · exact h.goto (h.xfer _ _ _ _ hs)
  · exact h.goto (h.xfer _ _ _ _ hs)
  · exact h.rmwRead hs fun t ht => h.goto ht
  · exact h.rmwWrite hs fun t ht => h.goto ht
  · exact h.finish (h.setRet hs)

theorem serviceStep_keeps (h : Keeps P) {d : Dir} {i : SpiId} {base next k : Nat} {s : State} (hs : P s) :
    Sat P (serviceStep d i base next k s) := by
  unfold serviceStep
  simp only []
  split
  · exact h.readReg hs fun v t ht => h.goto (h.updLocals ht)
  · exact sat_ite (h.goto hs) trivial
  · exact h.goto (h.updLocals hs)
  · exact sat_ite trivial (h.goto (h.xfer _ _ _ _ hs))
  · exact h.goto (h.updLocals hs)
  · exact h.goto (h.xfer _ _ _ _ hs)
  · exact h.goto hs
  · exact h.rmwRead hs fun t ht => h.goto ht
  · exact h.rmwWrite hs fun t ht => h.goto ht
  · exact h.goto (h.xfer _ _ _ _ hs)
  · exact h.goto (h.xfer _ _ _ _ hs)
  · exact h.goto (h.xfer _ _ _ _ hs)
  · exact h.emitCallback hs

theorem txeService_keeps (h : Keeps P) {i : SpiId} {base next k : Nat} {s : State} (hs : P s) :
    Sat P (txeService i base next k s) := by
  unfold txeService
  split
  · exact h.goto (h.updLocals hs)
  · exact sat_loadByte hs fun x => h.goto (h.updLocals hs)
  · exact sat_loadByte hs fun x => h.goto (h.updLocals hs)
  · exact h.writeReg hs fun t ht => h.goto ht
  · exact serviceStep_keeps h hs

theorem rxneService_keeps (h : Keeps P) {i : SpiId} {base next k : Nat} {s : State} (hs : P s) :
    Sat P (rxneService i base next k s) := by
  unfold rxneService
  split
  · exact h.readReg hs fun v t ht => h.goto (h.updLocals ht)
  · exact h.goto (h.updLocals hs)
  · exact h.storeByte hs fun t ht => h.goto ht
  · exact h.storeByte hs fun t ht => h.goto ht
  · exact serviceStep_keeps h hs

theorem ovrService_keeps (h : Keeps P) {i : SpiId} {base next k : Nat} {s : State} (hs : P s) :
    Sat P (ovrService i base next k s) := by
  unfold ovrService
  split
  · exact h.goto hs
  · exact h.readReg hs fun v t ht => h.goto ht
  · exact sat_ite (h.goto (h.clear _ _ hs)) trivial
  · exact h.emitCallback hs

theorem dispatchStep_keeps (h : Keeps P) {i : SpiId} {s : State} (hs : P s) : Sat P (dispatchStep i s) := by
  unfold dispatchStep
  split
  case h_10 => exact h.finish hs
  case h_11 =>
    split
    · exact txeService_keeps h hs
    · split
      · exact rxneService_keeps h hs
      · exact ovrService_keeps h hs
  all_goals first
    | exact h.readReg hs fun v t ht => h.goto (h.updLocals ht)
    | exact h.goto hs

theorem msendStep_keeps (h : Keeps P) {u : I2cId} {a : BitVec 7} {s : State} (hs : P s) : Sat P (msendStep u a s) := by
  unfold msendStep
  simp only []
  split
  · exact sat_ite (h.goto (h.updLocals hs)) trivial
  · exact h.goto (h.updLocals hs)
  · exact h.rmwRead hs fun t ht => h.goto ht
  · exact h.rmwWrite hs fun t ht => h.goto ht
  · exact h.waitUntil hs
  · exact h.writeReg hs fun t ht => h.goto ht
  · exact h.waitUntil hs
  · exact h.readReg hs fun v t ht => h.goto ht
  · exact h.readReg hs fun v t ht => h.goto ht
  · exact h.goto hs
  · exact h.waitUntil hs
  · exact sat_loadByte hs fun x => h.goto (h.updLocals hs)
  · exact h.writeReg hs fun t ht => h.goto ht
  · exact h.goto (h.updLocals hs)
  · exact h.waitUntil hs
  · exact h.waitUntil hs
  · exact h.rmwRead hs fun t ht => h.finish ht
  · exact h.rmwWrite hs fun t ht => h.finish ht

/-! ## Unit operands -/

theorem sat_withSpi {unit : BitVec 4} {k : SpiId → Out} (hk : ∀ i, Sat P (k i)) : Sat P (withSpi unit k) := by
  unfold withSpi; split
  · exact hk _
  · trivial

theorem sat_withI2c {s : State} {unit : BitVec 4} {k : I2cId → Out} (hk : ∀ i, Sat P (k i)) : Sat P (withI2c s unit k) := by
  unfold withI2c; split
  · exact hk _
  · trivial

theorem sat_withPort {s : State} {c : BitVec 4} {k : Port → Out} (hk : ∀ i, Sat P (k i)) : Sat P (withPort s c k) := by
  unfold withPort; split
  · exact hk _
  · trivial

theorem sat_withIrq {s : State} {q : BitVec 8} {k : Irq → Out} (hk : ∀ i, Sat P (k i)) : Sat P (withIrq s q k) := by
  unfold withIrq; split
  · exact hk _
  · trivial

theorem sat_withPriority {s : State} {p : BitVec 8} {k : BitVec 8 → Out} (hk : ∀ i, Sat P (k i)) : Sat P (withPriority s p k) := by
  unfold withPriority; split
  · exact hk _
  · trivial

theorem sat_withPeripheral {s : State} {id : BitVec 8} {k : Peripheral → Out} (hk : ∀ i, Sat P (k i)) :
    Sat P (withPeripheral s id k) := by
  unfold withPeripheral; split
  · exact hk _
  · trivial

theorem sat_withReg {s : State} {a : Word} {k : Reg → Out} (hk : ∀ r, Sat P (k r)) : Sat P (withReg s a k) := by
  unfold withReg; split
  · split
    · exact hk _
    · trivial
  · trivial

/-! ## Every command -/

/-- A micro-step of any command keeps what the shared updates keep. -/
theorem exec_keeps (h : Keeps P) (i : Instr) (s : State) (hs : P s) : Sat P (exec i s) := by
  cases i with
  | spiInit unit cfg =>
    refine sat_withSpi fun i => ?_
    split
    · split
      · exact h.goto (h.cfg s i cfg hs)
      · exact h.writeReg hs fun t ht => h.finish ht
    · trivial
  | spiSend unit => exact sat_withSpi fun i => sendStep_keeps h hs
  | spiRecv unit => exact sat_withSpi fun i => recvStep_keeps h hs
  | spiSendIt unit => exact sat_withSpi fun i => requestStep_keeps h hs
  | spiRecvIt unit => exact sat_withSpi fun i => requestStep_keeps h hs
  | spiIrq unit => exact sat_withSpi fun i => dispatchStep_keeps h hs
  | extiEdge pin edge =>
    simp only [exec, execExtiEdge]
    split
    · split
      · exact h.rmwRead (h.updLocals hs) fun t ht => h.goto ht
      · exact h.rmwWrite hs fun t ht => h.goto ht
      · exact h.rmwRead hs fun t ht => h.finish ht
      · exact h.rmwWrite hs fun t ht => h.finish ht
    · trivial
  | extiRoute port pin =>
    refine sat_withPort fun p => ?_
    simp only []
    split
    · exact h.rmwRead hs fun t ht => h.goto ht
    · exact h.rmwWrite hs fun t ht => h.goto ht
    · exact h.rmwRead hs fun t ht => h.finish ht
    · exact h.rmwWrite hs fun t ht => h.finish ht
  | extiArm pin =>
    simp only [exec, execExtiArm]
    split
    · exact h.rmwRead hs fun t ht => h.finish ht
    · exact h.rmwWrite hs fun t ht => h.finish ht
  | extiAck pin =>
    simp only [exec, execExtiAck]
    split
    · exact h.readReg hs fun v t ht => h.goto (h.updLocals ht)
    · exact sat_ite (h.writeReg hs fun t ht => h.finish ht) (h.finish hs)
  | irqEnable q en => exact sat_withIrq fun x => h.writeReg hs fun t ht => h.finish ht
  | irqPrio q prio =>
    refine sat_withIrq fun x => sat_withPriority fun p => ?_
    simp only []
    split
    · exact h.rmwRead hs fun t ht => h.finish ht
    · exact h.rmwWrite hs fun t ht => h.finish ht
  | i2cMsend unit addr7 => exact sat_withI2c fun u => msendStep_keeps h hs
  | gpioCfg port pin mode ecfg =>
    refine sat_withPort fun p => ?_
    split
    · split
      · exact h.rmwRead hs fun t ht => h.finish (h.draw _ _ ht)
      · exact h.rmwWrite hs fun t ht => h.finish (h.draw _ _ ht)
    · trivial
  | gpioRdPin port pin =>
    refine sat_withPort fun p => ?_
    split
    · exact h.readReg hs fun v t ht => h.goto (h.updLocals ht)
    · exact h.finish (h.setRet hs)
  | gpioRdPort port =>
    refine sat_withPort fun p => ?_
    split
    · exact h.readReg hs fun v t ht => h.goto (h.updLocals ht)
    · exact h.finish (h.setRet hs)
  | gpioWrPin port pin value =>
    refine sat_withPort fun p => ?_
    split
    · exact h.rmwRead hs fun t ht => h.finish ht
    · exact h.rmwWrite hs fun t ht => h.finish ht
  | gpioWrPort port value => exact sat_withPort fun p => h.writeReg hs fun t ht => h.finish ht
  | gpioTglPin port pin =>
    refine sat_withPort fun p => ?_
    split
    · exact h.rmwRead hs fun t ht => h.finish ht
    · exact h.rmwWrite hs fun t ht => h.finish ht
  | pclk id en =>
    refine sat_withPeripheral fun p => ?_
    simp only []
    split
    · exact h.rmwRead hs fun t ht => h.finish ht
    · exact h.rmwWrite hs fun t ht => h.finish ht
  | regRd =>
    simp only [exec, execRegRd]
    split
    · exact sat_withReg fun r => h.readReg hs fun v t ht => h.goto (h.updLocals ht)
    · exact h.finish (h.setRet hs)
  | regWr =>
    refine sat_withReg fun r => ?_
    exact sat_ite trivial (h.writeReg hs fun t ht => h.finish ht)

/-- The micro-step of a context with no command in progress. -/
theorem issue_keeps (h : Keeps P) (s : State) (hs : P s) : Sat P (issue s) := by
  unfold issue
  split
  · exact h.act (h.ctx _ _ hs)
  · exact h.act (h.ctx _ _ hs)
  · exact h.ctx _ _ (h.act hs)
  · exact h.storeByte hs fun t ht => h.act ht
  · split
    · exact h.ctx _ _ hs
    · exact hs

/-- The micro-step of the running context, whatever it runs. -/
theorem contextStep_keeps (h : Keeps P) (s : State) (hs : P s) : Sat P (contextStep s) := by
  unfold contextStep
  split
  · exact issue_keeps h s hs
  · split
    · exact exec_keeps h _ s hs
    · trivial

end Sys2Proof.Machine
end

