-- ==== Sys2Proof/Laws/Units.lean ====
section
/-! SUPPORT. Reading and replacing the copy of one unit, and which units and IRQs an operand names. -/

namespace Sys2Proof

@[simp] theorem PerSpi.get_set_self {α : Type} (x : PerSpi α) (i : SpiId) (v : α) : (x.set i v).get i = v := by
  cases i <;> rfl

theorem PerSpi.get_set_ne {α : Type} (x : PerSpi α) {i j : SpiId} (v : α) (h : j ≠ i) :
    (x.set i v).get j = x.get j := by
  cases i <;> cases j <;> first | rfl | exact absurd rfl h

theorem PerSpi.get_set {α : Type} (x : PerSpi α) (i j : SpiId) (v : α) :
    (x.set i v).get j = if j = i then v else x.get j := by
  cases i <;> cases j <;> rfl

@[simp] theorem PerSpi.set_set {α : Type} (x : PerSpi α) (i : SpiId) (v w : α) : (x.set i v).set i w = x.set i w := by
  cases i <;> rfl

@[simp] theorem PerSpi.set_get {α : Type} (x : PerSpi α) (i : SpiId) : x.set i (x.get i) = x := by
  cases i <;> rfl

@[simp] theorem PerI2c.get_all {α : Type} (v : α) (u : I2cId) : (PerI2c.all v).get u = v := by
  simp [PerI2c.all, PerI2c.get, Vector.get_eq_getElem]

theorem PerI2c.get_set {α : Type} (x : PerI2c α) (u w : I2cId) (v : α) :
    (x.set u v).get w = if w = u then v else x.get w := by
  simp only [PerI2c.set, PerI2c.get, Vector.get_eq_getElem, Vector.getElem_set, Fin.ext_iff, eq_comm]

@[simp] theorem PerI2c.get_set_self {α : Type} (x : PerI2c α) (u : I2cId) (v : α) : (x.set u v).get u = v := by
  simp [PerI2c.get_set]

@[simp] theorem PerI2c.set_set {α : Type} (x : PerI2c α) (u : I2cId) (v w : α) : (x.set u v).set u w = x.set u w := by
  simp [PerI2c.set]

@[simp] theorem PerI2c.set_get {α : Type} (x : PerI2c α) (u : I2cId) : x.set u (x.get u) = x := by
  simp [PerI2c.set, PerI2c.get, Vector.get_eq_getElem]

@[simp] theorem PerPort.get_all {α : Type} (v : α) (p : Port) : (PerPort.all v).get p = v := by
  simp [PerPort.all, PerPort.get, Vector.get_eq_getElem]

theorem PerPort.get_set {α : Type} (x : PerPort α) (p q : Port) (v : α) :
    (x.set p v).get q = if q = p then v else x.get q := by
  simp only [PerPort.set, PerPort.get, Vector.get_eq_getElem, Vector.getElem_set, BitVec.val_toFin, ← BitVec.toNat_inj, eq_comm]

@[simp] theorem PerPort.get_set_self {α : Type} (x : PerPort α) (p : Port) (v : α) : (x.set p v).get p = v := by
  simp [PerPort.get_set]

@[simp] theorem PerPort.set_set {α : Type} (x : PerPort α) (p : Port) (v w : α) : (x.set p v).set p w = x.set p w := by
  simp [PerPort.set]

@[simp] theorem PerPort.set_get {α : Type} (x : PerPort α) (p : Port) : x.set p (x.get p) = x := by
  simp [PerPort.set, PerPort.get, Vector.get_eq_getElem]

/-! ## Operands that name units -/

namespace Machine

/-- A code names the port of that code, if it is in PORTS (30 R107). -/
theorem portOf_eq_some {P : Params} {c : BitVec 4} {p : Port} : portOf P c = some p ↔ hasPort P c = true ∧ p = c := by
  unfold portOf
  split <;> simp_all only [Option.some.injEq, reduceCtorEq, Bool.false_eq_true, false_and, true_and]
  exact eq_comm

theorem portOf_eq_none {P : Params} {c : BitVec 4} : portOf P c = none ↔ hasPort P c = false := by
  simp [portOf]

/-- A unit number names the I2C instance of that number, if it exists (30 R107). -/
theorem i2cOf_eq_some {P : Params} {unit : BitVec 4} {u : I2cId} :
    i2cOf P unit = some u ↔ i2cNumber u = unit.toNat ∧ hasI2c P u = true := by
  have hu := u.isLt
  unfold i2cOf
  split
  · rename_i h0
    have e : (⟨unit.toNat - 1, by have := unit.isLt; omega⟩ : I2cId) = u ↔ i2cNumber u = unit.toNat := by
      rw [Fin.ext_iff, i2cNumber]
      constructor <;> intro h <;> simp only [] at h ⊢ <;> omega
    simp only [Option.ite_none_right_eq_some, Option.some.injEq, ← e]
    constructor
    · rintro ⟨h, rfl⟩; exact ⟨rfl, h⟩
    · rintro ⟨h1, h⟩; exact ⟨h1 ▸ h, h1⟩
  · simp only [i2cNumber, reduceCtorEq, false_iff, not_and]
    omega

/-- A number names the IRQ of that number, if it is below N_IRQ (30 R109). -/
theorem irqOf_eq_some {P : Params} {q : BitVec 8} {x : Irq} : irqOf P q = some x ↔ x.val = q.toNat ∧ hasIrq P x = true := by
  have e : q.toFin = x ↔ x.val = q.toNat := by rw [Fin.ext_iff, eq_comm]; rfl
  simp only [irqOf, Option.ite_none_right_eq_some, Option.some.injEq, ← e]
  constructor
  · rintro ⟨h, rfl⟩; exact ⟨rfl, h⟩
  · rintro ⟨rfl, h⟩; exact ⟨h, rfl⟩

theorem irqOf_eq_none {P : Params} {q : BitVec 8} : irqOf P q = none ↔ P.nIrq ≤ q.toNat := by
  simp [irqOf, hasIrq]

theorem priorityOf_eq_some {P : Params} {p x : BitVec 8} : priorityOf P p = some x ↔ p.toNat < 2 ^ P.prioBits ∧ x = p := by
  unfold priorityOf
  split <;> simp_all only [Option.some.injEq, reduceCtorEq, false_and, true_and]
  exact eq_comm

end Machine

end Sys2Proof
end

