-- ==== Sys2Proof/Laws/Parameters.lean ====
section
/-! SUPPORT. What the parameters give where they are at their defaults, the bit positions on the bus, enables and priority lanes,
and that the parameters of the reset state are well formed. -/

namespace Sys2Proof.Machine

/-! ## Bit positions on the bus -/

/-- A register whose bits stand where the default layout has them looks the same on the bus. -/
@[simp] theorem toBus_of_none {P : Params} {r : Reg} (w : Word) (h : busOrder P r = none) : toBus P r w = w := by
  simp [toBus, h]

@[simp] theorem fromBus_of_none {P : Params} {r : Reg} (w : Word) (h : busOrder P r = none) : fromBus P r w = w := by
  simp [fromBus, h]

theorem busOrder_of_nil {P : Params} (r : Reg) (h : P.layout.bits = []) : busOrder P r = none := by
  simp [busOrder, h]

/-- A bit that no element sets keeps its value. -/
theorem foldl_setBit_of_ne (f : Nat → Nat) (g : Nat → Bool) (j : Nat) (hj : j < 32) (l : List Nat) (m : Word)
    (h : ∀ k ∈ l, f k ≠ j) : (l.foldl (fun m k => setBit m (f k) (g k)) m).getLsbD j = m.getLsbD j := by
  induction l generalizing m with
  | nil => rfl
  | cons a l ih =>
    rw [List.foldl_cons, ih _ fun k hk => h k (List.mem_cons_of_mem _ hk), setBit_getLsbD _ _ _ _ hj,
      if_neg (Ne.symm (h a List.mem_cons_self))]

/-- A bit that one element sets gets that element's value. -/
theorem foldl_setBit_of_mem (f : Nat → Nat) (g : Nat → Bool) (k : Nat) (hk : f k < 32) (l : List Nat) (m : Word)
    (hl : k ∈ l) (h : ∀ a ∈ l, f a = f k → a = k) :
    (l.foldl (fun m k => setBit m (f k) (g k)) m).getLsbD (f k) = g k := by
  induction l generalizing m with
  | nil => cases hl
  | cons a l ih =>
    rw [List.foldl_cons]
    by_cases hm : k ∈ l
    · exact ih _ hm fun a ha => h a (List.mem_cons_of_mem _ ha)
    · have hf : ∀ b ∈ l, f b ≠ f k := fun b hb e => hm (h b (List.mem_cons_of_mem _ hb) e ▸ hb)
      have ha : a = k := by
        rcases List.mem_cons.1 hl with e | e
        · exact e.symm
        · exact absurd e hm
      rw [foldl_setBit_of_ne f g _ hk l _ hf, ha, setBit_getLsbD _ _ _ _ hk, if_pos rfl]

/-- Bit k of the value an access writes is the bit at the position where the layout has it. -/
theorem fromBus_getLsbD {P : Params} {r : Reg} {ps : List Nat} (w : Word) (h : busOrder P r = some ps) (k : Nat) (hk : k < 32) :
    (fromBus P r w).getLsbD k = w.getLsbD (ps.getD k k) := by
  simp only [fromBus, h]
  exact foldl_setBit_of_mem (fun k => k) _ k hk _ _ (List.mem_range.2 hk) fun a _ e => e

/-- The bit at the position where the layout has bit k is bit k of the register, where the positions are a permutation. -/
theorem toBus_getLsbD {P : Params} {r : Reg} {ps : List Nat} (w : Word) (h : busOrder P r = some ps)
    (hp : ps.Perm (List.range 32)) (k : Nat) (hk : k < 32) : (toBus P r w).getLsbD (ps.getD k k) = w.getLsbD k := by
  have hl : ps.length = 32 := by simpa using hp.length_eq
  have hn : ps.Nodup := hp.nodup_iff.2 List.nodup_range
  have e : ∀ j, j < 32 → ∃ hj : j < ps.length, ps.getD j j = ps[j] := fun j hj =>
    ⟨by omega, by rw [List.getD_eq_getElem?_getD, List.getElem?_eq_getElem (by omega)]; rfl⟩
  simp only [toBus, h]
  refine foldl_setBit_of_mem (fun k => ps.getD k k) _ k ?_ _ _ (List.mem_range.2 hk) fun a ha hak => ?_
  · obtain ⟨hj, e1⟩ := e k hk
    simp only [e1]
    exact List.mem_range.1 (hp.mem_iff.1 (List.getElem_mem hj))
  · obtain ⟨hj, e1⟩ := e k hk
    obtain ⟨hi, e2⟩ := e a (List.mem_range.1 ha)
    simp only [e1, e2] at hak
    exact (List.Nodup.getElem_inj_iff hn).1 hak

/-- What is written where the layout has the bits and read there again is the value written. -/
theorem fromBus_toBus {P : Params} (hP : P.wf) (r : Reg) (w : Word) : fromBus P r (toBus P r w) = w := by
  cases h : busOrder P r with
  | none => simp [h]
  | some ps =>
    refine BitVec.eq_of_getLsbD_eq fun k hk => ?_
    have hp : ps.Perm (List.range 32) := by
      obtain ⟨e, he, rfl⟩ := Option.map_eq_some_iff.1 h
      exact hP.positions e (List.mem_of_find?_eq_some he)
    rw [fromBus_getLsbD _ h k hk, toBus_getLsbD _ h hp k hk]

/-! ## IRQs and priorities -/

/-- The bits of the mask of the IRQ numbers below n. -/
theorem irqsBelow_getLsbD (n j : Nat) (hj : j < 256) : (irqsBelow n).getLsbD j = decide (j < n) := by
  simp only [irqsBelow, BitVec.getLsbD_ushiftRight, BitVec.getLsbD_allOnes]
  congr 1
  rw [eq_iff_iff]
  omega

/-- The default priority order (60 R246). -/
theorem higher_of_numeric {P : Params} (h : P.order = .numeric) (p r : BitVec 8) :
    higher P p r = decide (p.toNat < r.toNat) := by
  simp [higher, h, BitVec.ult]

/-! ## Enables and priority lanes -/

/-- Which enables a word written to ISER or ICER names (20 R82). -/
theorem enableMask_getLsbD (P : Params) (k : Fin 8) (v : Word) (q : Irq) :
    (enableMask P k v).getLsbD q.val = (decide (q.val / 32 = k.val ∧ q.val < P.nIrq) && v.getLsbD (q.val % 32)) := by
  have hq := q.isLt
  have hk := k.isLt
  rw [enableMask, BitVec.getLsbD_and, irqsBelow_getLsbD _ _ hq, BitVec.getLsbD_shiftLeft, BitVec.getLsbD_setWidth]
  by_cases h : q.val / 32 = k.val
  · have e : q.val - 32 * k.val = q.val % 32 := by omega
    have h1 : ¬ q.val < 32 * k.val := by omega
    have h2 : q.val % 32 < 256 := by omega
    simp [e, hq, h1, h2, h, Bool.and_comm]
  · by_cases h1 : q.val < 32 * k.val
    · simp [h1, h]
    · have h2 : v.getLsbD (q.val - 32 * k.val) = false := BitVec.getLsbD_of_ge _ _ (by omega)
      simp [h2, h]

/-- The lanes after a write of one of them (20 R82). -/
theorem setLane_get (P : Params) (q p : Irq) (x : BitVec 8) (r : NvicRegs) :
    (setLane P q x r).lane.get p = if p = q ∧ hasIrq P q = true then x &&& laneMask P else r.lane.get p := by
  unfold setLane
  split
  · simp only [Vector.get_eq_getElem, Vector.getElem_set, Fin.ext_iff, eq_comm, and_true, *]
  · simp [*]

/-- The unimplemented bits of a lane are no part of the priority (20 R82). -/
theorem laneMask_ushiftRight (P : Params) (x : BitVec 8) : (x &&& laneMask P) >>> (8 - P.prioBits) = x >>> (8 - P.prioBits) := by
  refine BitVec.eq_of_getLsbD_eq fun i hi => ?_
  simp only [laneMask, BitVec.getLsbD_ushiftRight, BitVec.getLsbD_and, BitVec.getLsbD_shiftLeft, BitVec.getLsbD_allOnes]
  by_cases h : 8 - P.prioBits + i < 8
  · simp [h]; omega
  · rw [BitVec.getLsbD_of_ge x _ (by omega)]; simp

/-- A priority that fits PRIO_BITS is what its lane holds (30 R109, 20 R82). -/
theorem laneOf_ushiftRight (P : Params) (p : BitVec 8) (h : p.toNat < 2 ^ P.prioBits) :
    laneOf P p >>> (8 - P.prioBits) = p := by
  refine BitVec.eq_of_getLsbD_eq fun i hi => ?_
  simp only [laneOf, BitVec.getLsbD_ushiftRight, BitVec.getLsbD_shiftLeft]
  by_cases h1 : 8 - P.prioBits + i < 8
  · simp [h1]
  · have h2 : p.getLsbD i = false := Nat.testBit_lt_two_pow (lt_of_lt_of_le h (Nat.pow_le_pow_right (by omega) (by omega)))
    simp [h1, h2]
/-! ## The layout -/

theorem regAddr_of_nil {P : Params} (r : Reg) (h : P.layout.addrs = []) : regAddr P r = defaultAddr r := by
  simp [regAddr, h]

theorem clkPlace_of_nil {P : Params} (p : Peripheral) (h : P.layout.clocks = []) : clkPlace P p = defaultClkPlace p := by
  simp [clkPlace, h]

/-- An address that a register has, if no two registers share one, names that register. -/
theorem regAt_of_mem {P : Params} (hP : P.wf) {r : Reg} (hr : r ∈ allRegs P) : regAt P (regAddr P r) = some r := by
  unfold regAt
  obtain ⟨as, bs, e⟩ := List.append_of_mem hr
  have hd := hP.distinct
  rw [e] at hd ⊢
  rw [List.find?_append, List.find?_eq_none.2]
  · simp
  · intro q hq
    have := (List.pairwise_append.1 hd).2.2 q hq r List.mem_cons_self
    simpa using this

/-- The register an address names is one of the layout's, at that address. -/
theorem regAt_eq_some {P : Params} {a : Nat} {r : Reg} (h : regAt P a = some r) : r ∈ allRegs P ∧ regAddr P r = a :=
  ⟨List.mem_of_find?_eq_some h, by simpa using List.find?_some h⟩

/-! ## The defaults -/

/-- The default mapping puts the frame width at DFF (40 R132). -/
theorem defaultCfgCode_dff (cfg : BitVec 10) : (defaultCfgCode cfg).getLsbD bitDff = cfg.getLsbD 8 := by
  have h3 : ((cfg.extractLsb' 3 3).setWidth 32 <<< 3 : Word).getLsbD 11 = false := by simp
  simp only [defaultCfgCode, bitDff, BitVec.getLsbD_or, bitAt_getLsbD _ 11 _ (by omega), h3]
  simp

theorem reset_port {q : Port} (h : hasPort Params.reset q = true) : q.toNat ≤ 6 := by revert q; decide
theorem reset_i2c {u : I2cId} (h : hasI2c Params.reset u = true) : u.val ≤ 1 := by revert u; decide

set_option maxRecDepth 4000 in
/-- The parameters of the reset state meet what the spec asks of parameters. -/
theorem Params.reset_wf : Params.reset.wf where
  ports := by decide
  i2c := by decide
  irqs := by decide
  prioBits := by decide
  lines := by decide
  spis := fun i => by cases i <;> decide
  irreflexive := fun p => by rw [higher_of_numeric (P := Params.reset) rfl]; simp
  transitive := fun p q r => by simp only [higher_of_numeric (P := Params.reset) rfl, decide_eq_true_eq]; omega
  addresses := by decide
  distinct := by decide
  clockBits := fun p h => by
    rw [clkBit, clkPlace_of_nil p rfl]
    cases p with
    | afio => decide
    | spi i => cases i <;> decide
    | i2c u => have := reset_i2c h; simp only [defaultClkPlace]; omega
    | gpio q => have := reset_port h; simp only [defaultClkPlace]; omega
  clockPlaces := fun p q hp hq => by
    rw [clkPlace_of_nil p rfl, clkPlace_of_nil q rfl]
    have h1 := @reset_i2c
    have h2 := @reset_port
    cases p with
    | afio => cases q with
      | spi j => cases j <;> decide
      | gpio u => simp only [defaultClkPlace, Prod.mk.injEq, true_and]; omega
      | _ => simp [defaultClkPlace]
    | spi i => cases q with
      | spi j => cases i <;> cases j <;> decide
      | afio => cases i <;> decide
      | i2c u => have := h1 hq; cases i <;>
        simp only [defaultClkPlace, Prod.mk.injEq, reduceCtorEq, imp_false, true_and, false_and, not_false_eq_true] <;> omega
      | gpio u => have := h2 hq; cases i <;>
        simp only [defaultClkPlace, Prod.mk.injEq, reduceCtorEq, imp_false, true_and, false_and, not_false_eq_true] <;> omega
    | i2c u => cases q with
      | spi i => have := h1 hp; cases i <;>
        simp only [defaultClkPlace, Prod.mk.injEq, reduceCtorEq, imp_false, true_and, false_and, not_false_eq_true] <;> omega
      | i2c v => simp [defaultClkPlace, Fin.ext_iff]
      | _ => simp [defaultClkPlace]
    | gpio u => cases q with
      | spi i => have := h2 hp; cases i <;>
        simp only [defaultClkPlace, Prod.mk.injEq, reduceCtorEq, imp_false, true_and, false_and, not_false_eq_true] <;> omega
      | gpio v => simp [defaultClkPlace, ← BitVec.toNat_inj]
      | _ => simp [defaultClkPlace]
  positions := fun _ h => by cases h
  frameBit := fun i cfg => by
    rw [fromBus_of_none _ (busOrder_of_nil _ rfl)]
    exact defaultCfgCode_dff cfg
end Sys2Proof.Machine
end

