-- ==== Sys2Proof/Laws/PerInstr.lean ====
section
/-! SUPPORT. One lemma per command: its encoded word meets the mask and the match of its row of the opcode table. -/

namespace Sys2Proof.Laws.TableRow

/-- The mask and the match of a command's row of `spec/opcode_table.json`. -/
def row (i : Instr) : Word × Word :=
  match i with
  | .spiInit _ _ => (0xFF0FFC00, 0x01000000)
  | .spiSend _ => (0xFF0FFFFF, 0x02000000)
  | .spiRecv _ => (0xFF0FFFFF, 0x03000000)
  | .spiSendIt _ => (0xFF0FFFFF, 0x04000000)
  | .spiRecvIt _ => (0xFF0FFFFF, 0x05000000)
  | .spiIrq _ => (0xFF0FFFFF, 0x06000000)
  | .extiEdge _ _ => (0xFFF0FFFC, 0x10000000)
  | .extiRoute _ _ => (0xFF00FFFF, 0x11000000)
  | .extiArm _ => (0xFFF0FFFF, 0x12000000)
  | .extiAck _ => (0xFFF0FFFF, 0x13000000)
  | .irqEnable _ _ => (0xFFFF00FE, 0x14000000)
  | .irqPrio _ _ => (0xFFFF0000, 0x15000000)
  | .i2cMsend _ _ => (0xFF0FFF80, 0x20000000)
  | .gpioCfg _ _ _ _ => (0xFF00FFC0, 0x30000000)
  | .gpioRdPin _ _ => (0xFF00FFFF, 0x31000000)
  | .gpioRdPort _ => (0xFF0FFFFF, 0x32000000)
  | .gpioWrPin _ _ _ => (0xFF00FFFE, 0x33000000)
  | .gpioWrPort _ _ => (0xFF0F0000, 0x34000000)
  | .gpioTglPin _ _ => (0xFF00FFFF, 0x35000000)
  | .pclk _ _ => (0xFFFF00FE, 0x40000000)
  | .regRd => (0xFFFFFFFF, 0x50000000)
  | .regWr => (0xFFFFFFFF, 0x51000000)

/-- Under the row's mask the encoded word is the row's match. -/
def Statement (i : Instr) : Prop := encode i &&& (row i).1 = (row i).2

/-- An assembled word under a mask that fixes the opcode and some of the other bits. -/
theorem packFields_and (o : BitVec 8) (u p : BitVec 4) (x : BitVec 16) (mo : BitVec 8) (mu mp : BitVec 4) (mx : BitVec 16) :
    packFields o u p x &&& packFields mo mu mp mx = packFields (o &&& mo) (u &&& mu) (p &&& mp) (x &&& mx) := by
  refine BitVec.eq_of_getLsbD_eq fun i _ => ?_
  rw [BitVec.getLsbD_and, packFields_getLsbD, packFields_getLsbD, packFields_getLsbD]
  split
  · simp
  · split
    · simp
    · split <;> simp

/-- `SPI_INIT`. -/
theorem spiInit (unit : BitVec 4) (cfg : BitVec 10) : Statement (.spiInit unit cfg) := by
  refine (packFields_and _ _ _ _ 0xFF#8 0x0#4 0xF#4 0xFC00#16).trans ?_
  have e : (cfg.setWidth 16) &&& 0xFC00#16 = 0#16 := by
    refine BitVec.eq_of_getLsbD_eq fun i hi => ?_
    interval_cases i <;> simp
  simp only [e, BitVec.and_zero]
  rfl

/-- `SPI_SEND`. -/
theorem spiSend (unit : BitVec 4) : Statement (.spiSend unit) := by
  refine (packFields_and _ _ _ _ 0xFF#8 0x0#4 0xF#4 0xFFFF#16).trans ?_
  simp only [BitVec.and_zero]
  rfl

/-- `SPI_RECV`. -/
theorem spiRecv (unit : BitVec 4) : Statement (.spiRecv unit) := by
  refine (packFields_and _ _ _ _ 0xFF#8 0x0#4 0xF#4 0xFFFF#16).trans ?_
  simp only [BitVec.and_zero]
  rfl

/-- `SPI_SEND_IT`. -/
theorem spiSendIt (unit : BitVec 4) : Statement (.spiSendIt unit) := by
  refine (packFields_and _ _ _ _ 0xFF#8 0x0#4 0xF#4 0xFFFF#16).trans ?_
  simp only [BitVec.and_zero]
  rfl

/-- `SPI_RECV_IT`. -/
theorem spiRecvIt (unit : BitVec 4) : Statement (.spiRecvIt unit) := by
  refine (packFields_and _ _ _ _ 0xFF#8 0x0#4 0xF#4 0xFFFF#16).trans ?_
  simp only [BitVec.and_zero]
  rfl

/-- `SPI_IRQ`. -/
theorem spiIrq (unit : BitVec 4) : Statement (.spiIrq unit) := by
  refine (packFields_and _ _ _ _ 0xFF#8 0x0#4 0xF#4 0xFFFF#16).trans ?_
  simp only [BitVec.and_zero]
  rfl

/-- `EXTI_EDGE`. -/
theorem extiEdge (pin : BitVec 4) (edge : BitVec 2) : Statement (.extiEdge pin edge) := by
  refine (packFields_and _ _ _ _ 0xFF#8 0xF#4 0x0#4 0xFFFC#16).trans ?_
  have e : (edge.setWidth 16) &&& 0xFFFC#16 = 0#16 := by
    refine BitVec.eq_of_getLsbD_eq fun i hi => ?_
    interval_cases i <;> simp
  simp only [e, BitVec.and_zero]
  rfl

/-- `EXTI_ROUTE`. -/
theorem extiRoute (port : BitVec 4) (pin : BitVec 4) : Statement (.extiRoute port pin) := by
  refine (packFields_and _ _ _ _ 0xFF#8 0x0#4 0x0#4 0xFFFF#16).trans ?_
  simp only [BitVec.and_zero]
  rfl

/-- `EXTI_ARM`. -/
theorem extiArm (pin : BitVec 4) : Statement (.extiArm pin) := by
  refine (packFields_and _ _ _ _ 0xFF#8 0xF#4 0x0#4 0xFFFF#16).trans ?_
  simp only [BitVec.and_zero]
  rfl

/-- `EXTI_ACK`. -/
theorem extiAck (pin : BitVec 4) : Statement (.extiAck pin) := by
  refine (packFields_and _ _ _ _ 0xFF#8 0xF#4 0x0#4 0xFFFF#16).trans ?_
  simp only [BitVec.and_zero]
  rfl

/-- `IRQ_ENABLE`. -/
theorem irqEnable (q : BitVec 8) (en : Bool) : Statement (.irqEnable q en) := by
  refine (packFields_and _ _ _ _ 0xFF#8 0xF#4 0xF#4 0x00FE#16).trans ?_
  have e : (hiLo q ((BitVec.ofBool en).setWidth 8)) &&& 0x00FE#16 = 0#16 := by
    refine BitVec.eq_of_getLsbD_eq fun i hi => ?_
    interval_cases i <;> simp [hiLo]
  simp only [e]
  rfl

/-- `IRQ_PRIO`. -/
theorem irqPrio (q : BitVec 8) (prio : BitVec 8) : Statement (.irqPrio q prio) := by
  refine (packFields_and _ _ _ _ 0xFF#8 0xF#4 0xF#4 0x0000#16).trans ?_
  simp only [BitVec.and_zero]
  rfl

/-- `I2C_MSEND`. -/
theorem i2cMsend (unit : BitVec 4) (addr7 : BitVec 7) : Statement (.i2cMsend unit addr7) := by
  refine (packFields_and _ _ _ _ 0xFF#8 0x0#4 0xF#4 0xFF80#16).trans ?_
  have e : (addr7.setWidth 16) &&& 0xFF80#16 = 0#16 := by
    refine BitVec.eq_of_getLsbD_eq fun i hi => ?_
    interval_cases i <;> simp
  simp only [e, BitVec.and_zero]
  rfl

/-- `GPIO_CFG`. -/
theorem gpioCfg (port : BitVec 4) (pin : BitVec 4) (mode : BitVec 3) (ecfg : BitVec 3) : Statement (.gpioCfg port pin mode ecfg) := by
  refine (packFields_and _ _ _ _ 0xFF#8 0x0#4 0x0#4 0xFFC0#16).trans ?_
  have e : (ecfg.setWidth 16 <<< 3 ||| mode.setWidth 16) &&& 0xFFC0#16 = 0#16 := by
    refine BitVec.eq_of_getLsbD_eq fun i hi => ?_
    interval_cases i <;> simp
  simp only [e, BitVec.and_zero]
  rfl

/-- `GPIO_RD_PIN`. -/
theorem gpioRdPin (port : BitVec 4) (pin : BitVec 4) : Statement (.gpioRdPin port pin) := by
  refine (packFields_and _ _ _ _ 0xFF#8 0x0#4 0x0#4 0xFFFF#16).trans ?_
  simp only [BitVec.and_zero]
  rfl

/-- `GPIO_RD_PORT`. -/
theorem gpioRdPort (port : BitVec 4) : Statement (.gpioRdPort port) := by
  refine (packFields_and _ _ _ _ 0xFF#8 0x0#4 0xF#4 0xFFFF#16).trans ?_
  simp only [BitVec.and_zero]
  rfl

/-- `GPIO_WR_PIN`. -/
theorem gpioWrPin (port : BitVec 4) (pin : BitVec 4) (value : Bool) : Statement (.gpioWrPin port pin value) := by
  refine (packFields_and _ _ _ _ 0xFF#8 0x0#4 0x0#4 0xFFFE#16).trans ?_
  have e : ((BitVec.ofBool value).setWidth 16) &&& 0xFFFE#16 = 0#16 := by
    refine BitVec.eq_of_getLsbD_eq fun i hi => ?_
    interval_cases i <;> simp
  simp only [e, BitVec.and_zero]
  rfl

/-- `GPIO_WR_PORT`. -/
theorem gpioWrPort (port : BitVec 4) (value : BitVec 16) : Statement (.gpioWrPort port value) := by
  refine (packFields_and _ _ _ _ 0xFF#8 0x0#4 0xF#4 0x0000#16).trans ?_
  simp only [BitVec.and_zero]
  rfl

/-- `GPIO_TGL_PIN`. -/
theorem gpioTglPin (port : BitVec 4) (pin : BitVec 4) : Statement (.gpioTglPin port pin) := by
  refine (packFields_and _ _ _ _ 0xFF#8 0x0#4 0x0#4 0xFFFF#16).trans ?_
  simp only [BitVec.and_zero]
  rfl

/-- `PCLK`. -/
theorem pclk (id : BitVec 8) (en : Bool) : Statement (.pclk id en) := by
  refine (packFields_and _ _ _ _ 0xFF#8 0xF#4 0xF#4 0x00FE#16).trans ?_
  have e : (hiLo id ((BitVec.ofBool en).setWidth 8)) &&& 0x00FE#16 = 0#16 := by
    refine BitVec.eq_of_getLsbD_eq fun i hi => ?_
    interval_cases i <;> simp [hiLo]
  simp only [e]
  rfl

/-- `REG_RD`. -/
theorem regRd : Statement (.regRd) := by
  refine (packFields_and _ _ _ _ 0xFF#8 0xF#4 0xF#4 0xFFFF#16).trans ?_
  rfl

/-- `REG_WR`. -/
theorem regWr : Statement (.regWr) := by
  refine (packFields_and _ _ _ _ 0xFF#8 0xF#4 0xF#4 0xFFFF#16).trans ?_
  rfl

end Sys2Proof.Laws.TableRow
end

