-- ==== Sys2Proof/Laws/Registers.lean ====
section
/-! SUPPORT. What a read and a write of a register leave alone (20 R75): the handles, buffer memory, the callback history, the
contexts and the parameters are out of a register access's reach. -/

namespace Sys2Proof.Machine

/-! ## A routing write -/

@[simp] theorem detectReroute_handles (old s : State) (n : BitVec 4) : (detectReroute old s n).handles = s.handles := by
  unfold detectReroute; split <;> (try split) <;> rfl
@[simp] theorem detectReroute_rcc (old s : State) (n : BitVec 4) : (detectReroute old s n).rcc = s.rcc := by
  unfold detectReroute; split <;> (try split) <;> rfl
@[simp] theorem detectReroute_nvic (old s : State) (n : BitVec 4) : (detectReroute old s n).nvic = s.nvic := by
  unfold detectReroute; split <;> (try split) <;> rfl
@[simp] theorem detectReroute_gpio (old s : State) (n : BitVec 4) : (detectReroute old s n).gpio = s.gpio := by
  unfold detectReroute; split <;> (try split) <;> rfl
@[simp] theorem detectReroute_mem (old s : State) (n : BitVec 4) : (detectReroute old s n).mem = s.mem := by
  unfold detectReroute; split <;> (try split) <;> rfl
@[simp] theorem detectReroute_cbOut (old s : State) (n : BitVec 4) : (detectReroute old s n).cbOut = s.cbOut := by
  unfold detectReroute; split <;> (try split) <;> rfl
@[simp] theorem detectReroute_ctx (old s : State) (n : BitVec 4) : (detectReroute old s n).ctx = s.ctx := by
  unfold detectReroute; split <;> (try split) <;> rfl
@[simp] theorem detectReroute_frozen (old s : State) (n : BitVec 4) : (detectReroute old s n).frozen = s.frozen := by
  unfold detectReroute; split <;> (try split) <;> rfl
@[simp] theorem detectReroute_params (old s : State) (n : BitVec 4) : (detectReroute old s n).params = s.params := by
  unfold detectReroute; split <;> (try split) <;> rfl
@[simp] theorem detectReroute_sched (old s : State) (n : BitVec 4) : (detectReroute old s n).sched = s.sched := by
  unfold detectReroute; split <;> (try split) <;> rfl
@[simp] theorem detectReroute_swap (old s : State) (n : BitVec 4) : (detectReroute old s n).swap = s.swap := by
  unfold detectReroute; split <;> (try split) <;> rfl
@[simp] theorem detectReroute_spi (old s : State) (n : BitVec 4) : (detectReroute old s n).spi = s.spi := by
  unfold detectReroute; split <;> (try split) <;> rfl
@[simp] theorem detectReroute_afio (old s : State) (n : BitVec 4) : (detectReroute old s n).afio = s.afio := by
  unfold detectReroute; split <;> (try split) <;> rfl
@[simp] theorem detectReroute_i2c (old s : State) (n : BitVec 4) : (detectReroute old s n).i2c = s.i2c := by
  unfold detectReroute; split <;> (try split) <;> rfl
@[simp] theorem detectReroute_spiOut (old s : State) (n : BitVec 4) : (detectReroute old s n).spiOut = s.spiOut := by
  unfold detectReroute; split <;> (try split) <;> rfl
@[simp] theorem detectReroute_i2cOut (old s : State) (n : BitVec 4) : (detectReroute old s n).i2cOut = s.i2cOut := by
  unfold detectReroute; split <;> (try split) <;> rfl

@[simp] theorem writeRoute_handles (k : Fin 4) (v : BitVec 16) (s : State) : (writeRoute k v s).handles = s.handles := by
  unfold writeRoute slotPins; split <;> simp only [List.foldl, detectReroute_handles]
@[simp] theorem writeRoute_rcc (k : Fin 4) (v : BitVec 16) (s : State) : (writeRoute k v s).rcc = s.rcc := by
  unfold writeRoute slotPins; split <;> simp only [List.foldl, detectReroute_rcc]
@[simp] theorem writeRoute_nvic (k : Fin 4) (v : BitVec 16) (s : State) : (writeRoute k v s).nvic = s.nvic := by
  unfold writeRoute slotPins; split <;> simp only [List.foldl, detectReroute_nvic]
@[simp] theorem writeRoute_gpio (k : Fin 4) (v : BitVec 16) (s : State) : (writeRoute k v s).gpio = s.gpio := by
  unfold writeRoute slotPins; split <;> simp only [List.foldl, detectReroute_gpio]
@[simp] theorem writeRoute_mem (k : Fin 4) (v : BitVec 16) (s : State) : (writeRoute k v s).mem = s.mem := by
  unfold writeRoute slotPins; split <;> simp only [List.foldl, detectReroute_mem]
@[simp] theorem writeRoute_cbOut (k : Fin 4) (v : BitVec 16) (s : State) : (writeRoute k v s).cbOut = s.cbOut := by
  unfold writeRoute slotPins; split <;> simp only [List.foldl, detectReroute_cbOut]
@[simp] theorem writeRoute_ctx (k : Fin 4) (v : BitVec 16) (s : State) : (writeRoute k v s).ctx = s.ctx := by
  unfold writeRoute slotPins; split <;> simp only [List.foldl, detectReroute_ctx]
@[simp] theorem writeRoute_frozen (k : Fin 4) (v : BitVec 16) (s : State) : (writeRoute k v s).frozen = s.frozen := by
  unfold writeRoute slotPins; split <;> simp only [List.foldl, detectReroute_frozen]
@[simp] theorem writeRoute_params (k : Fin 4) (v : BitVec 16) (s : State) : (writeRoute k v s).params = s.params := by
  unfold writeRoute slotPins; split <;> simp only [List.foldl, detectReroute_params]
@[simp] theorem writeRoute_sched (k : Fin 4) (v : BitVec 16) (s : State) : (writeRoute k v s).sched = s.sched := by
  unfold writeRoute slotPins; split <;> simp only [List.foldl, detectReroute_sched]
@[simp] theorem writeRoute_swap (k : Fin 4) (v : BitVec 16) (s : State) : (writeRoute k v s).swap = s.swap := by
  unfold writeRoute slotPins; split <;> simp only [List.foldl, detectReroute_swap]
@[simp] theorem writeRoute_spi (k : Fin 4) (v : BitVec 16) (s : State) : (writeRoute k v s).spi = s.spi := by
  unfold writeRoute slotPins; split <;> simp only [List.foldl, detectReroute_spi]
@[simp] theorem writeRoute_i2c (k : Fin 4) (v : BitVec 16) (s : State) : (writeRoute k v s).i2c = s.i2c := by
  unfold writeRoute slotPins; split <;> simp only [List.foldl, detectReroute_i2c]
@[simp] theorem writeRoute_spiOut (k : Fin 4) (v : BitVec 16) (s : State) : (writeRoute k v s).spiOut = s.spiOut := by
  unfold writeRoute slotPins; split <;> simp only [List.foldl, detectReroute_spiOut]
@[simp] theorem writeRoute_i2cOut (k : Fin 4) (v : BitVec 16) (s : State) : (writeRoute k v s).i2cOut = s.i2cOut := by
  unfold writeRoute slotPins; split <;> simp only [List.foldl, detectReroute_i2cOut]

/-- The routing slot written (10 R49). -/
@[simp] theorem writeRoute_afio (k : Fin 4) (v : BitVec 16) (s : State) :
    (writeRoute k v s).afio = setRouteSlot s.afio k v := by
  unfold writeRoute slotPins; split <;> simp only [List.foldl, detectReroute_afio]

/-! ## A read -/

@[simp] theorem afterRead_handles (r : Reg) (s : State) : (afterRead r s).handles = s.handles := by
  unfold afterRead; split <;> rfl
@[simp] theorem afterRead_exti (r : Reg) (s : State) : (afterRead r s).exti = s.exti := by
  unfold afterRead; split <;> rfl
@[simp] theorem afterRead_afio (r : Reg) (s : State) : (afterRead r s).afio = s.afio := by
  unfold afterRead; split <;> rfl
@[simp] theorem afterRead_rcc (r : Reg) (s : State) : (afterRead r s).rcc = s.rcc := by
  unfold afterRead; split <;> rfl
@[simp] theorem afterRead_nvic (r : Reg) (s : State) : (afterRead r s).nvic = s.nvic := by
  unfold afterRead; split <;> rfl
@[simp] theorem afterRead_gpio (r : Reg) (s : State) : (afterRead r s).gpio = s.gpio := by
  unfold afterRead; split <;> rfl
@[simp] theorem afterRead_mem (r : Reg) (s : State) : (afterRead r s).mem = s.mem := by
  unfold afterRead; split <;> rfl
@[simp] theorem afterRead_spiOut (r : Reg) (s : State) : (afterRead r s).spiOut = s.spiOut := by
  unfold afterRead; split <;> rfl
@[simp] theorem afterRead_i2cOut (r : Reg) (s : State) : (afterRead r s).i2cOut = s.i2cOut := by
  unfold afterRead; split <;> rfl
@[simp] theorem afterRead_cbOut (r : Reg) (s : State) : (afterRead r s).cbOut = s.cbOut := by
  unfold afterRead; split <;> rfl
@[simp] theorem afterRead_ctx (r : Reg) (s : State) : (afterRead r s).ctx = s.ctx := by
  unfold afterRead; split <;> rfl
@[simp] theorem afterRead_frozen (r : Reg) (s : State) : (afterRead r s).frozen = s.frozen := by
  unfold afterRead; split <;> rfl
@[simp] theorem afterRead_params (r : Reg) (s : State) : (afterRead r s).params = s.params := by
  unfold afterRead; split <;> rfl
@[simp] theorem afterRead_sched (r : Reg) (s : State) : (afterRead r s).sched = s.sched := by
  unfold afterRead; split <;> rfl
@[simp] theorem afterRead_swap (r : Reg) (s : State) : (afterRead r s).swap = s.swap := by
  unfold afterRead; split <;> rfl

/-! ## A write -/

@[simp] theorem afterWrite_handles (r : Reg) (v : Word) (s : State) : (afterWrite r v s).handles = s.handles := by
  unfold afterWrite; split <;> first | rfl | simp only [writeRoute_handles]
@[simp] theorem afterWrite_mem (r : Reg) (v : Word) (s : State) : (afterWrite r v s).mem = s.mem := by
  unfold afterWrite; split <;> first | rfl | simp only [writeRoute_mem]
@[simp] theorem afterWrite_cbOut (r : Reg) (v : Word) (s : State) : (afterWrite r v s).cbOut = s.cbOut := by
  unfold afterWrite; split <;> first | rfl | simp only [writeRoute_cbOut]
@[simp] theorem afterWrite_ctx (r : Reg) (v : Word) (s : State) : (afterWrite r v s).ctx = s.ctx := by
  unfold afterWrite; split <;> first | rfl | simp only [writeRoute_ctx]
@[simp] theorem afterWrite_frozen (r : Reg) (v : Word) (s : State) : (afterWrite r v s).frozen = s.frozen := by
  unfold afterWrite; split <;> first | rfl | simp only [writeRoute_frozen]
@[simp] theorem afterWrite_params (r : Reg) (v : Word) (s : State) : (afterWrite r v s).params = s.params := by
  unfold afterWrite; split <;> first | rfl | simp only [writeRoute_params]
@[simp] theorem afterWrite_sched (r : Reg) (v : Word) (s : State) : (afterWrite r v s).sched = s.sched := by
  unfold afterWrite; split <;> first | rfl | simp only [writeRoute_sched]
@[simp] theorem afterWrite_swap (r : Reg) (v : Word) (s : State) : (afterWrite r v s).swap = s.swap := by
  unfold afterWrite; split <;> first | rfl | simp only [writeRoute_swap]

end Sys2Proof.Machine
end

