-- ==== Sys2Proof/Laws/Run.lean ====
section
/-! SUPPORT. Running a command's micro-steps one after the other: what the shared operations answer, phase and locals after an
update, and how runs compose. -/

namespace Sys2Proof.Machine

/-! ## Phase and locals -/

@[simp] theorem phaseOf_goto (p : Nat) (s : State) : phaseOf (goto p s) = p := rfl
@[simp] theorem phaseOf_updLocals (f : Locals → Locals) (s : State) : phaseOf (updLocals f s) = phaseOf s := rfl
@[simp] theorem phaseOf_updXfer (i : SpiId) (d : Dir) (f : Xfer → Xfer) (s : State) : phaseOf (updXfer i d f s) = phaseOf s := rfl
@[simp] theorem phaseOf_setRet (v : Word) (s : State) : phaseOf (setRet v s) = phaseOf s := rfl
@[simp] theorem phaseOf_putByte (a : Word) (v : Byte) (s : State) : phaseOf (putByte a v s) = phaseOf s := rfl
@[simp] theorem phaseOf_finish (s : State) : phaseOf (finish s) = 0 := rfl
@[simp] theorem phaseOf_afterRead (r : Reg) (s : State) : phaseOf (afterRead r s) = phaseOf s := by simp [phaseOf]
@[simp] theorem phaseOf_afterWrite (r : Reg) (v : Word) (s : State) : phaseOf (afterWrite r v s) = phaseOf s := by simp [phaseOf]
@[simp] theorem locals_goto (p : Nat) (s : State) : locals (goto p s) = locals s := rfl
@[simp] theorem locals_updLocals (f : Locals → Locals) (s : State) : locals (updLocals f s) = f (locals s) := rfl
@[simp] theorem locals_updXfer (i : SpiId) (d : Dir) (f : Xfer → Xfer) (s : State) : locals (updXfer i d f s) = locals s := rfl
@[simp] theorem locals_putByte (a : Word) (v : Byte) (s : State) : locals (putByte a v s) = locals s := rfl
@[simp] theorem locals_afterRead (r : Reg) (s : State) : locals (afterRead r s) = locals s := by simp [locals]
@[simp] theorem locals_afterWrite (r : Reg) (v : Word) (s : State) : locals (afterWrite r v s) = locals s := by simp [locals]

/-! ## Handles -/

@[simp] theorem Handle.dir_setDir (h : Handle) (d : Dir) (x : Xfer) : (h.setDir d x).dir d = x := by cases d <;> rfl
theorem Handle.dir_setDir_ne (h : Handle) {d e : Dir} (x : Xfer) (hd : e ≠ d) : (h.setDir d x).dir e = h.dir e := by
  cases d <;> cases e <;> first | rfl | exact absurd rfl hd
@[simp] theorem Handle.setDir_setDir (h : Handle) (d : Dir) (x y : Xfer) : (h.setDir d x).setDir d y = h.setDir d y := by
  cases d <;> rfl
@[simp] theorem xfer_updXfer_self (i : SpiId) (d : Dir) (f : Xfer → Xfer) (s : State) :
    xfer (updXfer i d f s) i d = f (xfer s i d) := by simp [xfer, updXfer]
@[simp] theorem xfer_goto (p : Nat) (s : State) (i : SpiId) (d : Dir) : xfer (goto p s) i d = xfer s i d := rfl
@[simp] theorem xfer_updLocals (f : Locals → Locals) (s : State) (i : SpiId) (d : Dir) :
    xfer (updLocals f s) i d = xfer s i d := rfl
@[simp] theorem xfer_finish (s : State) (i : SpiId) (d : Dir) : xfer (finish s) i d = xfer s i d := rfl
@[simp] theorem xfer_afterRead (r : Reg) (s : State) (i : SpiId) (d : Dir) : xfer (afterRead r s) i d = xfer s i d := by
  simp [xfer]
@[simp] theorem xfer_afterWrite (r : Reg) (v : Word) (s : State) (i : SpiId) (d : Dir) :
    xfer (afterWrite r v s) i d = xfer s i d := by simp [xfer]

/-! ## What the shared operations answer -/

theorem readReg_eq (r : Reg) (s : State) (k : Word → State → Out) (h : accessible s r = true) :
    readReg r s k = k (regVal r s) (afterRead r s) := by simp [readReg, h]

theorem writeReg_eq (r : Reg) (v : Word) (s : State) (k : State → Out) (h : accessible s r = true) :
    writeReg r v s k = k (afterWrite r v s) := by simp [writeReg, h]

theorem rmwRead_eq (r : Reg) (f : Word → Word) (p : Nat) (k : State → State) (s : State) (h : accessible s r = true) :
    rmwRead r f p k s = .next (if s.params.rmwAtomic then k (afterWrite r (f (regVal r s)) (afterRead r s))
      else goto p (updLocals (fun l => { l with v := regVal r s }) (afterRead r s))) := by
  cases hr : s.params.rmwAtomic <;> simp [rmwRead, readReg_eq _ _ _ h, hr]

theorem rmwWrite_eq (r : Reg) (f : Word → Word) (k : State → State) (s : State) (h : accessible s r = true) :
    rmwWrite r f k s = .next (k (afterWrite r (f (locals s).v) s)) := by simp [rmwWrite, writeReg_eq _ _ _ _ h]

/-- A wait is one read of the register: POLL_TIMEOUT bounds nothing. -/
theorem waitUntil_def (r : Reg) (bit p : Nat) (s : State) :
    waitUntil r bit p s = readReg r s fun v s1 => .next (if v.getLsbD bit then goto p s1 else s1) := rfl

theorem waitUntil_eq (r : Reg) (bit p : Nat) (s : State) (h : accessible s r = true) :
    waitUntil r bit p s = .next (if (regVal r s).getLsbD bit then goto p (afterRead r s) else afterRead r s) := by
  simp [waitUntil_def, readReg_eq _ _ _ h]

theorem loadByte_eq (a : Word) (s : State) (k : Byte → Out) (h : inLaunch s a = true) : loadByte a s k = k (byteAt s a) := by
  simp [loadByte, h]

theorem storeByte_eq (a : Word) (v : Byte) (s : State) (k : State → Out) (h : inLaunch s a = true) :
    storeByte a v s k = k (putByte a v s) := by simp [storeByte, h]

/-- An access outside the launch memory has no step (20 R71). -/
theorem loadByte_stuck (a : Word) (s : State) (k : Byte → Out) (h : inLaunch s a = false) : loadByte a s k = .next s := by
  simp [loadByte, h]

theorem storeByte_stuck (a : Word) (v : Byte) (s : State) (k : State → Out) (h : inLaunch s a = false) :
    storeByte a v s k = .next s := by simp [storeByte, h]

/-- What emitting an event does: a no-op callback only records it. -/
theorem emitCallback_of_nil {i : SpiId} {ev : Event} {p : Nat} {s : State} (h : callbackOps i ev (recordEvent i ev p s) = []) :
    emitCallback i ev p s = recordEvent i ev p s := by simp [emitCallback, runCallback, h]

theorem emitCallback_of_cons {i : SpiId} {ev : Event} {p : Nat} {s : State} {op : AppOp} {ops : List AppOp}
    (h : callbackOps i ev (recordEvent i ev p s) = op :: ops) :
    emitCallback i ev p s = { recordEvent i ev p s with
      ctx := { s.ctx with act := Act.start (op :: ops), below := { s.ctx.act with phase := p } :: s.ctx.below } } := by
  rw [emitCallback, h]
  rfl

/-- Whatever the callback, emitting an event changes the history and the running context only. -/
theorem emitCallback_frame (i : SpiId) (ev : Event) (p : Nat) (s : State) :
    emitCallback i ev p s = { s with cbOut := s.cbOut ++ [(i, ev)], ctx := (emitCallback i ev p s).ctx } := by
  unfold emitCallback runCallback
  split <;> rfl

theorem withSpi_eq {unit : BitVec 4} {i : SpiId} (k : SpiId → Out) (h : spiOf unit = some i) : withSpi unit k = k i := by
  simp [withSpi, h]

theorem withI2c_eq {s : State} {unit : BitVec 4} {u : I2cId} (k : I2cId → Out) (h : i2cOf s.params unit = some u) :
    withI2c s unit k = k u := by simp [withI2c, h]

theorem withPort_eq {s : State} {c : BitVec 4} {p : Port} (k : Port → Out) (h : portOf s.params c = some p) :
    withPort s c k = k p := by simp [withPort, h]

theorem withIrq_eq {s : State} {q : BitVec 8} {x : Irq} (k : Irq → Out) (h : irqOf s.params q = some x) :
    withIrq s q k = k x := by simp [withIrq, h]

theorem withPriority_eq {s : State} {p x : BitVec 8} (k : BitVec 8 → Out) (h : priorityOf s.params p = some x) :
    withPriority s p k = k x := by simp [withPriority, h]

theorem withPeripheral_eq {s : State} {id : BitVec 8} {x : Peripheral} (k : Peripheral → Out)
    (h : peripheralOf s.params id = some x) : withPeripheral s id k = k x := by simp [withPeripheral, h]

theorem withReg_eq {s : State} {a : Word} {r : Reg} (k : Reg → Out) (ha : a.toNat % 4 = 0)
    (h : regAt s.params a.toNat = some r) : withReg s a k = k r := by simp [withReg, ha, h]

/-! ## Moves -/

@[simp] theorem runner_of_nil {s : State} (h : s.frozen = []) : runner s = .foreground := by simp [runner, h]
@[simp] theorem runner_of_cons {s : State} {e : Irq × Context} {rest : List (Irq × Context)} (h : s.frozen = e :: rest) :
    runner s = .handler e.1 := by simp [runner, h]

/-- The move of the running context is its micro-step; every other context's move is none. -/
theorem makeMove_runnerMove (s : State) (b : Bool) : makeMove (runnerMove s b) s = contextStep { s with swap := b } := by
  unfold runnerMove
  split <;> simp_all [makeMove, runner]

/-- The move depends on the stack of contexts alone. -/
theorem runnerMove_congr {s t : State} (b : Bool) (h : s.frozen = t.frozen) : runnerMove s b = runnerMove t b := by
  simp [runnerMove, h]

/-! ## Outcomes -/

/-- A next state is a hold exactly if the command is still in progress at the same phase. -/
theorem outcome_next_eq_hold {s t u : State} :
    outcome s (.next t) = .hold u ↔ t = u ∧ t.ctx.act.op.isSome = true ∧ t.ctx.act.phase = s.ctx.act.phase := by
  simp only [outcome, Bool.and_eq_true, beq_iff_eq]
  split
  · simp_all
  · simp_all only [reduceCtorEq, false_iff, not_and]
    rintro rfl
    assumption

@[simp] theorem outcome_fault (s : State) (f : Fault) : outcome s (.fault f) = .fault f := rfl
@[simp] theorem outcome_refused (s : State) (r : Refusal) : outcome s (.refused r) = .refuse r := rfl

/-! ## Runs -/

@[simp] theorem runOp_zero (i : Instr) (s : State) : runOp i 0 s = .next s := rfl

theorem runOp_succ {i : Instr} {s t : State} (k : Nat) (h : exec i s = .next t) : runOp i (k + 1) s = runOp i k t := by
  simp [runOp, h]

/-- Runs compose. -/
theorem runOp_add {i : Instr} {s t : State} (j k : Nat) (h : runOp i j s = .next t) : runOp i (j + k) s = runOp i k t := by
  induction j generalizing s with
  | zero => cases h; simp
  | succ j ih =>
    rw [Nat.succ_add]
    simp only [runOp] at h ⊢
    split at h
    · exact ih h
    · cases h
    · cases h

@[simp] theorem runOpWith_zero (env : State → State) (i : Instr) (s : State) : runOpWith env i 0 s = .next s := rfl

theorem runOpWith_succ {env : State → State} {i : Instr} {s t : State} (k : Nat) (h : exec i (env s) = .next t) :
    runOpWith env i (k + 1) s = runOpWith env i k t := by
  simp [runOpWith, h]

/-- Runs with an environment compose. -/
theorem runOpWith_add {env : State → State} {i : Instr} {s t : State} (j k : Nat) (h : runOpWith env i j s = .next t) :
    runOpWith env i (j + k) s = runOpWith env i k t := by
  induction j generalizing s with
  | zero => cases h; simp
  | succ j ih =>
    rw [Nat.succ_add]
    simp only [runOpWith] at h ⊢
    split at h
    · exact ih h
    · cases h
    · cases h

end Sys2Proof.Machine
end

