-- ==== Sys2Proof/Tests/Slice0.lean ====
section
/-! SUPPORT. Tests: the well-formedness smoke test, the decoding of words written out from the encodings of 30 R100 to R111,
one micro-step of each command with the result the rules' own examples give, and a witness for the hypotheses of every
statement. -/

namespace Sys2Proof.Tests

open Sys2Proof.Machine

/-- Whether the answer is a next state with a property. -/
def nextSat (o : Out) (f : State → Bool) : Bool :=
  match o with
  | .next t => f t
  | .fault _ => false
  | .refused _ => false

/-- Whether the answer is this refusal. -/
def refusedAs (o : Out) (r : Refusal) : Bool :=
  match o with
  | .next _ => false
  | .fault _ => false
  | .refused x => decide (x = r)

/-- Whether the answer is this fault. -/
def faultedAs (o : Out) (f : Fault) : Bool :=
  match o with
  | .next _ => false
  | .fault x => decide (x = f)
  | .refused _ => false

/-! ## Ill-formed commands, one for each check (30 R105 to R111) -/

theorem test_defect_spi_unit : (Instr.spiSend 0).defect Params.reset = some .spiUnit ∧ (Instr.spiIrq 4).defect Params.reset = some .spiUnit := by decide
theorem test_defect_i2c_unit : (Instr.i2cMsend 3 0x68).defect Params.reset = some .i2cUnit := by decide
theorem test_defect_port : (Instr.extiRoute 7 0).defect Params.reset = some .port := by decide
theorem test_defect_duplex : (Instr.spiInit 1 0x0C0).defect Params.reset = some .duplex := by decide
theorem test_defect_edge : (Instr.extiEdge 6 0).defect Params.reset = some .edge := by decide
theorem test_defect_irq : (Instr.irqEnable 60 true).defect Params.reset = some .irq := by decide
theorem test_defect_priority : (Instr.irqPrio 23 16).defect Params.reset = some .priority := by decide
theorem test_defect_pin_config : (Instr.gpioCfg 0 0 0 0).defect Params.reset = some .pinConfig ∧ (Instr.gpioCfg 0 0 5 0).defect Params.reset = some .pinConfig := by
  decide
theorem test_defect_peripheral : (Instr.pclk 0x13 true).defect Params.reset = some .peripheral := by decide
theorem test_defect_is_refused : checked Params.reset (.extiEdge 6 0) = .error (.illegalValue .edge) := by decide

/-! ## Words written out from 30 R100 and R104 -/

theorem test_decode_spi :
    decode Params.reset 0b00000001_0010_0000_0000000100000100 = .ok (.spiInit 2 0x104) ∧
      decode Params.reset 0b00000010_0001_0000_0000000000000000 = .ok (.spiSend 1) ∧
      decode Params.reset 0b00000011_0011_0000_0000000000000000 = .ok (.spiRecv 3) ∧
      decode Params.reset 0b00000100_0010_0000_0000000000000000 = .ok (.spiSendIt 2) ∧
      decode Params.reset 0b00000101_0001_0000_0000000000000000 = .ok (.spiRecvIt 1) ∧
      decode Params.reset 0b00000110_0011_0000_0000000000000000 = .ok (.spiIrq 3) := by decide
theorem test_decode_exti :
    decode Params.reset 0b00010000_0000_0110_0000000000000010 = .ok (.extiEdge 6 2) ∧
      decode Params.reset 0b00010001_0001_0110_0000000000000000 = .ok (.extiRoute 1 6) ∧
      decode Params.reset 0b00010010_0000_1111_0000000000000000 = .ok (.extiArm 15) ∧
      decode Params.reset 0b00010011_0000_0101_0000000000000000 = .ok (.extiAck 5) := by decide
theorem test_decode_irq :
    decode Params.reset 0b00010100_0000_0000_00010111_00000001 = .ok (.irqEnable 23 true) ∧
      decode Params.reset 0b00010101_0000_0000_00010111_00000011 = .ok (.irqPrio 23 3) := by decide
theorem test_decode_i2c : decode Params.reset 0b00100000_0001_0000_000000000_1101000 = .ok (.i2cMsend 1 0x68) := by decide
theorem test_decode_gpio :
    decode Params.reset 0b00110000_0001_0110_0000000000_010_000 = .ok (.gpioCfg 1 6 0 2) ∧
      decode Params.reset 0b00110001_0001_0110_0000000000000000 = .ok (.gpioRdPin 1 6) ∧
      decode Params.reset 0b00110010_0110_0000_0000000000000000 = .ok (.gpioRdPort 6) ∧
      decode Params.reset 0b00110011_0000_0101_0000000000000001 = .ok (.gpioWrPin 0 5 true) ∧
      decode Params.reset 0b00110100_0000_0000_1010010110100101 = .ok (.gpioWrPort 0 0xA5A5) ∧
      decode Params.reset 0b00110101_0000_0101_0000000000000000 = .ok (.gpioTglPin 0 5) := by decide
theorem test_decode_system :
    decode Params.reset 0b01000000_0000_0000_00000010_00000001 = .ok (.pclk 2 true) ∧
      decode Params.reset 0b01010000_0000_0000_0000000000000000 = .ok .regRd ∧
      decode Params.reset 0b01010001_0000_0000_0000000000000000 = .ok .regWr := by decide
theorem test_decode_rejects :
    decode Params.reset 0xFF000000 = .error .unknownOpcode ∧ decode Params.reset 0x00000000 = .error .unknownOpcode ∧
      decode Params.reset 0x02210000 = .error .nonzeroField ∧ decode Params.reset 0x14001703 = .error .nonzeroField ∧
      decode Params.reset 0x02000000 = .error (.illegalValue .spiUnit) := by decide

/-! ## Small states -/

/-- The reset state with every clock on. -/
def on : State := { State.reset with rcc := ⟨0xFFFFFFFF, 0xFFFFFFFF⟩ }

/-- A context with a command word in progress at a phase, and the two argument registers. -/
def port (w : Word) (phase : Nat) (a0 a1 : Word) : Context :=
  { Context.start [] with cmd := w, arg0 := a0, arg1 := a1, act := ⟨[], some w, phase, Locals.zero⟩ }

/-- SPI1 with the given CR1, CR2, flags and received frame, its transfers, and a command at a phase. -/
def spi (cr1 cr2 : BitVec 16) (txe rxne ovr : Bool) (tx rx : Xfer) (c : Context) : State :=
  { on with
    handles := ⟨⟨tx, rx, 0⟩, Handle.reset, Handle.reset⟩
    spi := ⟨⟨cr1, cr2, txe, rxne, ovr, 0, 0xBEEF, false⟩, SpiRegs.reset, SpiRegs.reset⟩
    mem := [(0x20000100, 0x41), (0x20000101, 0x42)]
    ctx := c }

/-- The same with locals b, n and w. -/
def withLocals (b n w : Word) (s : State) : State := updLocals (fun l => { l with b := b, n := n, w := w }) s

/-! ## One micro-step of each command -/

/-- 40 R131, the example: CR1 becomes 0x804. -/
theorem test_spi_init : nextSat (exec (.spiInit 1 0x104) (spi 0 0 false false false .clean .clean (port 0 1 0 0)))
    (fun t => t.spi.spi1.cr1 = 0x804 ∧ t.ctx.act.op = none) = true := by decide

/-- 40 R133, the example: DR receives 0x0041, TXE is cleared. -/
theorem test_spi_send : nextSat (exec (.spiSend 1) (updLocals (fun l => { l with v := 0x41 })
    (spi 0 0 true false false .clean .clean (port 0 8 0 0))))
    (fun t => t.spiOut = [(.spi1, 0x0041)] ∧ t.spi.spi1.txe = false) = true := by decide

/-- 40 R134, the example: the byte at the lower address is 0xEF and the next one 0xBE. -/
theorem test_spi_recv : nextSat (exec (.spiRecv 1) (updLocals (fun l => { l with b := 0x20000200, w := 2, v := 0xBEEF })
    (spi 0x800 0 true false false .clean .clean (port 0 7 0 0))))
    (fun t => t.mem.read 0x20000200 = some 0xEF ∧ phaseOf t = 8) = true := by decide
theorem test_spi_recv_high : nextSat (exec (.spiRecv 1) (updLocals (fun l => { l with b := 0x20000200, w := 2, v := 0xBEEF })
    (spi 0x800 0 true false false .clean .clean (port 0 8 0 0))))
    (fun t => t.mem.read 0x20000201 = some 0xBE ∧ phaseOf t = 9) = true := by decide

/-- 41 R151 corner case (a): Busy returns 1. -/
theorem test_spi_send_it : nextSat (exec (.spiSendIt 1) (updLocals (fun l => { l with st := .busy })
    (spi 0 0 true false false ⟨0x20000100, 10, .busy⟩ .clean (port 0 3 0 0))))
    (fun t => t.ctx.ret = 1 ∧ t.handles.spi1.tx = ⟨0x20000100, 10, .busy⟩) = true := by decide

/-- 41 R152: the direction is made Busy before RXNEIE is set. -/
theorem test_spi_recv_it : nextSat (exec (.spiRecvIt 1) (spi 0 0 true false false .clean ⟨0x20000200, 4, .idle⟩ (port 0 7 0 0)))
    (fun t => t.handles.spi1.rx.st = .busy ∧ t.spi.spi1.cr2 = 0) = true := by decide

/-- 42 R167: less than one frame left. -/
theorem test_spi_irq_guard : faultedAs (exec (.spiIrq 1) (withLocals 0 0 2
    (spi 0x800 0x80 true false false ⟨0x20000100, 1, .busy⟩ .clean (port 0 11 0 0)))) .serviceWithoutTransfer = true := by decide

/-- 42 R163, the example: a2 clears OVR. -/
theorem test_spi_irq_overrun : nextSat (exec (.spiIrq 1) (updSpi .spi1 (fun r => { r with ovrArm := true })
    (spi 0 0x20 false false true .clean .clean (port 0 52 0 0))))
    (fun t => t.spi.spi1.ovr = false) = true := by decide

/-- 43 R181, the example: FTSR[6] is cleared. -/
theorem test_exti_edge : nextSat (exec (.extiEdge 6 1) (updLocals (fun l => { l with v := 0x40 })
    { on with ctx := port 0 3 0 0, exti := { on.exti with ftsr := 0x40 } }))
    (fun t => t.exti.ftsr = 0 ∧ t.exti.rtsr = 0) = true := by decide

/-- 43 R182, the first example: bits 11:8 of EXTICR2 become 1. -/
theorem test_exti_route : nextSat (exec (.extiRoute 1 6) (updLocals (fun l => { l with v := 0x2222 })
    { on with ctx := port 0 3 0 0 })) (fun t => t.afio.exticr2 = 0x2122 ∧ t.afio.exticr1 = 0) = true := by decide

/-- 43 R183, the example. -/
theorem test_exti_arm : nextSat (exec (.extiArm 6) { on with ctx := port 0 1 0 0 }) (fun t => t.exti.imr = 0x0040) = true := by decide

/-- 43 R184, the example: acknowledging line 6 leaves line 5 pending. -/
theorem test_exti_ack : nextSat (exec (.extiAck 6) (updLocals (fun l => { l with v := 0x60 })
    { on with ctx := port 0 1 0 0, exti := { on.exti with pr := 0x60 } })) (fun t => t.exti.pr = 0x20) = true := by decide

/-- 43 R185, the example, and the last IRQ. -/
theorem test_irq_enable : nextSat (exec (.irqEnable 23 true) on) (fun t => t.nvic.en = 0x800000) = true := by decide
theorem test_irq_enable_last : nextSat (exec (.irqEnable 59 true) on) (fun t => t.nvic.en = 0x800000000000000) = true := by decide

/-- 43 R186, the example: PRIO[36] becomes 2. -/
theorem test_irq_prio : nextSat (exec (.irqPrio 36 2) { on with ctx := port 0 1 0 0 })
    (fun t => prioOf t 36 = 2 ∧ prioOf t 37 = 0) = true := by decide

/-- 44 R211, R212, the example: the address byte of 0x68 is 0xD0. -/
theorem test_i2c_msend : nextSat (exec (.i2cMsend 1 0x68) { on with ctx := port 0 5 0 0 })
    (fun t => t.i2cOut = [(0, .byte 0xD0)]) = true := by decide

/-- 44 R211 line 12: the write-back requests a stop and does not repeat the start. -/
theorem test_i2c_msend_stop : nextSat (exec (.i2cMsend 1 0x68) { on with ctx := port 0 17 0 0 })
    (fun t => t.i2cOut = [(0, .stop)] ∧ (t.i2c.get 0).cr1 = 0) = true := by decide

/-- 45 R221, 20 R84: input, pulled is CNF 10, MODE 00, in the field of pin 9. -/
theorem test_gpio_cfg : nextSat (exec (.gpioCfg 1 9 0 3) (updLocals (fun l => { l with v := 0x44444444 })
    { on with ctx := port 0 1 0 0 })) (fun t => (t.gpio.get 1).crh = 0x44444484 ∧ (t.gpio.get 1).crl = 0x44444444) = true := by decide

/-- 45 R222, the example. -/
theorem test_gpio_rd_pin : nextSat (exec (.gpioRdPin 1 6) (updLocals (fun l => { l with v := 0x40 })
    { on with ctx := port 0 1 0 0 })) (fun t => t.ctx.ret = 1) = true := by decide

/-- 45 R223, the example. -/
theorem test_gpio_rd_port : nextSat (exec (.gpioRdPort 1) (updLocals (fun l => { l with v := 0x8001 })
    { on with ctx := port 0 1 0 0 })) (fun t => t.ctx.ret = 0x00008001) = true := by decide

/-- 45 R224, the example. -/
theorem test_gpio_wr_pin : nextSat (exec (.gpioWrPin 0 5 true) (updLocals (fun l => { l with v := 0x0001 })
    { on with ctx := port 0 1 0 0 })) (fun t => (t.gpio.get 0).odr = 0x0021) = true := by decide

/-- 45 R225, the example. -/
theorem test_gpio_wr_port : nextSat (exec (.gpioWrPort 0 0xA5A5) on) (fun t => (t.gpio.get 0).odr = 0xA5A5) = true := by decide

/-- 45 R226, the example. -/
theorem test_gpio_tgl_pin : nextSat (exec (.gpioTglPin 0 5) (updLocals (fun l => { l with v := 0x0021 })
    { on with ctx := port 0 1 0 0 })) (fun t => (t.gpio.get 0).odr = 0x0001) = true := by decide

/-- 45 R227, the example. -/
theorem test_pclk : nextSat (exec (.pclk 2 true) { State.reset with ctx := port 0 1 0 0 })
    (fun t => clkOn t (.spi .spi2) = true ∧ clkOn t (.spi .spi3) = false) = true := by decide

/-- 45 R228, the example: 0x40010414 is EXTI.PR. -/
theorem test_reg_rd : nextSat (exec .regRd { on with ctx := port 0 0 0x40010414 0, exti := { on.exti with pr := 0x60 } })
    (fun t => (locals t).v = 0x60) = true := by decide

/-- 45 R229, the example: ERRIE is set and the other CR2 bits are cleared. -/
theorem test_reg_wr : nextSat (exec .regWr { on with ctx := port 0 0 0x40003804 0x20 }) (fun t => t.spi.spi2.cr2 = 0x20) = true := by
  decide
theorem test_reg_wr_env_owned : refusedAs (exec .regWr { on with ctx := port 0 0 0x40003808 0 }) .envOwnedWrite = true := by decide

/-- A command word placed after reset is fetched and run by the next step (log 3). -/
theorem test_fetch : nextSat (step (State.reset.withFetchWord 32 0x14001701)) (fun t => t.nvic.en = 0x800000) = true := by decide

/-! ## The register map (20 R78 to R84) -/

theorem test_register_map_ends :
    regAt Params.reset 0x4001300C = some (.spi .spi1 .dr) ∧ regAt Params.reset 0x40010414 = some (.exti .pr) ∧
      regAt Params.reset 0x40012018 = some (.gpio 6 .lckr) ∧ regAt Params.reset 0x40005820 = some (.i2c 1 .trise) ∧
      regAt Params.reset 0xE000E438 = some (.nvic (.ipr 14)) ∧ regAt Params.reset 0xE000E43C = none ∧
      regAt Params.reset 0x40021018 = some (.rcc .apb2enr) := by decide

/-! ## Other parameters (00 R6, 93 U24) -/

/-- Three I2C instances, a port with code 7, 61 IRQs, 3 priority bits with the higher number higher, SPI1's IRQ exchanged with line
0's, EXTI.PR moved, its bits 0 and 5 exchanged on the bus, and a CR1 value of its own for configuration 0. -/
def other : Params :=
  { Params.reset with
    layout :=
      { addrs := [(.exti .pr, 0x40010420)]
        clocks := [(.gpio 7, .apb2enr, 9)]
        bits := [(.exti .pr, [5, 1, 2, 3, 4, 0] ++ (List.range 26).map (· + 6))] }
    ports := [0, 7]
    nI2c := 3
    nIrq := 61
    prioBits := 3
    order := .table [(1, 0)]
    irqs := { Params.reset.irqs with line0 := 35, spi1 := 6 }
    cfgCode := [(0, 0x40)] }

theorem test_other_operands :
    decode other 0x20300068 = .ok (.i2cMsend 3 0x68) ∧ decode other 0x20400068 = .error (.illegalValue .i2cUnit) ∧
      decode other 0x32700000 = .ok (.gpioRdPort 7) ∧ decode other 0x32100000 = .error (.illegalValue .port) ∧
      decode other 0x14003C01 = .ok (.irqEnable 60 true) ∧ decode other 0x15001708 = .error (.illegalValue .priority) ∧
      decode other 0x40002701 = .ok (.pclk 0x27 true) ∧ decode other 0x40001301 = .ok (.pclk 0x13 true) := by decide
theorem test_other_order : higher other 1 0 = true ∧ higher other 0 1 = false ∧ irqOfLine other 0 = 35 ∧ irqOfSpi other .spi1 = 6 ∧
    spiCfgEncode other 0 = 0x40 ∧ spiCfgEncode other 1 = 1 := by decide
/-- The access by address goes to the moved register, and its bits stand where the layout has them. -/
theorem test_other_layout :
    regAt other 0x40010414 = none ∧ regAt other 0x40010420 = some (.exti .pr) ∧
      nextSat (exec .regRd { on with params := other, ctx := port 0 0 0x40010420 0, exti := { on.exti with pr := 0x20 } })
        (fun t => (locals t).v = 1) = true ∧
      nextSat (exec .regWr { on with params := other, ctx := port 0 0 0x40010420 1, exti := { on.exti with pr := 0x21 } })
        (fun t => t.exti.pr = 1) = true := by decide
/-- 20 R82: with 3 priority bits PRIO is the top 3 bits of the lane. -/
theorem test_other_priority : nextSat (exec (.irqPrio 36 5) { on with params := other, ctx := port 0 1 0 0 })
    (fun t => prioOf t 36 = 5 ∧ regVal (.nvic (.ipr 9)) t = 0xA0) = true := by decide

/-! ## A witness for the hypotheses of every statement -/

/-- SPI1 with 16-bit frames, both directions at their last frame, all flags and enables set. -/
def allCauses (phase : Nat) : State :=
  spi 0x800 0xE0 true true true ⟨0x20000100, 2, .busy⟩ ⟨0x20000102, 2, .busy⟩ (port 0x06100000 phase 0 0)

/-- SPI1 idle, with 16-bit frames and a command whose buffer is two bytes. -/
def idle (phase : Nat) (a0 a1 : Word) : State :=
  spi 0x800 0 true true false .clean .clean (port 0x02100000 phase a0 a1)

theorem witness_DecodeAndEncodeAgree : (Instr.gpioCfg 6 15 4 1).WellFormed Params.reset ∧ (Instr.irqPrio 59 15).WellFormed Params.reset ∧
    decode Params.reset 0x15003B0F = .ok (.irqPrio 59 15) := by decide
theorem witness_IllegalWordsAreRefused : decode Params.reset 0x15003C0F = .error (.illegalValue .irq) ∧
    (port 0x15003C0F 0 0 0).act.op = some 0x15003C0F := by decide
theorem witness_StepRunsDecodedInstruction :
    (∃ s : State, s.sched = runnerMove s false :: [] ∧ s.ctx.act.op = some 0x14001701 ∧
      decode Params.reset 0x14001701 = .ok (.irqEnable 23 true)) ∧
    ∃ s : State, s.sched = [] ∧ candidates s = [] ∧ s.ctx.act.op = some 0x14001701 ∧
      decode Params.reset 0x14001701 = .ok (.irqEnable 23 true) :=
  ⟨⟨{ on with ctx := port 0x14001701 0 0 0, sched := [.foreground false] }, by decide⟩,
    ⟨{ on with ctx := port 0x14001701 0 0 0 }, by decide⟩⟩

/-- The invariant and a step that answers: both hypotheses of StepKeepsInvariant, and those of the other statements about one
step from any state. -/
theorem witness_StepKeepsInvariant : Inv on ∧ ∃ t, step on = .next t := by
  refine ⟨⟨⟨List.Pairwise.nil, fun _ h => absurd h List.not_mem_nil⟩, by decide, ?_, ?_⟩, ?_⟩
  · intro n p _
    have h1 : ∀ k : BitVec 4, on.exti.prev.getLsbD k.toNat = false := by decide
    have h2 : ∀ q : Port, (on.gpio.get q).level = 0 := by decide
    rw [h1, levelOf, h2, BitVec.ofNat_eq_ofNat, BitVec.getLsbD_zero]
  · decide
  · exact ⟨_, rfl⟩
theorem witness_StepKeepsParameters : ∃ t, step State.reset = .next t := ⟨_, rfl⟩
theorem witness_PendingLatch :
    nextSat (makeMove (nextMove { on with sched := [.enter 23], nvic := { on.nvic with en := 0x800000, pend := 0x800000 } })
      { on with nvic := { on.nvic with en := 0x800000, pend := 0x800000 } })
      (fun u => u.nvic.pend.getLsbD 23 = false) = true := by decide
theorem witness_ResetMasksEveryInterrupt :
    nextSat (step { State.reset with sched := [.pin 0 0 true] }) (fun _ => true) = true ∧ (Move.pin 0 0 true).agent = .pins ∧
      nextSat (step { on with sched := [.enter 23], nvic := { on.nvic with pend := 0x800000 } }) (fun t => t.nvic.en = 0) = true := by
  decide
theorem witness_ClockGatesRegisterAccess :
    (regPeripheral (.spi .spi1 .cr1) = some (.spi .spi1) ∧ clkOn State.reset (.spi .spi1) = false) ∧
      regPeripheral (.exti .pr) = none ∧ clkOn on (.spi .spi1) = true := by decide
theorem witness_PendingBitsSetByDetectorOnly :
    nextSat (makeMove (.pin 0 15 true) { on with exti := { on.exti with rtsr := 0x8000 } })
      (fun t => t.exti.pr.getLsbD 15 = true ∧ selectedPort on 15 = some 0) = true := by decide
theorem witness_MemoryWrittenByReceiveOrApplication :
    nextSat (step { on with ctx := Context.start [.store 0x20000000 7] }) (fun t => t.mem ≠ []) = true ∧
      nextSat (step (withLocals 0x20000102 0 2 (allCauses (rxneBase + 4)))) (fun t => t.mem ≠ (allCauses 0).mem) = true ∧
      nextSat (step { (idle 8 0 0) with ctx := port 0x03100000 8 0 0 }) (fun t => t.mem ≠ (idle 8 0 0).mem) = true := by decide
theorem witness_AdmissionIsTheRangeCondition :
    admittedBuffer State.reset 0xFFFFFFFF 1 = true ∧ admittedBuffer State.reset 0xFFFFFFFF 2 = false ∧
      admittedBuffer State.reset 0 1 = false ∧ admittedBuffer State.reset 0 0 = true ∧
      admittedBuffer State.reset 0x40013010 4 = true ∧ admittedBuffer State.reset 0x4001300F 4 = false := by decide
theorem witness_SpiInitConfiguresInstance :
    (spiOf 3 = some .spi3 ∧ (0x0C0#10).extractLsb' 6 2 = 3#2) ∧ (0x104#10).extractLsb' 6 2 ≠ 3#2 ∧ phaseOf (idle 0 0 0) = 0 ∧
      clkOn (idle 0 0 0) (.spi .spi3) = true ∧ clkOn State.reset (.spi .spi3) = false := by decide
theorem witness_SpiInit_parameters : on.params.wf := Params.reset_wf
theorem witness_SpiConfigurationBits : ∀ e ∈ other.cfgCode, e.1 ≠ 1 := by simp [other]
theorem witness_BlockingCallAdmission :
    spiOf 1 = some .spi1 ∧ phaseOf (idle 0 0x20000100 3) = 0 ∧ clkOn (idle 0 0 3) (.spi .spi1) = true ∧
      (phaseOf { idle 0 0x20000100 3 with rcc := ⟨0, 0⟩ } = 0 ∧
        clkOn { idle 0 0x20000100 3 with rcc := ⟨0, 0⟩ } (.spi .spi1) = false ∧
        ({ idle 0 0x20000100 3 with rcc := ⟨0, 0⟩ } : State).ctx.arg1 ≠ 0) ∧
      (idle 0 0x20000100 0).ctx.arg1 = 0 ∧
      (idle 0 0x20000100 3).ctx.arg1.toNat % (frameWidth (regVal (.spi .spi1 .cr1) (idle 0 0x20000100 3))).toNat ≠ 0 ∧
      (idle 0 0 2).ctx.arg1.toNat % (frameWidth (regVal (.spi .spi1 .cr1) (idle 0 0 2))).toNat = 0 ∧
      admittedBuffer (idle 0 0 2) 0 2 = false ∧ admittedBuffer (idle 0 0x20000100 2) 0x20000100 2 = true := by decide
theorem witness_ShortRemainderFaults :
    spiOf 1 = some .spi1 ∧ phaseOf (withLocals 0 1 2 (idle 5 0 0)) = 5 ∧ (locals (withLocals 0 1 2 (idle 5 0 0))).n.toNat < 2 ∧
      2 ≤ (locals (withLocals 0 2 2 (idle 5 0 0))).n.toNat := by decide
theorem witness_BlockingSendWritesTheWholeBuffer :
    spiOf 1 = some .spi1 ∧ phaseOf (idle 0 0x20000100 2) = 0 ∧
      (2 : Word) = frameWidth (regVal (.spi .spi1 .cr1) (idle 0 0x20000100 2)) ∧
      (idle 0 0x20000100 2).ctx.arg1.toNat % 2 = 0 ∧ admittedBuffer (idle 0 0x20000100 2) 0x20000100 2 = true ∧
      clkOn (idle 0 0x20000100 2) (.spi .spi1) = true := by decide
theorem witness_BlockingReceiveFillsTheWholeBuffer :
    spiOf 1 = some .spi1 ∧ phaseOf (idle 0 0x20000100 4) = 0 ∧
      (2 : Word) = frameWidth (regVal (.spi .spi1 .cr1) (idle 0 0x20000100 4)) ∧
      (idle 0 0x20000100 4).ctx.arg1.toNat % 2 = 0 ∧ admittedBuffer (idle 0 0x20000100 4) 0x20000100 4 = true ∧
      clkOn (idle 0 0x20000100 4) (.spi .spi1) = true ∧ (idle 0 0x20000100 4).spi.spi1.rxne = true ∧
      (idle 0 0x20000100 4).spi.spi1.rxd = ([0xBEEF, 0x1234] : List Half).getD 0 0 := by decide
theorem witness_WaitHoldsUntilItsFlag :
    awaited Params.reset (.spiSend 1) (phaseOf (idle 3 0 0)) = some (.spi .spi1 .sr, bitTxe) ∧
      awaited Params.reset (.i2cMsend 2 0x68) 15 = some (.i2c 1 .sr1, bitBtf) ∧ accessible (idle 3 0 0) (.spi .spi1 .sr) = true ∧
      accessedByte (.spiSend 1) (idle 7 0 0) = some 1 ∧ accessedByte (.spiSend 1) (idle 6 0 0) = some 0 ∧
      inLaunch (idle 6 0 0) 0 = false ∧ (idle 3 0 0).ctx.act.op ≠ none := by decide
theorem witness_FlagsAreSetByTheEnvironmentOnly :
    nextSat (makeMove (.foreground true) on) (fun _ => true) = true ∧ on.spi.spi1.rxne = false ∧
      (idle 0 0 0).spi.spi1.rxne = true ∧ (Move.foreground true).agent = .foreground := by decide
theorem witness_RequestIsAccepted :
    spiOf 1 = some .spi1 ∧ phaseOf (idle 0 0x20000100 2) = 0 ∧ clkOn (idle 0 0x20000100 2) (.spi .spi1) = true ∧
      (∀ d ∈ [Dir.tx, Dir.rx], (xfer (idle 0 0x20000100 2) .spi1 d).st = .idle) ∧ (idle 0 0x20000100 2).ctx.arg1 ≠ 0 ∧
      (idle 0 0x20000100 2).ctx.arg1.toNat % (frameWidth (regVal (.spi .spi1 .cr1) (idle 0 0x20000100 2))).toNat = 0 ∧
      admittedBuffer (idle 0 0x20000100 2) 0x20000100 2 = true := by decide
theorem witness_BusyRequestIsRejected :
    spiOf 1 = some .spi1 ∧ phaseOf (allCauses 0) = 0 ∧ ∀ d ∈ [Dir.tx, Dir.rx], (xfer (allCauses 0) .spi1 d).st = .busy := by decide
theorem witness_RequestAdmission :
    clkOn State.reset (.spi .spi1) = false ∧ (xfer (idle 0 0 3) .spi1 .tx).st = .idle ∧ (idle 0 0 0).ctx.arg1 = 0 ∧
      (idle 0 0 3).ctx.arg1.toNat % (frameWidth (regVal (.spi .spi1 .cr1) (idle 0 0 3))).toNat ≠ 0 ∧
      admittedBuffer (idle 0 0xFFFFFFFF 2) 0xFFFFFFFF 2 = false ∧ admittedBuffer (idle 0 0xFFFFFFFE 2) 0xFFFFFFFE 2 = true := by
  decide
theorem witness_DirectionChangesOnlyByItsService :
    (xfer (allCauses 25) .spi1 .tx).st = .busy ∧
      nextSat (step (allCauses 25)) (fun t => (xfer t .spi1 .tx).st = .idle) = true ∧
      nextSat (step (spi 0 0 false false false .clean .clean (port 0x05100000 7 0 0)))
        (fun t => (xfer t .spi1 .rx).st = .busy) = true := by decide
theorem witness_SpuriousDispatchChangesNothing :
    spiOf 1 = some .spi1 ∧ phaseOf (idle 0 0 0) = 0 ∧ clkOn (idle 0 0 0) (.spi .spi1) = true ∧
      (idle 0 0 0).spi.spi1.cr2 = 0 ∧ (idle 0 0 0).spi.spi1.txe = true := by decide
theorem witness_TransmitServiceMovesOneFrame :
    phaseOf (allCauses 10) = serviceBase .tx ∧ clkOn (allCauses 10) (.spi .spi1) = true ∧
      (2 : Word) = frameWidth (regVal (.spi .spi1 .cr1) (allCauses 10)) ∧ (xfer (allCauses 10) .spi1 .tx).st = .busy ∧
      (xfer (allCauses 10) .spi1 .tx).buf ≠ 0 ∧ 2 ≤ (xfer (allCauses 10) .spi1 .tx).len.toNat ∧
      inLaunch (allCauses 10) 0x20000100 = true ∧ inLaunch (allCauses 10) 0x20000101 = true := by decide
theorem witness_ReceiveServiceMovesOneFrame :
    phaseOf (allCauses 30) = serviceBase .rx ∧ clkOn (allCauses 30) (.spi .spi1) = true ∧
      (2 : Word) = frameWidth (regVal (.spi .spi1 .cr1) (allCauses 30)) ∧ (xfer (allCauses 30) .spi1 .rx).st = .busy ∧
      (xfer (allCauses 30) .spi1 .rx).buf ≠ 0 ∧ 2 ≤ (xfer (allCauses 30) .spi1 .rx).len.toNat ∧
      inLaunch (allCauses 30) 0x20000102 = true ∧ inLaunch (allCauses 30) 0x20000103 = true := by decide
theorem witness_CompletionIsCleanBeforeTheCallback :
    phaseOf (allCauses 21) = serviceBase .tx + 11 ∧ phaseOf (allCauses 41) = serviceBase .rx + 11 ∧
      clkOn (allCauses 21) (.spi .spi1) = true := by decide
theorem witness_ServiceWithoutTransferFaults :
    phaseOf (allCauses 11) = serviceBase .tx + 1 ∧ phaseOf (idle 31 0 0) = serviceBase .rx + 1 ∧
      (xfer (idle 31 0 0) .spi1 .rx).st = .idle ∧
      (locals (withLocals 0 0 2 (allCauses 11))).w.toNat ≤ (xfer (allCauses 11) .spi1 .tx).len.toNat := by decide
theorem witness_OverrunClearedUnlessTransmitting :
    phaseOf (allCauses 50) = ovrBase ∧ (xfer (allCauses 50) .spi1 .tx).st = .busy ∧ phaseOf (idle 50 0 0) = ovrBase ∧
      (xfer (idle 50 0 0) .spi1 .tx).st = .idle ∧ clkOn (idle 50 0 0) (.spi .spi1) = true := by decide
/-- The default callback is a no-op in every state with these parameters. -/
theorem no_callback (s : State) (h : s.params.callback = .table []) (ev : Event) (t : State) (ht : t.params = s.params) :
    callbackOps .spi1 ev t = [] := by
  simp [callbackOps, ht, h]

theorem witness_DispatchServicesAllCausesInOrder :
    (∀ ev t, t.params = (allCauses 0).params → callbackOps .spi1 ev t = []) ∧
    phaseOf (allCauses 0) = 0 ∧ (2 : Word) = frameWidth (regVal (.spi .spi1 .cr1) (allCauses 0)) ∧
      (allCauses 0).spi.spi1.txe = true ∧ (allCauses 0).spi.spi1.rxne = true ∧ (allCauses 0).spi.spi1.ovr = true ∧
      clkOn (allCauses 0) (.spi .spi1) = true ∧ (allCauses 0).spi.spi1.ovrArm = false ∧ (allCauses 0).spi.spi1.cr2 = 0xE0 ∧
      (∀ d ∈ [Dir.tx, Dir.rx], (xfer (allCauses 0) .spi1 d).st = .busy ∧ (xfer (allCauses 0) .spi1 d).buf ≠ 0 ∧
        (xfer (allCauses 0) .spi1 d).len = 2 ∧ inLaunch (allCauses 0) (xfer (allCauses 0) .spi1 d).buf = true ∧
        inLaunch (allCauses 0) ((xfer (allCauses 0) .spi1 d).buf + 1) = true) :=
  ⟨no_callback _ rfl, by decide⟩
theorem witness_DispatchChecks :
    spiOf 1 = some .spi1 ∧ clkOn (allCauses 0) (.spi .spi1) = true ∧
      ∀ p ∈ [0, 3, 6], ∀ k ∈ [0, 1, 2], phaseOf (allCauses (p + k)) = p + k := by decide
/-- SPI1 with a transmit of two 16-bit frames in flight and its interrupt enabled. -/
def driving : State := spi 0x800 0x80 true true true ⟨0x20000100, 4, .busy⟩ .clean (port 0 0 0 0)

theorem witness_DispatchesDriveATransmitToCompletion :
    (∀ ev t, t.params = driving.params → callbackOps .spi1 ev t = []) ∧
      spiOf 1 = some .spi1 ∧ clkOn driving (.spi .spi1) = true ∧ (2 : Word) = frameWidth (regVal (.spi .spi1 .cr1) driving) ∧
      (xfer driving .spi1 .tx).st = .busy ∧ (xfer driving .spi1 .tx).buf ≠ 0 ∧
      (xfer driving .spi1 .tx).len.toNat = 2 * (2 : Word).toNat ∧
      admittedBuffer driving (xfer driving .spi1 .tx).buf (xfer driving .spi1 .tx).len = true ∧
      driving.spi.spi1.cr2.getLsbD bitTxeie = true ∧
      (driving.spi.spi1.rxne && driving.spi.spi1.cr2.getLsbD bitRxneie) = false ∧
      (driving.spi.spi1.ovr && driving.spi.spi1.cr2.getLsbD bitErrie) = false :=
  ⟨no_callback _ rfl, by decide⟩

/-- A callback that starts the next transmit on every TX_CMPLT of SPI1 whose last byte in memory was 0x41. -/
def rearming : State :=
  { spi 0 0 true false false .clean .clean (port 0x06100000 26 0 0) with
    params := { Params.reset with
      callback := .table [⟨.spi1, .txCmplt, [(.byte 0x20000100, 0x41)], [.arg0 0x20000100, .arg1 2, .cmd 0x04100000]⟩] } }

theorem witness_CallbackRunsBeforeTheDispatchGoesOn :
    on.params.callback = .table [] ∧
      callbackOps .spi1 .txCmplt (recordEvent .spi1 .txCmplt 3 rearming) = .arg0 0x20000100 :: [.arg1 2, .cmd 0x04100000] ∧
      ({ on with ctx := { on.ctx with below := [Act.start []] } } : State).ctx.below = Act.start [] :: [] := by decide

/-- 42 R171: the callback is a function of the handle, the event and the state, the same at each invocation. -/
theorem test_callback_is_a_function :
    callbackOps .spi1 .ovrErr rearming = [] ∧ callbackOps .spi2 .txCmplt rearming = [] ∧
      callbackOps .spi1 .txCmplt { rearming with mem := [(0x20000100, 0x42)] } = [] ∧
      callbackOps .spi1 .txCmplt { rearming with cbOut := [(.spi1, .txCmplt), (.spi1, .ovrErr)] } ≠ [] := by decide

/-- 30 R108: the tags on the callback port. -/
theorem test_event_tags : nextSat (exec (.spiIrq 1) (allCauses 26)) (fun t => callbackPort t = [(1, 1)]) = true ∧
    nextSat (exec (.spiIrq 1) (allCauses 53)) (fun t => callbackPort t = [(1, 3)]) = true := by decide

/-- 20 R71: outside the launch memory the command stays where it is and the other agents go on. -/
theorem test_stuck_is_a_hold : outcome (idle 6 0 0) (exec (.spiSend 1) (idle 6 0 0)) = .hold (idle 6 0 0) ∧
    nextSat (step { idle 6 0 0 with sched := [.overrun .spi1] }) (fun t => t.spi.spi1.ovr = true) = true :=
  ⟨rfl, by decide⟩

theorem witness_CommandsAreIssuedThroughThePort :
    (Context.start [.arg0 5]).act.todo = .arg0 5 :: [] ∧ (Context.start [.arg1 5]).act.todo = .arg1 5 :: [] ∧
      (Context.start [.cmd 5]).act.todo = .cmd 5 :: [] ∧ (Context.start [.cmd 5]).act.op = none := by decide
theorem witness_ArmSetsTheMaskBit : phaseOf on = 0 := by decide
theorem witness_AcknowledgeClearsOneBit : phaseOf on = 0 ∧ phaseOf { on with exti := { on.exti with pr := 0x8000 } } = 0 := by decide
theorem witness_EdgeSelectionIsExact : (3#2) ≠ 0 ∧ phaseOf on = 0 := by decide
theorem witness_RoutingReplacesOneSubfield : on.params.wf ∧ portOf on.params 6 = some 6 ∧ portOf on.params 7 = none ∧
    phaseOf on = 0 ∧ selectedPort on 15 = some 0 ∧ selectedPort on 15 ≠ some 6 := ⟨Params.reset_wf, by decide⟩
theorem witness_DetectorRecordsSelectedEdges : hasPort on.params 6 = true ∧ hasPort on.params 7 = false ∧
    selectedPort on 15 = some 0 ∧ selectedPort on 15 ≠ some 6 := by decide
theorem witness_RequestLines : 5 ≤ (5#4).toNat ∧ (5#4).toNat ≤ 9 ∧ 5 ≤ (9#4).toNat ∧ (9#4).toNat ≤ 9 ∧ 10 ≤ (10#4).toNat ∧
    10 ≤ (15#4).toNat := by decide
theorem witness_EnableAndPriorityOfOneIrq : on.params.nIrq ≤ (60#8).toNat ∧ 2 ^ on.params.prioBits ≤ (16#8).toNat ∧
    ((59 : Irq) : Nat) = (59#8).toNat ∧ ((59 : Irq) : Nat) < on.params.nIrq ∧ (15#8).toNat < 2 ^ on.params.prioBits ∧
    phaseOf on = 0 := by decide
theorem witness_EntryCondition : on.params.order = .numeric ∧
    canEnter { on with nvic := { on.nvic with en := 0x800000, pend := 0x800000 } } 23 = true := by decide
theorem witness_EntryFreezesThePreemptedContext :
    canEnter { on with nvic := { on.nvic with en := 0x800000, pend := 0x800000 } } 23 = true ∧ canEnter on 23 = false := by decide

/-- A handler of IRQ 23 that has finished, with its line still requested. -/
def returning : State :=
  { on with
    sched := [.leave]
    frozen := [(23, port 0x12060000 1 0 0)]
    exti := { on.exti with pr := 0x40, imr := 0x40 } }

theorem witness_ReturnResumesTheFrozenContext :
    returning.sched = .leave :: [] ∧ returning.frozen = (23, port 0x12060000 1 0 0) :: [] ∧ (active returning).Nodup ∧
      finished returning = true ∧ line returning 23 = true ∧
      finished { returning with ctx := port 0x12060000 0 0 0 } = false := by decide
theorem witness_FrozenContextsTakeNoStep : nextSat (step returning) (fun t => t.frozen = []) = true ∧ returning.frozen ≠ [] ∧
    (active returning).head? ≠ some 40 ∧ runner returning = .handler 23 ∧ runner on = .foreground := by decide
theorem witness_MasterSendProtocol :
    i2cOf Params.reset 2 = some 1 ∧ phaseOf (idle 0 0x20000100 2) = 0 ∧ clkOn (idle 0 0x20000100 2) (.i2c 1) = true ∧
      admittedBuffer (idle 0 0x20000100 2) 0x20000100 2 = true ∧
      ((idle 0 0x20000100 2).i2c.get 1).cr1.getLsbD bitStart = false ∧
      ((idle 0 0x20000100 2).i2c.get 1).cr1.getLsbD bitStop = false := by decide
theorem witness_MasterSendProtocol_refusals :
    i2cOf Params.reset 0 = none ∧ i2cOf Params.reset 3 = none ∧ (idle 0 0 2).ctx.arg1 ≠ 0 ∧
      admittedBuffer (idle 0 0 2) 0 2 = false ∧ (idle 0 0 0).ctx.arg1 = 0 ∧
      clkOn { idle 0 0 0 with rcc := ⟨0, 0⟩ } (.i2c 1) = false ∧ phaseOf { idle 0 0 0 with rcc := ⟨0, 0⟩ } = 0 ∧
      clkOn { idle 17 0 0 with rcc := ⟨0, 0⟩ } (.i2c 1) = false ∧ phaseOf { idle 17 0 0 with rcc := ⟨0, 0⟩ } = 17 := by decide
theorem witness_MasterSendTouchesOnlyI2c : nextSat (exec (.i2cMsend 1 0x68) (idle 0 0x20000100 2)) (fun _ => true) = true := by decide
theorem witness_PinConfiguration : portOf Params.reset 7 = none ∧ pinConfigLegal 0 1 = false ∧ portOf Params.reset 6 = some 6 ∧
    pinConfigLegal 4 1 = true ∧ phaseOf on = 0 ∧ clkOn on (.gpio 6) = true ∧ clkOn State.reset (.gpio 6) = false := by decide
theorem witness_PinReads : portOf Params.reset 6 = some 6 ∧ clkOn on (.gpio 6) = true ∧ phaseOf on = 0 := by decide
theorem witness_PinWrites : portOf Params.reset 0 = some 0 ∧ clkOn on (.gpio 0) = true ∧ phaseOf on = 0 := by decide
theorem witness_ClockEnable : on.params.wf ∧ peripheralOf on.params 0x26 = some (.gpio 6) ∧ peripheralOf on.params 0x27 = none ∧
    phaseOf on = 0 ∧ hasPeripheral on.params (.i2c 1) = true := ⟨Params.reset_wf, by decide⟩
theorem witness_RawRead :
    phaseOf { on with ctx := port 0x50000000 0 0x40010414 0 } = 0 ∧ (0x40010416#32).toNat % 4 ≠ 0 ∧ regAt Params.reset 0x40010418 = none ∧
      (0x40010414#32).toNat % 4 = 0 ∧ regAt Params.reset (0x40010414#32).toNat = some (.exti .pr) ∧ accessible on (.exti .pr) = true ∧
      regAt Params.reset 0x40013000 = some (.spi .spi1 .cr1) ∧ accessible State.reset (.spi .spi1 .cr1) = false := by decide
theorem witness_RawWrite :
    (0x40003806#32).toNat % 4 ≠ 0 ∧ regAt Params.reset 0x40003810 = none ∧ regAt Params.reset 0x40003808 = some (.spi .spi2 .sr) ∧
      regAt Params.reset 0x40005414 = some (.i2c 0 .sr1) ∧ regAt Params.reset 0x40005418 = some (.i2c 0 .sr2) ∧
      regAt Params.reset 0x40010808 = some (.gpio 0 .idr) ∧ regAt Params.reset 0x40003804 = some (.spi .spi2 .cr2) ∧
      envOwned (.spi .spi2 .cr2) = false ∧ accessible on (.spi .spi2 .cr2) = true ∧
      accessible State.reset (.spi .spi2 .cr2) = false := by decide
theorem witness_DataAndStatusRegisterAccesses :
    (updSpi .spi1 (fun r => { r with ovrArm := true }) on).spi.spi1.ovrArm = true ∧ on.spi.spi1.ovrArm = false ∧
      (allCauses 0).spi.spi1.ovr = true := by decide
theorem witness_I2cRegisterAccesses :
    (0x100#32).getLsbD bitStart = true ∧ (0x100#32).getLsbD bitStop = false ∧ (0x200#32).getLsbD bitStart = false ∧
      (0x200#32).getLsbD bitStop = true ∧ (0x300#32).getLsbD bitStart = true ∧ (0x300#32).getLsbD bitStop = true ∧ (0#32).getLsbD bitStart = false ∧ ((obligingBus 0 on).i2c.get 0).addr = true := by decide
theorem witness_RuledRegistersHoldWhatIsWritten : on.params.wf ∧
    ({ on with ctx := port 0x51000000 0 0x40003804 0x20 } : State).ctx.arg0.toNat = regAddr on.params (.spi .spi2 .cr2) ∧
      accessible on (.spi .spi2 .cr2) = true ∧ (Reg.spi .spi2 .cr2) ∈ allRegs on.params ∧
      (Reg.spi .spi2 .cr1) ≠ .spi .spi2 .cr2 := ⟨Params.reset_wf, by decide⟩

end Sys2Proof.Tests
end

namespace Sys2Proof.Machine

/-! # One register write a micro-step

A micro-step of a context makes at most one register write, and nothing but its sequencer and the draw counter changes after it.
`exec_keeps` cannot say so: its predicate outlives any number of writes. -/

/-- `P` holds of the states a micro-step goes through before its register write, `Q` of the state it ends in. -/
structure OneWrite (P Q : State → Prop) : Prop where
  ctx : ∀ s c, P s → P { s with ctx := c }
  cfg : ∀ s i c, P s → P { s with handles := s.handles.set i { s.handles.get i with cfg := c } }
  xfer : ∀ s i d f, P s → P (updXfer i d f s)
  read : ∀ s r, P s → P (afterRead r s)
  clear : ∀ s i, P s → P (readSr i true s)
  store : ∀ s a v, P s → P (putByte a v s)
  emit : ∀ s i ev, P s → P { s with cbOut := s.cbOut ++ [(i, ev)] }
  unwritten : ∀ s, P s → Q s
  write : ∀ s r v, P s → Q (afterWrite r v s)
  ctxAfter : ∀ (c : State → Context) (s : State), Q s → Q { s with ctx := c s }
  drawAfter : ∀ s n, Q s → Q { s with draws := n }

section

variable {P Q : State → Prop} {s : State}

namespace OneWrite

/-- A change of the context ends a micro-step that writes no register. -/
theorem stop (h : OneWrite P Q) (s : State) {c : Context} (hs : P s) : Q { s with ctx := c } :=
  h.unwritten _ (h.ctx s c hs)

theorem emitCallback (h : OneWrite P Q) {i : SpiId} {ev : Event} {p : Nat} (hs : P s) : Q (emitCallback i ev p s) := by
  rw [emitCallback_frame]
  exact h.stop _ (h.emit s i ev hs)

theorem readReg (h : OneWrite P Q) {r : Reg} {k : Word → State → Out} (hs : P s)
    (hk : ∀ v t, P t → Sat Q (k v t)) : Sat Q (readReg r s k) := by
  unfold Machine.readReg
  split
  · exact hk _ _ (h.read s r hs)
  · trivial

theorem writeReg (h : OneWrite P Q) {r : Reg} {v : Word} {k : State → Out} (hs : P s)
    (hk : ∀ t, Q t → Sat Q (k t)) : Sat Q (writeReg r v s k) := by
  unfold Machine.writeReg
  split
  · exact hk _ (h.write s r v hs)
  · trivial

theorem rmwRead (h : OneWrite P Q) {r : Reg} {f : Word → Word} {p : Nat} {k : State → State} (hs : P s)
    (hk : ∀ t, Q t → Q (k t)) : Sat Q (rmwRead r f p k s) := by
  refine h.readReg hs fun v t ht => ?_
  split
  · exact hk _ (h.write t r _ ht)
  · exact h.stop t ht

theorem rmwWrite (h : OneWrite P Q) {r : Reg} {f : Word → Word} {k : State → State} (hs : P s)
    (hk : ∀ t, Q t → Q (k t)) : Sat Q (rmwWrite r f k s) :=
  h.writeReg hs hk

theorem waitUntil (h : OneWrite P Q) {r : Reg} {bit p : Nat} (hs : P s) : Sat Q (waitUntil r bit p s) := by
  rw [waitUntil_def]
  refine h.readReg hs fun v t ht => ?_
  rw [sat_next]
  split
  · exact h.stop t ht
  · exact h.unwritten t ht

/-- A fresh read of a register whose value goes to the sequencer. -/
theorem sample (h : OneWrite P Q) {r : Reg} {c : Word → State → Context} (hs : P s) :
    Sat Q (Machine.readReg r s fun v t => .next { t with ctx := c v t }) :=
  h.readReg hs fun _ t ht => h.stop t ht

theorem loadByte (h : OneWrite P Q) {a : Word} {k : Byte → Out} (hs : P s) (hk : ∀ x, Sat Q (k x)) :
    Sat Q (loadByte a s k) :=
  sat_loadByte (h.unwritten s hs) hk

theorem storeByte (h : OneWrite P Q) {a : Word} {v : Byte} {k : State → Out} (hs : P s)
    (hk : ∀ t, P t → Sat Q (k t)) : Sat Q (storeByte a v s k) := by
  unfold Machine.storeByte
  split
  · exact hk _ (h.store s a v hs)
  · exact h.unwritten s hs

end OneWrite

/-! ## Families -/

theorem blockingStep_oneWrite (h : OneWrite P Q) {d : Dir} {i : SpiId} (hs : P s) : Sat Q (blockingStep d i s) := by
  unfold blockingStep
  split
  · unfold admitBlocking
    split
    · exact h.stop s hs
    · exact h.readReg hs fun v t _ => sat_ite (sat_ite (h.stop s hs) trivial) trivial
  · exact h.stop s hs
  · rw [sat_next]; split
    · exact h.stop s hs
    · exact h.stop s hs
  · exact h.waitUntil hs
  · exact h.sample hs
  · exact sat_ite trivial (h.stop s hs)
  · exact h.stop s hs
  · exact h.stop s hs

theorem sendStep_oneWrite (h : OneWrite P Q) {i : SpiId} (hs : P s) : Sat Q (sendStep i s) := by
  unfold sendStep
  split
  · exact h.loadByte hs fun x => h.stop s hs
  · exact h.loadByte hs fun x => h.stop s hs
  · exact h.writeReg hs (h.ctxAfter _)
  · exact blockingStep_oneWrite h hs

theorem recvStep_oneWrite (h : OneWrite P Q) {i : SpiId} (hs : P s) : Sat Q (recvStep i s) := by
  unfold recvStep
  split
  · exact h.sample hs
  · exact h.storeByte hs fun t ht => h.stop t ht
  · exact h.storeByte hs fun t ht => h.stop t ht
  · exact blockingStep_oneWrite h hs

theorem requestStep_oneWrite (h : OneWrite P Q) {d : Dir} {i : SpiId} (hs : P s) : Sat Q (requestStep d i s) := by
  unfold requestStep
  simp only []
  split
  · exact h.stop s hs
  · exact h.stop s hs
  · exact h.stop s hs
  · rw [sat_next]; split
    · exact h.stop s hs
    · exact h.stop s hs
  · unfold admitRequest
    split
    · trivial
    · exact h.readReg hs fun v t ht => sat_ite (sat_ite (h.stop t ht) trivial) trivial
  · exact h.stop _ (h.xfer s i d _ hs)
  · exact h.stop _ (h.xfer s i d _ hs)
  · exact h.stop _ (h.xfer s i d _ hs)
  · exact h.rmwRead hs (h.ctxAfter _)
  · exact h.rmwWrite hs (h.ctxAfter _)
  · exact h.stop s hs

theorem serviceStep_oneWrite (h : OneWrite P Q) {d : Dir} {i : SpiId} {base next k : Nat} (hs : P s) :
    Sat Q (serviceStep d i base next k s) := by
  unfold serviceStep
  simp only []
  split
  · exact h.sample hs
  · exact sat_ite (h.stop s hs) trivial
  · exact h.stop s hs
  · exact sat_ite trivial (h.stop _ (h.xfer s i d _ hs))
  · exact h.stop s hs
  · exact h.stop _ (h.xfer s i d _ hs)
  · exact h.stop s hs
  · exact h.rmwRead hs (h.ctxAfter _)
  · exact h.rmwWrite hs (h.ctxAfter _)
  · exact h.stop _ (h.xfer s i d _ hs)
  · exact h.stop _ (h.xfer s i d _ hs)
  · exact h.stop _ (h.xfer s i d _ hs)
  · exact h.emitCallback hs

theorem txeService_oneWrite (h : OneWrite P Q) {i : SpiId} {base next k : Nat} (hs : P s) :
    Sat Q (txeService i base next k s) := by
  unfold txeService
  split
  · exact h.stop s hs
  · exact h.loadByte hs fun x => h.stop s hs
  · exact h.loadByte hs fun x => h.stop s hs
  · exact h.writeReg hs (h.ctxAfter _)
  · exact serviceStep_oneWrite h hs

theorem rxneService_oneWrite (h : OneWrite P Q) {i : SpiId} {base next k : Nat} (hs : P s) :
    Sat Q (rxneService i base next k s) := by
  unfold rxneService
  split
  · exact h.sample hs
  · exact h.stop s hs
  · exact h.storeByte hs fun t ht => h.stop t ht
  · exact h.storeByte hs fun t ht => h.stop t ht
  · exact serviceStep_oneWrite h hs

theorem ovrService_oneWrite (h : OneWrite P Q) {i : SpiId} {base next k : Nat} (hs : P s) :
    Sat Q (ovrService i base next k s) := by
  unfold ovrService
  split
  · exact h.stop s hs
  · exact h.sample hs
  · exact sat_ite (h.stop _ (h.clear s i hs)) trivial
  · exact h.emitCallback hs

theorem dispatchStep_oneWrite (h : OneWrite P Q) {i : SpiId} (hs : P s) : Sat Q (dispatchStep i s) := by
  unfold dispatchStep
  split
  · exact h.sample hs
  · exact h.sample hs
  · exact h.stop s hs
  · exact h.sample hs
  · exact h.sample hs
  · exact h.stop s hs
  · exact h.sample hs
  · exact h.sample hs
  · exact h.stop s hs
  · exact h.stop s hs
  · split
    · exact txeService_oneWrite h hs
    · split
      · exact rxneService_oneWrite h hs
      · exact ovrService_oneWrite h hs

theorem msendStep_oneWrite (h : OneWrite P Q) {u : I2cId} {a : BitVec 7} (hs : P s) : Sat Q (msendStep u a s) := by
  unfold msendStep
  simp only []
  split
  · exact sat_ite (h.stop s hs) trivial
  · exact h.stop s hs
  · exact h.rmwRead hs (h.ctxAfter _)
  · exact h.rmwWrite hs (h.ctxAfter _)
  · exact h.waitUntil hs
  · exact h.writeReg hs (h.ctxAfter _)
  · exact h.waitUntil hs
  · exact h.sample hs
  · exact h.sample hs
  · exact h.stop s hs
  · exact h.waitUntil hs
  · exact h.loadByte hs fun x => h.stop s hs
  · exact h.writeReg hs (h.ctxAfter _)
  · exact h.stop s hs
  · exact h.waitUntil hs
  · exact h.waitUntil hs
  · exact h.rmwRead hs (h.ctxAfter _)
  · exact h.rmwWrite hs (h.ctxAfter _)

/-- A FieldSet in two phases (20 R77), the second phase being any but the first. -/
theorem fieldSet_oneWrite (h : OneWrite P Q) {r : Reg} {f : Word → Word} {k : State → State} {n : Nat} (hs : P s)
    (hk : ∀ t, Q t → Q (k t)) :
    Sat Q (match n with | 0 => rmwRead r f 1 k s | _ => rmwWrite r f k s) := by
  cases n with
  | zero => exact h.rmwRead hs hk
  | succ n => exact h.rmwWrite hs hk

/-! ## Every command -/

/-- A micro-step of any command writes at most one register, after everything else it does. -/
theorem exec_oneWrite (h : OneWrite P Q) (i : Instr) (hs : P s) : Sat Q (exec i s) := by
  cases i with
  | spiInit unit cfg =>
    refine sat_withSpi fun i => sat_ite ?_ trivial
    split
    · exact h.stop _ (h.cfg s i cfg hs)
    · exact h.writeReg hs (h.ctxAfter _)
  | spiSend unit => exact sat_withSpi fun i => sendStep_oneWrite h hs
  | spiRecv unit => exact sat_withSpi fun i => recvStep_oneWrite h hs
  | spiSendIt unit => exact sat_withSpi fun i => requestStep_oneWrite h hs
  | spiRecvIt unit => exact sat_withSpi fun i => requestStep_oneWrite h hs
  | spiIrq unit => exact sat_withSpi fun i => dispatchStep_oneWrite h hs
  | extiEdge pin edge =>
    refine sat_ite ?_ trivial
    split
    · exact h.rmwRead (h.ctx s _ hs) (h.ctxAfter _)
    · exact h.rmwWrite hs (h.ctxAfter _)
    · exact h.rmwRead hs (h.ctxAfter _)
    · exact h.rmwWrite hs (h.ctxAfter _)
  | extiRoute port pin =>
    refine sat_withPort fun p => ?_
    simp only []
    split
    · exact h.rmwRead hs (h.ctxAfter _)
    · exact h.rmwWrite hs (h.ctxAfter _)
    · exact h.rmwRead hs (h.ctxAfter _)
    · exact h.rmwWrite hs (h.ctxAfter _)
  | extiArm pin => exact fieldSet_oneWrite h hs (h.ctxAfter _)
  | extiAck pin =>
    simp only [exec, execExtiAck]
    split
    · exact h.sample hs
    · exact sat_ite (h.writeReg hs (h.ctxAfter _)) (h.stop s hs)
  | irqEnable q en => exact sat_withIrq fun x => h.writeReg hs (h.ctxAfter _)
  | irqPrio q prio => exact sat_withIrq fun x => sat_withPriority fun p => fieldSet_oneWrite h hs (h.ctxAfter _)
  | i2cMsend unit addr7 => exact sat_withI2c fun u => msendStep_oneWrite h hs
  | gpioCfg port pin mode ecfg =>
    refine sat_withPort fun p => sat_ite (fieldSet_oneWrite h hs fun t ht => ?_) trivial
    exact h.ctxAfter (fun u => (finish u).ctx) _ (h.drawAfter t _ ht)
  | gpioRdPin port pin =>
    refine sat_withPort fun p => ?_
    split
    · exact h.sample hs
    · exact h.stop s hs
  | gpioRdPort port =>
    refine sat_withPort fun p => ?_
    split
    · exact h.sample hs
    · exact h.stop s hs
  | gpioWrPin port pin value => exact sat_withPort fun p => fieldSet_oneWrite h hs (h.ctxAfter _)
  | gpioWrPort port value => exact sat_withPort fun p => h.writeReg hs (h.ctxAfter _)
  | gpioTglPin port pin => exact sat_withPort fun p => fieldSet_oneWrite h hs (h.ctxAfter _)
  | pclk id en => exact sat_withPeripheral fun p => fieldSet_oneWrite h hs (h.ctxAfter _)
  | regRd =>
    simp only [exec, execRegRd]
    split
    · exact sat_withReg fun r => h.sample hs
    · exact h.stop s hs
  | regWr => exact sat_withReg fun r => sat_ite trivial (h.writeReg hs (h.ctxAfter _))

/-- The micro-step of a context with no command in progress writes no register. -/
theorem issue_oneWrite (h : OneWrite P Q) (hs : P s) : Sat Q (issue s) := by
  unfold issue
  split
  · exact h.stop s hs
  · exact h.stop s hs
  · exact h.stop s hs
  · exact h.storeByte hs fun t ht => h.stop t ht
  · split
    · exact h.stop s hs
    · exact h.unwritten s hs

/-- The micro-step of the running context, whatever it runs. -/
theorem contextStep_oneWrite (h : OneWrite P Q) (hs : P s) : Sat Q (contextStep s) := by
  unfold contextStep
  split
  · exact issue_oneWrite h hs
  · split
    · exact exec_oneWrite h _ hs
    · trivial

end

/-! # The pending bits of the edge detector (10 R47, 43 R196) -/

/-- A line's selection is read from the routing slots and PORTS alone. -/
theorem selectedPort_congr {s t : State} (n : BitVec 4) (ha : t.afio = s.afio) (hp : t.params = s.params) :
    selectedPort t n = selectedPort s n := by
  simp only [selectedPort, routeCode, ha, hp]

/-- The edge detector of line n leaves the pending bit of every other line. -/
theorem detect_pr_of_ne (e : ExtiRegs) {n m : BitVec 4} (x record : Bool) (h : m ≠ n) :
    (detect e n x record).pr.getLsbD m.toNat = e.pr.getLsbD m.toNat := by
  have hm : m.toNat ≠ n.toNat := fun he => h (BitVec.eq_of_toNat_eq he)
  simp only [detect, setBit_getLsbD _ _ _ _ m.isLt, if_neg hm]

/-- Every pending bit of `t` is pending in `s` too, or its line's selection differs between the two. -/
def RaisedByReroute (s t : State) : Prop :=
  ∀ n : BitVec 4,
    t.exti.pr.getLsbD n.toNat = true → s.exti.pr.getLsbD n.toNat = true ∨ selectedPort t n ≠ selectedPort s n

/-- What decides the pending bits and the selections is the same in `s` and `t`. -/
structure SameLines (s t : State) : Prop where
  exti : t.exti = s.exti
  afio : t.afio = s.afio
  params : t.params = s.params

theorem SameLines.raised {s t : State} (h : SameLines s t) : RaisedByReroute s t :=
  fun _ hn => .inl (h.exti ▸ hn)

/-- Only the lines' state before a step matters to which bits the step raises. -/
theorem RaisedByReroute.of_sameLines {s t u : State} (hu : RaisedByReroute t u) (h : SameLines s t) : RaisedByReroute s u := by
  intro n hn
  rw [← selectedPort_congr n h.afio h.params, ← h.exti]
  exact hu n hn

/-- The detector's step for line m after a routing write raises the bit of line m alone, and only at a new selection. -/
theorem detectReroute_pr (old s : State) (m n : BitVec 4) (h : (detectReroute old s m).exti.pr.getLsbD n.toNat = true) :
    s.exti.pr.getLsbD n.toNat = true ∨ selectedPort s n ≠ selectedPort old n := by
  unfold detectReroute at h
  split at h
  · exact .inl h
  · rename_i p hp
    split at h
    · exact .inl h
    · rename_i hold
      by_cases hnm : n = m
      · subst hnm
        rw [hp]
        exact .inr (Ne.symm hold)
      · rw [detect_pr_of_ne _ _ _ hnm] at h
        exact .inl h

/-- The same for the detector's steps of several lines. -/
theorem foldl_detectReroute_pr (old : State) (ms : List (BitVec 4)) (s : State) (n : BitVec 4)
    (h : (ms.foldl (detectReroute old) s).exti.pr.getLsbD n.toNat = true) :
    s.exti.pr.getLsbD n.toNat = true ∨ selectedPort s n ≠ selectedPort old n := by
  induction ms generalizing s with
  | nil => exact .inl h
  | cons m ms ih =>
    rcases ih _ h with h1 | h1
    · exact detectReroute_pr old s m n h1
    · rw [selectedPort_congr n (detectReroute_afio ..) (detectReroute_params ..)] at h1
      exact .inr h1

/-- A write of a routing slot raises the pending bit of a line only by giving it another selection. -/
theorem writeRoute_raised (k : Fin 4) (v : BitVec 16) (s : State) : RaisedByReroute s (writeRoute k v s) := by
  intro n hn
  rw [selectedPort_congr (s := { s with afio := setRouteSlot s.afio k v }) n (writeRoute_afio ..) (writeRoute_params ..)]
  exact foldl_detectReroute_pr s (slotPins k) _ n hn

/-- A write of PR clears the bits written as 1 and no other (10 R47). -/
theorem afterWrite_pr_getLsbD (v : Word) (s : State) (n : BitVec 4) :
    (afterWrite (.exti .pr) v s).exti.pr.getLsbD n.toNat = (s.exti.pr.getLsbD n.toNat && !v.getLsbD n.toNat) := by
  have hn : n.toNat < 16 := n.isLt
  simp [afterWrite, hn]

/-- A register write raises a pending bit only by giving its line another selection. -/
theorem afterWrite_raised (r : Reg) (v : Word) (s : State) : RaisedByReroute s (afterWrite r v s) := by
  cases r with
  | exti r =>
    cases r with
    | pr =>
      intro n hn
      rw [afterWrite_pr_getLsbD, Bool.and_eq_true] at hn
      exact .inl hn.1
    | _ => exact fun n hn => .inl hn
  | afio r =>
    cases r with
    | exticr k => exact writeRoute_raised k _ s
    | _ => exact fun n hn => .inl hn
  | spi _ r | gpio _ r | i2c _ r | rcc r | nvic r => cases r <;> exact fun n hn => .inl hn

/-- Before its register write a micro-step leaves the lines as they are; after it, the bits raised are those the write raised. -/
theorem oneWrite_raised (s : State) : OneWrite (SameLines s) (RaisedByReroute s) where
  ctx := fun _ _ h => ⟨h.exti, h.afio, h.params⟩
  cfg := fun _ _ _ h => ⟨h.exti, h.afio, h.params⟩
  xfer := fun _ _ _ _ h => ⟨h.exti, h.afio, h.params⟩
  read := fun t r h =>
    ⟨(afterRead_exti r t).trans h.exti, (afterRead_afio r t).trans h.afio, (afterRead_params r t).trans h.params⟩
  clear := fun _ _ h => ⟨h.exti, h.afio, h.params⟩
  store := fun _ _ _ h => ⟨h.exti, h.afio, h.params⟩
  emit := fun _ _ _ h => ⟨h.exti, h.afio, h.params⟩
  unwritten := fun _ h => h.raised
  write := fun t r v h => (afterWrite_raised r v t).of_sameLines h
  ctxAfter := fun _ _ h => h
  drawAfter := fun _ _ h => h

/-- A micro-step of the running context raises a pending bit only by giving its line another selection. -/
theorem contextStep_raised {s t : State} {swap : Bool} (h : contextStep { s with swap := swap } = .next t) :
    RaisedByReroute s t :=
  (sat_iff _ _).1 (contextStep_oneWrite (s := { s with swap := swap }) (oneWrite_raised s) ⟨rfl, rfl, rfl⟩) t h

/-- A return of a handler leaves the lines alone. -/
theorem leaveIrq_sameLines (s : State) : SameLines s (leaveIrq s) := by
  unfold leaveIrq
  split
  · split <;> exact ⟨rfl, rfl, rfl⟩
  · exact ⟨rfl, rfl, rfl⟩

/-- A step of a pin raises only the pending bit of its own line, and only if the line observes the pin's port (43 R196). -/
theorem envPin_pr (p : Port) (m n : BitVec 4) (x : Bool) (s : State) (h : (envPin p m x s).exti.pr.getLsbD n.toNat = true) :
    s.exti.pr.getLsbD n.toNat = true ∨ (m = n ∧ selectedPort s n = some p) := by
  unfold envPin at h
  simp only [] at h
  split at h
  · split at h
    · by_cases hnm : n = m
      · subst hnm
        exact .inr ⟨rfl, ‹_›⟩
      · rw [detect_pr_of_ne _ _ _ hnm] at h
        exact .inl h
    · exact .inl h
  · exact .inl h

/-- A move that is no pin's raises a pending bit only by giving its line another selection. -/
theorem makeMove_raised {m : Move} {s t : State} (hm : ∀ p n x, m ≠ .pin p n x) (h : makeMove m s = .next t) :
    RaisedByReroute s t := by
  cases m with
  | foreground swap =>
    simp only [makeMove] at h
    split at h
    · exact contextStep_raised h
    · cases h; exact SameLines.raised ⟨rfl, rfl, rfl⟩
  | handler q swap =>
    simp only [makeMove] at h
    split at h
    · exact contextStep_raised h
    · cases h; exact SameLines.raised ⟨rfl, rfl, rfl⟩
  | enter q => cases h; split <;> exact SameLines.raised ⟨rfl, rfl, rfl⟩
  | leave => cases h; exact (leaveIrq_sameLines s).raised
  | txEmpty i => cases h; exact SameLines.raised ⟨rfl, rfl, rfl⟩
  | rxFrame i v => cases h; unfold envRxFrame; split <;> exact SameLines.raised ⟨rfl, rfl, rfl⟩
  | overrun i => cases h; exact SameLines.raised ⟨rfl, rfl, rfl⟩
  | i2cFlag u f x => cases h; unfold envI2cFlag; split <;> exact SameLines.raised ⟨rfl, rfl, rfl⟩
  | pin p n x => exact absurd rfl (hm p n x)

/-- Settles O13: a write of PR and a read of it by their equations, a raised bit by the agent that moves: a pin raises the bit of
the line that observes it, any other agent only by the reroute its one register write makes. -/
theorem pendingBitsSetByDetectorOnly : Obligations.PendingBitsSetByDetectorOnly := by
  refine ⟨afterWrite_pr_getLsbD, fun s => ⟨rfl, rfl⟩, rfl, fun m s t n h hs ht => ?_⟩
  by_cases hpin : ∃ p k x, m = .pin p k x
  · obtain ⟨p, k, x, rfl⟩ := hpin
    cases h
    rcases envPin_pr p k n x s ht with h1 | ⟨rfl, hsel⟩
    · exact absurd h1 (by simp [hs])
    · exact .inl ⟨p, x, rfl, hsel⟩
  · refine .inr ((makeMove_raised (fun p k x e => hpin ⟨p, k, x, e⟩) h n ht).resolve_left ?_)
    simp [hs]

end Sys2Proof.Machine

namespace Sys2Proof.Machine

/-! # The clock gate of a register access

`accessible` in the terms of 20 R87, and what the bus answers while it is false. `readReg_eq` and `writeReg_eq` say what it answers
while it is true. -/

/-- An access is gated off exactly when its register's peripheral has a clock enable, and it is off. -/
theorem accessible_eq_false_iff (s : State) (r : Reg) :
    accessible s r = false ↔ ∃ p, regPeripheral r = some p ∧ clkOn s p = false := by
  unfold accessible
  cases regPeripheral r <;> simp

/-- An access is let through exactly when its register's peripheral has no clock enable, or it is on. -/
theorem accessible_eq_true_iff (s : State) (r : Reg) :
    accessible s r = true ↔ regPeripheral r = none ∨ ∃ p, regPeripheral r = some p ∧ clkOn s p = true := by
  unfold accessible
  cases regPeripheral r <;> simp

theorem readReg_refused (r : Reg) (s : State) (k : Word → State → Out) (h : accessible s r = false) :
    readReg r s k = .refused .clockOff := by simp [readReg, h]

theorem writeReg_refused (r : Reg) (v : Word) (s : State) (k : State → Out) (h : accessible s r = false) :
    writeReg r v s k = .refused .clockOff := by simp [writeReg, h]

/-- Settles O11: by the two values of the clock gate. -/
theorem clockGatesRegisterAccess : Obligations.ClockGatesRegisterAccess := by
  refine fun r v s kr kw => ⟨fun p hp hoff => ?_, fun hon => ?_⟩
  · have hgate : accessible s r = false := (accessible_eq_false_iff s r).2 ⟨p, hp, hoff⟩
    exact ⟨readReg_refused r s kr hgate, writeReg_refused r v s kw hgate⟩
  · have hgate : accessible s r = true := (accessible_eq_true_iff s r).2 hon
    exact ⟨readReg_eq r s kr hgate, writeReg_eq r v s kw hgate⟩

end Sys2Proof.Machine

namespace Sys2Proof.Machine

/-! # SPI_INIT and the static configuration (40 R131, R132)

What each of the two micro-steps of SPI_INIT answers, and the bits of the default mapping. -/

theorem cfgLegal_eq_false_iff (cfg : BitVec 10) : cfgLegal cfg = false ↔ cfg.extractLsb' 6 2 = 3#2 := by simp [cfgLegal]

theorem cfgLegal_eq_true_iff (cfg : BitVec 10) : cfgLegal cfg = true ↔ cfg.extractLsb' 6 2 ≠ 3#2 := by simp [cfgLegal]

/-- A write of CR1 stores the value and disarms the overrun clear sequence (10 R34, R35). -/
theorem afterWrite_spi_cr1 (i : SpiId) (v : Word) (s : State) : afterWrite (.spi i .cr1) v s =
    { s with spi := s.spi.set i { s.spi.get i with cr1 := v.setWidth 16, ovrArm := false } } := rfl

theorem getLsbD_frameBit_regVal_cr1 (i : SpiId) (s : State) :
    (regVal (.spi i .cr1) s).getLsbD bitDff = (s.spi.get i).cr1.getLsbD bitDff := by simp [regVal, bitDff]

/-- The state after line 1 of SPI_INIT: the handle holds the configuration. -/
def withCfg (i : SpiId) (cfg : BitVec 10) (s : State) : State :=
  goto 1 { s with handles := s.handles.set i { s.handles.get i with cfg := cfg } }

@[simp] theorem phaseOf_withCfg (i : SpiId) (cfg : BitVec 10) (s : State) : phaseOf (withCfg i cfg s) = 1 := rfl

@[simp] theorem withCfg_params (i : SpiId) (cfg : BitVec 10) (s : State) : (withCfg i cfg s).params = s.params := rfl

section

variable {unit : BitVec 4} {i : SpiId} {cfg : BitVec 10} {s : State}

theorem exec_spiInit_illegal (hi : spiOf unit = some i) (hcfg : cfgLegal cfg = false) :
    exec (.spiInit unit cfg) s = .refused .illegalCommand := by
  change execSpiInit unit cfg s = _
  simp [execSpiInit, withSpi_eq _ hi, hcfg]

theorem exec_spiInit_first (hi : spiOf unit = some i) (hcfg : cfgLegal cfg = true) (h0 : phaseOf s = 0) :
    exec (.spiInit unit cfg) s = .next (withCfg i cfg s) := by
  change execSpiInit unit cfg s = _
  simp [execSpiInit, withSpi_eq _ hi, hcfg, h0, withCfg]

theorem exec_spiInit_second (hi : spiOf unit = some i) (hcfg : cfgLegal cfg = true) (h1 : phaseOf s ≠ 0) :
    exec (.spiInit unit cfg) s = writeReg (.spi i .cr1) (fromBus s.params (.spi i .cr1) (spiCfgEncode s.params cfg)) s
      fun s1 => .next (finish s1) := by
  obtain ⟨p, hp⟩ := Nat.exists_eq_succ_of_ne_zero h1
  change execSpiInit unit cfg s = _
  simp [execSpiInit, withSpi_eq _ hi, hcfg, hp]

end

/-- Where the parameters are well formed, the frame width read after CR1 was given a configuration's code is the configuration's. -/
theorem frameWidth_of_cr1_eq {i : SpiId} {cfg : BitVec 10} {P : Params} {t : State} (hwf : P.wf)
    (ht : (t.spi.get i).cr1 = (fromBus P (.spi i .cr1) (spiCfgEncode P cfg)).setWidth 16) :
    frameWidth (regVal (.spi i .cr1) t) = if cfg.getLsbD 8 then 2 else 1 := by
  have hbit : (regVal (.spi i .cr1) t).getLsbD bitDff = cfg.getLsbD 8 := by
    rw [getLsbD_frameBit_regVal_cr1, ht, BitVec.getLsbD_setWidth, hwf.frameBit]
    simp [bitDff]
  rw [frameWidth, hbit]

/-- Settles O16: the first micro-step writes the handle and goes to the second, whose register access answers by the clock gate;
the width is the bit that `Params.wf` says the encoding has. -/
theorem spiInitConfiguresInstance : Obligations.SpiInitConfiguresInstance := by
  refine fun unit cfg i s hi => ⟨fun h3 => exec_spiInit_illegal hi ((cfgLegal_eq_false_iff cfg).2 h3), fun h3 h0 => ?_⟩
  have hcfg : cfgLegal cfg = true := (cfgLegal_eq_true_iff cfg).2 h3
  have hsecond := exec_spiInit_second hi hcfg (s := withCfg i cfg s) (by simp)
  refine ⟨withCfg i cfg s, exec_spiInit_first hi hcfg h0, fun hoff => ?_, fun hon => ?_⟩
  · rw [hsecond]
    exact writeReg_refused _ _ _ _ ((accessible_eq_false_iff _ _).2 ⟨.spi i, rfl, hoff⟩)
  · have hgate : accessible (withCfg i cfg s) (.spi i .cr1) = true := (accessible_eq_true_iff _ _).2 (.inr ⟨.spi i, rfl, hon⟩)
    rw [hsecond, writeReg_eq _ _ _ _ hgate, afterWrite_spi_cr1]
    exact ⟨_, rfl, rfl, fun hwf => frameWidth_of_cr1_eq hwf (by simp)⟩

/-- A configuration the parameter gives no value of its own has the default mapping's (40 R132). -/
theorem spiCfgEncode_of_unlisted {P : Params} {cfg : BitVec 10} (h : ∀ e ∈ P.cfgCode, e.1 ≠ cfg) :
    spiCfgEncode P cfg = defaultCfgCode cfg := by
  have hnone : (P.cfgCode.find? fun e => e.1 == cfg) = none := List.find?_eq_none.2 fun e he => by simpa using h e he
  rw [spiCfgEncode, hnone]

/-- Bit j of the default mapping: at most one of its fields has a bit there. -/
theorem defaultCfgCode_getLsbD (cfg : BitVec 10) (j : Nat) (hj : j < 32) :
    (defaultCfgCode cfg).getLsbD j =
      if j < 6 ∨ j = 9 then cfg.getLsbD j
      else if j = 10 then cfg.extractLsb' 6 2 == 2#2
      else if j = bitDff then cfg.getLsbD 8
      else if j = 15 then cfg.extractLsb' 6 2 == 1#2
      else false := by
  simp only [defaultCfgCode, BitVec.getLsbD_or, bitAt_getLsbD _ _ _ hj, BitVec.getLsbD_shiftLeft, BitVec.getLsbD_setWidth,
    BitVec.getLsbD_extractLsb', bitDff]
  interval_cases j <;> simp

/-- A field of the default mapping is 0 where it holds none of the bits a configuration gives (40 R132). -/
theorem extractLsb'_defaultCfgCode_eq_zero (cfg : BitVec 10) (lo len : Nat) (hlen : lo + len ≤ 32)
    (h : ∀ j, lo ≤ j → j < lo + len → ¬ (j < 6 ∨ j = 9) ∧ j ≠ 10 ∧ j ≠ bitDff ∧ j ≠ 15) :
    (defaultCfgCode cfg).extractLsb' lo len = 0 := by
  refine BitVec.eq_of_getLsbD_eq fun k hk => ?_
  obtain ⟨hcfg, h10, hdff, h15⟩ := h (lo + k) (by omega) (by omega)
  rw [BitVec.getLsbD_extractLsb', defaultCfgCode_getLsbD cfg _ (by omega)]
  simp [hcfg, h10, hdff, h15]

/-- The baud-rate field of the default mapping is the configuration's, at the same positions (40 R132). -/
theorem extractLsb'_br_defaultCfgCode (cfg : BitVec 10) : (defaultCfgCode cfg).extractLsb' 3 3 = cfg.extractLsb' 3 3 := by
  refine BitVec.eq_of_getLsbD_eq fun k hk => ?_
  have hcfg : 3 + k < 6 ∨ 3 + k = 9 := by omega
  rw [BitVec.getLsbD_extractLsb', BitVec.getLsbD_extractLsb', defaultCfgCode_getLsbD cfg _ (by omega), if_pos hcfg]

/-- Settles O17: the default mapping, bit by bit. -/
theorem spiConfigurationBits : Obligations.SpiConfigurationBits := by
  intro P cfg h
  rw [spiCfgEncode_of_unlisted h]
  have hbit := defaultCfgCode_getLsbD cfg
  have hzero := extractLsb'_defaultCfgCode_eq_zero cfg
  exact ⟨hbit 0 (by decide), hbit 1 (by decide), hbit 2 (by decide), extractLsb'_br_defaultCfgCode cfg,
    hzero 6 3 (by decide) (by simp only [bitDff]; omega), hbit 9 (by decide), hbit 10 (by decide), hbit 11 (by decide),
    hzero 12 3 (by decide) (by simp only [bitDff]; omega), hbit 15 (by decide),
    hzero 16 16 (by decide) (by simp only [bitDff]; omega)⟩

end Sys2Proof.Machine

namespace Sys2Proof.Machine

/-! # OVR_SERVICE (42 R163)

What each phase of the overrun service answers, and the two dummy reads together as the explicit clear sequence of 10 R35. -/

@[simp] theorem accessible_spi (i : SpiId) (r : SpiReg) (s : State) : accessible s (.spi i r) = clkOn s (.spi i) := rfl

/-- Emitting an event says itself where the sequencer goes on. -/
@[simp] theorem emitCallback_goto (i : SpiId) (ev : Event) (p q : Nat) (s : State) :
    emitCallback i ev p (goto q s) = emitCallback i ev p s := rfl

theorem afterRead_spi_dr (i : SpiId) (s : State) :
    afterRead (.spi i .dr) s = { s with spi := s.spi.set i { s.spi.get i with rxne := false, ovrArm := true } } := rfl

theorem readSr_goto (i : SpiId) (explicit : Bool) (p : Nat) (s : State) :
    readSr i explicit (goto p s) = goto p (readSr i explicit s) := rfl

/-- The second read of the explicit clear sequence clears an armed overrun, whatever the draw says (10 R35). -/
theorem readSr_explicit_of_armed {i : SpiId} {s : State} (h : (s.spi.get i).ovrArm = true) : readSr i true s =
    { s with spi := s.spi.set i { s.spi.get i with ovr := false, ovrArm := false }, draws := s.draws + 1 } := by
  simp [readSr, updSpi, afterSrRead, h]

/-- The state after the dummy reads of DR and SR: RXNE, OVR and OVRARM are 0, and a draw is spent (10 R35). -/
def overrunCleared (i : SpiId) (s : State) : State :=
  { s with
    spi := s.spi.set i { s.spi.get i with rxne := false, ovr := false, ovrArm := false }
    draws := s.draws + 1 }

theorem readSr_explicit_afterRead_dr (i : SpiId) (s : State) :
    readSr i true (afterRead (.spi i .dr) s) = overrunCleared i s := by
  rw [readSr_explicit_of_armed (by simp [afterRead_spi_dr])]
  simp [afterRead_spi_dr, overrunCleared]

section

variable {unit : BitVec 4} {i : SpiId} {s : State}

/-- Past line 7 of the dispatch the phase tells which service the micro-step belongs to (42 R160). -/
theorem dispatchStep_of_servicePhase (h : txeBase ≤ phaseOf s) : dispatchStep i s =
    if phaseOf s < rxneBase then txeService i txeBase 3 (phaseOf s - txeBase) s
    else if phaseOf s < ovrBase then rxneService i rxneBase 6 (phaseOf s - rxneBase) s
    else ovrService i ovrBase 9 (phaseOf s - ovrBase) s := by
  unfold txeBase at h
  unfold dispatchStep
  split
  case h_11 => rfl
  all_goals omega

theorem exec_spiIrq_of_ovrPhase {k : Nat} (hi : spiOf unit = some i) (hk : phaseOf s = ovrBase + k) :
    exec (.spiIrq unit) s = ovrService i ovrBase 9 k s := by
  have hbases : txeBase ≤ rxneBase ∧ rxneBase ≤ ovrBase := by decide
  change execSpiIrq unit s = _
  rw [execSpiIrq, withSpi_eq _ hi, dispatchStep_of_servicePhase (by omega), if_neg (by omega), if_neg (by omega), hk,
    Nat.add_sub_cancel_left]

/-- Line a tests whether a transmit is Busy. -/
theorem exec_spiIrq_ovr_test (hi : spiOf unit = some i) (hk : phaseOf s = ovrBase) :
    exec (.spiIrq unit) s = .next (goto (if (xfer s i .tx).st = .busy then ovrBase + 3 else ovrBase + 1) s) :=
  exec_spiIrq_of_ovrPhase (k := 0) hi hk

/-- Line a1 is the dummy read of DR. -/
theorem exec_spiIrq_ovr_readDr (hi : spiOf unit = some i) (hk : phaseOf s = ovrBase + 1) (hon : clkOn s (.spi i) = true) :
    exec (.spiIrq unit) s = .next (goto (ovrBase + 2) (afterRead (.spi i .dr) s)) := by
  rw [exec_spiIrq_of_ovrPhase hi hk, ovrService, readReg_eq _ _ _ ((accessible_spi i .dr s).trans hon)]

/-- Line a2 is the dummy read of SR. -/
theorem exec_spiIrq_ovr_readSr (hi : spiOf unit = some i) (hk : phaseOf s = ovrBase + 2) (hon : clkOn s (.spi i) = true) :
    exec (.spiIrq unit) s = .next (goto (ovrBase + 3) (readSr i true s)) := by
  rw [exec_spiIrq_of_ovrPhase hi hk, ovrService, accessible_spi, if_pos hon]

/-- Line b emits the event. -/
theorem exec_spiIrq_ovr_emit (hi : spiOf unit = some i) (hk : phaseOf s = ovrBase + 3) :
    exec (.spiIrq unit) s = .next (emitCallback i .ovrErr 9 s) :=
  exec_spiIrq_of_ovrPhase hi hk

/-- The three micro-steps of lines a1, a2 and b clear the overrun and emit the event. -/
theorem runOp_spiIrq_ovr_clear (hi : spiOf unit = some i) (hk : phaseOf s = ovrBase + 1) (hon : clkOn s (.spi i) = true) :
    runOp (.spiIrq unit) 3 s = .next (emitCallback i .ovrErr 9 (overrunCleared i s)) := by
  have hsr := exec_spiIrq_ovr_readSr (s := goto (ovrBase + 2) (afterRead (.spi i .dr) s)) hi (phaseOf_goto _ _) hon
  rw [runOp_succ _ (exec_spiIrq_ovr_readDr hi hk hon), runOp_succ _ hsr, readSr_goto, readSr_explicit_afterRead_dr,
    runOp_succ _ (exec_spiIrq_ovr_emit hi (phaseOf_goto _ _)), runOp_zero, emitCallback_goto, emitCallback_goto]

end

/-- Settles O33: line a branches on the transmit state; Busy goes straight to the event, Idle through the clear sequence. -/
theorem overrunClearedUnlessTransmitting : Obligations.OverrunClearedUnlessTransmitting := by
  refine fun unit i s hi hk hon => ⟨fun hbusy => ?_, fun hidle => ?_⟩
  · have htest : exec (.spiIrq unit) s = .next (goto (ovrBase + 3) s) := by
      rw [exec_spiIrq_ovr_test hi hk, if_pos hbusy]
    refine ⟨_, htest, ?_⟩
    rw [exec_spiIrq_ovr_emit hi (phaseOf_goto _ _), emitCallback_goto]
  · have htest : exec (.spiIrq unit) s = .next (goto (ovrBase + 1) s) := by
      rw [exec_spiIrq_ovr_test hi hk, if_neg (by simp [hidle])]
    exact ⟨_, htest, runOp_spiIrq_ovr_clear hi (phaseOf_goto _ _) hon⟩

end Sys2Proof.Machine

namespace Sys2Proof.Machine

/-! # A FieldSet from its first micro-step to its last (20 R77)

Ending a command touches the running context alone, so a register access may be moved before it or after it. With that the two
values of RMW_ATOMIC leave the same state. -/

@[simp] theorem finish_goto (p : Nat) (s : State) : finish (goto p s) = finish s := rfl

@[simp] theorem finish_updLocals (f : Locals → Locals) (s : State) : finish (updLocals f s) = finish s := rfl

theorem regVal_finish (r : Reg) (s : State) : regVal r (finish s) = regVal r s := by
  unfold regVal
  split <;> rfl

theorem detectReroute_finish (old s : State) (n : BitVec 4) :
    detectReroute (finish old) (finish s) n = finish (detectReroute old s n) := by
  have hsel (u : State) : selectedPort (finish u) n = selectedPort u n := rfl
  simp only [detectReroute, hsel]
  split
  · rfl
  · split <;> rfl

theorem foldl_detectReroute_finish (old : State) (ms : List (BitVec 4)) (s : State) :
    ms.foldl (detectReroute (finish old)) (finish s) = finish (ms.foldl (detectReroute old) s) := by
  induction ms generalizing s with
  | nil => rfl
  | cons n ms ih => rw [List.foldl_cons, detectReroute_finish, ih, List.foldl_cons]

/-- A register write neither sees nor changes how far a command has come. -/
theorem afterWrite_finish (r : Reg) (v : Word) (s : State) : afterWrite r v (finish s) = finish (afterWrite r v s) := by
  unfold afterWrite
  split
  case h_13 k => exact foldl_detectReroute_finish s (slotPins k) { s with afio := setRouteSlot s.afio k (v.setWidth 16) }
  all_goals rfl

@[simp] theorem runOp_succ_eq_next {i : Instr} {k : Nat} {s t : State} :
    runOp i (k + 1) s = .next t ↔ ∃ s1, exec i s = .next s1 ∧ runOp i k s1 = .next t := by
  rw [runOp]
  cases exec i s <;> simp

/-- The state between the two micro-steps of a FieldSet: the register has been read, its value kept, and the sequencer is at the
phase of the write. -/
def held (r : Reg) (p : Nat) (s : State) : State :=
  goto p (updLocals (fun l => { l with v := regVal r s }) (afterRead r s))

@[simp] theorem phaseOf_held (r : Reg) (p : Nat) (s : State) : phaseOf (held r p s) = p := rfl

@[simp] theorem held_params (r : Reg) (p : Nat) (s : State) : (held r p s).params = s.params := afterRead_params r s

@[simp] theorem locals_held (r : Reg) (p : Nat) (s : State) : locals (held r p s) = { locals s with v := regVal r s } := by
  simp [held]

@[simp] theorem accessible_held (r q : Reg) (p : Nat) (s : State) : accessible (held r p s) q = accessible s q := by
  have hrcc : (held r p s).rcc = s.rcc := afterRead_rcc r s
  simp only [accessible, clkOn, rccWord, hrcc, held_params]

/-- The state in which a FieldSet writes the register: with RMW_ATOMIC the one its read leaves, otherwise the one between the two
micro-steps. -/
def fieldRead (r : Reg) (p : Nat) (s : State) : State := if s.params.rmwAtomic then afterRead r s else held r p s

theorem finish_fieldRead (r : Reg) (p : Nat) (s : State) : finish (fieldRead r p s) = finish (afterRead r s) := by
  unfold fieldRead
  split <;> rfl

@[simp] theorem fieldRead_params (r : Reg) (p : Nat) (s : State) : (fieldRead r p s).params = s.params := by
  unfold fieldRead
  split <;> simp

@[simp] theorem locals_t1_fieldRead (r : Reg) (p : Nat) (s : State) : (locals (fieldRead r p s)).t1 = (locals s).t1 := by
  unfold fieldRead
  split <;> simp

section

variable {i : Instr} {r : Reg} {f : Word → Word} {p : Nat} {k : State → State} {s s0 : State}

/-- A FieldSet is one micro-step or two, and leaves the register with the field of the value read replaced. -/
theorem runOp_fieldSet (hon : accessible s0 r = true) (hread : exec i s = rmwRead r f p k s0)
    (hwrite : exec i (held r p s0) = rmwWrite r f k (held r p s0)) :
    runOp i (1 + extraStep s0) s = .next (k (afterWrite r (f (regVal r s0)) (fieldRead r p s0))) := by
  rw [rmwRead_eq _ _ _ _ _ hon] at hread
  cases hatomic : s0.params.rmwAtomic with
  | true => simp [extraStep, fieldRead, hatomic, hread]
  | false =>
    have hfirst : exec i s = .next (held r p s0) := by simpa [hatomic, held] using hread
    have hsecond : exec i (held r p s0) = .next (k (afterWrite r (f (regVal r s0)) (held r p s0))) := by
      rw [hwrite, rmwWrite_eq _ _ _ _ (by simpa using hon), locals_held]
    simp [extraStep, fieldRead, hatomic, hfirst, hsecond]

/-- A FieldSet that ends its command leaves the same state under both values of RMW_ATOMIC. -/
theorem runOp_fieldSet_finish (hon : accessible s r = true) (hread : exec i s = rmwRead r f p finish s)
    (hwrite : exec i (held r p s) = rmwWrite r f finish (held r p s)) :
    runOp i (1 + extraStep s) s = .next (finish (afterWrite r (f (regVal r s)) (afterRead r s))) := by
  rw [runOp_fieldSet hon hread hwrite, ← afterWrite_finish, finish_fieldRead, afterWrite_finish]

end

end Sys2Proof.Machine

namespace Sys2Proof.Machine

/-! # Trigger, mask and pending bits (43 R181, R183, R184)

What each micro-step of EXTI_EDGE, EXTI_ARM and EXTI_ACK answers; the EXTI registers have no clock enable and no read effect. -/

@[simp] theorem accessible_exti (r : ExtiReg) (s : State) : accessible s (.exti r) = true := rfl

@[simp] theorem afterRead_exti_reg (r : ExtiReg) (s : State) : afterRead (.exti r) s = s := rfl

section

variable {n : BitVec 4} {s : State}

theorem exec_extiArm_read (h0 : phaseOf s = 0) :
    exec (.extiArm n) s = rmwRead (.exti .imr) (fun w => setBit w n.toNat true) 1 finish s := by
  change execExtiArm n s = _
  simp [execExtiArm, h0]

theorem exec_extiArm_write (h1 : phaseOf s = 1) :
    exec (.extiArm n) s = rmwWrite (.exti .imr) (fun w => setBit w n.toNat true) finish s := by
  change execExtiArm n s = _
  simp [execExtiArm, h1]

theorem exec_extiAck_read (h0 : phaseOf s = 0) : exec (.extiAck n) s = .next (held (.exti .pr) 1 s) := by
  change execExtiAck n s = _
  simp [execExtiAck, h0, readReg_eq _ _ _ (accessible_exti .pr s), held]

theorem exec_extiAck_write (h1 : phaseOf s = 1) (hv : (locals s).v.getLsbD n.toNat = true) :
    exec (.extiAck n) s = .next (finish (afterWrite (.exti .pr) (bitAt n.toNat true) s)) := by
  change execExtiAck n s = _
  simp [execExtiAck, h1, hv, writeReg_eq _ _ _ _ (accessible_exti .pr s)]

theorem exec_extiAck_skip (h1 : phaseOf s = 1) (hv : (locals s).v.getLsbD n.toNat = false) :
    exec (.extiAck n) s = .next (finish s) := by
  change execExtiAck n s = _
  simp [execExtiAck, h1, hv]

/-- A write of PR with the one bit n clears that bit (10 R47). -/
theorem afterWrite_pr_bitAt (n : BitVec 4) (s : State) : afterWrite (.exti .pr) (bitAt n.toNat true) s =
    { s with exti := { s.exti with pr := setBit s.exti.pr n.toNat false } } := by
  have hone : (bitAt n.toNat true).setWidth 16 = 1#16 <<< n.toNat :=
    BitVec.setWidth_shiftLeft_of_le (by decide)
  rw [afterWrite, hone]
  rfl

end

/-- Settles O40: EXTI_ARM is one FieldSet of IMR. -/
theorem armSetsTheMaskBit : Obligations.ArmSetsTheMaskBit := by
  intro n s h0
  rw [← runOp_succ_eq_next, Nat.add_comm,
    runOp_fieldSet_finish (accessible_exti .imr s) (exec_extiArm_read h0) (exec_extiArm_write (phaseOf_held _ _ _))]
  rfl

/-- Settles O41: by whether the bit was read as 1; if not, it is 0 already and PR is not written. -/
theorem acknowledgeClearsOneBit : Obligations.AcknowledgeClearsOneBit := by
  refine fun n s h0 => ⟨held (.exti .pr) 1 s, exec_extiAck_read h0, ?_⟩
  have hread : (locals (held (.exti .pr) 1 s)).v.getLsbD n.toNat = s.exti.pr.getLsbD n.toNat := by
    have hn : n.toNat < 32 := by omega
    simp [regVal, hn]
  cases hbit : s.exti.pr.getLsbD n.toNat with
  | true =>
    rw [exec_extiAck_write (phaseOf_held _ _ _) (hread.trans hbit), afterWrite_pr_bitAt]
    rfl
  | false =>
    rw [exec_extiAck_skip (phaseOf_held _ _ _) (hread.trans hbit), ← hbit, setBit_self]
    rfl

theorem edgeLegal_eq_true_iff (edge : BitVec 2) : edgeLegal edge = true ↔ edge ≠ 0 := by simp [edgeLegal]

section

variable {n : BitVec 4} {edge : BitVec 2} {s : State}

theorem exec_extiEdge_illegal : exec (.extiEdge n 0) s = .refused .illegalCommand := rfl

/-- The first half is chosen by `swap`, and t1 keeps the choice. -/
theorem exec_extiEdge_readFirst (hedge : edge ≠ 0) (h0 : phaseOf s = 0) : exec (.extiEdge n edge) s =
    rmwRead (.exti (triggerReg s.swap)) (triggerValue n edge s.swap) 1 (goto 2) (updLocals (fun l => { l with t1 := s.swap }) s) := by
  change execExtiEdge n edge s = _
  simp [execExtiEdge, (edgeLegal_eq_true_iff edge).2 hedge, h0]

theorem exec_extiEdge_writeFirst {b : Bool} (hedge : edge ≠ 0) (h1 : phaseOf s = 1) (hb : (locals s).t1 = b) :
    exec (.extiEdge n edge) s = rmwWrite (.exti (triggerReg b)) (triggerValue n edge b) (goto 2) s := by
  change execExtiEdge n edge s = _
  simp [execExtiEdge, (edgeLegal_eq_true_iff edge).2 hedge, h1, hb]

theorem exec_extiEdge_readSecond {b : Bool} (hedge : edge ≠ 0) (h2 : phaseOf s = 2) (hb : (locals s).t1 = b) :
    exec (.extiEdge n edge) s = rmwRead (.exti (triggerReg !b)) (triggerValue n edge !b) 3 finish s := by
  change execExtiEdge n edge s = _
  simp [execExtiEdge, (edgeLegal_eq_true_iff edge).2 hedge, h2, hb]

theorem exec_extiEdge_writeSecond {b : Bool} (hedge : edge ≠ 0) (h3 : phaseOf s = 3) (hb : (locals s).t1 = b) :
    exec (.extiEdge n edge) s = rmwWrite (.exti (triggerReg !b)) (triggerValue n edge !b) finish s := by
  change execExtiEdge n edge s = _
  simp [execExtiEdge, (edgeLegal_eq_true_iff edge).2 hedge, h3, hb]

/-- One half of EXTI_EDGE, whole: the trigger bit of line n in RTSR or, if `falling`, FTSR. -/
def setTrigger (n : BitVec 4) (edge : BitVec 2) (falling : Bool) (s : State) : State :=
  afterWrite (.exti (triggerReg falling)) (triggerValue n edge falling (regVal (.exti (triggerReg falling)) s)) s

theorem setTrigger_finish (falling : Bool) : setTrigger n edge falling (finish s) = finish (setTrigger n edge falling s) := by
  rw [setTrigger, regVal_finish, afterWrite_finish, setTrigger]

/-- The halves write different registers, so whichever comes first the two leave both trigger bits as the operand says. -/
theorem setTrigger_setTrigger_not (falling : Bool) : setTrigger n edge (!falling) (setTrigger n edge falling s) =
    { s with exti := { s.exti with
        rtsr := setBit s.exti.rtsr n.toNat (edge.getLsbD 0)
        ftsr := setBit s.exti.ftsr n.toNat (edge.getLsbD 1) } } := by
  cases falling <;> rfl

/-- The state between the two halves of EXTI_EDGE. -/
def edgeHalfDone (n : BitVec 4) (edge : BitVec 2) (s : State) : State :=
  goto 2 (afterWrite (.exti (triggerReg s.swap)) (triggerValue n edge s.swap (regVal (.exti (triggerReg s.swap)) s))
    (fieldRead (.exti (triggerReg s.swap)) 1 (updLocals (fun l => { l with t1 := s.swap }) s)))

theorem finish_edgeHalfDone : finish (edgeHalfDone n edge s) = finish (setTrigger n edge s.swap s) := by
  rw [edgeHalfDone, finish_goto, ← afterWrite_finish, finish_fieldRead, afterRead_exti_reg, finish_updLocals, afterWrite_finish,
    setTrigger]

theorem runOp_extiEdge_first (hedge : edge ≠ 0) (h0 : phaseOf s = 0) :
    runOp (.extiEdge n edge) (1 + extraStep s) s = .next (edgeHalfDone n edge s) :=
  runOp_fieldSet rfl (exec_extiEdge_readFirst hedge h0) (exec_extiEdge_writeFirst hedge (phaseOf_held _ _ _) (by simp))

theorem runOp_extiEdge_second (hedge : edge ≠ 0) : runOp (.extiEdge n edge) (1 + extraStep s) (edgeHalfDone n edge s) =
    .next (finish (setTrigger n edge (!s.swap) (edgeHalfDone n edge s))) := by
  have hextra : extraStep (edgeHalfDone n edge s) = extraStep s := by simp [edgeHalfDone, extraStep]
  have ht1 : (locals (edgeHalfDone n edge s)).t1 = s.swap := by simp [edgeHalfDone]
  rw [← hextra]
  exact runOp_fieldSet_finish rfl (exec_extiEdge_readSecond hedge rfl ht1)
    (exec_extiEdge_writeSecond hedge (phaseOf_held _ _ _) (by simpa using ht1))

end

/-- Settles O38: one FieldSet after the other, each of its own register, so that their order does not show. -/
theorem edgeSelectionIsExact : Obligations.EdgeSelectionIsExact := by
  refine fun n edge s => ⟨fun h => h ▸ exec_extiEdge_illegal, fun hedge h0 => ?_⟩
  have htwice : 1 + 2 * extraStep s + 1 = (1 + extraStep s) + (1 + extraStep s) := by omega
  rw [← runOp_succ_eq_next, htwice, runOp_add _ _ (runOp_extiEdge_first hedge h0), runOp_extiEdge_second hedge,
    ← setTrigger_finish, finish_edgeHalfDone, setTrigger_finish, setTrigger_setTrigger_not]

end Sys2Proof.Machine

namespace Sys2Proof.Machine

/-! # The enable and the priority of one IRQ (43 R185, R186, 20 R82)

A word written to ISER or ICER with one bit names one IRQ. An IPR register is four byte lanes: what a write leaves in each, and
what a read of all four and a write with one replaced does to the priorities. -/

/-! ## Fields of a value with a field replaced -/

theorem extractLsb'_setField_self {n len : Nat} (v : BitVec n) (lo : Nat) (x : BitVec len) (h : lo + len ≤ n) :
    (setField v lo x).extractLsb' lo len = x := by
  refine BitVec.eq_of_getLsbD_eq fun i hi => ?_
  rw [BitVec.getLsbD_extractLsb', setField_getLsbD _ _ _ _ (by omega), if_pos (by omega)]
  simp [hi]

theorem extractLsb'_setField_disjoint {n len : Nat} (v : BitVec n) (lo : Nat) (x : BitVec len) {lo' len' : Nat}
    (h : lo' + len' ≤ lo ∨ lo + len ≤ lo') (hn : lo' + len' ≤ n) :
    (setField v lo x).extractLsb' lo' len' = v.extractLsb' lo' len' := by
  refine BitVec.eq_of_getLsbD_eq fun i hi => ?_
  rw [BitVec.getLsbD_extractLsb', setField_getLsbD _ _ _ _ (by omega), if_neg (by omega), BitVec.getLsbD_extractLsb']

/-! ## Enables -/

/-- The bit of IRQ x in its ISER or ICER register names x alone. -/
theorem enableMask_bitAt {P : Params} {x : Irq} (hx : x.val < P.nIrq) :
    enableMask P (iserOf x) (bitAt (x.val % 32) true) = irqBit x true := by
  refine BitVec.eq_of_getLsbD_eq fun j hj => ?_
  have hname := enableMask_getLsbD P (iserOf x) (bitAt (x.val % 32) true) ⟨j, hj⟩
  rw [hname, irqBit_getLsbD, bitAt_getLsbD _ _ _ (by omega), Bool.true_and, Bool.true_and, ← Bool.decide_and,
    decide_eq_decide]
  simp only [iserOf]
  omega

/-! ## Priority lanes -/

/-- The lane of IRQ q in its IPR register, q mod 4 (20 R82). -/
def laneIndex (q : Irq) : Fin 4 := ⟨q.val % 4, by omega⟩

theorem iprIrq_laneIndex {q : Irq} {k : Fin 64} (h : iprOf q = k) : iprIrq k (laneIndex q) = q := by
  subst h
  simp only [Fin.ext_iff, iprIrq, iprOf, laneIndex]
  omega

theorem iprOf_iprIrq (k : Fin 64) (j : Fin 4) : iprOf (iprIrq k j) = k := by
  simp only [Fin.ext_iff, iprIrq, iprOf]
  omega

theorem iprIrq_inj {k : Fin 64} {i j : Fin 4} : iprIrq k i = iprIrq k j ↔ i = j := by
  simp only [Fin.ext_iff, iprIrq]
  omega

theorem eq_of_iprOf_eq {q r : Irq} (hreg : iprOf q = iprOf r) (hlane : q.val % 4 = r.val % 4) : q = r := by
  simp only [Fin.ext_iff, iprOf] at hreg ⊢
  omega

@[simp] theorem setLane_en (P : Params) (q : Irq) (x : BitVec 8) (r : NvicRegs) : (setLane P q x r).en = r.en := by
  unfold setLane
  split <;> rfl

@[simp] theorem setLane_pend (P : Params) (q : Irq) (x : BitVec 8) (r : NvicRegs) : (setLane P q x r).pend = r.pend := by
  unfold setLane
  split <;> rfl

/-- A write of an IPR register changes priority lanes only. -/
theorem writeIpr_frame (P : Params) (r : NvicRegs) (k : Fin 64) (v : Word) :
    writeIpr P r k v = { r with lane := (writeIpr P r k v).lane } := by
  have hen : (writeIpr P r k v).en = r.en := by simp [writeIpr]
  have hpend : (writeIpr P r k v).pend = r.pend := by simp [writeIpr]
  rw [← hen, ← hpend]

/-- A lane of an IRQ takes the implemented bits of its byte of the word written to its IPR register. -/
theorem writeIpr_get_iprIrq (P : Params) (r : NvicRegs) (k : Fin 64) (v : Word) (j : Fin 4) :
    (writeIpr P r k v).lane.get (iprIrq k j) =
      if hasIrq P (iprIrq k j) then v.extractLsb' (8 * j.val) 8 &&& laneMask P else r.lane.get (iprIrq k j) := by
  simp only [writeIpr, setLane_get, iprIrq_inj]
  fin_cases j <;> simp

theorem writeIpr_get_of_ne (P : Params) (r : NvicRegs) {k : Fin 64} (v : Word) {q : Irq} (h : iprOf q ≠ k) :
    (writeIpr P r k v).lane.get q = r.lane.get q := by
  have hq (j : Fin 4) : q ≠ iprIrq k j := fun e => h (e ▸ iprOf_iprIrq k j)
  simp [writeIpr, setLane_get, hq]

/-- Of the four bytes an IPR register is put together from, byte j alone has bits at the positions of lane j. -/
theorem extractLsb'_iprWord (P : Params) (r : NvicRegs) (k : Fin 64) (j : Fin 4) :
    (iprWord P r k).extractLsb' (8 * j.val) 8 = laneVal P r (iprIrq k j) := by
  refine BitVec.eq_of_getLsbD_eq fun i hi => ?_
  fin_cases j <;> simp [iprWord, hi] <;> grind

/-- What an access of a lane cannot see is no part of the priority. -/
theorem laneVal_ushiftRight {P : Params} {q : Irq} (r : NvicRegs) (h : hasIrq P q = true) :
    laneVal P r q >>> (8 - P.prioBits) = r.lane.get q >>> (8 - P.prioBits) := by
  rw [laneVal, if_pos h, laneMask_ushiftRight]

/-- The state after the FieldSet of IRQ_PRIO, its command not yet ended. -/
def setPrio (x : Irq) (prio : BitVec 8) (s : State) : State :=
  afterWrite (.nvic (.ipr (iprOf x)))
    (setField (regVal (.nvic (.ipr (iprOf x))) s) (8 * (x.val % 4)) (laneOf s.params prio)) s

@[simp] theorem prioOf_finish (s : State) (q : Irq) : prioOf (finish s) q = prioOf s q := rfl

/-- Only priority lanes change. -/
theorem setPrio_frame (x : Irq) (prio : BitVec 8) (s : State) :
    setPrio x prio s = { s with nvic := { s.nvic with lane := (setPrio x prio s).nvic.lane } } := by
  rw [setPrio, afterWrite, writeIpr_frame]

/-- The priority of an IRQ of the register written is what the word written has in its lane. -/
theorem prioOf_afterWrite_ipr {k : Fin 64} (v : Word) {s : State} {q : Irq} (hk : iprOf q = k) (hq : hasIrq s.params q = true) :
    prioOf (afterWrite (.nvic (.ipr k)) v s) q = v.extractLsb' (8 * (q.val % 4)) 8 >>> (8 - s.params.prioBits) := by
  have hlane := writeIpr_get_iprIrq s.params s.nvic k v (laneIndex q)
  rw [iprIrq_laneIndex hk, if_pos hq] at hlane
  change (writeIpr s.params s.nvic k v).lane.get q >>> (8 - s.params.prioBits) = _
  rw [hlane, laneMask_ushiftRight, laneIndex]

theorem prioOf_setPrio_self {x : Irq} {prio : BitVec 8} {s : State} (hx : hasIrq s.params x = true)
    (hprio : prio.toNat < 2 ^ s.params.prioBits) : prioOf (setPrio x prio s) x = prio := by
  rw [setPrio, prioOf_afterWrite_ipr _ rfl hx, extractLsb'_setField_self _ _ _ (by omega), laneOf_ushiftRight _ _ hprio]

/-- The other lanes of the register are written back as they were read, and the lane of no IRQ is not written. -/
theorem prioOf_setPrio_of_ne {x y : Irq} (prio : BitVec 8) (s : State) (hne : y ≠ x) :
    prioOf (setPrio x prio s) y = prioOf s y := by
  by_cases hreg : iprOf y = iprOf x
  · by_cases hy : hasIrq s.params y = true
    · have hlanes : y.val % 4 ≠ x.val % 4 := fun e => hne (eq_of_iprOf_eq hreg e)
      have hread := extractLsb'_iprWord s.params s.nvic (iprOf x) (laneIndex y)
      rw [iprIrq_laneIndex hreg] at hread
      rw [setPrio, prioOf_afterWrite_ipr _ hreg hy, extractLsb'_setField_disjoint _ _ _ (by omega) (by omega)]
      exact (congrArg (· >>> _) hread).trans (laneVal_ushiftRight _ hy)
    · have hlane := writeIpr_get_iprIrq s.params s.nvic (iprOf x)
        (setField (regVal (.nvic (.ipr (iprOf x))) s) (8 * (x.val % 4)) (laneOf s.params prio)) (laneIndex y)
      rw [iprIrq_laneIndex hreg, if_neg hy] at hlane
      exact congrArg (· >>> _) hlane
  · exact congrArg (· >>> _) (writeIpr_get_of_ne s.params s.nvic _ hreg)

/-! ## The micro-steps of IRQ_ENABLE and IRQ_PRIO -/

@[simp] theorem accessible_nvic (r : NvicReg) (s : State) : accessible s (.nvic r) = true := rfl

theorem withIrq_refused {s : State} {q : BitVec 8} (k : Irq → Out) (h : s.params.nIrq ≤ q.toNat) :
    withIrq s q k = .refused .illegalCommand := by
  rw [withIrq, irqOf_eq_none.2 h]

theorem priorityOf_eq_none {P : Params} {p : BitVec 8} : priorityOf P p = none ↔ 2 ^ P.prioBits ≤ p.toNat := by
  simp [priorityOf]

theorem withPriority_refused {s : State} {prio : BitVec 8} (k : BitVec 8 → Out) (h : 2 ^ s.params.prioBits ≤ prio.toNat) :
    withPriority s prio k = .refused .illegalCommand := by
  rw [withPriority, priorityOf_eq_none.2 h]

section

variable {q prio : BitVec 8} {x : Irq} {s : State}

theorem exec_irqEnable_illegalIrq (en : Bool) (h : s.params.nIrq ≤ q.toNat) :
    exec (.irqEnable q en) s = .refused .illegalCommand := by
  change execIrqEnable q en s = _
  rw [execIrqEnable, withIrq_refused _ h]

theorem exec_irqPrio_illegalIrq (h : s.params.nIrq ≤ q.toNat) : exec (.irqPrio q prio) s = .refused .illegalCommand := by
  change execIrqPrio q prio s = _
  rw [execIrqPrio, withIrq_refused _ h]

theorem exec_irqPrio_illegalPriority (h : 2 ^ s.params.prioBits ≤ prio.toNat) :
    exec (.irqPrio q prio) s = .refused .illegalCommand := by
  change execIrqPrio q prio s = _
  simp only [execIrqPrio, withIrq, withPriority_refused _ h]
  split <;> rfl

theorem exec_irqEnable (en : Bool) (hq : irqOf s.params q = some x) (hx : x.val < s.params.nIrq) :
    exec (.irqEnable q en) s = .next (finish { s with nvic := { s.nvic with en := setBit s.nvic.en x.val en } }) := by
  change execIrqEnable q en s = _
  rw [execIrqEnable, withIrq_eq _ hq, writeReg_eq _ _ _ _ (accessible_nvic _ s)]
  cases en <;> simp [afterWrite, enableMask_bitAt hx, setBit, irqBit]

theorem exec_irqPrio_read (hq : irqOf s.params q = some x) (hprio : priorityOf s.params prio = some prio) (h0 : phaseOf s = 0) :
    exec (.irqPrio q prio) s = rmwRead (.nvic (.ipr (iprOf x)))
      (fun w => setField w (8 * (x.val % 4)) (laneOf s.params prio)) 1 finish s := by
  change execIrqPrio q prio s = _
  simp [execIrqPrio, withIrq_eq _ hq, withPriority_eq _ hprio, h0]

theorem exec_irqPrio_write (hq : irqOf s.params q = some x) (hprio : priorityOf s.params prio = some prio) (h1 : phaseOf s = 1) :
    exec (.irqPrio q prio) s = rmwWrite (.nvic (.ipr (iprOf x)))
      (fun w => setField w (8 * (x.val % 4)) (laneOf s.params prio)) finish s := by
  change execIrqPrio q prio s = _
  simp [execIrqPrio, withIrq_eq _ hq, withPriority_eq _ hprio, h1]

theorem runOp_irqPrio (hq : irqOf s.params q = some x) (hprio : priorityOf s.params prio = some prio) (h0 : phaseOf s = 0) :
    runOp (.irqPrio q prio) (1 + extraStep s) s = .next (finish (setPrio x prio s)) :=
  runOp_fieldSet_finish rfl (exec_irqPrio_read hq hprio h0) (exec_irqPrio_write hq hprio rfl)

end

/-- Settles O44: the operands decide the refusals; IRQ_ENABLE is one write of one enable, IRQ_PRIO one FieldSet of one lane. -/
theorem enableAndPriorityOfOneIrq : Obligations.EnableAndPriorityOfOneIrq := by
  refine fun q prio en s => ⟨fun h => ⟨exec_irqEnable_illegalIrq en h, exec_irqPrio_illegalIrq h⟩, exec_irqPrio_illegalPriority,
    fun x hxq hx => ?_⟩
  have hirq : hasIrq s.params x = true := by simpa [hasIrq] using hx
  have hq : irqOf s.params q = some x := irqOf_eq_some.2 ⟨hxq, hirq⟩
  refine ⟨exec_irqEnable en hq hx, fun hp h0 => ?_⟩
  have hrun := runOp_irqPrio hq (priorityOf_eq_some.2 ⟨hp, rfl⟩) h0
  rw [Nat.add_comm, runOp_succ_eq_next] at hrun
  obtain ⟨s1, hfirst, hrest⟩ := hrun
  refine ⟨s1, finish (setPrio x prio s), hfirst, hrest, ?_, fun y hne => ?_, ?_⟩
  · rw [prioOf_finish, prioOf_setPrio_self hirq hp]
  · rw [prioOf_finish, prioOf_setPrio_of_ne prio s hne]
  · rw [finish_nvic, ← setPrio_frame]

end Sys2Proof.Machine

namespace Sys2Proof.Machine

/-! # The I2C address byte (44 R212)

The word's bits in terms of the address's, from which its fields and its masked form are read. -/

/-- Bit j of the address byte: the address moved up by one, with zeros on both sides. -/
theorem addrByte_getLsbD (a : BitVec 7) (j : Nat) : (addrByte a).getLsbD j = (decide (1 ≤ j) && a.getLsbD (j - 1)) := by
  rw [addrByte, BitVec.getLsbD_shiftLeft, BitVec.getLsbD_setWidth]
  by_cases hj : j < 8
  · simp [show j < 32 by omega, show j - 1 < 32 by omega, Nat.one_le_iff_ne_zero]
  · simp [BitVec.getLsbD_of_ge a (j - 1) (by omega)]

/-- 0xFE is the mask of bits 7:1, those where the address stands. -/
theorem addrMask_getLsbD {j : Nat} (hj : j < 32) : (0xFE : Word).getLsbD j = decide (1 ≤ j ∧ j < 8) := by
  decide +revert

/-- The mask of R212 clears nothing of the moved address. -/
theorem addrByte_and_mask (a : BitVec 7) : addrByte a &&& 0xFE = addrByte a := by
  refine BitVec.eq_of_getLsbD_eq fun j hj => ?_
  rw [BitVec.getLsbD_and, addrMask_getLsbD hj, addrByte_getLsbD]
  by_cases hlt : j < 8
  · simp +contextual [hlt]
  · simp [BitVec.getLsbD_of_ge a (j - 1) (by omega)]

/-- Settles O50: each part of the word is read off the equation of its bits. -/
theorem addressByte : Obligations.AddressByte := by
  refine fun a => ⟨addrByte_getLsbD a 0, ?_, ?_, (addrByte_and_mask a).symm⟩
  · refine BitVec.eq_of_getLsbD_eq fun j hj => ?_
    simp [addrByte_getLsbD, hj]
  · refine BitVec.eq_of_getLsbD_eq fun j _ => ?_
    simp [addrByte_getLsbD]

end Sys2Proof.Machine

namespace Sys2Proof.Machine

/-! # The configuration of a pin (45 R221, 20 R84)

A pin's 4-bit field of CRL or CRH: what replacing it leaves of the fields of the port, and what its bits say of the mode and the
electrical configuration it was made from. -/

/-! ## The field of a pin in its register -/

/-- A port's registers with the field of pin n replaced. -/
def configurePin (n x : BitVec 4) (r : GpioRegs) : GpioRegs :=
  if n.toNat < 8 then { r with crl := setField r.crl (pinShift n) x } else { r with crh := setField r.crh (pinShift n) x }

/-- The field is bits of CRL and CRH and of nothing else. -/
theorem configurePin_frame (n x : BitVec 4) (r : GpioRegs) :
    configurePin n x r = { r with crl := (configurePin n x r).crl, crh := (configurePin n x r).crh } := by
  unfold configurePin
  split <;> rfl

theorem pinConfigField_configurePin_self (n x : BitVec 4) (r : GpioRegs) : pinConfigField (configurePin n x r) n = x := by
  have hfits : pinShift n + 4 ≤ 32 := by unfold pinShift; omega
  unfold configurePin pinConfigField
  split <;> exact extractLsb'_setField_self _ _ _ hfits

/-- Pins of one register have fields that do not overlap; pins of different registers do not share one. -/
theorem pinConfigField_configurePin_of_ne {n m : BitVec 4} (x : BitVec 4) (r : GpioRegs) (hne : m ≠ n) :
    pinConfigField (configurePin n x r) m = pinConfigField r m := by
  have hnum : m.toNat ≠ n.toNat := fun e => hne (BitVec.eq_of_toNat_eq e)
  have hfits : pinShift m + 4 ≤ 32 := by unfold pinShift; omega
  by_cases hsame : n.toNat < 8 ↔ m.toNat < 8
  · have hapart : pinShift m + 4 ≤ pinShift n ∨ pinShift n + 4 ≤ pinShift m := by
      unfold pinShift
      omega
    simp only [configurePin, pinConfigField, ← hsame]
    split <;> exact extractLsb'_setField_disjoint _ _ _ hapart hfits
  · simp only [configurePin, pinConfigField]
    split
    · rw [if_neg (by omega)]
    · rw [if_pos (by omega)]

/-- The write of a pin's register with the pin's field of the value read replaced. -/
theorem afterWrite_pinReg_setField (p : Port) (n x : BitVec 4) (s : State) :
    afterWrite (.gpio p (pinReg n)) (setField (regVal (.gpio p (pinReg n)) s) (pinShift n) x) s =
      { s with gpio := s.gpio.set p (configurePin n x (s.gpio.get p)) } := by
  unfold pinReg configurePin
  split <;> rfl

/-! ## The bits of the field -/

/-- The legal pairs of 30 R110, spelled out: input, output and alternate function. -/
theorem pinConfigLegal_eq_true_iff (mode ecfg : BitVec 3) : pinConfigLegal mode ecfg = true ↔
    (mode = 0 ∧ (ecfg = 2 ∨ ecfg = 3 ∨ ecfg = 4)) ∨ ((mode = 1 ∨ mode = 2 ∨ mode = 3) ∧ (ecfg = 0 ∨ ecfg = 1)) ∨
      (mode = 4 ∧ (ecfg = 0 ∨ ecfg = 1)) := by
  decide +revert

/-- Whichever output speed it has, the MODE bits of an alternate function are not those of an input. -/
theorem modeBits_alternate_ne_zero (draw : Nat) : modeBits 4#3 draw ≠ 0#2 := by
  have hspeed : ∀ x : Fin 3, BitVec.ofNat 2 (1 + x.val) ≠ 0#2 := by decide
  exact hspeed _

/-- What is read back from a field made of a legal pair is that pair. -/
theorem pinMode_pinEcfg_of_field_eq {r : GpioRegs} {n : BitVec 4} {mode ecfg : BitVec 3} {draw : Nat}
    (hlegal : pinConfigLegal mode ecfg = true) (hfield : pinConfigField r n = pinField4 mode ecfg draw) :
    pinMode r n = mode ∧ pinEcfg r n = some ecfg := by
  simp only [pinMode, pinEcfg, hfield, pinField4, BitVec.extractLsb'_append_eq_right, BitVec.extractLsb'_append_eq_left,
    BitVec.getLsbD_append]
  obtain ⟨rfl, hinput⟩ | ⟨hout, hdrive⟩ | ⟨rfl, hdrive⟩ := (pinConfigLegal_eq_true_iff mode ecfg).1 hlegal
  · rcases hinput with rfl | rfl | rfl <;> exact ⟨rfl, rfl⟩
  · rcases hout with rfl | rfl | rfl <;> rcases hdrive with rfl | rfl <;> exact ⟨rfl, rfl⟩
  · have hspeed := modeBits_alternate_ne_zero draw
    rcases hdrive with rfl | rfl <;> simp [hspeed, cnfBits]

/-! ## The micro-steps of GPIO_CFG -/

theorem withPort_refused {s : State} {c : BitVec 4} (k : Port → Out) (h : portOf s.params c = none) :
    withPort s c k = .refused .illegalCommand := by
  rw [withPort, h]

theorem rmwRead_refused (r : Reg) (f : Word → Word) (p : Nat) (k : State → State) (s : State) (h : accessible s r = false) :
    rmwRead r f p k s = .refused .clockOff :=
  readReg_refused r s _ h

@[simp] theorem accessible_gpio (p : Port) (r : GpioReg) (s : State) : accessible s (.gpio p r) = clkOn s (.gpio p) := rfl

@[simp] theorem afterRead_gpio_reg (p : Port) (r : GpioReg) (s : State) : afterRead (.gpio p r) s = s := rfl

/-- A FieldSet that ends its command and spends a free value leaves the same state under both values of RMW_ATOMIC. -/
theorem runOp_fieldSet_finish_draws {i : Instr} {r : Reg} {f : Word → Word} {p draws : Nat} {s : State}
    (hon : accessible s r = true) (hread : exec i s = rmwRead r f p (fun t => finish { t with draws := draws }) s)
    (hwrite : exec i (held r p s) = rmwWrite r f (fun t => finish { t with draws := draws }) (held r p s)) :
    runOp i (1 + extraStep s) s =
      .next (finish { afterWrite r (f (regVal r s)) (afterRead r s) with draws := draws }) := by
  have hmoved (t : State) : finish { t with draws := draws } = { finish t with draws := draws } := rfl
  rw [runOp_fieldSet hon hread hwrite, hmoved, ← afterWrite_finish, finish_fieldRead, afterWrite_finish, ← hmoved]

section

variable {c n : BitVec 4} {p : Port} {mode ecfg : BitVec 3} {s : State}

theorem exec_gpioCfg_illegalPort (h : portOf s.params c = none) :
    exec (.gpioCfg c n mode ecfg) s = .refused .illegalCommand := by
  change execGpioCfg c n mode ecfg s = _
  rw [execGpioCfg, withPort_refused _ h]

theorem exec_gpioCfg_illegalPair (h : pinConfigLegal mode ecfg = false) :
    exec (.gpioCfg c n mode ecfg) s = .refused .illegalCommand := by
  change execGpioCfg c n mode ecfg s = _
  simp only [execGpioCfg, h, withPort]
  split <;> rfl

theorem exec_gpioCfg_read (hp : portOf s.params c = some p) (hlegal : pinConfigLegal mode ecfg = true) (h0 : phaseOf s = 0) :
    exec (.gpioCfg c n mode ecfg) s = rmwRead (.gpio p (pinReg n))
      (fun w => setField w (pinShift n) (pinField4 mode ecfg s.draws)) 1 (fun t => finish { t with draws := s.draws + 1 }) s := by
  change execGpioCfg c n mode ecfg s = _
  simp [execGpioCfg, withPort_eq _ hp, hlegal, h0]

theorem exec_gpioCfg_write (hp : portOf s.params c = some p) (hlegal : pinConfigLegal mode ecfg = true) (h1 : phaseOf s = 1) :
    exec (.gpioCfg c n mode ecfg) s = rmwWrite (.gpio p (pinReg n))
      (fun w => setField w (pinShift n) (pinField4 mode ecfg s.draws)) (fun t => finish { t with draws := s.draws + 1 }) s := by
  change execGpioCfg c n mode ecfg s = _
  simp [execGpioCfg, withPort_eq _ hp, hlegal, h1]

/-- GPIO_CFG whole: the pin's field and the draw counter, whatever RMW_ATOMIC is. -/
theorem runOp_gpioCfg (hp : portOf s.params c = some p) (hlegal : pinConfigLegal mode ecfg = true)
    (hon : clkOn s (.gpio p) = true) (h0 : phaseOf s = 0) :
    runOp (.gpioCfg c n mode ecfg) (1 + extraStep s) s = .next (finish { s with
      gpio := s.gpio.set p (configurePin n (pinField4 mode ecfg s.draws) (s.gpio.get p))
      draws := s.draws + 1 }) := by
  rw [runOp_fieldSet_finish_draws ((accessible_gpio p _ s).trans hon) (exec_gpioCfg_read hp hlegal h0)
    (exec_gpioCfg_write hp hlegal (phaseOf_held _ _ _)), afterRead_gpio_reg, afterWrite_pinReg_setField]

end

/-- Settles O52: the operands and the clock decide the refusals; the run is one FieldSet of the pin's field. -/
theorem pinConfiguration : Obligations.PinConfiguration := by
  refine fun c n mode ecfg s => ⟨exec_gpioCfg_illegalPort, exec_gpioCfg_illegalPair, fun p hp hlegal h0 =>
    ⟨fun hoff => ?_, fun hon => ?_⟩⟩
  · rw [exec_gpioCfg_read hp hlegal h0]
    exact rmwRead_refused _ _ _ _ s hoff
  · have hrun := runOp_gpioCfg (n := n) hp hlegal hon h0
    rw [Nat.add_comm, runOp_succ_eq_next] at hrun
    obtain ⟨s1, hfirst, hrest⟩ := hrun
    obtain ⟨hmode, hecfg⟩ := pinMode_pinEcfg_of_field_eq hlegal
      (pinConfigField_configurePin_self n (pinField4 mode ecfg s.draws) (s.gpio.get p))
    refine ⟨s1, _, hfirst, hrest, ?_⟩
    simp only [finish_gpio, PerPort.get_set_self]
    refine ⟨hmode, hecfg, fun m hne => pinConfigField_configurePin_of_ne _ _ hne, rfl, ?_⟩
    rw [← configurePin_frame]

end Sys2Proof.Machine

namespace Sys2Proof.Machine

/-! # The output data of a port (45 R224, R225, R226)

ODR is 16 bits behind a 32-bit access: what a bit set or inverted in the word read is in the 16 bits written. -/

/-- Replacing a bit of the bits kept, before or after the others are dropped. -/
theorem setWidth_setBit {m n k : Nat} (v : BitVec n) (x : Bool) (hmn : m ≤ n) :
    (setBit v k x).setWidth m = setBit (v.setWidth m) k x := by
  refine BitVec.eq_of_getLsbD_eq fun j hj => ?_
  rw [BitVec.getLsbD_setWidth, setBit_getLsbD _ _ _ _ (hj.trans_le hmn), setBit_getLsbD _ _ _ _ hj]
  simp [hj]

/-- Inverting bit k. -/
theorem xor_bitAt (w : Word) (k : Nat) : w ^^^ bitAt k true = setBit w k (!w.getLsbD k) := by
  refine BitVec.eq_of_getLsbD_eq fun j hj => ?_
  rw [BitVec.getLsbD_xor, bitAt_getLsbD _ _ _ hj, setBit_getLsbD _ _ _ _ hj]
  by_cases h : j = k <;> simp [h]

/-- The state with bit n of a port's output data replaced. -/
def setOutput (p : Port) (n : BitVec 4) (x : Bool) (s : State) : State :=
  { s with gpio := s.gpio.set p { s.gpio.get p with odr := setBit (s.gpio.get p).odr n.toNat x } }

/-- The write of ODR with one bit of the value read replaced. -/
theorem afterWrite_odr_setBit (p : Port) (n : BitVec 4) (x : Bool) (s : State) :
    afterWrite (.gpio p .odr) (setBit (regVal (.gpio p .odr) s) n.toNat x) s = setOutput p n x s := by
  simp [afterWrite, regVal, updGpio, setOutput, setWidth_setBit]

/-- The write of ODR with one bit of the value read inverted. -/
theorem afterWrite_odr_xor (p : Port) (n : BitVec 4) (s : State) :
    afterWrite (.gpio p .odr) (regVal (.gpio p .odr) s ^^^ bitAt n.toNat true) s =
      setOutput p n (!(s.gpio.get p).odr.getLsbD n.toNat) s := by
  have hread : (regVal (.gpio p .odr) s).getLsbD n.toNat = (s.gpio.get p).odr.getLsbD n.toNat := by
    simp [regVal, show n.toNat < 32 by omega]
  rw [xor_bitAt, hread, afterWrite_odr_setBit]

section

variable {c n : BitVec 4} {p : Port} {v : Bool} {x : Half} {s : State}

theorem exec_gpioWrPin_read (hp : portOf s.params c = some p) (h0 : phaseOf s = 0) :
    exec (.gpioWrPin c n v) s = rmwRead (.gpio p .odr) (fun w => setBit w n.toNat v) 1 finish s := by
  change execGpioWrPin c n v s = _
  simp [execGpioWrPin, withPort_eq _ hp, h0]

theorem exec_gpioWrPin_write (hp : portOf s.params c = some p) (h1 : phaseOf s = 1) :
    exec (.gpioWrPin c n v) s = rmwWrite (.gpio p .odr) (fun w => setBit w n.toNat v) finish s := by
  change execGpioWrPin c n v s = _
  simp [execGpioWrPin, withPort_eq _ hp, h1]

theorem exec_gpioTglPin_read (hp : portOf s.params c = some p) (h0 : phaseOf s = 0) :
    exec (.gpioTglPin c n) s = rmwRead (.gpio p .odr) (fun w => w ^^^ bitAt n.toNat true) 1 finish s := by
  change execGpioTglPin c n s = _
  simp [execGpioTglPin, withPort_eq _ hp, h0]

theorem exec_gpioTglPin_write (hp : portOf s.params c = some p) (h1 : phaseOf s = 1) :
    exec (.gpioTglPin c n) s = rmwWrite (.gpio p .odr) (fun w => w ^^^ bitAt n.toNat true) finish s := by
  change execGpioTglPin c n s = _
  simp [execGpioTglPin, withPort_eq _ hp, h1]

theorem exec_gpioWrPort (hp : portOf s.params c = some p) (hon : clkOn s (.gpio p) = true) :
    exec (.gpioWrPort c x) s = .next (finish { s with gpio := s.gpio.set p { s.gpio.get p with odr := x } }) := by
  change execGpioWrPort c x s = _
  rw [execGpioWrPort, withPort_eq _ hp, writeReg_eq _ _ _ _ ((accessible_gpio p _ s).trans hon)]
  simp [afterWrite, updGpio]

theorem runOp_gpioWrPin (hp : portOf s.params c = some p) (hon : clkOn s (.gpio p) = true) (h0 : phaseOf s = 0) :
    runOp (.gpioWrPin c n v) (1 + extraStep s) s = .next (finish (setOutput p n v s)) := by
  rw [runOp_fieldSet_finish ((accessible_gpio p _ s).trans hon) (exec_gpioWrPin_read hp h0)
    (exec_gpioWrPin_write hp (phaseOf_held _ _ _)), afterRead_gpio_reg, afterWrite_odr_setBit]

theorem runOp_gpioTglPin (hp : portOf s.params c = some p) (hon : clkOn s (.gpio p) = true) (h0 : phaseOf s = 0) :
    runOp (.gpioTglPin c n) (1 + extraStep s) s =
      .next (finish (setOutput p n (!(s.gpio.get p).odr.getLsbD n.toNat) s)) := by
  rw [runOp_fieldSet_finish ((accessible_gpio p _ s).trans hon) (exec_gpioTglPin_read hp h0)
    (exec_gpioTglPin_write hp (phaseOf_held _ _ _)), afterRead_gpio_reg, afterWrite_odr_xor]

end

/-- Settles O54: the pin writes are one FieldSet of ODR each, the port write one write of it. -/
theorem pinWrites : Obligations.PinWrites := by
  refine fun c n p v x s hp hon h0 => ⟨?_, exec_gpioWrPort hp hon, ?_⟩
  · rw [← runOp_succ_eq_next, Nat.add_comm]
    exact runOp_gpioWrPin hp hon h0
  · rw [← runOp_succ_eq_next, Nat.add_comm]
    exact runOp_gpioTglPin hp hon h0

end Sys2Proof.Machine

namespace Sys2Proof.Machine

/-! # Reads into RET (45 R222, R223, R228)

The first micro-step reads the register and keeps the value, the second writes RET. What the first does to the sequencer is gone
once the command has ended. -/

@[simp] theorem finish_setRet_goto (v : Word) (p : Nat) (s : State) : finish (setRet v (goto p s)) = finish (setRet v s) := rfl

@[simp] theorem finish_setRet_updLocals (v : Word) (f : Locals → Locals) (s : State) :
    finish (setRet v (updLocals f s)) = finish (setRet v s) := rfl

theorem finish_setRet_held (v : Word) (r : Reg) (p : Nat) (s : State) :
    finish (setRet v (held r p s)) = finish (setRet v (afterRead r s)) := rfl

/-! ## The levels of a port -/

section

variable {c n : BitVec 4} {p : Port} {s : State}

theorem exec_gpioRdPin_read (hp : portOf s.params c = some p) (hon : clkOn s (.gpio p) = true) (h0 : phaseOf s = 0) :
    exec (.gpioRdPin c n) s = .next (held (.gpio p .idr) 1 s) := by
  change execGpioRdPin c n s = _
  simp [execGpioRdPin, withPort_eq _ hp, h0, readReg_eq _ _ _ ((accessible_gpio p _ s).trans hon), held]

theorem exec_gpioRdPin_ret (hp : portOf s.params c = some p) (h1 : phaseOf s = 1) :
    exec (.gpioRdPin c n) s = .next (finish (setRet (bitAt 0 ((locals s).v.getLsbD n.toNat)) s)) := by
  change execGpioRdPin c n s = _
  simp [execGpioRdPin, withPort_eq _ hp, h1]

theorem exec_gpioRdPort_read (hp : portOf s.params c = some p) (hon : clkOn s (.gpio p) = true) (h0 : phaseOf s = 0) :
    exec (.gpioRdPort c) s = .next (held (.gpio p .idr) 1 s) := by
  change execGpioRdPort c s = _
  simp [execGpioRdPort, withPort_eq _ hp, h0, readReg_eq _ _ _ ((accessible_gpio p _ s).trans hon), held]

theorem exec_gpioRdPort_ret (hp : portOf s.params c = some p) (h1 : phaseOf s = 1) :
    exec (.gpioRdPort c) s = .next (finish (setRet (((locals s).v.extractLsb' 0 16).setWidth 32) s)) := by
  change execGpioRdPort c s = _
  simp [execGpioRdPort, withPort_eq _ hp, h1]

end

/-- A bit of IDR as RET has it. -/
theorem bitAt_zero_regVal_idr (p : Port) (n : BitVec 4) (s : State) :
    bitAt 0 ((regVal (.gpio p .idr) s).getLsbD n.toNat) = if levelOf s p n then 1 else 0 := by
  have hread : (regVal (.gpio p .idr) s).getLsbD n.toNat = levelOf s p n := by
    simp [regVal, levelOf, show n.toNat < 32 by omega]
  rw [hread]
  cases levelOf s p n <;> rfl

/-- The 16 bits of IDR as RET has them. -/
theorem extractLsb'_regVal_idr (p : Port) (s : State) :
    ((regVal (.gpio p .idr) s).extractLsb' 0 16).setWidth 32 = (s.gpio.get p).level.setWidth 32 := by
  refine congrArg _ (BitVec.eq_of_getLsbD_eq fun j hj => ?_)
  simp [regVal, show j < 32 by omega, hj]

/-- Settles O53: each is a read of IDR, which has no side effect, and a write of RET. -/
theorem pinReads : Obligations.PinReads := by
  refine fun c n p s hp hon h0 => ⟨⟨_, exec_gpioRdPin_read hp hon h0, ?_⟩, ⟨_, exec_gpioRdPort_read hp hon h0, ?_⟩⟩
  · rw [exec_gpioRdPin_ret (by simpa using hp) (phaseOf_held _ _ _), locals_held, bitAt_zero_regVal_idr, finish_setRet_held,
      afterRead_gpio_reg]
  · rw [exec_gpioRdPort_ret (by simpa using hp) (phaseOf_held _ _ _), locals_held, extractLsb'_regVal_idr, finish_setRet_held,
      afterRead_gpio_reg]

/-! ## A register by its address -/

theorem withReg_misaligned {s : State} {a : Word} (k : Reg → Out) (h : a.toNat % 4 ≠ 0) :
    withReg s a k = .refused .unknownRegister := by
  rw [withReg, if_neg h]

theorem withReg_unnamed {s : State} {a : Word} (k : Reg → Out) (h : regAt s.params a.toNat = none) :
    withReg s a k = .refused .unknownRegister := by
  rw [withReg, h]
  split <;> rfl

/-- The state between the two micro-steps of REG_RD: the register has been read, and its value kept with its bits where the layout
has them (log 41). -/
def heldOnBus (r : Reg) (s : State) : State :=
  goto 1 (updLocals (fun l => { l with v := toBus s.params r (regVal r s) }) (afterRead r s))

section

variable {s : State}

theorem exec_regRd_read (h0 : phaseOf s = 0) : exec .regRd s =
    withReg s s.ctx.arg0 fun r => readReg r s fun v s1 =>
      .next (goto 1 (updLocals (fun l => { l with v := toBus s1.params r v }) s1)) := by
  change execRegRd s = _
  simp [execRegRd, h0]

theorem exec_regRd_ret (h1 : phaseOf s = 1) : exec .regRd s = .next (finish (setRet (locals s).v s)) := by
  change execRegRd s = _
  simp [execRegRd, h1]

end

/-- Settles O56: the address and the clock decide the refusals; the read leaves `heldOnBus`, from which RET is written. -/
theorem rawRead : Obligations.RawRead := by
  refine fun s h0 => ?_
  rw [exec_regRd_read h0]
  refine ⟨withReg_misaligned _, withReg_unnamed _, fun r haligned hreg => ?_⟩
  rw [withReg_eq _ haligned hreg]
  refine ⟨readReg_refused r s _, fun hon => ⟨heldOnBus r s, ?_, ?_⟩⟩
  · rw [readReg_eq _ _ _ hon, afterRead_params, heldOnBus]
  · rw [exec_regRd_ret (by simp [heldOnBus])]
    simp [heldOnBus]

end Sys2Proof.Machine

namespace Sys2Proof.Machine

/-! # The pending latch and the return of a handler (60 R247, R250)

What the latch makes of each pending bit, and that of all moves only an entry clears one. -/

/-! ## ACTIVE as a mask -/

/-- A mask with the IRQs of a stack of contexts added has their bits and those it had. -/
theorem foldl_irqBit_getLsbD (es : List (Irq × Context)) (m : BitVec 256) (q : Irq) :
    (es.foldl (fun m e => m ||| irqBit e.1 true) m).getLsbD q.val =
      (m.getLsbD q.val || (es.map (·.1)).contains q) := by
  induction es generalizing m with
  | nil => simp
  | cons e es ih =>
    have hbit : (irqBit e.1 true).getLsbD q.val = (q == e.1) := by
      rw [irqBit_getLsbD, Bool.true_and, beq_eq_decide]
      simp only [Fin.ext_iff]
    rw [List.foldl_cons, ih, BitVec.getLsbD_or, hbit, List.map_cons, List.contains_cons, Bool.or_assoc]

theorem activeWord_getLsbD (s : State) (q : Irq) : (activeWord s).getLsbD q.val = (active s).contains q := by
  rw [activeWord, foldl_irqBit_getLsbD, active, BitVec.ofNat_eq_ofNat, BitVec.getLsbD_zero, Bool.false_or]

/-! ## The latch -/

theorem step_eq_latch {s u : State} (h : makeMove (nextMove s) { s with sched := s.sched.tail } = .next u) :
    step s = .next (latch s u) := by
  rw [step, h, latchOut]

/-- 60 R247 for one IRQ: its pending bit stays set, or is set by a line that is not being served or has just risen. -/
theorem latch_pend_getLsbD (s u : State) (q : Irq) : (latch s u).nvic.pend.getLsbD q.val =
    (u.nvic.pend.getLsbD q.val || (line u q && (!(active u).contains q || !line s q))) := by
  simp only [latch_nvic, BitVec.getLsbD_or, BitVec.getLsbD_and, BitVec.getLsbD_not, q.isLt, decide_true, Bool.true_and,
    Bool.not_and, activeWord_getLsbD, line]

/-! ## What a move does to the pending bits -/

theorem afterWrite_pend (r : Reg) (v : Word) (s : State) : (afterWrite r v s).nvic.pend = s.nvic.pend := by
  cases r with
  | afio r =>
    cases r with
    | exticr k => simp [afterWrite]
    | _ => rfl
  | nvic r =>
    cases r with
    | ipr k => rw [afterWrite, writeIpr_frame]
    | _ => rfl
  | spi _ r | exti r | gpio _ r | i2c _ r | rcc r => cases r <;> rfl

/-- No update that micro-steps are made of reaches the pending bits. -/
theorem keeps_pend (w : BitVec 256) : Keeps fun s => s.nvic.pend = w where
  ctx := fun _ _ h => h
  cfg := fun _ _ _ h => h
  xfer := fun _ _ _ _ h => h
  read := fun s r h => by rw [afterRead_nvic, h]
  clear := fun _ _ h => h
  write := fun s r v h => by rw [afterWrite_pend, h]
  store := fun _ _ _ _ h => h
  emit := fun _ _ _ h => h
  draw := fun _ _ h => h

theorem contextStep_pend {s t : State} {swap : Bool} (h : contextStep { s with swap := swap } = .next t) :
    t.nvic.pend = s.nvic.pend :=
  (sat_iff _ _).1 (contextStep_keeps (keeps_pend s.nvic.pend) { s with swap := swap } rfl) t h

theorem leaveIrq_nvic (s : State) : (leaveIrq s).nvic = s.nvic := by
  unfold leaveIrq
  split
  · split <;> rfl
  · rfl

theorem envPin_nvic (p : Port) (n : BitVec 4) (x : Bool) (s : State) : (envPin p n x s).nvic = s.nvic := by
  unfold envPin
  simp only []
  split
  · split <;> rfl
  · rfl

/-- A move that is no entry leaves every pending bit; the latch comes after it. -/
theorem makeMove_pend {m : Move} {s t : State} (hm : ∀ q, m ≠ .enter q) (h : makeMove m s = .next t) :
    t.nvic.pend = s.nvic.pend := by
  cases m with
  | enter q => exact absurd rfl (hm q)
  | foreground swap | handler _ swap =>
    simp only [makeMove] at h
    split at h
    · exact contextStep_pend h
    · cases h; rfl
  | leave => cases h; rw [leaveIrq_nvic]
  | txEmpty i | overrun i => cases h; rfl
  | rxFrame i v => cases h; unfold envRxFrame; split <;> rfl
  | i2cFlag u f x => cases h; unfold envI2cFlag; split <;> rfl
  | pin p n x => cases h; rw [envPin_nvic]

theorem makeMove_enter (q : Irq) (s : State) : makeMove (.enter q) s = .next (if canEnter s q then enterIrq q s else s) := rfl

/-- An entry clears the pending bit of the IRQ entered and no other (60 R249). -/
theorem enterIrq_pend_getLsbD (q r : Irq) (s : State) :
    (enterIrq q s).nvic.pend.getLsbD r.val = (s.nvic.pend.getLsbD r.val && decide (r ≠ q)) := by
  simp only [enterIrq_nvic, BitVec.getLsbD_and, BitVec.getLsbD_not, r.isLt, irqBit_getLsbD, decide_true, Bool.true_and,
    decide_not, Fin.ext_iff, ne_eq]

/-- Only the enabled entry of an IRQ clears its pending bit. -/
theorem makeMove_clears_pend {m : Move} {s t : State} {q : Irq} (h : makeMove m s = .next t)
    (hs : s.nvic.pend.getLsbD q.val = true) (ht : t.nvic.pend.getLsbD q.val = false) :
    m = .enter q ∧ canEnter s q = true := by
  by_cases hm : ∃ r, m = .enter r
  · obtain ⟨r, rfl⟩ := hm
    rw [makeMove_enter] at h
    cases hr : canEnter s r with
    | false =>
      have hst : s = t := by simpa [hr] using h
      rw [← hst, hs] at ht
      cases ht
    | true =>
      have hst : enterIrq r s = t := by simpa [hr] using h
      rw [← hst, enterIrq_pend_getLsbD, hs] at ht
      have hqr : q = r := by simpa using ht
      exact ⟨by rw [hqr], hqr ▸ hr⟩
  · rw [makeMove_pend (fun r e => hm ⟨r, e⟩) h, hs] at ht
    cases ht

/-- Settles O8: the latch bit by bit, and the one move that clears a pending bit. -/
theorem pendingLatch : Obligations.PendingLatch := fun s u h =>
  ⟨step_eq_latch h, rfl, latch_pend_getLsbD s u, fun _ hs hu => makeMove_clears_pend h hs hu⟩

/-! ## The return -/

section

variable {s : State} {q : Irq} {c : Context} {rest : List (Irq × Context)} {ms : List Move}

theorem leaveIrq_of_finished (hfrozen : s.frozen = (q, c) :: rest) (hfin : finished s = true) :
    leaveIrq s = { s with ctx := c, frozen := rest } := by simp [leaveIrq, hfrozen, hfin]

theorem leaveIrq_of_not_finished (hfin : finished s = false) : leaveIrq s = s := by
  unfold leaveIrq
  split <;> simp [hfin]

theorem active_of_frozen (hfrozen : s.frozen = (q, c) :: rest) : active s = q :: rest.map (·.1) := by
  rw [active, hfrozen, List.map_cons]

theorem step_leave (hsched : s.sched = .leave :: ms) : step s = .next (latch s (leaveIrq { s with sched := ms })) := by
  rw [step, nextMove, hsched]
  rfl

/-- The latch pends an IRQ whose line is asserted and whose handler is not active. -/
theorem latch_pend_of_not_active {u : State} (hline : line u q = true) (hactive : q ∉ active u) :
    (latch s u).nvic.pend.getLsbD q.val = true := by
  rw [latch_pend_getLsbD, hline, List.contains_eq_mem, decide_eq_false hactive, Bool.not_false, Bool.true_or, Bool.true_and,
    Bool.or_true]

end

/-- Settles O47: a finished handler leaves ACTIVE, so the latch pends its IRQ again if the line is still asserted; one that has not
finished stays. -/
theorem returnResumesTheFrozenContext : Obligations.ReturnResumesTheFrozenContext := by
  intro s q c rest ms hsched hfrozen hnodup
  have hactive := active_of_frozen hfrozen
  rw [hactive] at hnodup
  have hstep := step_leave hsched
  refine ⟨fun hfin => ?_, fun hfin => ?_⟩
  · rw [leaveIrq_of_finished (s := { s with sched := ms }) hfrozen hfin] at hstep
    exact ⟨_, hstep, hactive, rfl, fun hline => latch_pend_of_not_active hline (List.nodup_cons.1 hnodup).1⟩
  · rw [leaveIrq_of_not_finished (s := { s with sched := ms }) hfin] at hstep
    exact ⟨_, hstep, rfl, rfl⟩

end Sys2Proof.Machine

namespace Sys2Proof.Machine

/-! # Interrupts after reset (70 R281)

The agents that are not the running context reach no enable, mask or trigger bit, so what reset masks stays masked until a command
runs: no request line rises, and no IRQ can be entered. -/

/-! ## Entries and request lines under a mask -/

/-- With all enables 0 the entry condition of 60 R248 holds of no IRQ. -/
theorem canEnter_of_en_eq_zero {s : State} (h : s.nvic.en = 0) (q : Irq) : canEnter s q = false := by
  simp [canEnter, candidate, h]

/-- 70 R281: disabled at each of the three levels, with nothing pending at any of them. -/
structure Masked (s : State) : Prop where
  txeie : ∀ i, (s.spi.get i).cr2.getLsbD bitTxeie = false
  rxneie : ∀ i, (s.spi.get i).cr2.getLsbD bitRxneie = false
  errie : ∀ i, (s.spi.get i).cr2.getLsbD bitErrie = false
  imr : s.exti.imr = 0
  rtsr : s.exti.rtsr = 0
  ftsr : s.exti.ftsr = 0
  pr : s.exti.pr = 0
  en : s.nvic.en = 0
  pend : s.nvic.pend = 0

theorem reset_cr2_getLsbD (i : SpiId) (k : Nat) : (State.reset.spi.get i).cr2.getLsbD k = false := by
  cases i <;> exact BitVec.getLsbD_zero

theorem masked_reset (sched : List Move) : Masked { State.reset with sched := sched } where
  txeie := fun i => reset_cr2_getLsbD i bitTxeie
  rxneie := fun i => reset_cr2_getLsbD i bitRxneie
  errie := fun i => reset_cr2_getLsbD i bitErrie
  imr := rfl
  rtsr := rfl
  ftsr := rfl
  pr := rfl
  en := rfl
  pend := rfl

theorem lineWord_eq_zero_of_no_request {s : State} (hspi : ∀ i, spiReq s i = false) (hexti : ∀ n, extiReq s n = false) :
    lineWord s = 0 := by
  simp [lineWord, allPins, hspi, hexti, irqBit]

theorem Masked.lineWord_eq_zero {s : State} (h : Masked s) : lineWord s = 0 :=
  lineWord_eq_zero_of_no_request (fun i => by simp [spiReq, h.txeie, h.rxneie, h.errie]) (fun n => by simp [extiReq, h.pr])

/-! ## What a move of the environment or of the arbiter leaves -/

/-- From `s` to `t` every enable, mask and trigger bit is the same, and without a trigger bit no edge has been recorded. -/
structure SameEnables (s t : State) : Prop where
  cr2 : ∀ i, (t.spi.get i).cr2 = (s.spi.get i).cr2
  imr : t.exti.imr = s.exti.imr
  rtsr : t.exti.rtsr = s.exti.rtsr
  ftsr : t.exti.ftsr = s.exti.ftsr
  en : t.nvic.en = s.nvic.en
  pr : s.exti.rtsr = 0 → s.exti.ftsr = 0 → t.exti.pr = s.exti.pr

namespace SameEnables

variable {s t : State}

theorem of_frame (hcr2 : ∀ i, (t.spi.get i).cr2 = (s.spi.get i).cr2) (hexti : t.exti = s.exti) (hnvic : t.nvic = s.nvic) :
    SameEnables s t where
  cr2 := hcr2
  imr := by rw [hexti]
  rtsr := by rw [hexti]
  ftsr := by rw [hexti]
  en := by rw [hnvic]
  pr := fun _ _ => by rw [hexti]

theorem refl (s : State) : SameEnables s s := of_frame (fun _ => rfl) rfl rfl

/-- An update of an SPI unit may change all its registers and flags but CR2. -/
theorem of_updSpi (i : SpiId) {f : SpiRegs → SpiRegs} (hf : ∀ r, (f r).cr2 = r.cr2) (s : State) :
    SameEnables s (updSpi i f s) :=
  of_frame (fun j => by
    rw [updSpi_spi, PerSpi.get_set]
    split
    · next h => rw [hf, h]
    · rfl) rfl rfl

end SameEnables

/-- An edge is recorded only where a trigger bit selects it (43 R196). -/
theorem detect_pr_of_no_trigger {e : ExtiRegs} (n : BitVec 4) (x record : Bool) (hr : e.rtsr = 0) (hf : e.ftsr = 0) :
    (detect e n x record).pr = e.pr := by
  have hedge : edgeHit e n x = false := by simp [edgeHit, hr, hf]
  rw [detect, hedge, Bool.false_and, Bool.or_false, setBit_self]

theorem envPin_sameEnables (p : Port) (n : BitVec 4) (x : Bool) (s : State) : SameEnables s (envPin p n x s) := by
  unfold envPin
  simp only []
  split
  · split
    · exact ⟨fun _ => rfl, rfl, rfl, rfl, rfl, detect_pr_of_no_trigger n x true⟩
    · exact .of_frame (fun _ => rfl) rfl rfl
  · exact .refl s

theorem enterIrq_sameEnables (q : Irq) (s : State) : SameEnables s (enterIrq q s) :=
  ⟨fun _ => rfl, rfl, rfl, rfl, rfl, fun _ _ => rfl⟩

theorem leaveIrq_sameEnables (s : State) : SameEnables s (leaveIrq s) := by
  unfold leaveIrq
  split
  · split
    · exact .of_frame (fun _ => rfl) rfl rfl
    · exact .refl s
  · exact .refl s

/-- A move of an agent other than the one whose context runs changes no enable, mask or trigger bit. -/
theorem makeMove_sameEnables {m : Move} {s t : State} (hm : m.agent ≠ runner s) (h : makeMove m s = .next t) :
    SameEnables s t := by
  cases m with
  | foreground swap | handler q swap =>
    rw [Move.agent] at hm
    rw [makeMove, if_neg hm.symm] at h
    cases h
    exact .refl s
  | enter q =>
    cases h
    split
    · exact enterIrq_sameEnables q s
    · exact .refl s
  | leave => cases h; exact leaveIrq_sameEnables s
  | txEmpty i | overrun i => cases h; exact .of_updSpi i (fun _ => by rfl) s
  | rxFrame i v =>
    cases h
    unfold envRxFrame
    split
    · exact .refl s
    · exact .of_updSpi i (fun _ => by rfl) s
  | i2cFlag u f x =>
    cases h
    unfold envI2cFlag
    split
    · exact .of_frame (fun _ => rfl) rfl rfl
    · exact .refl s
  | pin p n x => cases h; exact envPin_sameEnables p n x s

/-- With all enables 0 no move, whoever makes it, changes a pending bit before the latch. -/
theorem makeMove_pend_of_en_eq_zero {m : Move} {s t : State} (hen : s.nvic.en = 0) (h : makeMove m s = .next t) :
    t.nvic.pend = s.nvic.pend := by
  by_cases hm : ∃ q, m = .enter q
  · obtain ⟨q, rfl⟩ := hm
    rw [makeMove_enter, canEnter_of_en_eq_zero hen] at h
    cases h
    rfl
  · exact makeMove_pend (fun q e => hm ⟨q, e⟩) h

theorem Masked.of_makeMove {m : Move} {s t : State} (hs : Masked s) (hm : m.agent ≠ runner s) (h : makeMove m s = .next t) :
    Masked t := by
  have hsame := makeMove_sameEnables hm h
  exact {
    txeie := fun i => by rw [hsame.cr2, hs.txeie]
    rxneie := fun i => by rw [hsame.cr2, hs.rxneie]
    errie := fun i => by rw [hsame.cr2, hs.errie]
    imr := hsame.imr.trans hs.imr
    rtsr := hsame.rtsr.trans hs.rtsr
    ftsr := hsame.ftsr.trans hs.ftsr
    pr := (hsame.pr hs.rtsr hs.ftsr).trans hs.pr
    en := hsame.en.trans hs.en
    pend := (makeMove_pend_of_en_eq_zero hs.en h).trans hs.pend }

/-! ## The step -/

/-- A step that answers a next state has made its move, and the latch came after it. -/
theorem exists_makeMove_of_step_eq_next {s t : State} {m : Move} {rest : List Move} (hsched : s.sched = m :: rest)
    (h : step s = .next t) :
    ∃ u, makeMove m { s with sched := rest } = .next u ∧ t = latch s u := by
  rw [step, nextMove, hsched, List.tail_cons] at h
  cases hu : makeMove m { s with sched := rest } with
  | next u =>
    rw [hu] at h
    cases h
    exact ⟨u, rfl, rfl⟩
  | fault f => rw [hu] at h; cases h
  | refused r => rw [hu] at h; cases h

/-- Where everything is masked the latch has no line to pend. -/
theorem Masked.latch_pend {u : State} (s : State) (hu : Masked u) : (latch s u).nvic.pend = 0 := by
  rw [latch_nvic, hu.lineWord_eq_zero, hu.pend]
  simp

theorem agent_ne_runner {m : Move} (s : State) (hfore : m.agent ≠ .foreground) (hhandler : ∀ q, m.agent ≠ .handler q) :
    m.agent ≠ runner s := by
  unfold runner
  split
  · exact hfore
  · exact hhandler _

/-- Settles O10: what reset masks, every move but the running context's keeps masked; so nothing is pended, and without an enable
nothing is enterable. -/
theorem resetMasksEveryInterrupt : Obligations.ResetMasksEveryInterrupt := by
  have hreset := masked_reset []
  refine ⟨fun i => ⟨hreset.txeie i, hreset.rxneie i, hreset.errie i⟩,
    hreset.imr, hreset.rtsr, hreset.ftsr, hreset.pr, hreset.en, hreset.pend,
    fun m t hm h => ?_, fun m rest s t hfore hhandler hsched hen h => ?_⟩
  · obtain ⟨u, hmove, rfl⟩ := exists_makeMove_of_step_eq_next rfl h
    have hu : Masked u := (masked_reset []).of_makeMove hm hmove
    exact ⟨hu.pr, hu.latch_pend _, canEnter_of_en_eq_zero hu.en⟩
  · obtain ⟨u, hmove, rfl⟩ := exists_makeMove_of_step_eq_next hsched h
    have hu : u.nvic.en = 0 := (makeMove_sameEnables (agent_ne_runner _ hfore hhandler) hmove).en.trans hen
    exact ⟨hu, canEnter_of_en_eq_zero hu⟩

end Sys2Proof.Machine

namespace Sys2Proof

open Sys2Proof.Machine

/-! # The decoder and the encoder (30 R100, R104, R112)

A row of the opcode table reads a command from the fields of a word exactly if the word is that command's encoding; the check of the
operands comes after it. -/

/-! ## Operands inside an immediate -/

/-- A value whose upper bits are 0 is its lower bits, zero-extended. -/
theorem setWidth_extractLsb'_of_high_eq_zero {n k m : Nat} {x : BitVec n} (hn : k + m = n) (h : x.extractLsb' k m = 0) :
    (x.extractLsb' 0 k).setWidth n = x := by
  refine BitVec.eq_of_getLsbD_eq fun j hj => ?_
  rw [BitVec.getLsbD_setWidth, BitVec.getLsbD_extractLsb']
  by_cases hjk : j < k
  · simp [hj, hjk]
  · have hhigh := congrArg (·.getLsbD (j - k)) h
    have hidx : k + (j - k) = j := by omega
    have hlen : j - k < m := by omega
    simp only [BitVec.getLsbD_extractLsb', hidx, hlen, decide_true, Bool.true_and] at hhigh
    simp [hjk, hhigh]

/-- A flag whose immediate has no other bit. -/
theorem setWidth_ofBool_getLsbD_zero {n m : Nat} {x : BitVec n} (hn : 1 + m = n) (h : x.extractLsb' 1 m = 0) :
    (BitVec.ofBool (x.getLsbD 0)).setWidth n = x := by
  have hbit : BitVec.ofBool (x.getLsbD 0) = x.extractLsb' 0 1 := by
    refine BitVec.eq_of_getLsbD_eq fun j hj => ?_
    obtain rfl : j = 0 := by omega
    simp
  rw [hbit]
  exact setWidth_extractLsb'_of_high_eq_zero hn h

theorem extractLsb'_zero_setWidth {k : Nat} (v : BitVec k) {n : Nat} (hn : k ≤ n) : (v.setWidth n).extractLsb' 0 k = v := by
  refine BitVec.eq_of_getLsbD_eq fun j hj => ?_
  simp [hj, hj.trans_le hn]

theorem extractLsb'_setWidth_eq_zero {k n lo len : Nat} (v : BitVec k) (hlo : k ≤ lo) :
    (v.setWidth n).extractLsb' lo len = 0 := by
  refine BitVec.eq_of_getLsbD_eq fun j hj => ?_
  simp [BitVec.getLsbD_of_ge v (lo + j) (by omega)]

/-- An immediate of two bytes has them at bits 7:0 and 15:8. -/
theorem hiLo_getLsbD (hi lo : BitVec 8) {j : Nat} (hj : j < 16) :
    (hiLo hi lo).getLsbD j = if j < 8 then lo.getLsbD j else hi.getLsbD (j - 8) := by
  rw [hiLo, BitVec.getLsbD_or, BitVec.getLsbD_shiftLeft, BitVec.getLsbD_setWidth, BitVec.getLsbD_setWidth]
  by_cases h : j < 8
  · simp [h, hj]
  · simp [h, hj, show j - 8 < 16 by omega, BitVec.getLsbD_of_ge lo j (by omega)]

theorem hiLo_extractLsb' (x : BitVec 16) : hiLo (x.extractLsb' 8 8) (x.extractLsb' 0 8) = x := by
  refine BitVec.eq_of_getLsbD_eq fun j hj => ?_
  rw [hiLo_getLsbD _ _ hj, BitVec.getLsbD_extractLsb', BitVec.getLsbD_extractLsb']
  split
  · simp [*]
  · rw [show 8 + (j - 8) = j by omega]
    simp [show j - 8 < 8 by omega]

theorem extractLsb'_hiLo_high (hi lo : BitVec 8) : (hiLo hi lo).extractLsb' 8 8 = hi := by
  refine BitVec.eq_of_getLsbD_eq fun j hj => ?_
  rw [BitVec.getLsbD_extractLsb', hiLo_getLsbD _ _ (by omega), if_neg (by omega), show 8 + j - 8 = j by omega]
  simp [hj]

/-- What lies inside the lower byte is read from it. -/
theorem extractLsb'_hiLo_low (hi lo : BitVec 8) {k len : Nat} (hlen : k + len ≤ 8) :
    (hiLo hi lo).extractLsb' k len = lo.extractLsb' k len := by
  refine BitVec.eq_of_getLsbD_eq fun j hj => ?_
  rw [BitVec.getLsbD_extractLsb', BitVec.getLsbD_extractLsb', hiLo_getLsbD _ _ (by omega), if_pos (by omega)]

/-- An immediate of a byte and a flag is put together from them. -/
theorem hiLo_flag {x : BitVec 16} (h : x.extractLsb' 1 7 = 0) :
    hiLo (x.extractLsb' 8 8) ((BitVec.ofBool (x.getLsbD 0)).setWidth 8) = x := by
  have hlow : (x.extractLsb' 0 8).extractLsb' 1 7 = 0 := by
    rw [← h]
    refine BitVec.eq_of_getLsbD_eq fun j hj => ?_
    simp
  have hflag := setWidth_ofBool_getLsbD_zero (by decide) hlow
  rw [show (x.extractLsb' 0 8).getLsbD 0 = x.getLsbD 0 by simp] at hflag
  rw [hflag, hiLo_extractLsb']

/-- The immediate of GPIO_CFG has the mode at bits 2:0 and the electrical configuration at bits 5:3. -/
theorem pinFields_getLsbD (mode ecfg : BitVec 3) {j : Nat} (hj : j < 16) :
    (ecfg.setWidth 16 <<< 3 ||| mode.setWidth 16 : BitVec 16).getLsbD j =
      if j < 3 then mode.getLsbD j else ecfg.getLsbD (j - 3) := by
  rw [BitVec.getLsbD_or, BitVec.getLsbD_shiftLeft, BitVec.getLsbD_setWidth, BitVec.getLsbD_setWidth]
  by_cases h : j < 3
  · simp [h, hj]
  · simp [h, hj, show j - 3 < 16 by omega, BitVec.getLsbD_of_ge mode j (by omega)]

theorem pinFields_extractLsb' {x : BitVec 16} (h : x.extractLsb' 6 10 = 0) :
    ((x.extractLsb' 3 3).setWidth 16 <<< 3 ||| (x.extractLsb' 0 3).setWidth 16 : BitVec 16) = x := by
  rw [← setWidth_extractLsb'_of_high_eq_zero (by decide) h]
  refine BitVec.eq_of_getLsbD_eq fun j hj => ?_
  rw [pinFields_getLsbD _ _ hj]
  by_cases hj3 : j < 3
  · simp [hj, hj3, show j < 6 by omega]
  · by_cases hj6 : j < 6
    · simp [hj, hj3, hj6, show j - 3 < 3 by omega, show 3 + (j - 3) = j by omega]
    · simp [hj3, hj6, show ¬ j - 3 < 3 by omega]

theorem extractLsb'_pinFields_mode (mode ecfg : BitVec 3) :
    (ecfg.setWidth 16 <<< 3 ||| mode.setWidth 16 : BitVec 16).extractLsb' 0 3 = mode := by
  refine BitVec.eq_of_getLsbD_eq fun j hj => ?_
  rw [BitVec.getLsbD_extractLsb', pinFields_getLsbD _ _ (by omega), if_pos (by omega), Nat.zero_add]
  simp [hj]

theorem extractLsb'_pinFields_ecfg (mode ecfg : BitVec 3) :
    (ecfg.setWidth 16 <<< 3 ||| mode.setWidth 16 : BitVec 16).extractLsb' 3 3 = ecfg := by
  refine BitVec.eq_of_getLsbD_eq fun j hj => ?_
  rw [BitVec.getLsbD_extractLsb', pinFields_getLsbD _ _ (by omega), if_neg (by omega), Nat.add_sub_cancel_left]
  simp [hj]

theorem extractLsb'_pinFields_high (mode ecfg : BitVec 3) :
    (ecfg.setWidth 16 <<< 3 ||| mode.setWidth 16 : BitVec 16).extractLsb' 6 10 = 0 := by
  refine BitVec.eq_of_getLsbD_eq fun j hj => ?_
  rw [BitVec.getLsbD_extractLsb', pinFields_getLsbD _ _ (by omega), if_neg (by omega), BitVec.getLsbD_of_ge _ _ (by omega)]
  simp

/-! ## The rows of the opcode table -/

/-- A row reads back the command whose word it is given. -/
theorem fieldsToInstr_encode (i : Instr) : fieldsToInstr (opcField (encode i)) (unitField (encode i)) (pinField (encode i))
    (immField (encode i)) = .ok i := by
  cases i with
  | spiInit | extiEdge | i2cMsend | irqPrio =>
    simp [encode, fieldsToInstr, extractLsb'_zero_setWidth, extractLsb'_setWidth_eq_zero, extractLsb'_hiLo_low,
      extractLsb'_hiLo_high]
  | irqEnable _ en | pclk _ en | gpioWrPin _ _ en =>
    cases en <;> simp [encode, fieldsToInstr, extractLsb'_hiLo_low, extractLsb'_hiLo_high] <;> simp [hiLo]
  | gpioCfg =>
    simp [encode, fieldsToInstr, extractLsb'_pinFields_mode, extractLsb'_pinFields_ecfg, extractLsb'_pinFields_high]
  | spiSend | spiRecv | spiSendIt | spiRecvIt | spiIrq | extiRoute | extiArm | extiAck | gpioRdPin | gpioRdPort | gpioWrPort
  | gpioTglPin | regRd | regWr => simp [encode, fieldsToInstr]

/-- A row accepts no fields but those of the command it gives: the fields it does not list are 0. -/
theorem encode_of_fieldsToInstr {o : BitVec 8} {u p : BitVec 4} {x : BitVec 16} {i : Instr}
    (h : fieldsToInstr o u p x = .ok i) : encode i = packFields o u p x := by
  simp only [fieldsToInstr] at h
  split at h
  case h_23 => cases h
  all_goals
    split at h
    case isFalse => cases h
  all_goals
    rename_i hzero
    simp only [Bool.and_eq_true, beq_iff_eq] at hzero
    cases h
  case h_1 | h_7 | h_13 =>
    obtain ⟨rfl, hx⟩ := hzero
    exact congrArg (packFields _ _ _) (setWidth_extractLsb'_of_high_eq_zero (by decide) hx)
  case h_2 | h_3 | h_4 | h_5 | h_6 | h_9 | h_10 | h_16 =>
    obtain ⟨rfl, rfl⟩ := hzero
    rfl
  case h_8 | h_15 | h_18 | h_19 =>
    subst hzero
    rfl
  case h_11 | h_20 =>
    obtain ⟨⟨rfl, rfl⟩, hx⟩ := hzero
    exact congrArg (packFields _ _ _) (hiLo_flag hx)
  case h_12 =>
    obtain ⟨rfl, rfl⟩ := hzero
    exact congrArg (packFields _ _ _) (hiLo_extractLsb' x)
  case h_14 => exact congrArg (packFields _ _ _) (pinFields_extractLsb' hzero)
  case h_17 => exact congrArg (packFields _ _ _) (setWidth_ofBool_getLsbD_zero (by decide) hzero)
  case h_21 | h_22 =>
    obtain ⟨⟨rfl, rfl⟩, rfl⟩ := hzero
    rfl

/-! ## The decoder -/

/-- The decoder accepts the words of the well-formed commands, each as its command, and no others. -/
theorem decode_eq_ok_iff {P : Params} {w : Word} {i : Instr} : decode P w = .ok i ↔ i.WellFormed P ∧ encode i = w := by
  constructor
  · intro h
    have hw := wellFormed_of_decode h
    rw [← packFields_fields w, decode_packFields] at h
    split at h
    · obtain ⟨rfl, _⟩ := (checked_ok _ _ _).1 h
      refine ⟨hw, ?_⟩
      rw [encode_of_fieldsToInstr ‹_›, packFields_fields]
    · cases h
  · rintro ⟨hw, rfl⟩
    rw [decode, fieldsToInstr_encode]
    exact (checked_ok _ _ _).2 ⟨rfl, hw⟩

theorem decode_eq_error_iff {P : Params} {w : Word} :
    (∃ e, decode P w = .error e) ↔ ∀ i : Instr, i.WellFormed P → encode i ≠ w := by
  constructor
  · rintro ⟨e, he⟩ i hw hi
    rw [decode_eq_ok_iff.2 ⟨hw, hi⟩] at he
    cases he
  · intro h
    cases hd : decode P w with
    | error e => exact ⟨e, rfl⟩
    | ok i =>
      obtain ⟨hw, hi⟩ := decode_eq_ok_iff.1 hd
      exact absurd hi (h i hw)

/-- Settles O1: both directions of `decode_eq_ok_iff`. -/
theorem decodeAndEncodeAgree : Obligations.DecodeAndEncodeAgree :=
  fun _ => ⟨fun _ hw => decode_eq_ok_iff.2 ⟨hw, rfl⟩, fun _ _ => decode_eq_ok_iff.1⟩

/-- Settles O2: the words rejected are those `decode_eq_ok_iff` does not accept; the context asks the decoder. -/
theorem illegalWordsAreRefused : Obligations.IllegalWordsAreRefused := by
  refine ⟨fun P w => decode_eq_error_iff, fun w e s he hop => ?_⟩
  simp only [contextStep, hop, he]

/-- Settles O3: each word decodes to its command if it is the command's encoding, and the command is well formed. -/
theorem writtenWordsDecode : Obligations.WrittenWordsDecode := by
  simp only [Obligations.WrittenWordsDecode, decode_eq_ok_iff]
  decide

end Sys2Proof

namespace Sys2Proof.Machine

/-! # What every step keeps

A property of states that the shared updates of a micro-step keep, and each move of the arbiter and of the environment, is kept by
every step. -/

/-- The changes steps are made of, each keeping `P`: those of a micro-step, the scheduler's fields, an entry and a return, a shift
unit's and a bus unit's act, a pin's change, and the pending latch. -/
structure StepKeeps (P : State → Prop) : Prop extends Keeps P where
  sched : ∀ s ms, P s → P { s with sched := ms }
  swap : ∀ s b, P s → P { s with swap := b }
  enter : ∀ s q, canEnter s q = true → P s → P (enterIrq q s)
  leave : ∀ s, P s → P (leaveIrq s)
  shift : ∀ s i f, P s → P (updSpi i f s)
  bus : ∀ s u f x, P s → P (updI2c u (setI2cFlag f x) s)
  pin : ∀ s p n x, P s → P (envPin p n x s)
  latch : ∀ s₀ s, P s → P (latch s₀ s)

section

variable {P : State → Prop} {s t : State}

theorem makeMove_keeps (h : StepKeeps P) {m : Move} (hs : P s) (hm : makeMove m s = .next t) : P t := by
  cases m with
  | foreground b | handler q b =>
    rw [makeMove] at hm
    split at hm
    · exact (sat_iff _ _).1 (contextStep_keeps h.toKeeps _ (h.swap s b hs)) t hm
    · cases hm
      exact hs
  | enter q =>
    cases hm
    split
    · exact h.enter s q ‹_› hs
    · exact hs
  | leave =>
    cases hm
    exact h.leave s hs
  | txEmpty i | overrun i =>
    cases hm
    exact h.shift s i _ hs
  | rxFrame i v =>
    cases hm
    unfold envRxFrame
    split
    · exact hs
    · exact h.shift s i _ hs
  | i2cFlag u f x =>
    cases hm
    unfold envI2cFlag
    split
    · exact h.bus s u f x hs
    · exact hs
  | pin p n x =>
    cases hm
    exact h.pin s p n x hs

/-- A step that answers a next state has made its move, and the latch came after it. -/
theorem makeMove_of_step_eq_next (h : step s = .next t) :
    ∃ u, makeMove (nextMove s) { s with sched := s.sched.tail } = .next u ∧ t = latch s u := by
  unfold step latchOut at h
  split at h
  · cases h
    exact ⟨_, ‹_›, rfl⟩
  · cases h
  · cases h

theorem step_keeps (h : StepKeeps P) (hs : P s) (ht : step s = .next t) : P t := by
  obtain ⟨u, hu, rfl⟩ := makeMove_of_step_eq_next ht
  exact h.latch s u (makeMove_keeps h (h.sched s _ hs) hu)

end

/-! ## The parameters (10 R66) -/

theorem leaveIrq_params (s : State) : (leaveIrq s).params = s.params := by
  unfold leaveIrq
  split
  · split <;> rfl
  · rfl

/-- A pin's change reaches a port's levels and the edge detector. -/
theorem envPin_frame (p : Port) (n : BitVec 4) (x : Bool) (s : State) :
    envPin p n x s = { s with gpio := (envPin p n x s).gpio, exti := (envPin p n x s).exti } := by
  unfold envPin
  simp only []
  split
  · split <;> rfl
  · rfl

theorem stepKeeps_params (Q : Params) : StepKeeps fun s => s.params = Q where
  ctx := fun _ _ h => h
  cfg := fun _ _ _ h => h
  xfer := fun _ _ _ _ h => h
  read := fun s r h => (afterRead_params r s).trans h
  clear := fun _ _ h => h
  write := fun s r v h => (afterWrite_params r v s).trans h
  store := fun _ _ _ _ h => h
  emit := fun _ _ _ h => h
  draw := fun _ _ h => h
  sched := fun _ _ h => h
  swap := fun _ _ h => h
  enter := fun _ _ _ h => h
  leave := fun s h => (leaveIrq_params s).trans h
  shift := fun _ _ _ h => h
  bus := fun _ _ _ _ h => h
  pin := fun s p n x h => by rw [envPin_frame]; exact h
  latch := fun _ _ h => h

/-- Settles O7: no change a step is made of reaches the parameters. -/
theorem stepKeepsParameters : Obligations.StepKeepsParameters :=
  fun s _ h => step_keeps (stepKeeps_params s.params) rfl h

end Sys2Proof.Machine

namespace Sys2Proof.Machine

/-! # The edge detector and the pins (43 R192, R196) -/

theorem toNat_eq_iff {m n : BitVec 4} : m.toNat = n.toNat ↔ m = n := ⟨BitVec.eq_of_toNat_eq, congrArg _⟩

/-- PREV of the line follows, every other line's stays. -/
theorem detect_prev_getLsbD (e : ExtiRegs) (n m : BitVec 4) (x record : Bool) :
    (detect e n x record).prev.getLsbD m.toNat = if m = n then x else e.prev.getLsbD m.toNat := by
  rw [detect, setBit_getLsbD _ _ _ _ m.isLt]
  simp only [toNat_eq_iff]

/-- PR of the line is set where an edge is recorded, every other line's stays. -/
theorem detect_pr_getLsbD (e : ExtiRegs) (n m : BitVec 4) (x record : Bool) : (detect e n x record).pr.getLsbD m.toNat =
    (e.pr.getLsbD m.toNat || (decide (m = n) && (edgeHit e n x && record))) := by
  rw [detect, setBit_getLsbD _ _ _ _ m.isLt]
  simp only [toNat_eq_iff]
  by_cases h : m = n
  · simp [h]
  · simp [h]

/-! ## A change of a pin -/

/-- A port's registers with the level of pin n replaced. -/
def withLevel (n : BitVec 4) (x : Bool) (r : GpioRegs) : GpioRegs := { r with level := setBit r.level n.toNat x }

theorem levelOf_updGpio_withLevel (p q : Port) (n m : BitVec 4) (x : Bool) (s : State) :
    levelOf (updGpio p (withLevel n x) s) q m = if q = p ∧ m = n then x else levelOf s q m := by
  rw [levelOf, updGpio_gpio, PerPort.get_set]
  by_cases hq : q = p
  · subst hq
    rw [if_pos rfl, withLevel, setBit_getLsbD _ _ _ _ m.isLt]
    simp only [toNat_eq_iff, true_and, levelOf]
  · simp only [hq, if_false, false_and, levelOf]

theorem envPin_of_not_hasPort {p : Port} {s : State} (n : BitVec 4) (x : Bool) (hp : hasPort s.params p = false) :
    envPin p n x s = s := by
  simp [envPin, hp]

theorem envPin_of_not_selected {p : Port} {s : State} {n : BitVec 4} (x : Bool) (hp : hasPort s.params p = true)
    (hsel : selectedPort s n ≠ some p) : envPin p n x s = updGpio p (withLevel n x) s := by
  simp only [envPin, hp, if_true, if_neg hsel]
  rfl

theorem envPin_of_selected {p : Port} {s : State} {n : BitVec 4} (x : Bool) (hp : hasPort s.params p = true)
    (hsel : selectedPort s n = some p) :
    envPin p n x s = { updGpio p (withLevel n x) s with exti := detect s.exti n x true } := by
  simp only [envPin, hp, if_true, if_pos hsel]
  rfl

/-- Settles O42: by whether the port exists and whether the line observes it. -/
theorem detectorRecordsSelectedEdges : Obligations.DetectorRecordsSelectedEdges := by
  refine fun p n x s => ⟨fun hp => congrArg _ (envPin_of_not_hasPort n x hp), fun hp => ⟨envPin p n x s, rfl, ?_⟩⟩
  have hlevel := fun q m => levelOf_updGpio_withLevel p q n m x s
  have hgpio : (updGpio p (withLevel n x) s).gpio =
      s.gpio.set p { s.gpio.get p with level := ((updGpio p (withLevel n x) s).gpio.get p).level } := by
    simp [withLevel]
  by_cases hsel : selectedPort s n = some p
  · rw [envPin_of_selected x hp hsel]
    refine ⟨?_, hlevel, fun h => absurd hsel h, fun _ => ⟨rfl, fun m => detect_prev_getLsbD _ _ _ _ _, fun m => ?_⟩⟩
    · exact congrArg (fun g => { s with gpio := g, exti := detect s.exti n x true }) hgpio
    · rw [detect_pr_getLsbD, Bool.and_true]
      rfl
  · rw [envPin_of_not_selected x hp hsel]
    exact ⟨congrArg (fun g => { s with gpio := g }) hgpio, hlevel, fun _ => rfl, fun h => absurd h hsel⟩

end Sys2Proof.Machine

namespace Sys2Proof.Machine

/-! # The invariant

PREV follows the pin a line observes: a routing write moves it for the lines whose selection changed, a pin's change for the line that
observes it, and nothing else touches either side. -/

/-! ## A routing write (43 R196) -/

theorem routeSlot_setRouteSlot (r : AfioRegs) (k j : Fin 4) (v : BitVec 16) :
    routeSlot (setRouteSlot r k v) j = if j = k then v else routeSlot r j := by
  fin_cases k <;> fin_cases j <;> rfl

theorem mem_slotPins (k : Fin 4) (n : BitVec 4) : n ∈ slotPins k ↔ slotOf n = k := by
  decide +revert

/-- A line of another slot keeps its selection. -/
theorem selectedPort_setRouteSlot_of_ne {k : Fin 4} (v : BitVec 16) (s : State) {n : BitVec 4} (h : slotOf n ≠ k) :
    selectedPort { s with afio := setRouteSlot s.afio k v } n = selectedPort s n := by
  rw [selectedPort, routeCode, routeSlot_setRouteSlot, if_neg h]
  rfl

theorem selectedPort_detectReroute (old s : State) (n m : BitVec 4) :
    selectedPort (detectReroute old s n) m = selectedPort s m :=
  selectedPort_congr m (detectReroute_afio old s n) (detectReroute_params old s n)

theorem levelOf_congr {s t : State} (h : t.gpio = s.gpio) (p : Port) (n : BitVec 4) : levelOf t p n = levelOf s p n := by
  rw [levelOf, h, levelOf]

/-- The detector's step for one line: PREV of that line follows the new pin if the selection has changed. -/
theorem detectReroute_prev_getLsbD (old : State) {s : State} (n : BitVec 4) {m : BitVec 4} {p : Port}
    (hsel : selectedPort s m = some p) : (detectReroute old s n).exti.prev.getLsbD m.toNat =
      if m = n ∧ selectedPort old m ≠ some p then levelOf s p m else s.exti.prev.getLsbD m.toNat := by
  by_cases hmn : m = n
  · subst hmn
    by_cases hold : selectedPort old m = some p <;> simp [detectReroute, hsel, hold, detect_prev_getLsbD]
  · simp only [hmn, false_and, if_false, detectReroute]
    split
    · rfl
    · split
      · rfl
      · rw [detect_prev_getLsbD, if_neg hmn]

/-- The same for the detector's steps of several lines. -/
theorem foldl_detectReroute_prev_getLsbD (old : State) (ns : List (BitVec 4)) {s : State} {m : BitVec 4} {p : Port}
    (hsel : selectedPort s m = some p) : (ns.foldl (detectReroute old) s).exti.prev.getLsbD m.toNat =
      if m ∈ ns ∧ selectedPort old m ≠ some p then levelOf s p m else s.exti.prev.getLsbD m.toNat := by
  induction ns generalizing s with
  | nil => simp
  | cons n ns ih =>
    rw [List.foldl_cons, ih ((selectedPort_detectReroute old s n m).trans hsel), detectReroute_prev_getLsbD old n hsel,
      levelOf_congr (detectReroute_gpio old s n)]
    simp only [List.mem_cons]
    by_cases hold : selectedPort old m = some p
    · simp only [hold, ne_eq, not_true_eq_false, and_false, if_false]
    · by_cases hns : m ∈ ns
      · simp only [hold, hns, ne_eq, not_false_eq_true, and_true, if_true, or_true]
      · simp only [hold, hns, ne_eq, not_false_eq_true, and_true, if_false, or_false]

/-- PREV[n] is the level of the pin line n observes. -/
def PrevFollows (s : State) : Prop := ∀ n p, selectedPort s n = some p → s.exti.prev.getLsbD n.toNat = levelOf s p n

theorem PrevFollows.congr {s t : State} (h : PrevFollows s) (hprev : t.exti.prev = s.exti.prev) (hafio : t.afio = s.afio)
    (hlevel : ∀ p n, levelOf t p n = levelOf s p n) (hparams : t.params = s.params) : PrevFollows t := by
  intro n p hsel
  rw [selectedPort_congr n hafio hparams] at hsel
  rw [hprev, hlevel]
  exact h n p hsel

theorem PrevFollows.writeRoute {s : State} (h : PrevFollows s) (k : Fin 4) (v : BitVec 16) : PrevFollows (writeRoute k v s) := by
  intro n p hsel
  rw [selectedPort_congr (s := { s with afio := setRouteSlot s.afio k v }) n (writeRoute_afio ..) (writeRoute_params ..)] at hsel
  rw [levelOf_congr (writeRoute_gpio k v s), Machine.writeRoute, foldl_detectReroute_prev_getLsbD s _ hsel]
  split
  · rfl
  · rename_i hsame
    by_cases hk : slotOf n = k
    · refine h n p (not_not.1 fun hold => hsame ⟨(mem_slotPins k n).2 hk, hold⟩)
    · rw [selectedPort_setRouteSlot_of_ne v s hk] at hsel
      exact h n p hsel

theorem PrevFollows.envPin {s : State} (h : PrevFollows s) (p : Port) (n : BitVec 4) (x : Bool) : PrevFollows (envPin p n x s) := by
  cases hp : hasPort s.params p with
  | false => rwa [envPin_of_not_hasPort n x hp]
  | true =>
    have hlevel := fun q m => levelOf_updGpio_withLevel p q n m x s
    by_cases hsel : selectedPort s n = some p
    · rw [envPin_of_selected x hp hsel]
      intro m q hm
      refine (detect_prev_getLsbD s.exti n m x true).trans (Eq.trans ?_ (hlevel q m).symm)
      by_cases hmn : m = n
      · subst hmn
        have hq : q = p := Option.some.inj (hm.symm.trans hsel)
        simp [hq]
      · simpa [hmn] using h m q hm
    · rw [envPin_of_not_selected x hp hsel]
      intro m q hm
      rw [hlevel, if_neg]
      · exact h m q hm
      · rintro ⟨rfl, rfl⟩
        exact hsel hm

/-! ## A register write -/

theorem levelOf_updGpio {p : Port} {f : GpioRegs → GpioRegs} (hf : ∀ r, (f r).level = r.level) (s : State) (q : Port) (n : BitVec 4) :
    levelOf (updGpio p f s) q n = levelOf s q n := by
  rw [levelOf, updGpio_gpio, PerPort.get_set]
  split
  · next h => rw [hf, h, levelOf]
  · rfl

theorem PrevFollows.afterWrite {s : State} (h : PrevFollows s) (r : Reg) (v : Word) : PrevFollows (afterWrite r v s) := by
  cases r with
  | gpio p r =>
    cases r with
    | idr => exact h
    | crl | crh | odr | bsrr | brr | lckr => exact h.congr rfl rfl (levelOf_updGpio (fun _ => by rfl) s) rfl
  | afio r =>
    cases r with
    | exticr k => exact h.writeRoute k _
    | evcr | mapr => exact h
  | spi _ r | exti r | i2c _ r | rcc r | nvic r => cases r <;> exact h

/-- START and STOP read 0 (10 R55). -/
def NoRequest (r : I2cRegs) : Prop := r.cr1.getLsbD bitStart = false ∧ r.cr1.getLsbD bitStop = false

theorem noRequest_set {x : PerI2c I2cRegs} {u : I2cId} {r : I2cRegs} (hx : ∀ w, NoRequest (x.get w)) (hr : NoRequest r) (w : I2cId) :
    NoRequest ((x.set u r).get w) := by
  rw [PerI2c.get_set]
  split
  · exact hr
  · exact hx w

theorem noRequest_without_requests (v : Word) (r : I2cRegs) :
    NoRequest { r with cr1 := setBit (setBit v bitStart false) bitStop false } := by
  constructor
  · rw [setBit_getLsbD _ _ _ _ (by decide), if_neg (by decide), setBit_getLsbD _ _ _ _ (by decide), if_pos rfl]
  · rw [setBit_getLsbD _ _ _ _ (by decide), if_pos rfl]

/-- CR1 stores neither request, and no other access of the unit changes CR1. -/
theorem afterWrite_noRequest {s : State} (h : ∀ w, NoRequest (s.i2c.get w)) (r : Reg) (v : Word) :
    ∀ w, NoRequest ((afterWrite r v s).i2c.get w) := by
  cases r with
  | i2c u r =>
    cases r with
    | cr1 => exact noRequest_set h (noRequest_without_requests v (s.i2c.get u))
    | sr1 | sr2 => exact h
    | cr2 | oar1 | oar2 | dr | ccr | trise => exact noRequest_set h (h u)
  | afio r =>
    cases r with
    | exticr k => simpa only [afterWrite, writeRoute_i2c] using h
    | evcr | mapr => exact h
  | spi _ r | exti r | gpio _ r | rcc r | nvic r => cases r <;> exact h

theorem afterRead_noRequest {s : State} (h : ∀ w, NoRequest (s.i2c.get w)) (r : Reg) : ∀ w, NoRequest ((afterRead r s).i2c.get w) := by
  cases r with
  | i2c u r =>
    cases r with
    | sr1 | sr2 => exact noRequest_set h (h u)
    | cr1 | cr2 | oar1 | oar2 | dr | ccr | trise => exact h
  | spi _ r => cases r <;> exact h
  | exti r | gpio _ r | rcc r | nvic r | afio r => exact h

/-! ## Entering and returning -/

theorem not_mem_active_of_canEnter {s : State} {q : Irq} (h : canEnter s q = true) : q ∉ active s := by
  simp only [canEnter, candidate, Bool.and_eq_true, Bool.not_eq_true', List.contains_eq_mem, decide_eq_false_iff_not] at h
  obtain ⟨⟨⟨-, hq⟩, -⟩, -⟩ := h
  exact hq

theorem leaveIrq_eq (s : State) :
    leaveIrq s = s ∨ ∃ q c rest, s.frozen = (q, c) :: rest ∧ finished s = true ∧
      leaveIrq s = { s with ctx := c, frozen := rest } := by
  unfold leaveIrq
  split
  · rename_i e rest hfrozen
    split
    · exact .inr ⟨e.1, e.2, rest, hfrozen, ‹_›, rfl⟩
    · exact .inl rfl
  · exact .inl rfl

/-! ## Every step -/

theorem stepKeeps_inv : StepKeeps Inv where
  ctx := fun _ _ h => ⟨h.memory, h.activeOnce, h.previous, h.requests⟩
  cfg := fun _ _ _ h => ⟨h.memory, h.activeOnce, h.previous, h.requests⟩
  xfer := fun _ _ _ _ h => ⟨h.memory, h.activeOnce, h.previous, h.requests⟩
  read := fun s r h => {
    memory := by simpa using h.memory
    activeOnce := by simpa [active] using h.activeOnce
    previous := PrevFollows.congr h.previous (by simp) (by simp) (levelOf_congr (by simp)) (by simp)
    requests := afterRead_noRequest h.requests r }
  clear := fun _ _ h => ⟨h.memory, h.activeOnce, h.previous, h.requests⟩
  write := fun s r v h => {
    memory := by simpa using h.memory
    activeOnce := by simpa [active] using h.activeOnce
    previous := PrevFollows.afterWrite h.previous r v
    requests := afterWrite_noRequest h.requests r v }
  store := fun s a v _ h => ⟨putByte_wf a v s h.memory, h.activeOnce, h.previous, h.requests⟩
  emit := fun _ _ _ h => ⟨h.memory, h.activeOnce, h.previous, h.requests⟩
  draw := fun _ _ h => ⟨h.memory, h.activeOnce, h.previous, h.requests⟩
  sched := fun _ _ h => ⟨h.memory, h.activeOnce, h.previous, h.requests⟩
  swap := fun _ _ h => ⟨h.memory, h.activeOnce, h.previous, h.requests⟩
  enter := fun _ _ hq h => ⟨h.memory, List.nodup_cons.2 ⟨not_mem_active_of_canEnter hq, h.activeOnce⟩, h.previous, h.requests⟩
  leave := fun s h => by
    obtain hst | ⟨q, c, rest, hfrozen, -, hst⟩ := leaveIrq_eq s <;> rw [hst]
    · exact h
    · have hactive := h.activeOnce
      rw [active_of_frozen hfrozen] at hactive
      exact ⟨h.memory, (List.nodup_cons.1 hactive).2, h.previous, h.requests⟩
  shift := fun _ _ _ h => ⟨h.memory, h.activeOnce, h.previous, h.requests⟩
  bus := fun s u f x h => ⟨h.memory, h.activeOnce, h.previous, noRequest_set h.requests (by cases f <;> exact h.requests u)⟩
  pin := fun s p n x h => {
    memory := by rw [envPin_frame]; exact h.memory
    activeOnce := by rw [envPin_frame]; exact h.activeOnce
    previous := PrevFollows.envPin h.previous p n x
    requests := by rw [envPin_frame]; exact h.requests }
  latch := fun _ _ h => ⟨h.memory, h.activeOnce, h.previous, h.requests⟩

/-- Settles O5: every change a step is made of keeps each clause of the invariant. -/
theorem stepKeepsInvariant : Obligations.StepKeepsInvariant := fun _ _ hs h => step_keeps stepKeeps_inv hs h

/-- Settles O6: at reset no pin is observed at a level other than PREV's, both being 0, and no register holds a request. -/
theorem resetMeetsInvariant : Obligations.ResetMeetsInvariant := by
  refine ⟨⟨Memory.reset_wf, List.nodup_nil, fun n p _ => ?_, fun u => ?_⟩, Params.reset_wf⟩
  · simp [State.reset, levelOf, GpioRegs.reset]
  · simp [State.reset, I2cRegs.reset]

end Sys2Proof.Machine

namespace Sys2Proof.Machine

/-! # Request lines (60 R242, R243, 43 R191, R197) -/

/-- A mask with the request bits of some sources added has the bits it had and those of the sources that request. -/
theorem foldl_request_getLsbD {α : Type} (irq : α → Irq) (req : α → Bool) (xs : List α) (m : BitVec 256) (q : Irq) :
    (xs.foldl (fun m x => m ||| irqBit (irq x) (req x)) m).getLsbD q.val = true ↔
      m.getLsbD q.val = true ∨ ∃ x ∈ xs, irq x = q ∧ req x = true := by
  induction xs generalizing m with
  | nil => simp
  | cons x xs ih =>
    have hbit : (irqBit (irq x) (req x)).getLsbD q.val = true ↔ irq x = q ∧ req x = true := by
      rw [irqBit_getLsbD, Bool.and_eq_true, decide_eq_true_eq, Fin.val_inj, and_comm, eq_comm]
    rw [List.foldl_cons, ih, BitVec.getLsbD_or, Bool.or_eq_true, hbit, or_assoc]
    simp

theorem spiReq_eq_true_iff (s : State) (i : SpiId) : spiReq s i = true ↔
    ((s.spi.get i).txe = true ∧ (s.spi.get i).cr2.getLsbD bitTxeie = true) ∨
      ((s.spi.get i).rxne = true ∧ (s.spi.get i).cr2.getLsbD bitRxneie = true) ∨
      ((s.spi.get i).ovr = true ∧ (s.spi.get i).cr2.getLsbD bitErrie = true) := by
  simp only [spiReq, Bool.or_eq_true, Bool.and_eq_true, or_assoc]

theorem extiReq_eq_true_iff (s : State) (n : BitVec 4) : extiReq s n = true ↔
    s.exti.pr.getLsbD n.toNat = true ∧ s.exti.imr.getLsbD n.toNat = true := by
  rw [extiReq, Bool.and_eq_true]

theorem mem_allPins (n : BitVec 4) : n ∈ allPins := by decide +revert

/-- A request line is the OR of the requests of its sources. -/
theorem line_eq_true_iff (s : State) (q : Irq) : line s q = true ↔
    (∃ i, irqOfSpi s.params i = q ∧ spiReq s i = true) ∨ ∃ n, irqOfLine s.params n = q ∧ extiReq s n = true := by
  have hspi : (irqBit (irqOfSpi s.params .spi1) (spiReq s .spi1) ||| irqBit (irqOfSpi s.params .spi2) (spiReq s .spi2) |||
      irqBit (irqOfSpi s.params .spi3) (spiReq s .spi3)).getLsbD q.val = true ↔
      ∃ i, irqOfSpi s.params i = q ∧ spiReq s i = true := by
    have h := foldl_request_getLsbD (irqOfSpi s.params) (spiReq s) [.spi1, .spi2, .spi3] 0#256 q
    simp only [List.foldl_cons, List.foldl_nil, BitVec.zero_or, BitVec.getLsbD_zero, Bool.false_eq_true, false_or] at h
    rw [h]
    exact ⟨fun ⟨i, _, hi⟩ => ⟨i, hi⟩, fun ⟨i, hi⟩ => ⟨i, by cases i <;> decide, hi⟩⟩
  rw [line, lineWord, foldl_request_getLsbD, hspi]
  simp only [mem_allPins, true_and]

/-- Lines 5 to 9 share one IRQ (60 R242). -/
theorem irqOfLine_of_mem_5_9 (P : Params) {n : BitVec 4} (hlo : 5 ≤ n.toNat) (hhi : n.toNat ≤ 9) :
    irqOfLine P n = P.irqs.lines5to9 := by
  have hn : n.toNat = 5 ∨ n.toNat = 6 ∨ n.toNat = 7 ∨ n.toNat = 8 ∨ n.toNat = 9 := by omega
  rcases hn with hn | hn | hn | hn | hn <;> simp only [irqOfLine, hn]

/-- Lines 10 to 15 share one IRQ (60 R242). -/
theorem irqOfLine_of_ge_10 (P : Params) {n : BitVec 4} (hlo : 10 ≤ n.toNat) : irqOfLine P n = P.irqs.lines10to15 := by
  unfold irqOfLine
  split <;> first | rfl | omega

theorem irqOfLine_reset (n : BitVec 4) : (irqOfLine Params.reset n).val =
    if n.toNat ≤ 4 then 6 + n.toNat else if n.toNat ≤ 9 then 23 else 40 := by
  decide +revert

/-- Settles O43: a line is the OR of its sources' requests; the shared and the default numbers are read off `irqOfLine`. -/
theorem requestLines : Obligations.RequestLines := by
  refine ⟨fun s q => ?_, fun P n m h => ?_, irqOfLine_reset, rfl, rfl, rfl, fun n m => ?_⟩
  · simp only [line_eq_true_iff, spiReq_eq_true_iff, extiReq_eq_true_iff]
  · obtain ⟨hn, hn', hm, hm'⟩ | ⟨hn, hm⟩ := h
    · rw [irqOfLine_of_mem_5_9 P hn hn', irqOfLine_of_mem_5_9 P hm hm']
    · rw [irqOfLine_of_ge_10 P hn, irqOfLine_of_ge_10 P hm]
  · rw [← Fin.val_inj, irqOfLine_reset, irqOfLine_reset, ← toNat_eq_iff]
    have hn := n.isLt
    have hm := m.isLt
    split_ifs <;> omega

end Sys2Proof.Machine

namespace Sys2Proof.Machine

/-! # Entries and the stack of contexts (60 R248 to R251) -/

theorem candidate_eq_true_iff (s : State) (q : Irq) : candidate s q = true ↔
    q.val < s.params.nIrq ∧ s.nvic.pend.getLsbD q.val = true ∧ s.nvic.en.getLsbD q.val = true ∧ q ∉ active s ∧
      ∀ a ∈ active s, higher s.params (prioOf s q) (prioOf s a) = true := by
  simp only [candidate, hasIrq, Bool.and_eq_true, decide_eq_true_eq, Bool.not_eq_true', List.contains_eq_mem,
    decide_eq_false_iff_not, List.all_eq_true, and_assoc]

theorem mem_candidates (s : State) (q : Irq) : q ∈ candidates s ↔ candidate s q = true := by
  rw [candidates, List.mem_filter]
  exact and_iff_right (List.mem_finRange q)

theorem canEnter_eq_true_iff (s : State) (q : Irq) : canEnter s q = true ↔
    candidate s q = true ∧ ∀ r, candidate s r = true → higher s.params (prioOf s r) (prioOf s q) = false := by
  simp only [canEnter, Bool.and_eq_true, List.all_eq_true, mem_candidates, Bool.not_eq_true']

/-- Settles O45: the conditions of `candidate` and of `canEnter`, spelled out. -/
theorem entryCondition : Obligations.EntryCondition := by
  refine ⟨fun s q => ?_, fun P p r h => ?_⟩
  · simp only [canEnter_eq_true_iff, candidate_eq_true_iff, and_imp]
  · rw [higher_of_numeric h, decide_eq_true_eq]

/-- Settles O46: `enterIrq` where the entry is enabled, no step where it is not. -/
theorem entryFreezesThePreemptedContext : Obligations.EntryFreezesThePreemptedContext := by
  refine fun s q => ⟨fun h => ⟨enterIrq q s, ?_, rfl, fun r => enterIrq_pend_getLsbD q r s, rfl⟩, fun h => ?_⟩
  · rw [makeMove_enter, if_pos h]
  · rw [makeMove_enter, h]
    rfl

/-- No micro-step reaches the stack of frozen contexts. -/
theorem keeps_frozen (f : List (Irq × Context)) : Keeps fun s => s.frozen = f where
  ctx := fun _ _ h => h
  cfg := fun _ _ _ h => h
  xfer := fun _ _ _ _ h => h
  read := fun s r h => (afterRead_frozen r s).trans h
  clear := fun _ _ h => h
  write := fun s r v h => (afterWrite_frozen r v s).trans h
  store := fun _ _ _ _ h => h
  emit := fun _ _ _ h => h
  draw := fun _ _ h => h

theorem makeMove_foreground_of_frozen {s : State} (b : Bool) (h : s.frozen ≠ []) : makeMove (.foreground b) s = .next s := by
  obtain ⟨e, rest, he⟩ := List.exists_cons_of_ne_nil h
  rw [makeMove, runner_of_cons he, if_neg (by simp)]

theorem makeMove_handler_of_not_innermost {s : State} {q : Irq} (b : Bool) (h : (active s).head? ≠ some q) :
    makeMove (.handler q b) s = .next s := by
  rw [makeMove, if_neg]
  unfold runner
  split
  · simp
  · rename_i e rest he
    rintro ⟨⟩
    exact h (by simp [active, he])

/-- What a move does to the stack of contexts: nothing, a pre-emption of the running context by an enabled entry, or the return of a
finished handler. -/
theorem makeMove_frozen {m : Move} {s t : State} (h : makeMove m s = .next t) :
    t.frozen = s.frozen ∨ (∃ q, canEnter s q = true ∧ t = enterIrq q s) ∨
      ∃ q c rest, s.frozen = (q, c) :: rest ∧ finished s = true ∧ t = { s with ctx := c, frozen := rest } := by
  cases m with
  | foreground b | handler q b =>
    rw [makeMove] at h
    split at h
    · exact .inl ((sat_iff _ _).1 (contextStep_keeps (keeps_frozen s.frozen) { s with swap := b } rfl) t h)
    · cases h
      exact .inl rfl
  | enter q =>
    cases h
    split
    · exact .inr (.inl ⟨q, ‹_›, rfl⟩)
    · exact .inl rfl
  | leave =>
    cases h
    obtain hst | ⟨q, c, rest, hfrozen, hfin, hst⟩ := leaveIrq_eq s <;> rw [hst]
    · exact .inl rfl
    · exact .inr (.inr ⟨q, c, rest, hfrozen, hfin, rfl⟩)
  | txEmpty i | overrun i =>
    cases h
    exact .inl rfl
  | rxFrame i v =>
    cases h
    unfold envRxFrame
    split <;> exact .inl rfl
  | i2cFlag u f x =>
    cases h
    unfold envI2cFlag
    split <;> exact .inl rfl
  | pin p n x =>
    cases h
    rw [envPin_frame]
    exact .inl rfl

/-- Settles O48: the latch touches no context, and the move before it is one of the three of `makeMove_frozen`. -/
theorem frozenContextsTakeNoStep : Obligations.FrozenContextsTakeNoStep := by
  refine ⟨fun s t h => ?_, fun s b => ⟨makeMove_foreground_of_frozen b, fun q => makeMove_handler_of_not_innermost b⟩⟩
  obtain ⟨u, hu, rfl⟩ := makeMove_of_step_eq_next h
  obtain hsame | ⟨q, hq, rfl⟩ | ⟨q, c, rest, hfrozen, hfin, rfl⟩ := makeMove_frozen hu
  · exact .inl hsame
  · have hcand := (candidate_eq_true_iff _ _).1 ((canEnter_eq_true_iff _ _).1 hq).1
    obtain ⟨-, -, -, -, hprio⟩ := hcand
    exact .inr (.inl ⟨q, rfl, hprio⟩)
  · exact .inr (.inr ⟨q, hfrozen, hfin⟩)

end Sys2Proof.Machine

namespace Sys2Proof.Machine

/-! # The running context's move, its commands and its callbacks (30 R101, 42 R170) -/

theorem contextStep_of_decode {s : State} {w : Word} {i : Instr} (hop : s.ctx.act.op = some w) (hd : decode s.params w = .ok i) :
    contextStep s = exec i s := by
  simp only [contextStep, hop, hd]

theorem contextStep_of_none {s : State} (hop : s.ctx.act.op = none) : contextStep s = issue s := by
  simp only [contextStep, hop]

/-- A step whose move is the running context's. -/
theorem step_of_runnerMove {s : State} {b : Bool} (h : nextMove s = runnerMove s b) :
    step s = latchOut s (contextStep { s with sched := s.sched.tail, swap := b }) := by
  rw [step, h]
  exact congrArg (latchOut s) (makeMove_runnerMove { s with sched := s.sched.tail } b)

/-- With nothing scheduled and nothing to enter, a context whose command is in progress has the move (log 2). -/
theorem nextMove_of_nil {s : State} (hsched : s.sched = []) (hc : candidates s = []) (hop : s.ctx.act.op ≠ none) :
    nextMove s = runnerMove s false := by
  obtain ⟨w, hw⟩ := Option.ne_none_iff_exists'.1 hop
  have hfin : finished s = false := by simp [finished, hw]
  simp [nextMove, hsched, defaultMove, hc, hfin]

/-- A 32-bit word is fetched as it is. -/
theorem withFetchWord_toNat (s : State) (w : Word) :
    s.withFetchWord 32 w.toNat = { startCommand w s with sched := runnerMove s false :: s.sched } := by
  rw [State.withFetchWord, Nat.mod_eq_of_lt w.isLt, BitVec.ofNat_toNat, BitVec.setWidth_eq]

/-- Settles O4: in each clause the move is the running context's, and its micro-step is the decoded command's. -/
theorem stepRunsDecodedInstruction : Obligations.StepRunsDecodedInstruction := by
  refine ⟨fun s w i b rest hsched hop hd => ?_, fun s w i hsched hc hop hd => ?_, fun s w i hd => ?_⟩
  · have hmove : nextMove s = runnerMove s b := by rw [nextMove, hsched]
    rw [step_of_runnerMove hmove, hsched]
    exact congrArg (latchOut s) (contextStep_of_decode (s := { s with sched := rest, swap := b }) hop hd)
  · rw [step_of_runnerMove (nextMove_of_nil hsched hc (by simp [hop])), hsched]
    exact congrArg (latchOut s) (contextStep_of_decode (s := { s with sched := [], swap := false }) hop hd)
  · rw [step_of_runnerMove (s := s.withFetchWord 32 w.toNat) (b := false) rfl, withFetchWord_toNat]
    exact congrArg (latchOut _) (contextStep_of_decode (s := { startCommand w s with swap := false }) rfl hd)

/-- Settles O37: `issue` on each of the three port operations. -/
theorem commandsAreIssuedThroughThePort : Obligations.CommandsAreIssuedThroughThePort := by
  refine fun s v rest hop => ⟨fun h => ?_, fun h => ?_, fun h => ?_⟩ <;> rw [contextStep_of_none hop, issue, h] <;> rfl

theorem callbackPort_emitCallback (i : SpiId) (ev : Event) (p : Nat) (s : State) :
    callbackPort (emitCallback i ev p s) = callbackPort s ++ [(i.number, ev.code)] := by
  rw [emitCallback_frame]
  simp [callbackPort]

/-- A callback's last operation done, the innermost waiting dispatch goes on (42 R170). -/
theorem issue_of_done {s : State} {a : Act} {below : List Act} (htodo : s.ctx.act.todo = []) (hbelow : s.ctx.below = a :: below) :
    issue s = .next { s with ctx := { s.ctx with act := a, below := below } } := by
  simp only [issue, htodo, hbelow]

/-- Settles O36: recording, running and ending a callback, each by its equation. -/
theorem callbackRunsBeforeTheDispatchGoesOn : Obligations.CallbackRunsBeforeTheDispatchGoesOn := by
  refine fun i ev p s op ops => ⟨rfl, ?_, emitCallback_of_nil, emitCallback_of_cons, fun h => ?_, fun a below hop htodo hbelow => ?_⟩
  · rw [callbackPort_emitCallback]
    cases ev <;> rfl
  · simp [callbackOps, h]
  · rw [contextStep_of_none hop, issue_of_done htodo hbelow]

end Sys2Proof.Machine

namespace Sys2Proof.Machine

/-! # What a register write shows (20 R75, R82, R85)

Each register reads one piece of the state, so a write of one register is seen by no other, but for the ones that share a piece: PR
after a re-routing, ISER and ICER, and the free reads of I2C DR. -/

/-! ## Other registers of the same unit -/

theorem regVal_spi_congr {s t : State} {i : SpiId} (x : SpiReg) (h : t.spi.get i = s.spi.get i) :
    regVal (.spi i x) t = regVal (.spi i x) s := by
  cases x <;> simp only [regVal, h]

theorem regVal_gpio_congr {s t : State} {p : Port} (x : GpioReg) (h : t.gpio.get p = s.gpio.get p) :
    regVal (.gpio p x) t = regVal (.gpio p x) s := by
  cases x <;> simp only [regVal, h]

theorem regVal_i2c_congr {s t : State} {u : I2cId} (x : I2cReg) (h : t.i2c.get u = s.i2c.get u) (hd : t.draws = s.draws) :
    regVal (.i2c u x) t = regVal (.i2c u x) s := by
  cases x <;> simp only [regVal, h, hd]

theorem regVal_afterWrite_gpio_of_ne {p : Port} {x : GpioReg} {q : Reg} (v : Word) (s : State) (h : q ≠ .gpio p x) :
    regVal q (afterWrite (.gpio p x) v s) = regVal q s := by
  cases q with
  | gpio p' x' =>
    by_cases hp : p' = p
    · subst hp
      cases x <;> cases x' <;> first | exact absurd rfl h | simp [afterWrite, regVal]
    · refine regVal_gpio_congr x' ?_
      cases x <;> first | rfl | exact (PerPort.get_set _ _ _ _).trans (if_neg hp)
  | spi _ y | exti y | i2c _ y | rcc y | nvic y => cases x <;> cases y <;> rfl
  | afio y => cases x <;> cases y <;> rfl

/-- CR1 is left out: its requests draw a free value, which a read of DR shows (logs 14 and 19). -/
theorem regVal_afterWrite_i2c_of_ne {u : I2cId} {x : I2cReg} {q : Reg} (hx : x ≠ .cr1) (v : Word) (s : State) (h : q ≠ .i2c u x) :
    regVal q (afterWrite (.i2c u x) v s) = regVal q s := by
  cases q with
  | i2c u' x' =>
    by_cases hu : u' = u
    · subst hu
      cases x <;> cases x' <;> first | exact absurd rfl h | exact absurd rfl hx | simp [afterWrite, regVal, writeI2cDr, sr1Word]
    · refine regVal_i2c_congr x' ?_ ?_
      · cases x <;> first | exact absurd rfl hx | rfl | exact (PerI2c.get_set _ _ _ _).trans (if_neg hu)
      · cases x <;> first | exact absurd rfl hx | rfl
  | spi _ y | exti y | gpio _ y | rcc y | nvic y => cases x <;> first | exact absurd rfl hx | (cases y <;> rfl)
  | afio y => cases x <;> first | exact absurd rfl hx | (cases y <;> rfl)

theorem regVal_afterWrite_exti_of_ne {x : ExtiReg} {q : Reg} (v : Word) (s : State) (h : q ≠ .exti x) :
    regVal q (afterWrite (.exti x) v s) = regVal q s := by
  cases q with
  | exti y => cases x <;> cases y <;> first | exact absurd rfl h | rfl
  | spi _ y | gpio _ y | i2c _ y | rcc y | nvic y | afio y => cases x <;> cases y <;> rfl

theorem regVal_afterWrite_evcr_of_ne {q : Reg} (v : Word) (s : State) (h : q ≠ .afio .evcr) :
    regVal q (afterWrite (.afio .evcr) v s) = regVal q s := by
  cases q with
  | afio y => cases y <;> first | exact absurd rfl h | rfl
  | spi _ y | exti y | gpio _ y | i2c _ y | rcc y | nvic y => cases y <;> rfl

theorem regVal_afterWrite_mapr_of_ne {q : Reg} (v : Word) (s : State) (h : q ≠ .afio .mapr) :
    regVal q (afterWrite (.afio .mapr) v s) = regVal q s := by
  cases q with
  | afio y => cases y <;> first | exact absurd rfl h | rfl
  | spi _ y | exti y | gpio _ y | i2c _ y | rcc y | nvic y => cases y <;> rfl

/-! ## Registers without a rule -/

theorem storage_gpio {x : GpioReg} (hx : x ∈ [GpioReg.bsrr, .brr, .lckr]) (p : Port) (v : Word) (s : State) :
    regVal (.gpio p x) (afterWrite (.gpio p x) v s) = v ∧ afterRead (.gpio p x) s = s ∧
      ∀ q, q ≠ .gpio p x → regVal q (afterWrite (.gpio p x) v s) = regVal q s := by
  refine ⟨?_, rfl, fun q => regVal_afterWrite_gpio_of_ne v s⟩
  simp only [List.mem_cons, List.not_mem_nil, or_false] at hx
  rcases hx with rfl | rfl | rfl <;> simp [afterWrite, regVal]

theorem storage_i2c {x : I2cReg} (hx : x ∈ [I2cReg.cr2, .oar1, .oar2, .ccr, .trise]) (u : I2cId) (v : Word) (s : State) :
    regVal (.i2c u x) (afterWrite (.i2c u x) v s) = v ∧ afterRead (.i2c u x) s = s ∧
      ∀ q, q ≠ .i2c u x → regVal q (afterWrite (.i2c u x) v s) = regVal q s := by
  have hcr1 : x ≠ .cr1 := by
    rintro rfl
    revert hx
    decide
  refine ⟨?_, ?_, fun q => regVal_afterWrite_i2c_of_ne hcr1 v s⟩
  all_goals
    simp only [List.mem_cons, List.not_mem_nil, or_false] at hx
    rcases hx with rfl | rfl | rfl | rfl | rfl <;> simp [afterWrite, afterRead, regVal]

/-- Settles O12: unit by unit, the write is one field's, which the read gives back and no other register shows. -/
theorem registersWithoutRuleAreStorage : Obligations.RegistersWithoutRuleAreStorage := by
  refine fun p u v s => ⟨fun r hr => ?_, rfl, rfl, rfl, rfl, rfl, rfl, rfl, rfl, rfl, rfl, rfl, rfl⟩
  simp only [List.mem_cons, List.not_mem_nil, or_false] at hr
  rcases hr with rfl | rfl | rfl | rfl | rfl | rfl | rfl | rfl | rfl | rfl | rfl | rfl | rfl
  · exact ⟨rfl, rfl, fun q => regVal_afterWrite_exti_of_ne v s⟩
  · exact ⟨rfl, rfl, fun q => regVal_afterWrite_exti_of_ne v s⟩
  · exact ⟨rfl, rfl, fun q => regVal_afterWrite_evcr_of_ne v s⟩
  · exact ⟨rfl, rfl, fun q => regVal_afterWrite_mapr_of_ne v s⟩
  · exact storage_gpio (by decide) p v s
  · exact storage_gpio (by decide) p v s
  · exact storage_gpio (by decide) p v s
  · exact storage_i2c (by decide) u v s
  · exact storage_i2c (by decide) u v s
  · exact storage_i2c (by decide) u v s
  · exact storage_i2c (by decide) u v s
  · exact storage_i2c (by decide) u v s

/-! ## Registers with a rule -/

/-- CR1 and CR2 hold no flag; the latch their write clears is no bit of a register. -/
theorem regVal_afterWrite_spi_of_ne {i : SpiId} {x : SpiReg} {q : Reg} (hx : x = .cr1 ∨ x = .cr2) (v : Word) (s : State)
    (h : q ≠ .spi i x) : regVal q (afterWrite (.spi i x) v s) = regVal q s := by
  cases q with
  | spi i' x' =>
    by_cases hi : i' = i
    · subst hi
      rcases hx with rfl | rfl <;> cases x' <;> first | exact absurd rfl h | simp [afterWrite, regVal, writeSpi, srWord]
    · refine regVal_spi_congr x' ?_
      rcases hx with rfl | rfl <;> exact PerSpi.get_set_ne _ _ hi
  | exti y | afio y | gpio _ y | i2c _ y | rcc y | nvic y => rcases hx with rfl | rfl <;> cases y <;> rfl

theorem regVal_afterWrite_rcc_of_ne {x : RccReg} {q : Reg} (v : Word) (s : State) (h : q ≠ .rcc x) :
    regVal q (afterWrite (.rcc x) v s) = regVal q s := by
  cases q with
  | rcc y => cases x <;> cases y <;> first | exact absurd rfl h | rfl
  | spi _ y | exti y | afio y | gpio _ y | i2c _ y | nvic y => cases x <;> cases y <;> rfl

/-! ### Routing -/

/-- The detector's steps move PR, PREV and the draw counter only. -/
theorem foldl_detectReroute_frame (old : State) (ns : List (BitVec 4)) (s : State) :
    ∃ (pr prev : BitVec 16) (d : Nat), ns.foldl (detectReroute old) s =
      { s with exti := { s.exti with pr := pr, prev := prev }, draws := d } := by
  induction ns generalizing s with
  | nil => exact ⟨s.exti.pr, s.exti.prev, s.draws, rfl⟩
  | cons n ns ih =>
    have hone : ∃ (pr prev : BitVec 16) (d : Nat), detectReroute old s n =
        { s with exti := { s.exti with pr := pr, prev := prev }, draws := d } := by
      unfold detectReroute
      split
      · exact ⟨s.exti.pr, s.exti.prev, s.draws, rfl⟩
      · split
        · exact ⟨s.exti.pr, s.exti.prev, s.draws, rfl⟩
        · exact ⟨_, _, _, rfl⟩
    obtain ⟨pr, prev, d, hone⟩ := hone
    obtain ⟨pr', prev', d', hrest⟩ := ih (detectReroute old s n)
    exact ⟨pr', prev', d', by rw [List.foldl_cons, hrest, hone]⟩

theorem writeRoute_frame (k : Fin 4) (v : BitVec 16) (s : State) : ∃ (pr prev : BitVec 16) (d : Nat), writeRoute k v s =
    { s with afio := setRouteSlot s.afio k v, exti := { s.exti with pr := pr, prev := prev }, draws := d } :=
  foldl_detectReroute_frame s (slotPins k) { s with afio := setRouteSlot s.afio k v }

theorem regVal_afterWrite_exticr_of_ne {k : Fin 4} {q : Reg} (v : Word) (s : State) (h : q ≠ .afio (.exticr k))
    (hpr : q ≠ .exti .pr) (hdr : ∀ u, q ≠ .i2c u .dr) : regVal q (afterWrite (.afio (.exticr k)) v s) = regVal q s := by
  obtain ⟨pr, prev, d, hw⟩ := writeRoute_frame k (v.setWidth 16) s
  rw [afterWrite, hw]
  cases q with
  | afio y =>
    cases y with
    | exticr j =>
      have hjk : j ≠ k := fun e => h (e ▸ rfl)
      simp only [regVal, routeSlot_setRouteSlot, if_neg hjk]
    | evcr | mapr => fin_cases k <;> rfl
  | exti y => cases y <;> first | exact absurd rfl hpr | rfl
  | i2c u y => cases y <;> first | exact absurd rfl (hdr u) | rfl
  | spi _ y | gpio _ y | rcc y | nvic y => cases y <;> rfl

/-! ### Enables and priorities -/

theorem enableWord_congr {P : Params} {r r' : NvicRegs} {k : Fin 8}
    (h : ∀ q : Irq, q.val / 32 = k.val → r'.en.getLsbD q.val = r.en.getLsbD q.val) : enableWord P r' k = enableWord P r k := by
  refine BitVec.eq_of_getLsbD_eq fun j hj => ?_
  have hq := h ⟨32 * k.val + j, by omega⟩ (by simp only []; omega)
  simp only [enableWord, BitVec.getLsbD_setWidth, BitVec.getLsbD_ushiftRight, BitVec.getLsbD_and]
  simp only [] at hq
  rw [hq]

theorem getLsbD_afterWrite_iser (j : Fin 8) (v : Word) (s : State) (q : Irq) :
    (afterWrite (.nvic (.iser j)) v s).nvic.en.getLsbD q.val =
      (s.nvic.en.getLsbD q.val || (decide (q.val / 32 = j.val ∧ q.val < s.params.nIrq) && v.getLsbD (q.val % 32))) := by
  rw [← enableMask_getLsbD]
  exact BitVec.getLsbD_or ..

theorem getLsbD_afterWrite_icer (j : Fin 8) (v : Word) (s : State) (q : Irq) :
    (afterWrite (.nvic (.icer j)) v s).nvic.en.getLsbD q.val =
      (s.nvic.en.getLsbD q.val && !(decide (q.val / 32 = j.val ∧ q.val < s.params.nIrq) && v.getLsbD (q.val % 32))) := by
  rw [← enableMask_getLsbD]
  have hq := q.isLt
  simp [afterWrite, hq]

/-- Another register of enables holds no enable that the write of one reaches. -/
theorem enableWord_afterWrite_of_ne {j k : Fin 8} (hjk : k ≠ j) (v : Word) (s : State) :
    enableWord s.params (afterWrite (.nvic (.iser j)) v s).nvic k = enableWord s.params s.nvic k ∧
      enableWord s.params (afterWrite (.nvic (.icer j)) v s).nvic k = enableWord s.params s.nvic k := by
  have hne : ∀ q : Irq, q.val / 32 = k.val → ¬ q.val / 32 = j.val := fun q hk hj => hjk (Fin.ext (hk.symm.trans hj))
  constructor <;> refine enableWord_congr fun q hq => ?_
  · rw [getLsbD_afterWrite_iser, decide_eq_false (fun h => hne q hq h.1), Bool.false_and, Bool.or_false]
  · rw [getLsbD_afterWrite_icer, decide_eq_false (fun h => hne q hq h.1), Bool.false_and, Bool.not_false, Bool.and_true]

theorem regVal_afterWrite_iser_of_ne {j : Fin 8} {q : Reg} (v : Word) (s : State) (h : q ≠ .nvic (.iser j))
    (hicer : q ≠ .nvic (.icer j)) : regVal q (afterWrite (.nvic (.iser j)) v s) = regVal q s := by
  cases q with
  | nvic y =>
    cases y with
    | iser k => exact (enableWord_afterWrite_of_ne (fun e => h (by rw [e])) v s).1
    | icer k => exact (enableWord_afterWrite_of_ne (fun e => hicer (by rw [e])) v s).1
    | ipr l => rfl
  | spi _ y | exti y | afio y | gpio _ y | i2c _ y | rcc y => cases y <;> rfl

theorem regVal_afterWrite_icer_of_ne {j : Fin 8} {q : Reg} (v : Word) (s : State) (h : q ≠ .nvic (.icer j))
    (hiser : q ≠ .nvic (.iser j)) : regVal q (afterWrite (.nvic (.icer j)) v s) = regVal q s := by
  cases q with
  | nvic y =>
    cases y with
    | iser k => exact (enableWord_afterWrite_of_ne (fun e => hiser (by rw [e])) v s).2
    | icer k => exact (enableWord_afterWrite_of_ne (fun e => h (by rw [e])) v s).2
    | ipr l => rfl
  | spi _ y | exti y | afio y | gpio _ y | i2c _ y | rcc y => cases y <;> rfl

theorem regVal_afterWrite_ipr_of_ne {l : Fin 64} {q : Reg} (v : Word) (s : State) (h : q ≠ .nvic (.ipr l)) :
    regVal q (afterWrite (.nvic (.ipr l)) v s) = regVal q s := by
  rw [afterWrite, writeIpr_frame]
  cases q with
  | nvic y =>
    cases y with
    | ipr k =>
      have hkl : k ≠ l := fun e => h (e ▸ rfl)
      have hlane (m : Fin 4) : iprOf (iprIrq k m) ≠ l := (iprOf_iprIrq k m).symm ▸ hkl
      simp only [regVal, iprWord, laneVal, writeIpr_get_of_ne _ _ _ (hlane _)]
    | iser k | icer k => rfl
  | spi _ y | exti y | afio y | gpio _ y | i2c _ y | rcc y => cases y <;> rfl

/-- The priorities after a write of an IPR register: those of its IRQs, from the implemented bits of their lanes. -/
theorem prioOf_afterWrite_ipr_eq (l : Fin 64) (v : Word) (s : State) (q : Irq) : prioOf (afterWrite (.nvic (.ipr l)) v s) q =
    if q.val / 4 = l.val ∧ q.val < s.params.nIrq then v.extractLsb' (8 * (q.val % 4)) 8 >>> (8 - s.params.prioBits)
    else prioOf s q := by
  split
  · rename_i h
    exact prioOf_afterWrite_ipr v (Fin.ext h.1) (decide_eq_true h.2)
  · rename_i h
    refine congrArg (· >>> _) ?_
    by_cases hl : iprOf q = l
    · have hirq : ¬ hasIrq s.params q = true := fun hq => h ⟨congrArg Fin.val hl, of_decide_eq_true hq⟩
      have hlane := writeIpr_get_iprIrq s.params s.nvic l v (laneIndex q)
      rw [iprIrq_laneIndex hl, if_neg hirq] at hlane
      exact hlane
    · exact writeIpr_get_of_ne s.params s.nvic v hl

/-! ### The register written -/

theorem setWidth_setWidth_16 (v : Word) : (v.setWidth 16).setWidth 32 = v &&& 0xFFFF := by
  refine BitVec.eq_of_getLsbD_eq fun j hj => ?_
  have hmask : (0xFFFF : Word).getLsbD j = decide (j < 16) := by decide +revert
  rw [BitVec.getLsbD_and, hmask, BitVec.getLsbD_setWidth, BitVec.getLsbD_setWidth]
  simp [hj, Bool.and_comm]

theorem clkOn_afterWrite_rcc (y : Peripheral) (v : Word) (s : State) :
    clkOn (afterWrite (.rcc (clkReg s.params y)) v s) y = v.getLsbD (clkBit s.params y) := by
  rw [clkOn, afterWrite_params]
  cases clkReg s.params y <;> rfl

/-- The registers that are read and written and have a rule: those of O60. -/
theorem envOwned_ruled {i : SpiId} {p : Port} {k : Fin 4} {x : RccReg} {j : Fin 8} {l : Fin 64} :
    ∀ r ∈ [Reg.spi i .cr1, .spi i .cr2, .exti .imr, .exti .rtsr, .exti .ftsr, .afio (.exticr k), .gpio p .crl, .gpio p .crh,
      .gpio p .odr, .rcc x, .nvic (.iser j), .nvic (.icer j), .nvic (.ipr l)], envOwned r = false := by
  simp [envOwned]

/-! ## REG_WR (45 R229) -/

section

variable {s : State} {r : Reg}

theorem exec_regWr : exec .regWr s = withReg s s.ctx.arg0 fun r => if envOwned r then .refused .envOwnedWrite
    else writeReg r (fromBus s.params r s.ctx.arg1) s fun s1 => .next (finish s1) := rfl

theorem exec_regWr_write (haligned : s.ctx.arg0.toNat % 4 = 0) (hreg : regAt s.params s.ctx.arg0.toNat = some r)
    (hown : envOwned r = false) : exec .regWr s = writeReg r (fromBus s.params r s.ctx.arg1) s fun s1 => .next (finish s1) := by
  rw [exec_regWr, withReg_eq _ haligned hreg, hown]
  rfl

theorem exec_regWr_envOwned (haligned : s.ctx.arg0.toNat % 4 = 0) (hreg : regAt s.params s.ctx.arg0.toNat = some r)
    (hown : envOwned r = true) : exec .regWr s = .refused .envOwnedWrite := by
  rw [exec_regWr, withReg_eq _ haligned hreg, hown]
  rfl

end

/-- Settles O57: the address decides first, then the owner of the register, then its clock. -/
theorem rawWrite : Obligations.RawWrite := by
  refine fun s => ⟨withReg_misaligned _, withReg_unnamed _, fun r haligned hreg => ⟨fun hr => ?_, fun hown hoff => ?_,
    fun hown hon => ?_⟩⟩
  · refine exec_regWr_envOwned haligned hreg ?_
    obtain ⟨i, rfl⟩ | ⟨u, rfl⟩ | ⟨u, rfl⟩ | ⟨p, rfl⟩ := hr <;> rfl
  · rw [exec_regWr_write haligned hreg hown, writeReg_refused _ _ _ _ hoff]
  · rw [exec_regWr_write haligned hreg hown, writeReg_eq _ _ _ _ hon]

/-- A register of a well-formed layout is written through its address. -/
theorem exec_regWr_of_mem {s : State} {r : Reg} (hP : s.params.wf) (hr : r ∈ allRegs s.params)
    (ha : s.ctx.arg0.toNat = regAddr s.params r) (hown : envOwned r = false) (hon : accessible s r = true) :
    exec .regWr s = .next (finish (afterWrite r (fromBus s.params r s.ctx.arg1) s)) := by
  have haligned : s.ctx.arg0.toNat % 4 = 0 := ha ▸ (hP.addresses r hr).1
  have hreg : regAt s.params s.ctx.arg0.toNat = some r := ha ▸ regAt_of_mem hP hr
  rw [exec_regWr_write haligned hreg hown, writeReg_eq _ _ _ _ hon]

/-- Settles O60: the write through the bus, what each of the other registers shows after it, and register by register the state and
the value it leaves. -/
theorem ruledRegistersHoldWhatIsWritten : Obligations.RuledRegistersHoldWhatIsWritten := by
  refine ⟨fun i p k x j l s r hr => ⟨fun hP hmem ha hon =>
    ⟨exec_regWr_of_mem hP hmem ha (envOwned_ruled r hr) hon, fromBus_toBus hP r⟩, fun v q hq hroute hen => ?_⟩, fun v s => ?_⟩
  · simp only [List.mem_cons, List.not_mem_nil, or_false] at hr
    rcases hr with rfl | rfl | rfl | rfl | rfl | rfl | rfl | rfl | rfl | rfl | rfl | rfl | rfl
    · exact regVal_afterWrite_spi_of_ne (.inl rfl) v s hq
    · exact regVal_afterWrite_spi_of_ne (.inr rfl) v s hq
    · exact regVal_afterWrite_exti_of_ne v s hq
    · exact regVal_afterWrite_exti_of_ne v s hq
    · exact regVal_afterWrite_exti_of_ne v s hq
    · exact regVal_afterWrite_exticr_of_ne v s hq (hroute k rfl).1 (hroute k rfl).2
    · exact regVal_afterWrite_gpio_of_ne v s hq
    · exact regVal_afterWrite_gpio_of_ne v s hq
    · exact regVal_afterWrite_gpio_of_ne v s hq
    · exact regVal_afterWrite_rcc_of_ne v s hq
    · exact regVal_afterWrite_iser_of_ne v s hq ((hen j).1 rfl)
    · exact regVal_afterWrite_icer_of_ne v s hq ((hen j).2 rfl)
    · exact regVal_afterWrite_ipr_of_ne v s hq
  · refine ⟨fun i => ⟨rfl, rfl⟩, ⟨_, _, _, rfl, rfl, rfl⟩, fun k => ?_, fun p => ⟨rfl, rfl, rfl⟩, ⟨_, _, rfl, rfl⟩,
      fun j => ⟨_, _, rfl, rfl⟩, fun l => ⟨_, congrArg (fun n => { s with nvic := n }) (writeIpr_frame s.params s.nvic l v)⟩,
      fun i r hr => ?_, fun r hr n => ?_, fun k => ?_, fun p => ⟨?_, ?_, ?_⟩, fun y => clkOn_afterWrite_rcc y v s,
      fun j q => ⟨getLsbD_afterWrite_iser j v s q, getLsbD_afterWrite_icer j v s q⟩, fun l q => prioOf_afterWrite_ipr_eq l v s q⟩
    · obtain ⟨pr, prev, d, hw⟩ := writeRoute_frame k (v.setWidth 16) s
      exact ⟨v.setWidth 16, { s.exti with pr := pr, prev := prev }, d, hw⟩
    · simp only [List.mem_cons, List.not_mem_nil, or_false] at hr
      rcases hr with rfl | rfl <;> simp only [afterWrite, regVal, writeSpi, updSpi_spi, PerSpi.get_set_self, setWidth_setWidth_16]
    · simp only [List.mem_cons, List.not_mem_nil, or_false] at hr
      rcases hr with rfl | rfl | rfl <;> rfl
    · simp only [afterWrite, regVal, writeRoute_afio, routeSlot_setRouteSlot, if_true, setWidth_setWidth_16]
    · simp only [afterWrite, regVal, updGpio_gpio, PerPort.get_set_self]
    · simp only [afterWrite, regVal, updGpio_gpio, PerPort.get_set_self]
    · simp only [afterWrite, regVal, updGpio_gpio, PerPort.get_set_self, setWidth_setWidth_16]

end Sys2Proof.Machine

namespace Sys2Proof.Machine

/-! # The SPI and I2C accesses with side effects (10 R33, R35, R55, R56, 20 R75) -/

/-- The bits of the SPI status word. -/
theorem srWord_getLsbD (r : SpiRegs) {j : Nat} (hj : j < 32) : (srWord r).getLsbD j =
    ((r.rxne && decide (j = bitRxne)) || (r.txe && decide (j = bitTxe)) || (r.ovr && decide (j = bitOvr))) := by
  simp only [srWord, BitVec.getLsbD_or, bitAt_getLsbD _ _ _ hj]

/-- The bits of the I2C status word. -/
theorem sr1Word_getLsbD (r : I2cRegs) {j : Nat} (hj : j < 32) : (sr1Word r).getLsbD j =
    ((r.sb && decide (j = bitSb)) || (r.addr && decide (j = bitAddr)) || (r.btf && decide (j = bitBtf)) ||
      (r.txe && decide (j = bitI2cTxe))) := by
  simp only [sr1Word, BitVec.getLsbD_or, bitAt_getLsbD _ _ _ hj]

theorem srWord_rxne (r : SpiRegs) : (srWord r).getLsbD bitRxne = r.rxne := by
  rw [srWord_getLsbD r (by decide)]
  simp [bitRxne, bitTxe, bitOvr]

theorem srWord_txe (r : SpiRegs) : (srWord r).getLsbD bitTxe = r.txe := by
  rw [srWord_getLsbD r (by decide)]
  simp [bitRxne, bitTxe, bitOvr]

theorem srWord_ovr (r : SpiRegs) : (srWord r).getLsbD bitOvr = r.ovr := by
  rw [srWord_getLsbD r (by decide)]
  simp [bitRxne, bitTxe, bitOvr]

theorem sr1Word_sb (r : I2cRegs) : (sr1Word r).getLsbD bitSb = r.sb := by
  rw [sr1Word_getLsbD r (by decide)]
  simp [bitSb, bitAddr, bitBtf, bitI2cTxe]

theorem sr1Word_addr (r : I2cRegs) : (sr1Word r).getLsbD bitAddr = r.addr := by
  rw [sr1Word_getLsbD r (by decide)]
  simp [bitSb, bitAddr, bitBtf, bitI2cTxe]

theorem sr1Word_btf (r : I2cRegs) : (sr1Word r).getLsbD bitBtf = r.btf := by
  rw [sr1Word_getLsbD r (by decide)]
  simp [bitSb, bitAddr, bitBtf, bitI2cTxe]

theorem sr1Word_txe (r : I2cRegs) : (sr1Word r).getLsbD bitI2cTxe = r.txe := by
  rw [sr1Word_getLsbD r (by decide)]
  simp [bitSb, bitAddr, bitBtf, bitI2cTxe]

/-- OVR after a read of SR: kept where the sequence was not armed, otherwise cleared by the overrun service's own read and kept or
cleared by an incidental one (10 R35). -/
theorem readSr_ovr (i : SpiId) (explicit : Bool) (s : State) : ((readSr i explicit s).spi.get i).ovr =
    if (s.spi.get i).ovrArm then (s.spi.get i).ovr && (!explicit && Config.drawBit s.draws) else (s.spi.get i).ovr := by
  simp [readSr, afterSrRead]

theorem readSr_eq (i : SpiId) (explicit : Bool) (s : State) : readSr i explicit s = { s with
    spi := s.spi.set i { s.spi.get i with ovr := ((readSr i explicit s).spi.get i).ovr, ovrArm := false }
    draws := s.draws + 1 } := by
  rw [readSr_ovr]
  rfl

/-- No read of SR sets OVR. -/
theorem ovr_of_readSr_ovr {i : SpiId} {explicit : Bool} {s : State} (h : ((readSr i explicit s).spi.get i).ovr = true) :
    (s.spi.get i).ovr = true := by
  rw [readSr_ovr] at h
  split at h
  · exact (Bool.and_eq_true _ _ ▸ h).1
  · exact h

/-- Settles O58: DR by its equations, SR by its bits and by `readSr_ovr`. -/
theorem dataAndStatusRegisterAccesses : Obligations.DataAndStatusRegisterAccesses := by
  refine fun i v explicit s => ⟨rfl, rfl, rfl, srWord_rxne _, srWord_txe _, srWord_ovr _, rfl, fun h => ?_, fun h he => ?_,
    ovr_of_readSr_ovr, readSr_eq i explicit s⟩
  · rw [readSr_ovr, h]
    rfl
  · rw [readSr_ovr, h, he, Bool.not_true, Bool.false_and, Bool.and_false, if_pos rfl]

/-- SR1 with ADDR set and then SR2: the clear sequence (10 R56). -/
theorem afterRead_sr2_afterRead_sr1 {u : I2cId} {s : State} (h : (s.i2c.get u).addr = true) :
    afterRead (.i2c u .sr2) (afterRead (.i2c u .sr1) s) =
      { s with i2c := s.i2c.set u { s.i2c.get u with addr := false, addrArm := false } } := by
  simp [afterRead, updI2c, h]

theorem i2cRequests_both (startFirst : Bool) :
    i2cRequests startFirst true true = [.start, .stop] ∨ i2cRequests startFirst true true = [.stop, .start] := by
  cases startFirst
  · exact .inr rfl
  · exact .inl rfl

/-- Settles O59: the requests are those of `i2cRequests`, the flags those of `sr1Word`. -/
theorem i2cRegisterAccesses : Obligations.I2cRegisterAccesses := by
  refine fun u v s => ⟨i2cRequests (Config.drawBit s.draws) (v.getLsbD bitStart) (v.getLsbD bitStop), rfl, fun h1 h2 => ?_,
    fun h1 h2 => ?_, fun h1 h2 => ?_, fun h1 h2 => ?_, afterRead_sr2_afterRead_sr1, sr1Word_sb _, sr1Word_addr _, sr1Word_btf _,
    sr1Word_txe _, rfl⟩ <;> rw [h1, h2]
  · rfl
  · rfl
  · rfl
  · exact i2cRequests_both _

end Sys2Proof.Machine

namespace Sys2Proof.Machine

/-! # The clock enables (45 R227, 10 R50) -/

@[simp] theorem accessible_rcc (r : RccReg) (s : State) : accessible s (.rcc r) = true := rfl

@[simp] theorem afterRead_rcc_reg (r : RccReg) (s : State) : afterRead (.rcc r) s = s := rfl

theorem afterWrite_rcc_reg (r : RccReg) (v : Word) (s : State) :
    afterWrite (.rcc r) v s = { s with rcc := (afterWrite (.rcc r) v s).rcc } := by
  cases r <;> rfl

theorem rccWord_afterWrite (r q : RccReg) (v : Word) (s : State) :
    rccWord (afterWrite (.rcc r) v s) q = if q = r then v else rccWord s q := by
  cases r <;> cases q <;> rfl

/-- A peripheral that an identifier names exists (30 R111). -/
theorem hasPeripheral_of_peripheralOf {P : Params} {id : BitVec 8} {p : Peripheral} (h : peripheralOf P id = some p) :
    hasPeripheral P p = true := by
  simp only [peripheralOf] at h
  split at h
  · split at h
    · cases h
      rfl
    · obtain ⟨i, -, rfl⟩ := Option.map_eq_some_iff.1 h
      rfl
  · obtain ⟨u, hu, rfl⟩ := Option.map_eq_some_iff.1 h
    exact (i2cOf_eq_some.1 hu).2
  · obtain ⟨q, hq, rfl⟩ := Option.map_eq_some_iff.1 h
    exact (portOf_eq_some.1 hq).2 ▸ (portOf_eq_some.1 hq).1
  · cases h

/-- The FieldSet of PCLK, its command not yet ended. -/
def setClock (p : Peripheral) (en : Bool) (s : State) : State :=
  afterWrite (.rcc (clkReg s.params p)) (setBit (rccWord s (clkReg s.params p)) (clkBit s.params p) en) s

/-- The one bit written. -/
theorem rccWord_setClock_getLsbD {p : Peripheral} {s : State} (en : Bool) (r : RccReg) {j : Nat} (hj : j < 32) :
    (rccWord (setClock p en s) r).getLsbD j =
      if r = clkReg s.params p ∧ j = clkBit s.params p then en else (rccWord s r).getLsbD j := by
  rw [setClock, rccWord_afterWrite]
  by_cases hr : r = clkReg s.params p
  · subst hr
    simp only [if_true, true_and, setBit_getLsbD _ _ _ _ hj]
  · simp only [hr, if_false, false_and]

/-- No bit but the one written changes, be it one of the register's 32 or not. -/
theorem rccWord_setClock_of_ne {p : Peripheral} {s : State} (en : Bool) {r : RccReg} {j : Nat}
    (h : r ≠ clkReg s.params p ∨ j ≠ clkBit s.params p) :
    (rccWord (setClock p en s) r).getLsbD j = (rccWord s r).getLsbD j := by
  by_cases hj : j < 32
  · rw [rccWord_setClock_getLsbD en r hj, if_neg (fun ⟨hr, hb⟩ => h.elim (· hr) (· hb))]
  · rw [BitVec.getLsbD_of_ge _ _ (by omega), BitVec.getLsbD_of_ge _ _ (by omega)]

theorem setClock_frame (p : Peripheral) (en : Bool) (s : State) : setClock p en s = { s with rcc := (setClock p en s).rcc } :=
  afterWrite_rcc_reg _ _ s

theorem clkOn_setClock_self {p : Peripheral} {s : State} (en : Bool) (hbit : clkBit s.params p < 32) :
    clkOn (setClock p en s) p = en := by
  have hparams : (setClock p en s).params = s.params := afterWrite_params ..
  rw [clkOn, hparams, rccWord_setClock_getLsbD en _ hbit, if_pos ⟨rfl, rfl⟩]

theorem clkOn_setClock_of_ne {p q : Peripheral} {s : State} (en : Bool) (h : clkPlace s.params q ≠ clkPlace s.params p) :
    clkOn (setClock p en s) q = clkOn s q := by
  have hparams : (setClock p en s).params = s.params := afterWrite_params ..
  have hplace : clkReg s.params q ≠ clkReg s.params p ∨ clkBit s.params q ≠ clkBit s.params p := by
    by_contra hsame
    rw [not_or, not_not, not_not] at hsame
    exact h (Prod.ext hsame.1 hsame.2)
  rw [clkOn, hparams, rccWord_setClock_of_ne en hplace, clkOn]

section

variable {id : BitVec 8} {p : Peripheral} {en : Bool} {s : State}

theorem exec_pclk_illegal (h : peripheralOf s.params id = none) : exec (.pclk id en) s = .refused .illegalCommand := by
  change execPclk id en s = _
  rw [execPclk, withPeripheral, h]

theorem exec_pclk_read (hp : peripheralOf s.params id = some p) (h0 : phaseOf s = 0) : exec (.pclk id en) s =
    rmwRead (.rcc (clkReg s.params p)) (fun w => setBit w (clkBit s.params p) en) 1 finish s := by
  change execPclk id en s = _
  simp [execPclk, withPeripheral_eq _ hp, h0]

theorem exec_pclk_write (hp : peripheralOf s.params id = some p) (h1 : phaseOf s = 1) : exec (.pclk id en) s =
    rmwWrite (.rcc (clkReg s.params p)) (fun w => setBit w (clkBit s.params p) en) finish s := by
  change execPclk id en s = _
  simp [execPclk, withPeripheral_eq _ hp, h1]

theorem runOp_pclk (hp : peripheralOf s.params id = some p) (h0 : phaseOf s = 0) :
    runOp (.pclk id en) (1 + extraStep s) s = .next (finish (setClock p en s)) :=
  runOp_fieldSet_finish rfl (exec_pclk_read hp h0) (exec_pclk_write hp (phaseOf_held _ _ _))

end

/-- Settles O55: PCLK is one FieldSet of the bit where the layout has the clock enable; no other enable has its place there. -/
theorem clockEnable : Obligations.ClockEnable := by
  refine ⟨fun id en s => exec_pclk_illegal, fun id p en s hP hp h0 => ?_⟩
  have hrun := runOp_pclk (en := en) hp h0
  rw [Nat.add_comm, runOp_succ_eq_next] at hrun
  obtain ⟨s1, hfirst, hrest⟩ := hrun
  have hhas := hasPeripheral_of_peripheralOf hp
  refine ⟨s1, finish (setClock p en s), hfirst, hrest, clkOn_setClock_self en (hP.clockBits p hhas), fun q hq hne => ?_,
    congrArg finish (setClock_frame p en s), fun r j => rccWord_setClock_of_ne en⟩
  exact clkOn_setClock_of_ne en fun hplace => hne (hP.clockPlaces q p hq hhas hplace)

end Sys2Proof.Machine

namespace Sys2Proof.Machine

/-! # The state after reset (70 R280, 10 R64) -/

theorem clkOn_reset (p : Peripheral) : clkOn State.reset p = false := by
  have hword : ∀ r, rccWord State.reset r = 0 := by intro r; cases r <;> rfl
  rw [clkOn, hword]
  exact BitVec.getLsbD_zero

/-- Every pin is an input, floating. -/
theorem pinMode_pinEcfg_reset (n : BitVec 4) : pinMode GpioRegs.reset n = 0 ∧ pinEcfg GpioRegs.reset n = some 2 := by
  decide +revert

theorem prioOf_reset (q : Irq) : prioOf State.reset q = 0 := by
  simp [prioOf, State.reset, Vector.get_eq_getElem]

/-- Settles O9: field by field, unit by unit. -/
theorem resetLeavesNothingInFlight : Obligations.ResetLeavesNothingInFlight := by
  refine ⟨rfl, rfl, rfl, fun i d => ?_, fun i => ?_, fun i => ?_, fun k => ?_, clkOn_reset, fun p => ?_, fun u => ?_, prioOf_reset,
    rfl, rfl, rfl⟩
  · cases i <;> cases d <;> rfl
  · cases i <;> rfl
  · cases i <;> exact ⟨rfl, rfl, rfl, rfl, rfl⟩
  · fin_cases k <;> rfl
  · have hport : State.reset.gpio.get p = GpioRegs.reset := PerPort.get_all _ p
    rw [hport]
    exact ⟨rfl, pinMode_pinEcfg_reset⟩
  · exact congrArg I2cRegs.cr1 (PerI2c.get_all I2cRegs.reset u)

end Sys2Proof.Machine

namespace Sys2Proof.Machine

/-! # Running a command phase by phase

`seqAt p l s` is `s` with the running sequencer at phase `p` and with locals `l`. Every micro-step of a command takes such a state to
another one: the sequencer's part and the rest of the state are kept apart, so that a run is followed by rewriting. -/

/-- The state `s` with the running sequencer at phase `p` and its locals `l`. -/
def seqAt (p : Nat) (l : Locals) (s : State) : State :=
  { s with ctx := { s.ctx with act := { s.ctx.act with phase := p, loc := l } } }

theorem seqAt_self (s : State) : seqAt (phaseOf s) (locals s) s = s := rfl

section

variable (p q : Nat) (l l' : Locals) (s : State)

/-! ## The sequencer's part -/

@[simp] theorem phaseOf_seqAt : phaseOf (seqAt p l s) = p := rfl
@[simp] theorem locals_seqAt : locals (seqAt p l s) = l := rfl
@[simp] theorem goto_seqAt : goto q (seqAt p l s) = seqAt q l s := rfl
@[simp] theorem updLocals_seqAt (f : Locals → Locals) : updLocals f (seqAt p l s) = seqAt p (f l) s := rfl
@[simp] theorem finish_seqAt : finish (seqAt p l s) = finish s := rfl
@[simp] theorem seqAt_seqAt : seqAt q l' (seqAt p l s) = seqAt q l' s := rfl
@[simp] theorem seqAt_goto : seqAt q l (goto p s) = seqAt q l s := rfl
@[simp] theorem seqAt_updLocals (f : Locals → Locals) : seqAt p l (updLocals f s) = seqAt p l s := rfl

/-! ## What a micro-step reads of the rest -/

@[simp] theorem seqAt_arg0 : (seqAt p l s).ctx.arg0 = s.ctx.arg0 := rfl
@[simp] theorem seqAt_arg1 : (seqAt p l s).ctx.arg1 = s.ctx.arg1 := rfl
@[simp] theorem seqAt_params : (seqAt p l s).params = s.params := rfl
@[simp] theorem seqAt_spi : (seqAt p l s).spi = s.spi := rfl
@[simp] theorem seqAt_i2c : (seqAt p l s).i2c = s.i2c := rfl
@[simp] theorem seqAt_draws : (seqAt p l s).draws = s.draws := rfl
@[simp] theorem seqAt_handles : (seqAt p l s).handles = s.handles := rfl
@[simp] theorem seqAt_mem : (seqAt p l s).mem = s.mem := rfl
@[simp] theorem extraStep_seqAt : extraStep (seqAt p l s) = extraStep s := rfl
@[simp] theorem clkOn_seqAt (x : Peripheral) : clkOn (seqAt p l s) x = clkOn s x := rfl
@[simp] theorem accessible_seqAt (r : Reg) : accessible (seqAt p l s) r = accessible s r := rfl
@[simp] theorem xfer_seqAt (i : SpiId) (d : Dir) : xfer (seqAt p l s) i d = xfer s i d := rfl
@[simp] theorem byteAt_seqAt (a : Word) : byteAt (seqAt p l s) a = byteAt s a := rfl
@[simp] theorem inLaunch_seqAt (a : Word) : inLaunch (seqAt p l s) a = inLaunch s a := rfl
@[simp] theorem admittedBuffer_seqAt (b n : Word) : admittedBuffer (seqAt p l s) b n = admittedBuffer s b n := rfl

@[simp] theorem regVal_seqAt (r : Reg) : regVal r (seqAt p l s) = regVal r s := by
  unfold regVal
  split <;> rfl

/-! ## What a micro-step changes of the rest -/

@[simp] theorem setRet_seqAt (v : Word) : setRet v (seqAt p l s) = seqAt p l (setRet v s) := rfl
@[simp] theorem updXfer_seqAt (i : SpiId) (d : Dir) (f : Xfer → Xfer) :
    updXfer i d f (seqAt p l s) = seqAt p l (updXfer i d f s) := rfl
@[simp] theorem updSpi_seqAt (i : SpiId) (f : SpiRegs → SpiRegs) : updSpi i f (seqAt p l s) = seqAt p l (updSpi i f s) := rfl
@[simp] theorem updI2c_seqAt (u : I2cId) (f : I2cRegs → I2cRegs) : updI2c u f (seqAt p l s) = seqAt p l (updI2c u f s) := rfl
@[simp] theorem putByte_seqAt (a : Word) (v : Byte) : putByte a v (seqAt p l s) = seqAt p l (putByte a v s) := rfl
@[simp] theorem readSr_seqAt (i : SpiId) (explicit : Bool) :
    readSr i explicit (seqAt p l s) = seqAt p l (readSr i explicit s) := rfl

@[simp] theorem afterRead_seqAt (r : Reg) : afterRead r (seqAt p l s) = seqAt p l (afterRead r s) := by
  unfold afterRead
  split <;> rfl

@[simp] theorem afterWrite_seqAt_spi (i : SpiId) (x : SpiReg) (v : Word) :
    afterWrite (.spi i x) v (seqAt p l s) = seqAt p l (afterWrite (.spi i x) v s) := by
  cases x <;> rfl

@[simp] theorem afterWrite_seqAt_i2c (u : I2cId) (x : I2cReg) (v : Word) :
    afterWrite (.i2c u x) v (seqAt p l s) = seqAt p l (afterWrite (.i2c u x) v s) := by
  cases x <;> rfl

end

/-! ## A FieldSet in the middle of a command -/

/-- The locals after a FieldSet: with RMW_ATOMIC as they were, otherwise with the value read kept. -/
def fieldLocals (r : Reg) (l : Locals) (s : State) : Locals := if s.params.rmwAtomic then l else { l with v := regVal r s }

theorem fieldRead_seqAt (r : Reg) (p : Nat) (l : Locals) (s : State) (q : Nat) : fieldRead r p (seqAt q l s) =
    seqAt (if s.params.rmwAtomic then q else p) (fieldLocals r l s) (afterRead r s) := by
  unfold fieldRead fieldLocals
  rw [seqAt_params]
  split
  · simp
  · simp [held]

/-- A FieldSet that goes on at phase `q` leaves the same state under both values of RMW_ATOMIC, but for the local that holds the
value read. -/
theorem runOp_fieldSet_goto {i : Instr} {r : Reg} {f : Word → Word} {k p q : Nat} {l : Locals} {s : State}
    (hon : accessible s r = true) (hseq : ∀ v p l t, afterWrite r v (seqAt p l t) = seqAt p l (afterWrite r v t))
    (hread : ∀ l, exec i (seqAt k l s) = rmwRead r f p (goto q) (seqAt k l s))
    (hwrite : ∀ l t, exec i (seqAt p l t) = rmwWrite r f (goto q) (seqAt p l t)) :
    runOp i (1 + extraStep s) (seqAt k l s) =
      .next (seqAt q (fieldLocals r l s) (afterWrite r (f (regVal r s)) (afterRead r s))) := by
  have hheld : held r p (seqAt k l s) = seqAt p { l with v := regVal r s } (afterRead r s) := by simp [held]
  have hrun := runOp_fieldSet (s0 := seqAt k l s) hon (hread l) (by rw [hheld, hwrite])
  rw [extraStep_seqAt, fieldRead_seqAt, hseq, goto_seqAt, regVal_seqAt] at hrun
  exact hrun

end Sys2Proof.Machine

namespace Sys2Proof.Machine

/-! # Non-blocking requests (41 R150 to R155) -/

@[simp] theorem afterRead_spi_cr1 (i : SpiId) (s : State) : afterRead (.spi i .cr1) s = s := rfl

@[simp] theorem afterRead_spi_cr2 (i : SpiId) (s : State) : afterRead (.spi i .cr2) s = s := rfl

/-- The state with one bit of CR2 replaced; the write disarms the overrun clear sequence (10 R31, R35). -/
def setCr2Bit (i : SpiId) (k : Nat) (x : Bool) (s : State) : State :=
  { s with spi := s.spi.set i { s.spi.get i with cr2 := setBit (s.spi.get i).cr2 k x, ovrArm := false } }

theorem afterWrite_cr2_setBit (i : SpiId) (k : Nat) (x : Bool) (s : State) :
    afterWrite (.spi i .cr2) (setBit (regVal (.spi i .cr2) s) k x) s = setCr2Bit i k x s := by
  simp [afterWrite, writeSpi, updSpi, regVal, setWidth_setBit, setCr2Bit]

/-- The state with the transfer-state fields of a direction replaced. -/
def setXfer (i : SpiId) (d : Dir) (x : Xfer) (s : State) : State :=
  { s with handles := s.handles.set i ((s.handles.get i).setDir d x) }

@[simp] theorem updXfer_setXfer (i : SpiId) (d : Dir) (f : Xfer → Xfer) (x : Xfer) (s : State) :
    updXfer i d f (setXfer i d x s) = setXfer i d (f x) s := by
  simp [updXfer, setXfer, xfer]

theorem updXfer_eq_setXfer (i : SpiId) (d : Dir) (f : Xfer → Xfer) (s : State) :
    updXfer i d f s = setXfer i d (f (xfer s i d)) s := rfl

section

variable {d : Dir} {unit : BitVec 4} {i : SpiId} {l : Locals} {s : State}

/-- The locals after lines 0 and 1, the direction's state having been `st`. -/
def sampled (st : XferState) (s : State) : Locals := { locals s with b := s.ctx.arg0, n := s.ctx.arg1, st := st }

theorem exec_requestOf (hi : spiOf unit = some i) (s : State) : exec (requestOf d unit) s = requestStep d i s := by
  cases d
  · exact withSpi_eq (fun i => requestStep .tx i s) hi
  · exact withSpi_eq (fun i => requestStep .rx i s) hi

/-- Lines 0 and 1: the operands and the direction's state are copied to locals. -/
theorem runOp_request_sample (hi : spiOf unit = some i) (h0 : phaseOf s = 0) : runOp (requestOf d unit) 3 s =
    .next (seqAt 3 (sampled (xfer s i d).st s) s) := by
  rw [← seqAt_self s, h0]
  simp [runOp, exec_requestOf hi, requestStep, sampled]

/-- Line 2 of a Busy direction. -/
theorem exec_request_busy (hi : spiOf unit = some i) (hl : l.st = .busy) :
    exec (requestOf d unit) (seqAt 3 l s) = .next (finish (setRet 1 s)) := by
  simp [exec_requestOf hi, requestStep, hl, stateCode]

/-- Line 2 of an Idle direction. -/
theorem exec_request_idle (hi : spiOf unit = some i) (hl : l.st = .idle) :
    exec (requestOf d unit) (seqAt 3 l s) = .next (seqAt 4 l s) := by
  simp [exec_requestOf hi, requestStep, hl]

theorem exec_request_admit (hi : spiOf unit = some i) :
    exec (requestOf d unit) (seqAt 4 l s) = admitRequest i (seqAt 4 l s) fun s1 => .next (goto 5 s1) := by
  simp [exec_requestOf hi, requestStep]

/-! ## Line 3: the admission -/

theorem admitRequest_zero {k : State → Out} (h : (locals s).n = 0) : admitRequest i s k = .refused .badLength := by
  rw [admitRequest, if_pos h]

theorem admitRequest_clockOff {k : State → Out} (h : (locals s).n ≠ 0) (hoff : clkOn s (.spi i) = false) :
    admitRequest i s k = .refused .clockOff := by
  rw [admitRequest, if_neg h, readReg_refused _ _ _ ((accessible_spi i .cr1 s).trans hoff)]

theorem admitRequest_of_clockOn {k : State → Out} (h : (locals s).n ≠ 0) (hon : clkOn s (.spi i) = true) :
    admitRequest i s k =
      if (locals s).n.toNat % (frameWidth (regVal (.spi i .cr1) s)).toNat = 0 then
        if admittedBuffer s (locals s).b (locals s).n then k s else .refused .badAddress
      else .refused .badLength := by
  rw [admitRequest, if_neg h, readReg_eq _ _ _ ((accessible_spi i .cr1 s).trans hon)]
  simp [wholeFrames]

/-- A busy direction rejects in its fourth micro-step. -/
theorem runOp_request_busy (hi : spiOf unit = some i) (h0 : phaseOf s = 0) (hbusy : (xfer s i d).st = .busy) :
    runOp (requestOf d unit) 4 s = .next (finish (setRet 1 s)) := by
  rw [runOp_add 3 1 (runOp_request_sample hi h0), runOp_succ 0 (exec_request_busy hi hbusy), runOp_zero]

/-- An Idle direction comes to the admission in its fifth micro-step. -/
theorem runOp_request_idle (hi : spiOf unit = some i) (h0 : phaseOf s = 0) (hidle : (xfer s i d).st = .idle) :
    runOp (requestOf d unit) 5 s = admitRequest i
      (seqAt 4 (sampled .idle s) s) fun s1 => .next (goto 5 s1) := by
  rw [runOp_add 3 2 (runOp_request_sample hi h0), hidle, runOp_succ 1 (exec_request_idle hi rfl), runOp, exec_request_admit hi]
  cases admitRequest i _ _ <;> rfl

end

/-- Settles O25: line 2 of a Busy direction. -/
theorem busyRequestIsRejected : Obligations.BusyRequestIsRejected := by
  intro d unit i s hi h0 hbusy
  rw [← runOp_succ_eq_next]
  exact runOp_request_busy hi h0 hbusy

/-- Settles O26: line 2 rejects for a Busy direction, and line 3 is `admitRequest`, whose grounds are told apart in their order. -/
theorem requestAdmission : Obligations.RequestAdmission := by
  refine fun d unit i s hi h0 => ⟨runOp_request_busy hi h0, fun hidle hn => ?_, fun hidle hn hoff => ?_, fun hidle hon hframes => ?_,
    fun hidle hon hn hframes hadm => ?_, fun hidle hon hn hframes hadm => ?_⟩ <;> rw [runOp_request_idle hi h0 hidle]
  · exact admitRequest_zero hn
  · exact admitRequest_clockOff hn hoff
  · have hn : s.ctx.arg1 ≠ 0 := fun h => hframes (by simp [h])
    rw [admitRequest_of_clockOn (s := seqAt 4 (sampled .idle s) s) hn hon, regVal_seqAt]
    exact if_neg hframes
  · rw [admitRequest_of_clockOn (s := seqAt 4 (sampled .idle s) s) hn hon, regVal_seqAt]
    exact (if_pos hframes).trans (if_neg (by simp [sampled, hadm]))
  · rw [admitRequest_of_clockOn (s := seqAt 4 (sampled .idle s) s) hn hon, regVal_seqAt]
    exact (if_pos hframes).trans (if_pos hadm)

section

variable {d : Dir} {unit : BitVec 4} {i : SpiId} {l : Locals} {s : State}

/-- Lines 4 to 6 record the transfer, one field a micro-step. -/
theorem runOp_request_record (hi : spiOf unit = some i) :
    runOp (requestOf d unit) 3 (seqAt 5 l s) = .next (seqAt 8 l (setXfer i d ⟨l.b, l.n, .busy⟩ s)) := by
  simp [runOp, exec_requestOf hi, requestStep, updXfer_eq_setXfer i d _ s]

/-- Line 7 enables the direction's interrupt. -/
theorem runOp_request_enable (hi : spiOf unit = some i) (hon : clkOn s (.spi i) = true) :
    runOp (requestOf d unit) (1 + extraStep s) (seqAt 8 l s) =
      .next (seqAt 10 (fieldLocals (.spi i .cr2) l s) (setCr2Bit i (enableBit d) true s)) := by
  rw [runOp_fieldSet_goto (r := .spi i .cr2) (f := fun w => setBit w (enableBit d) true) (p := 9) (q := 10) hon
    (fun v p l t => afterWrite_seqAt_spi p l t i .cr2 v) (fun l => exec_requestOf hi _) (fun l t => exec_requestOf hi _),
    afterRead_spi_cr2, afterWrite_cr2_setBit]

/-- Line 8 returns Idle. -/
theorem exec_request_return (hi : spiOf unit = some i) :
    exec (requestOf d unit) (seqAt 10 l s) = .next (finish (setRet 0 s)) := by
  simp [exec_requestOf hi, requestStep, stateCode]

end

/-- Settles O24: the admission goes on, the transfer is recorded, the interrupt enabled, and Idle returned. -/
theorem requestIsAccepted : Obligations.RequestIsAccepted := by
  intro d unit i s hi h0 hon hidle hn hframes hadm
  have hadmit : runOp (requestOf d unit) 5 s =
      .next (seqAt 5 (sampled .idle s) s) := by
    obtain ⟨-, -, -, -, -, hgo⟩ := requestAdmission d unit i s hi h0
    exact hgo hidle hon hn hframes hadm
  have hsteps : 9 + extraStep s + 1 = 5 + (3 + ((1 + extraStep s) + 1)) := by omega
  rw [← runOp_succ_eq_next, hsteps, runOp_add _ _ hadmit, runOp_add _ _ (runOp_request_record hi)]
  refine (runOp_add _ _ (runOp_request_enable (s := setXfer i d _ s) hi hon)).trans ?_
  rw [runOp_succ 0 (exec_request_return hi), runOp_zero]
  rfl

end Sys2Proof.Machine

namespace Sys2Proof.Machine

/-! # The blocking calls (40 R133, R134): admission and the micro-steps the two loops share -/

/-- The blocking call of a direction (40 R133, R134). -/
def blockingOf (d : Dir) (unit : BitVec 4) : Instr :=
  match d with
  | .tx => .spiSend unit
  | .rx => .spiRecv unit

theorem mem_blockingCalls {unit : BitVec 4} {j : Instr} :
    j ∈ [Instr.spiSend unit, .spiRecv unit] ↔ ∃ d, j = blockingOf d unit := by
  simp only [List.mem_cons, List.not_mem_nil, or_false]
  refine ⟨fun h => h.elim (fun h => ⟨.tx, h⟩) (fun h => ⟨.rx, h⟩), fun ⟨d, h⟩ => ?_⟩
  cases d
  · exact .inl h
  · exact .inr h

section

variable {d : Dir} {unit : BitVec 4} {i : SpiId} {l : Locals} {s : State}

/-- Phases 6 to 8 are the direction's own; every other phase is shared. -/
theorem exec_blockingOf (hi : spiOf unit = some i) (h : phaseOf s < 6 ∨ 8 < phaseOf s) :
    exec (blockingOf d unit) s = blockingStep d i s := by
  cases d
  · refine (withSpi_eq (fun i => sendStep i s) hi).trans ?_
    unfold sendStep
    split <;> first | omega | rfl
  · refine (withSpi_eq (fun i => recvStep i s) hi).trans ?_
    unfold recvStep
    split <;> first | omega | rfl

/-! ## The admission, at the first micro-step -/

/-- The state after an admitted call's first micro-step. -/
def cursorSet (s : State) : State := goto 1 (updLocals (fun l => { l with b := s.ctx.arg0 }) s)

theorem exec_blocking_first (hi : spiOf unit = some i) (h0 : phaseOf s = 0) :
    exec (blockingOf d unit) s = admitBlocking i s (.next (cursorSet s)) := by
  rw [exec_blockingOf hi (by omega)]
  simp [blockingStep, h0, cursorSet]

/-- A call of length 0 is refused on no ground. -/
theorem admitBlocking_zero {k : Out} (h : s.ctx.arg1 = 0) : admitBlocking i s k = k := by
  rw [admitBlocking, if_pos h]

theorem admitBlocking_clockOff {k : Out} (h : s.ctx.arg1 ≠ 0) (hoff : clkOn s (.spi i) = false) :
    admitBlocking i s k = .refused .clockOff := by
  rw [admitBlocking, if_neg h, readReg_refused _ _ _ ((accessible_spi i .cr1 s).trans hoff)]

theorem admitBlocking_of_clockOn {k : Out} (h : s.ctx.arg1 ≠ 0) (hon : clkOn s (.spi i) = true) :
    admitBlocking i s k =
      if s.ctx.arg1.toNat % (frameWidth (regVal (.spi i .cr1) s)).toNat = 0 then
        if admittedBuffer s s.ctx.arg0 s.ctx.arg1 then k else .refused .badAddress
      else .refused .badLength := by
  rw [admitBlocking, if_neg h, readReg_eq _ _ _ ((accessible_spi i .cr1 s).trans hon)]
  simp [wholeFrames]

/-! ## The shared micro-steps -/

/-- Line 4. -/
theorem exec_blocking_remainder (hi : spiOf unit = some i) (h5 : phaseOf s = 5) : exec (blockingOf d unit) s =
    if (locals s).n.toNat < (locals s).w.toNat then .fault .lengthNotFrameMultiple else .next (goto 6 s) := by
  rw [exec_blockingOf hi (by omega), blockingStep, h5]
  simp [BitVec.ult]

end

/-- Settles O18: the first micro-step is `admitBlocking`, whose grounds are told apart in their order. -/
theorem blockingCallAdmission : Obligations.BlockingCallAdmission := by
  intro unit i s hi h0 j hj
  obtain ⟨d, rfl⟩ := mem_blockingCalls.1 hj
  rw [exec_blocking_first hi h0]
  refine ⟨fun hn => ⟨_, admitBlocking_zero hn⟩, admitBlocking_clockOff, fun hn hon hframes => ?_, fun hn hon hframes hadm => ?_,
    fun hn hon hframes hadm => ?_⟩ <;> rw [admitBlocking_of_clockOn hn hon]
  · rw [if_neg hframes]
  · rw [if_pos hframes, if_neg (by simp [hadm])]
  · rw [if_pos hframes, if_pos hadm, cursorSet]

/-- Settles O19: line 4. -/
theorem shortRemainderFaults : Obligations.ShortRemainderFaults := by
  intro unit i s hi h5 j hj
  obtain ⟨d, rfl⟩ := mem_blockingCalls.1 hj
  rw [exec_blocking_remainder hi h5]
  exact ⟨fun h => if_pos h, fun h => if_neg (Nat.not_lt.2 h)⟩

end Sys2Proof.Machine

namespace Sys2Proof.Machine

/-! # Admission of a buffer (20 R74) -/

theorem covered_sound {ranges : List (Nat × Nat)} {fuel lo hi : Nat} (h : covered ranges fuel lo hi = true) :
    ∀ a, lo ≤ a → a < hi → ∃ r ∈ ranges, r.1 ≤ a ∧ a < r.1 + r.2 := by
  induction fuel generalizing lo with
  | zero =>
    have hempty : hi ≤ lo := by simpa [covered] using h
    intro a hlo hhi
    omega
  | succ fuel ih =>
    intro a hlo hhi
    simp only [covered, Bool.or_eq_true, decide_eq_true_eq] at h
    obtain hempty | h := h
    · omega
    split at h
    · rename_i r hr
      have hmem := List.mem_of_find?_eq_some hr
      have hin := List.find?_some hr
      simp only [Bool.and_eq_true, decide_eq_true_eq] at hin
      by_cases ha : a < r.1 + r.2
      · exact ⟨r, hmem, by omega, ha⟩
      · exact ih h a (by omega) hhi
    · cases h

/-- The ranges that end after `lo`: those a search from `lo` can still use. -/
def endingAfter (lo : Nat) (ranges : List (Nat × Nat)) : List (Nat × Nat) := ranges.filter fun r => decide (lo < r.1 + r.2)

theorem length_endingAfter_lt {ranges : List (Nat × Nat)} {lo : Nat} {r : Nat × Nat} (hr : r ∈ ranges) (hlo : lo < r.1 + r.2) :
    (endingAfter (r.1 + r.2) ranges).length < (endingAfter lo ranges).length := by
  have hsub : endingAfter (r.1 + r.2) ranges = (endingAfter lo ranges).filter fun q => decide (r.1 + r.2 < q.1 + q.2) := by
    rw [endingAfter, endingAfter, List.filter_filter]
    refine List.filter_congr fun q _ => ?_
    rw [← Bool.decide_and, decide_eq_decide]
    omega
  rw [hsub]
  refine List.length_filter_lt_length_iff_exists.2 ⟨r, List.mem_filter.2 ⟨hr, by simpa using hlo⟩, by simp⟩

/-- A range that was used ends where the search goes on, so it is not used again: fuel for the ranges that end later is enough. -/
theorem covered_complete {ranges : List (Nat × Nat)} {fuel lo hi : Nat}
    (h : ∀ a, lo ≤ a → a < hi → ∃ r ∈ ranges, r.1 ≤ a ∧ a < r.1 + r.2) (hfuel : (endingAfter lo ranges).length ≤ fuel) :
    covered ranges fuel lo hi = true := by
  induction fuel generalizing lo with
  | zero =>
    have hnone : endingAfter lo ranges = [] := List.length_eq_zero_iff.1 (by omega)
    by_contra hcov
    obtain ⟨r, hr, -, hlo⟩ := h lo le_rfl (by simpa [covered] using hcov)
    have hmem : r ∈ endingAfter lo ranges := List.mem_filter.2 ⟨hr, by simpa using hlo⟩
    simp [hnone] at hmem
  | succ fuel ih =>
    simp only [covered, Bool.or_eq_true, decide_eq_true_eq]
    refine or_iff_not_imp_left.2 fun hne => ?_
    split
    · rename_i r hr
      have hmem := List.mem_of_find?_eq_some hr
      have hin := List.find?_some hr
      simp only [Bool.and_eq_true, decide_eq_true_eq] at hin
      have hless := length_endingAfter_lt hmem hin.2
      exact ih (fun a hlo hhi => h a (by omega) hhi) (by omega)
    · rename_i hr
      obtain ⟨r, hmem, hin⟩ := h lo le_rfl (by omega)
      exact absurd (by simpa using hin) (List.find?_eq_none.1 hr r hmem)

theorem covered_length_iff {ranges : List (Nat × Nat)} {lo hi : Nat} : covered ranges ranges.length lo hi = true ↔
    ∀ a, lo ≤ a → a < hi → ∃ r ∈ ranges, r.1 ≤ a ∧ a < r.1 + r.2 :=
  ⟨covered_sound, fun h => covered_complete h (List.length_filter_le _ _)⟩

/-- A register's four bytes meet a range that is not empty exactly if one of its bytes is one of theirs. -/
theorem overlapsRegisters_eq_false_iff {P : Params} {lo hi : Nat} (h : lo < hi) : overlapsRegisters P lo hi = false ↔
    ∀ a, lo ≤ a → a < hi → ∀ r ∈ allRegs P, ¬ (regAddr P r ≤ a ∧ a < regAddr P r + 4) := by
  simp only [overlapsRegisters, List.any_eq_false, Bool.and_eq_true, decide_eq_true_eq]
  refine ⟨fun hr a hlo hhi r hmem ha => hr r hmem (by omega), fun hr r hmem hmeet => ?_⟩
  exact hr (max lo (regAddr P r)) (by omega) (by omega) r hmem (by omega)

/-- Settles O15: the launch ranges and the registers, byte by byte. -/
theorem admissionIsTheRangeCondition : Obligations.AdmissionIsTheRangeCondition := by
  intro s b n
  by_cases hn : n = 0
  · simp [admittedBuffer, hn]
  have hpos : b.toNat < b.toNat + n.toNat := by
    have : n.toNat ≠ 0 := fun h => hn (BitVec.eq_of_toNat_eq h)
    omega
  have hregs := overlapsRegisters_eq_false_iff (P := s.params) hpos
  simp only [admittedBuffer, Bool.or_eq_true, Bool.and_eq_true, beq_iff_eq, hn, false_or, bne_iff_ne, decide_eq_true_eq,
    covered_length_iff, Bool.not_eq_true', hregs]
  refine ⟨fun ⟨⟨⟨hb, hwrap⟩, hlaunch⟩, hreg⟩ => ⟨hb, hwrap, fun a hlo hhi => ⟨hlaunch a hlo hhi, hreg a hlo hhi⟩⟩,
    fun ⟨hb, hwrap, hall⟩ => ⟨⟨⟨hb, hwrap⟩, fun a hlo hhi => (hall a hlo hhi).1⟩, fun a hlo hhi => (hall a hlo hhi).2⟩⟩

end Sys2Proof.Machine

namespace Sys2Proof.Machine

/-! # What one micro-step of a command can do, said once

Every micro-step of every command moves the sequencer on, or waits; it leaves buffer memory alone, or stores one byte; and it leaves the
states of the directions alone, or turns one over. `Effect` says which micro-steps are the exceptions, and `exec_effect` that there
are no others. -/

section

variable {P : State → Prop} {r : Reg} {s : State}

/-! ## The shared operations -/

theorem sat_readReg {k : Word → State → Out} (hk : Sat P (k (regVal r s) (afterRead r s))) : Sat P (readReg r s k) := by
  unfold readReg
  split
  · exact hk
  · trivial

theorem sat_writeReg {v : Word} {k : State → Out} (hk : Sat P (k (afterWrite r v s))) : Sat P (writeReg r v s k) := by
  unfold writeReg
  split
  · exact hk
  · trivial

theorem sat_rmwRead {f : Word → Word} {p : Nat} {k : State → State} (hk : P (k (afterWrite r (f (regVal r s)) (afterRead r s))))
    (hheld : P (held r p s)) : Sat P (rmwRead r f p k s) := by
  refine sat_readReg ?_
  split
  · exact hk
  · exact hheld

theorem sat_rmwWrite {f : Word → Word} {k : State → State} (hk : P (k (afterWrite r (f (locals s).v) s))) :
    Sat P (rmwWrite r f k s) := sat_writeReg hk

theorem sat_waitUntil {bit p : Nat} (hgo : P (goto p (afterRead r s)))
    (hstay : accessible s r = true → (regVal r s).getLsbD bit = false → P (afterRead r s)) : Sat P (waitUntil r bit p s) := by
  rw [waitUntil_def, readReg]
  split
  · rw [sat_next]
    split
    · exact hgo
    · exact hstay ‹_› (Bool.eq_false_iff.2 ‹_›)
  · trivial

end

/-! ## The exceptions -/

/-- The micro-step of command `i` is a hold (00 R9): a wait whose flag is 0, or a byte access outside the launch memory. -/
def HoldsAt (i : Instr) (s : State) : Prop :=
  (∃ r bit, awaited s.params i (phaseOf s) = some (r, bit) ∧ accessible s r = true ∧ (regVal r s).getLsbD bit = false) ∨
    ∃ a, accessedByte i s = some a ∧ inLaunch s a = false

/-- The micro-step of command `i` stores byte `x` of a received frame at `a` (40 R134 line 6, 42 R162 line d). -/
def StoresAt (i : Instr) (s : State) (a : Word) (x : Byte) : Prop :=
  ∃ first, ((∃ unit, i = .spiRecv unit ∧ first = 7) ∨ ∃ unit, i = .spiIrq unit ∧ first = rxneBase + 4) ∧
    ((phaseOf s = first ∧ a = (locals s).b ∧ x = (locals s).v.extractLsb' 0 8) ∨
      (phaseOf s = first + 1 ∧ a = (locals s).b + 1 ∧ x = (locals s).v.extractLsb' 8 8))

/-- The micro-step of command `i` turns direction `d` of handle `j` over to `x`: line g4 of the direction's service, or line 6 of its
request (41 R151, R152, 42 R161, R162). -/
def TurnsAt (i : Instr) (s : State) (j : SpiId) (d : Dir) (x : XferState) : Prop :=
  (x = .idle ∧ ∃ unit, spiOf unit = some j ∧ i = .spiIrq unit ∧ phaseOf s = serviceBase d + 15) ∨
    (x = .busy ∧ ∃ unit, spiOf unit = some j ∧ i = requestOf d unit ∧ phaseOf s = 7)

/-- What the micro-step of command `i` from `s` to `t` did. -/
structure Effect (i : Instr) (s t : State) : Prop where
  op : t.ctx.act.op = none ∨ t.ctx.act.op = s.ctx.act.op ∧ (phaseOf t = phaseOf s → HoldsAt i s)
  memory : t.mem = s.mem ∨ ∃ a x, StoresAt i s a x ∧ t.mem = s.mem.write a.toNat x
  states : ∀ j d, (xfer t j d).st = (xfer s j d).st ∨ TurnsAt i s j d (xfer t j d).st

/-! ## The rule -/

/-- An update that leaves the command in progress, buffer memory and the states of the directions alone. -/
structure Plain (s t : State) : Prop where
  op : t.ctx.act.op = s.ctx.act.op
  memory : t.mem = s.mem
  states : ∀ j d, (xfer t j d).st = (xfer s j d).st

theorem xfer_updXfer (i j : SpiId) (d e : Dir) (f : Xfer → Xfer) (s : State) :
    xfer (updXfer i d f s) j e = if j = i ∧ e = d then f (xfer s i d) else xfer s j e := by
  by_cases hj : j = i
  · subst hj
    by_cases he : e = d
    · subst he
      simp
    · simp [xfer, updXfer, Handle.dir_setDir_ne _ _ he, he]
  · simp [xfer, updXfer, PerSpi.get_set_ne _ _ hj, hj]

namespace Plain

variable {s t : State}

theorem refl (s : State) : Plain s s := ⟨rfl, rfl, fun _ _ => rfl⟩

theorem afterRead (h : Plain s t) (r : Reg) : Plain s (afterRead r t) :=
  ⟨by simpa using h.op, by simpa using h.memory, by simpa using h.states⟩

theorem afterWrite (h : Plain s t) (r : Reg) (v : Word) : Plain s (afterWrite r v t) :=
  ⟨by simpa using h.op, by simpa using h.memory, by simpa using h.states⟩

theorem updLocals (h : Plain s t) (f : Locals → Locals) : Plain s (updLocals f t) := ⟨h.op, h.memory, h.states⟩

theorem setRet (h : Plain s t) (v : Word) : Plain s (setRet v t) := ⟨h.op, h.memory, h.states⟩

theorem readSr (h : Plain s t) (i : SpiId) (explicit : Bool) : Plain s (readSr i explicit t) := ⟨h.op, h.memory, h.states⟩

theorem draw (h : Plain s t) (n : Nat) : Plain s { t with draws := n } := ⟨h.op, h.memory, h.states⟩

/-- A transfer's cursor or length changes. -/
theorem updXfer (i : SpiId) (d : Dir) {f : Xfer → Xfer} (hf : ∀ x, (f x).st = x.st) : Plain s (updXfer i d f s) := by
  refine ⟨rfl, rfl, fun j e => ?_⟩
  rw [xfer_updXfer]
  split
  · next h => rw [hf, h.1, h.2]
  · rfl

theorem cfg (i : SpiId) (c : BitVec 10) : Plain s { s with handles := s.handles.set i { s.handles.get i with cfg := c } } := by
  refine ⟨rfl, rfl, fun j e => ?_⟩
  by_cases hj : j = i
  · subst hj
    cases e <;> simp [xfer, Handle.dir]
  · simp [xfer, PerSpi.get_set_ne _ _ hj]

end Plain

namespace Effect

variable {i : Instr} {r : Reg} {s t : State} {p : Nat}

theorem goto (h : Plain s t) (hp : p ≠ phaseOf s) : Effect i s (goto p t) :=
  ⟨.inr ⟨h.op, fun e => absurd e hp⟩, .inl h.memory, fun j d => .inl (h.states j d)⟩

theorem finish (h : Plain s t) : Effect i s (finish t) := ⟨.inl rfl, .inl h.memory, fun j d => .inl (h.states j d)⟩

theorem hold (h : Plain s t) (hhold : HoldsAt i s) : Effect i s t :=
  ⟨.inr ⟨h.op, fun _ => hhold⟩, .inl h.memory, fun j d => .inl (h.states j d)⟩

theorem gotoIf {c : Prop} [Decidable c] {q : Nat} (h : Plain s t) (hp : p ≠ phaseOf s) (hq : q ≠ phaseOf s) :
    Effect i s (Machine.goto (if c then p else q) t) := by
  split
  · exact goto h hp
  · exact goto h hq

theorem held (hp : p ≠ phaseOf s) : Effect i s (held r p s) := goto ((Plain.refl s).afterRead r |>.updLocals _) hp

/-- The first half of a FieldSet that goes on at phase `q`. -/
theorem rmwReadGoto {f : Word → Word} {q : Nat} (hp : p ≠ phaseOf s) (hq : q ≠ phaseOf s) :
    Sat (Effect i s) (rmwRead r f p (Machine.goto q) s) :=
  sat_rmwRead (goto ((Plain.refl s).afterRead r |>.afterWrite r _) hq) (held hp)

theorem rmwWriteGoto {f : Word → Word} {q : Nat} (hq : q ≠ phaseOf s) : Sat (Effect i s) (rmwWrite r f (Machine.goto q) s) :=
  sat_rmwWrite (goto ((Plain.refl s).afterWrite r _) hq)

/-- The first half of a FieldSet that ends its command. -/
theorem rmwReadFinish {f : Word → Word} (hp : p ≠ phaseOf s) : Sat (Effect i s) (rmwRead r f p Machine.finish s) :=
  sat_rmwRead (finish ((Plain.refl s).afterRead r |>.afterWrite r _)) (held hp)

theorem rmwWriteFinish {f : Word → Word} : Sat (Effect i s) (rmwWrite r f Machine.finish s) :=
  sat_rmwWrite (finish ((Plain.refl s).afterWrite r _))

/-- A register is read into a local. -/
theorem readInto {f : Word → Locals → Locals} (hp : p ≠ phaseOf s) :
    Sat (Effect i s) (readReg r s fun v s1 => .next (Machine.goto p (updLocals (f v) s1))) :=
  sat_readReg (goto ((Plain.refl s).afterRead r |>.updLocals _) hp)

theorem readGoto (hp : p ≠ phaseOf s) : Sat (Effect i s) (readReg r s fun _ s1 => .next (Machine.goto p s1)) :=
  sat_readReg (goto ((Plain.refl s).afterRead r) hp)

theorem writeGoto {v : Word} (hp : p ≠ phaseOf s) : Sat (Effect i s) (writeReg r v s fun s1 => .next (Machine.goto p s1)) :=
  sat_writeReg (goto ((Plain.refl s).afterWrite r v) hp)

theorem writeFinish {v : Word} : Sat (Effect i s) (writeReg r v s fun s1 => .next (Machine.finish s1)) :=
  sat_writeReg (finish ((Plain.refl s).afterWrite r v))

theorem setLocal {f : Locals → Locals} (hp : p ≠ phaseOf s) : Effect i s (Machine.goto p (updLocals f s)) :=
  goto ((Plain.refl s).updLocals f) hp

theorem wait {bit : Nat} (hp : p ≠ phaseOf s) (h : awaited s.params i (phaseOf s) = some (r, bit)) :
    Sat (Effect i s) (waitUntil r bit p s) :=
  sat_waitUntil (goto ((Plain.refl s).afterRead r) hp) fun hon hoff =>
    hold ((Plain.refl s).afterRead r) (.inl ⟨r, bit, h, hon, hoff⟩)

theorem load {a : Word} {k : Byte → Out} (h : accessedByte i s = some a) (hk : Sat (Effect i s) (k (byteAt s a))) :
    Sat (Effect i s) (loadByte a s k) := by
  cases hin : inLaunch s a
  · rw [loadByte_stuck a s k hin]
    exact hold (Plain.refl s) (.inr ⟨a, h, hin⟩)
  · rwa [loadByte_eq a s k hin]

theorem store {a : Word} {x : Byte} (h : accessedByte i s = some a) (hx : StoresAt i s a x) (hp : p ≠ phaseOf s) :
    Sat (Effect i s) (storeByte a x s fun s1 => .next (Machine.goto p s1)) := by
  cases hin : inLaunch s a
  · rw [storeByte_stuck a x s _ hin]
    exact hold (Plain.refl s) (.inr ⟨a, h, hin⟩)
  · rw [storeByte_eq a x s _ hin]
    exact ⟨.inr ⟨rfl, fun e => absurd e hp⟩, .inr ⟨a, x, hx, rfl⟩, fun j d => .inl rfl⟩

/-- A direction is turned over. -/
theorem turn {u : SpiId} {d : Dir} {x : XferState} (hp : p ≠ phaseOf s) (hx : TurnsAt i s u d x) :
    Effect i s (Machine.goto p (updXfer u d (fun y => { y with st := x }) s)) := by
  refine ⟨.inr ⟨rfl, fun e => absurd e hp⟩, .inl rfl, fun j e => ?_⟩
  rw [xfer_goto, xfer_updXfer]
  split
  · next h =>
    obtain ⟨rfl, rfl⟩ := h
    exact .inr hx
  · exact .inl rfl

theorem emit {u : SpiId} {ev : Event} (hp : p ≠ phaseOf s) : Effect i s (emitCallback u ev p s) := by
  have hmem : (emitCallback u ev p s).mem = s.mem := by rw [emitCallback_frame]
  have hhandles : (emitCallback u ev p s).handles = s.handles := by rw [emitCallback_frame]
  refine ⟨?_, .inl hmem, fun j d => .inl (by rw [xfer, hhandles, xfer])⟩
  unfold emitCallback runCallback
  split
  · exact .inr ⟨rfl, fun e => absurd e hp⟩
  · exact .inl rfl

end Effect

/-! ## Families -/

section

variable {d : Dir} {unit : BitVec 4} {i : SpiId} {s : State}

theorem awaited_blockingOf (P : Params) (hi : spiOf unit = some i) :
    awaited P (blockingOf d unit) 3 = some (.spi i .sr, flagBit d) := by
  cases d <;> simp [blockingOf, awaited, hi, flagBit]

theorem blockingStep_effect (hi : spiOf unit = some i) : Sat (Effect (blockingOf d unit) s) (blockingStep d i s) := by
  unfold blockingStep
  split
  · unfold admitBlocking
    split
    · exact Effect.setLocal (by omega)
    · refine sat_readReg ?_
      exact sat_ite (sat_ite (Effect.setLocal (by omega)) trivial) trivial
  · exact Effect.setLocal (by omega)
  · rw [sat_next]
    split
    · exact Effect.finish (.refl s)
    · exact Effect.goto (.refl s) (by omega)
  · next h => exact Effect.wait (by omega) (h ▸ awaited_blockingOf _ hi)
  · exact Effect.readInto (by omega)
  · exact sat_ite trivial (Effect.goto (.refl s) (by omega))
  · exact Effect.setLocal (by omega)
  · exact Effect.goto (.refl s) fun h => ‹phaseOf s = 2 → False› h.symm

theorem sendStep_effect (hi : spiOf unit = some i) : Sat (Effect (.spiSend unit) s) (sendStep i s) := by
  unfold sendStep
  split
  · next h => exact Effect.load (by simp [accessedByte, hi, h]) (Effect.gotoIf ((Plain.refl s).updLocals _) (by omega) (by omega))
  · next h => exact Effect.load (by simp [accessedByte, hi, h]) (Effect.setLocal (by omega))
  · exact Effect.writeGoto (by omega)
  · exact blockingStep_effect (d := .tx) hi

theorem recvStep_effect (hi : spiOf unit = some i) : Sat (Effect (.spiRecv unit) s) (recvStep i s) := by
  unfold recvStep
  split
  · exact Effect.readInto (by omega)
  · next h =>
    exact Effect.store (by simp [accessedByte, hi, h]) ⟨7, .inl ⟨unit, rfl, rfl⟩, .inl ⟨h, rfl, rfl⟩⟩ (by split <;> omega)
  · next h =>
    exact Effect.store (by simp [accessedByte, hi, h]) ⟨7, .inl ⟨unit, rfl, rfl⟩, .inr ⟨h, rfl, rfl⟩⟩ (by omega)
  · exact blockingStep_effect (d := .rx) hi

theorem requestStep_effect (hi : spiOf unit = some i) : Sat (Effect (requestOf d unit) s) (requestStep d i s) := by
  unfold requestStep
  simp only []
  split
  · exact Effect.setLocal (by omega)
  · exact Effect.setLocal (by omega)
  · exact Effect.setLocal (by omega)
  · rw [sat_next]
    split
    · exact Effect.finish ((Plain.refl s).setRet _)
    · exact Effect.goto (.refl s) (by omega)
  · unfold admitRequest
    split
    · trivial
    · exact sat_readReg (sat_ite (sat_ite (Effect.goto ((Plain.refl s).afterRead _) (by omega)) trivial) trivial)
  · exact Effect.goto (.updXfer i d fun _ => rfl) (by omega)
  · exact Effect.goto (.updXfer i d fun _ => rfl) (by omega)
  · next h => exact Effect.turn (by omega) (.inr ⟨rfl, unit, hi, rfl, h⟩)
  · exact Effect.rmwReadGoto (by omega) (by omega)
  · exact Effect.rmwWriteGoto (by omega)
  · exact Effect.finish ((Plain.refl s).setRet _)

theorem serviceStep_effect {k : Nat} (hi : spiOf unit = some i) (hk : phaseOf s = serviceBase d + k) :
    Sat (Effect (.spiIrq unit) s) (serviceStep d i (serviceBase d) (nextCheck d) k s) := by
  have hnext : nextCheck d < serviceBase d := by cases d <;> decide
  unfold serviceStep
  simp only []
  split
  · exact Effect.readInto (by omega)
  · exact sat_ite (Effect.goto (.refl s) (by omega)) trivial
  · exact Effect.setLocal (by omega)
  · exact sat_ite trivial (Effect.goto (.updXfer i d fun _ => rfl) (by omega))
  · exact Effect.setLocal (by omega)
  · exact Effect.goto (.updXfer i d fun _ => rfl) (by omega)
  · exact Effect.gotoIf (.refl s) (by omega) (by omega)
  · exact Effect.rmwReadGoto (by omega) (by omega)
  · exact Effect.rmwWriteGoto (by omega)
  · exact Effect.goto (.updXfer i d fun _ => rfl) (by omega)
  · exact Effect.goto (.updXfer i d fun _ => rfl) (by omega)
  · exact Effect.turn (by omega) (.inl ⟨rfl, unit, hi, rfl, hk⟩)
  · exact Effect.emit (by omega)

theorem accessedByte_spiIrq_tx {k : Nat} (hi : spiOf unit = some i) (hk : phaseOf s = txeBase + 3 + k) (h1 : k ≤ 1) :
    accessedByte (.spiIrq unit) s = some (if k = 0 then (locals s).b else (locals s).b + 1) := by
  interval_cases k <;> simp [accessedByte, hi, hk]

theorem accessedByte_spiIrq_rx {k : Nat} (hi : spiOf unit = some i) (hk : phaseOf s = rxneBase + 4 + k) (h1 : k ≤ 1) :
    accessedByte (.spiIrq unit) s = some (if k = 0 then (locals s).b else (locals s).b + 1) := by
  interval_cases k <;> simp [accessedByte, hi, hk, txeBase, rxneBase]

theorem txeService_effect {k : Nat} (hi : spiOf unit = some i) (hk : phaseOf s = txeBase + k) :
    Sat (Effect (.spiIrq unit) s) (txeService i txeBase 3 k s) := by
  unfold txeService
  split
  · exact Effect.setLocal (by omega)
  · exact Effect.load (accessedByte_spiIrq_tx (k := 0) hi hk (by decide)) (Effect.gotoIf ((Plain.refl s).updLocals _) (by omega) (by omega))
  · exact Effect.load (accessedByte_spiIrq_tx (k := 1) hi hk (by decide)) (Effect.setLocal (by omega))
  · exact Effect.writeGoto (by omega)
  · exact serviceStep_effect (d := .tx) hi hk

theorem rxneService_effect {k : Nat} (hi : spiOf unit = some i) (hk : phaseOf s = rxneBase + k) :
    Sat (Effect (.spiIrq unit) s) (rxneService i rxneBase 6 k s) := by
  unfold rxneService
  split
  · exact Effect.readInto (by omega)
  · exact Effect.setLocal (by omega)
  · exact Effect.store (accessedByte_spiIrq_rx (k := 0) hi hk (by decide))
      ⟨_, .inr ⟨unit, rfl, rfl⟩, .inl ⟨hk, rfl, rfl⟩⟩ (by split <;> omega)
  · exact Effect.store (accessedByte_spiIrq_rx (k := 1) hi hk (by decide))
      ⟨_, .inr ⟨unit, rfl, rfl⟩, .inr ⟨hk, rfl, rfl⟩⟩ (by omega)
  · exact serviceStep_effect (d := .rx) hi hk

theorem ovrService_effect {k : Nat} (hk : phaseOf s = ovrBase + k) :
    Sat (Effect (.spiIrq unit) s) (ovrService i ovrBase 9 k s) := by
  have hbase : 9 < ovrBase := by decide
  unfold ovrService
  split
  · exact Effect.gotoIf (.refl s) (by omega) (by omega)
  · exact Effect.readGoto (by omega)
  · exact sat_ite (Effect.goto ((Plain.refl s).readSr i true) (by omega)) trivial
  · exact Effect.emit (by omega)

theorem dispatchStep_effect (hi : spiOf unit = some i) : Sat (Effect (.spiIrq unit) s) (dispatchStep i s) := by
  have hbases : txeBase = 10 ∧ rxneBase = 30 ∧ ovrBase = 50 := ⟨rfl, rfl, rfl⟩
  by_cases hservice : txeBase ≤ phaseOf s
  · rw [dispatchStep_of_servicePhase hservice]
    split
    · exact txeService_effect hi (by omega)
    split
    · exact rxneService_effect hi (by omega)
    · exact ovrService_effect (by omega)
  · unfold dispatchStep
    split
    · exact Effect.readInto (by omega)
    · exact Effect.readInto (by omega)
    · exact Effect.gotoIf (.refl s) (by omega) (by omega)
    · exact Effect.readInto (by omega)
    · exact Effect.readInto (by omega)
    · exact Effect.gotoIf (.refl s) (by omega) (by omega)
    · exact Effect.readInto (by omega)
    · exact Effect.readInto (by omega)
    · exact Effect.gotoIf (.refl s) (by omega) (by omega)
    · exact Effect.finish (.refl s)
    · have hlt : phaseOf s < 10 := by omega
      interval_cases phaseOf s <;> contradiction

theorem msendStep_effect {u : I2cId} {a : BitVec 7} (hu : i2cOf s.params unit = some u) :
    Sat (Effect (.i2cMsend unit a) s) (msendStep u a s) := by
  unfold msendStep
  simp only []
  split
  · exact sat_ite (Effect.setLocal (by omega)) trivial
  · exact Effect.setLocal (by omega)
  · exact Effect.rmwReadGoto (by omega) (by omega)
  · exact Effect.rmwWriteGoto (by omega)
  · next h => exact Effect.wait (by omega) (by simp [awaited, h, hu])
  · exact Effect.writeGoto (by omega)
  · next h => exact Effect.wait (by omega) (by simp [awaited, h, hu])
  · exact Effect.readGoto (by omega)
  · exact Effect.readGoto (by omega)
  · exact Effect.gotoIf (.refl s) (by omega) (by omega)
  · next h => exact Effect.wait (by omega) (by simp [awaited, h, hu])
  · next h => exact Effect.load (by simp [accessedByte, h, hu]) (Effect.setLocal (by omega))
  · exact Effect.writeGoto (by omega)
  · exact Effect.setLocal (by omega)
  · next h => exact Effect.wait (by omega) (by simp [awaited, h, hu])
  · next h => exact Effect.wait (by omega) (by simp [awaited, h, hu])
  · exact Effect.rmwReadFinish (by omega)
  · exact Effect.rmwWriteFinish

end

end Sys2Proof.Machine

namespace Sys2Proof.Machine

/-! ## Every command -/

theorem sat_withSpi_of {P : State → Prop} {unit : BitVec 4} {k : SpiId → Out} (hk : ∀ i, spiOf unit = some i → Sat P (k i)) :
    Sat P (withSpi unit k) := by
  unfold withSpi
  split
  · exact hk _ ‹_›
  · trivial

theorem sat_withI2c_of {P : State → Prop} {s : State} {unit : BitVec 4} {k : I2cId → Out}
    (hk : ∀ u, i2cOf s.params unit = some u → Sat P (k u)) : Sat P (withI2c s unit k) := by
  unfold withI2c
  split
  · exact hk _ ‹_›
  · trivial

theorem exec_effect (i : Instr) (s : State) : Sat (Effect i s) (exec i s) := by
  cases i with
  | spiInit unit cfg =>
    refine sat_withSpi fun x => ?_
    split
    · split
      · exact Effect.goto (.cfg x cfg) (by omega)
      · exact Effect.writeFinish
    · trivial
  | spiSend unit => exact sat_withSpi_of fun _ hi => sendStep_effect hi
  | spiRecv unit => exact sat_withSpi_of fun _ hi => recvStep_effect hi
  | spiSendIt unit => exact sat_withSpi_of fun _ hi => requestStep_effect (d := .tx) hi
  | spiRecvIt unit => exact sat_withSpi_of fun _ hi => requestStep_effect (d := .rx) hi
  | spiIrq unit => exact sat_withSpi_of fun _ hi => dispatchStep_effect hi
  | extiEdge pin edge =>
    simp only [exec, execExtiEdge]
    split
    · split
      · next h0 =>
        have hp : ∀ p, p ≠ 0 → p ≠ phaseOf s := fun p hp => h0 ▸ hp
        refine sat_rmwRead ?_ ?_
        · exact Effect.goto ((Plain.refl s).updLocals _ |>.afterRead _ |>.afterWrite _ _) (hp 2 (by decide))
        · exact Effect.goto ((Plain.refl s).updLocals _ |>.afterRead _ |>.updLocals _) (hp 1 (by decide))
      · exact Effect.rmwWriteGoto (by omega)
      · exact Effect.rmwReadFinish (by omega)
      · exact Effect.rmwWriteFinish
    · trivial
  | extiRoute port pin =>
    refine sat_withPort fun p => ?_
    simp only []
    split
    · exact Effect.rmwReadGoto (by omega) (by omega)
    · exact Effect.rmwWriteGoto (by omega)
    · exact Effect.rmwReadFinish (by omega)
    · exact Effect.rmwWriteFinish
  | extiArm pin =>
    simp only [exec, execExtiArm]
    split
    · exact Effect.rmwReadFinish (by omega)
    · exact Effect.rmwWriteFinish
  | extiAck pin =>
    simp only [exec, execExtiAck]
    split
    · exact Effect.readInto (by omega)
    · exact sat_ite Effect.writeFinish (Effect.finish (.refl s))
  | irqEnable q en => exact sat_withIrq fun x => Effect.writeFinish
  | irqPrio q prio =>
    refine sat_withIrq fun x => sat_withPriority fun p => ?_
    simp only []
    split
    · exact Effect.rmwReadFinish (by omega)
    · exact Effect.rmwWriteFinish
  | i2cMsend unit addr7 => exact sat_withI2c_of fun _ hu => msendStep_effect hu
  | gpioCfg port pin mode ecfg =>
    refine sat_withPort fun p => ?_
    split
    · simp only []
      split
      · exact sat_rmwRead (Effect.finish ((Plain.refl s).afterRead _ |>.afterWrite _ _ |>.draw _)) (Effect.held (by omega))
      · exact sat_rmwWrite (Effect.finish ((Plain.refl s).afterWrite _ _ |>.draw _))
    · trivial
  | gpioRdPin port pin =>
    refine sat_withPort fun p => ?_
    split
    · exact Effect.readInto (by omega)
    · exact Effect.finish ((Plain.refl s).setRet _)
  | gpioRdPort port =>
    refine sat_withPort fun p => ?_
    split
    · exact Effect.readInto (by omega)
    · exact Effect.finish ((Plain.refl s).setRet _)
  | gpioWrPin port pin value =>
    refine sat_withPort fun p => ?_
    simp only []
    split
    · exact Effect.rmwReadFinish (by omega)
    · exact Effect.rmwWriteFinish
  | gpioWrPort port value => exact sat_withPort fun p => Effect.writeFinish
  | gpioTglPin port pin =>
    refine sat_withPort fun p => ?_
    simp only []
    split
    · exact Effect.rmwReadFinish (by omega)
    · exact Effect.rmwWriteFinish
  | pclk id en =>
    refine sat_withPeripheral fun p => ?_
    simp only []
    split
    · exact Effect.rmwReadFinish (by omega)
    · exact Effect.rmwWriteFinish
  | regRd =>
    simp only [exec, execRegRd]
    split
    · refine sat_withReg fun r => sat_readReg ?_
      exact Effect.goto ((Plain.refl s).afterRead r |>.updLocals _) (by omega)
    · exact Effect.finish ((Plain.refl s).setRet _)
  | regWr => exact sat_withReg fun r => sat_ite trivial Effect.writeFinish

/-- What a micro-step that answers a next state did. -/
theorem effect_of_exec {i : Instr} {s t : State} (h : exec i s = .next t) : Effect i s t :=
  (sat_iff _ _).1 (exec_effect i s) t h

end Sys2Proof.Machine

namespace Sys2Proof.Machine

/-! # What changes buffer memory and the states of the directions (20 R71, 10 R25) -/

theorem currentInstr_of_decode {s : State} {w : Word} {i : Instr} (hop : s.ctx.act.op = some w) (hd : decode s.params w = .ok i) :
    currentInstr s = some i := by
  simp only [currentInstr, hop, hd]

/-- A micro-step of the running context is one of its command, or its next application operation. -/
theorem contextStep_eq_next {s t : State} (h : contextStep s = .next t) :
    (∃ i, currentInstr s = some i ∧ Effect i s t) ∨ s.ctx.act.op = none ∧ issue s = .next t := by
  unfold contextStep at h
  split at h
  · exact .inr ⟨‹_›, h⟩
  · split at h
    · exact .inl ⟨_, currentInstr_of_decode ‹_› ‹_›, effect_of_exec h⟩
    · cases h

/-- A move is a micro-step of the running context, or changes neither buffer memory nor a handle. -/
theorem makeMove_eq_next {m : Move} {s t : State} (h : makeMove m s = .next t) :
    (∃ swap, contextStep { s with swap := swap } = .next t) ∨ t.mem = s.mem ∧ t.handles = s.handles := by
  cases m with
  | foreground swap =>
    simp only [makeMove] at h
    split at h
    · exact .inl ⟨swap, h⟩
    · cases h
      exact .inr ⟨rfl, rfl⟩
  | handler q swap =>
    simp only [makeMove] at h
    split at h
    · exact .inl ⟨swap, h⟩
    · cases h
      exact .inr ⟨rfl, rfl⟩
  | enter q =>
    cases h
    right
    split <;> exact ⟨rfl, rfl⟩
  | leave =>
    cases h
    right
    obtain h | ⟨q, c, rest, -, -, h⟩ := leaveIrq_eq s <;> rw [h] <;> exact ⟨rfl, rfl⟩
  | txEmpty i =>
    cases h
    exact .inr ⟨rfl, rfl⟩
  | rxFrame i v =>
    cases h
    right
    unfold envRxFrame
    split <;> exact ⟨rfl, rfl⟩
  | overrun i =>
    cases h
    exact .inr ⟨rfl, rfl⟩
  | i2cFlag u f x =>
    cases h
    right
    unfold envI2cFlag
    split <;> exact ⟨rfl, rfl⟩
  | pin p n x =>
    cases h
    right
    rw [envPin_frame]
    exact ⟨rfl, rfl⟩

/-- A step is a micro-step of the running context with the latch after it, or changes neither buffer memory nor a handle. -/
theorem step_eq_next {s t : State} (h : step s = .next t) :
    (∃ swap u, contextStep { s with sched := s.sched.tail, swap := swap } = .next u ∧ t.mem = u.mem ∧ t.handles = u.handles) ∨
      t.mem = s.mem ∧ t.handles = s.handles := by
  obtain ⟨u, hu, rfl⟩ := makeMove_of_step_eq_next h
  refine (makeMove_eq_next hu).imp (fun ⟨swap, hstep⟩ => ⟨swap, u, hstep, rfl, rfl⟩) id

/-- An application operation changes no handle, and buffer memory only by its store. -/
theorem issue_eq_next {s t : State} (h : issue s = .next t) : t.handles = s.handles ∧
    (t.mem = s.mem ∨ ∃ a x rest, s.ctx.act.todo = .store a x :: rest ∧ t.mem = s.mem.write a.toNat x) := by
  unfold issue at h
  split at h
  · cases h
    exact ⟨rfl, .inl rfl⟩
  · cases h
    exact ⟨rfl, .inl rfl⟩
  · cases h
    exact ⟨rfl, .inl rfl⟩
  · next a x rest htodo =>
    unfold storeByte at h
    split at h
    · cases h
      exact ⟨rfl, .inr ⟨a, x, rest, htodo, rfl⟩⟩
    · cases h
      exact ⟨rfl, .inl rfl⟩
  · split at h <;> cases h <;> exact ⟨rfl, .inl rfl⟩

/-- A byte of memory after one byte was written. -/
theorem byteAt_of_mem_eq_write {s t : State} {a : Word} {x : Byte} (h : t.mem = s.mem.write a.toNat x) :
    byteAt t a = x ∧ ∀ c, c ≠ a → byteAt t c = byteAt s c := by
  have ht (c : Word) : byteAt t c = byteAt (putByte a x s) c := by rw [byteAt, h, byteAt, putByte_mem]
  exact ⟨(ht a).trans (byteAt_putByte_self a x s), fun c hc => (ht c).trans (byteAt_putByte_ne x s hc)⟩

/-- Settles O14: memory changes in a micro-step of the running context only, and there `Effect` and `issue_eq_next` say by which
byte. -/
theorem memoryWrittenByReceiveOrApplication : Obligations.MemoryWrittenByReceiveOrApplication := by
  intro s t hstep hne
  obtain ⟨swap, u, hu, hmem, -⟩ | ⟨hmem, -⟩ := step_eq_next hstep
  case inr => exact absurd hmem hne
  rw [hmem] at hne
  obtain ⟨i, hi, heffect⟩ | ⟨hop, hissue⟩ := contextStep_eq_next hu
  · obtain hsame | ⟨a, x, ⟨first, hinstr, hbyte⟩, hwrite⟩ := heffect.memory
    · exact absurd hsame hne
    have hbytes := byteAt_of_mem_eq_write (s := s) (hmem.trans hwrite)
    refine ⟨a, x, hbytes.1, hbytes.2, .inl ⟨first, ?_, hbyte⟩⟩
    exact hinstr.imp (fun ⟨unit, e, hf⟩ => ⟨unit, e ▸ hi, hf⟩) fun ⟨unit, e, hf⟩ => ⟨unit, e ▸ hi, hf⟩
  · obtain ⟨-, hsame | ⟨a, x, rest, htodo, hwrite⟩⟩ := issue_eq_next hissue
    · exact absurd hsame hne
    have hbytes := byteAt_of_mem_eq_write (s := s) (hmem.trans hwrite)
    exact ⟨a, x, hbytes.1, hbytes.2, .inr ⟨rest, hop, htodo⟩⟩

/-- A direction whose state a step changes was turned over by the command in progress. -/
theorem turnsAt_of_step {s t : State} {i : SpiId} {d : Dir} (hstep : step s = .next t) (hne : (xfer t i d).st ≠ (xfer s i d).st) :
    ∃ j, currentInstr s = some j ∧ TurnsAt j s i d (xfer t i d).st := by
  have hsame (v : State) (h : t.handles = v.handles) : xfer t i d = xfer v i d := by rw [xfer, h, xfer]
  obtain ⟨swap, u, hu, -, hhandles⟩ | ⟨-, hhandles⟩ := step_eq_next hstep
  case inr => exact absurd (congrArg Xfer.st (hsame s hhandles)) hne
  rw [hsame u hhandles] at hne ⊢
  obtain ⟨j, hj, heffect⟩ | ⟨-, hissue⟩ := contextStep_eq_next hu
  · exact ⟨j, hj, (heffect.states i d).resolve_left hne⟩
  · have hkept : xfer u i d = xfer s i d := by rw [xfer, (issue_eq_next hissue).1, xfer]
    exact absurd (congrArg Xfer.st hkept) hne

/-- Settles O27: the two ways a direction is turned over. -/
theorem directionChangesOnlyByItsService : Obligations.DirectionChangesOnlyByItsService := by
  refine fun s t i d hstep => ⟨fun hbusy hidle => ?_, fun hidle hbusy => ?_⟩
  · obtain ⟨j, hj, hturn⟩ := turnsAt_of_step (i := i) (d := d) hstep (by simp [hbusy, hidle])
    obtain ⟨-, unit, hunit, rfl, hphase⟩ | ⟨h, -⟩ := hturn
    · exact ⟨unit, hunit, hj, hphase⟩
    · simp [hidle] at h
  · obtain ⟨j, hj, hturn⟩ := turnsAt_of_step (i := i) (d := d) hstep (by simp [hbusy, hidle])
    obtain ⟨h, -⟩ | ⟨-, unit, hunit, rfl, hphase⟩ := hturn
    · simp [hbusy] at h
    · exact ⟨unit, hunit, hj, hphase⟩

end Sys2Proof.Machine

namespace Sys2Proof.Machine

/-! # Waits and holds (00 R9, 70 R296, 20 R71) -/

section

variable {unit : BitVec 4} {i : SpiId} {s : State}

theorem exec_spiIrq_eq (hi : spiOf unit = some i) (s : State) : exec (.spiIrq unit) s = dispatchStep i s :=
  withSpi_eq (fun i => dispatchStep i s) hi

theorem exec_i2cMsend_eq {u : I2cId} (a : BitVec 7) (hu : i2cOf s.params unit = some u) :
    exec (.i2cMsend unit a) s = msendStep u a s :=
  withI2c_eq (fun u => msendStep u a s) hu

theorem exec_spiIrq_of_txePhase {k : Nat} (hi : spiOf unit = some i) (hk : phaseOf s = txeBase + k) (hlt : k < 20) :
    exec (.spiIrq unit) s = txeService i txeBase 3 k s := by
  have hbases : rxneBase = txeBase + 20 := rfl
  rw [exec_spiIrq_eq hi, dispatchStep_of_servicePhase (by omega), if_pos (by omega), hk, Nat.add_sub_cancel_left]

theorem exec_spiIrq_of_rxnePhase {k : Nat} (hi : spiOf unit = some i) (hk : phaseOf s = rxneBase + k) (hlt : k < 20) :
    exec (.spiIrq unit) s = rxneService i rxneBase 6 k s := by
  have hbases : rxneBase = txeBase + 20 ∧ ovrBase = rxneBase + 20 := ⟨rfl, rfl⟩
  rw [exec_spiIrq_eq hi, dispatchStep_of_servicePhase (by omega), if_neg (by omega), if_pos (by omega), hk,
    Nat.add_sub_cancel_left]

/-- A wait's micro-step is `waitUntil`, going on at the next phase. -/
theorem exec_of_awaited {j : Instr} {r : Reg} {bit : Nat} (h : awaited s.params j (phaseOf s) = some (r, bit)) :
    exec j s = waitUntil r bit (phaseOf s + 1) s := by
  cases j with
  | spiSend unit =>
    obtain ⟨h3, x, hx, rfl, rfl⟩ : phaseOf s = 3 ∧ ∃ x, spiOf unit = some x ∧ .spi x .sr = r ∧ bitTxe = bit := by
      simpa [awaited] using h
    refine (exec_blockingOf (d := .tx) hx (by omega)).trans ?_
    simp only [blockingStep, h3, flagBit]
  | spiRecv unit =>
    obtain ⟨h3, x, hx, rfl, rfl⟩ : phaseOf s = 3 ∧ ∃ x, spiOf unit = some x ∧ .spi x .sr = r ∧ bitRxne = bit := by
      simpa [awaited] using h
    refine (exec_blockingOf (d := .rx) hx (by omega)).trans ?_
    simp only [blockingStep, h3, flagBit]
  | i2cMsend unit a =>
    obtain ⟨b, hflag, hunit⟩ := Option.bind_eq_some_iff.1 h
    obtain ⟨u, hu, hr⟩ := Option.map_eq_some_iff.1 hunit
    cases hr
    rw [exec_i2cMsend_eq a hu]
    split_ifs at hflag with h4 h6 h1014 h15
    · cases hflag
      simp only [msendStep, h4]
    · cases hflag
      simp only [msendStep, h6]
    · cases hflag
      obtain h10 | h14 := h1014
      · simp only [msendStep, h10]
      · simp only [msendStep, h14]
    · cases hflag
      simp only [msendStep, h15]
  | _ => simp [awaited] at h

/-- The two bytes of a frame at the cursor, the accesses being at two phases one after the other. -/
theorem frameByte_eq_some {p first : Nat} {b a : Word}
    (h : (if p = first then some b else if p = first + 1 then some (b + 1) else none) = some a) :
    (p = first ∧ b = a) ∨ (p = first + 1 ∧ b + 1 = a) := by
  split_ifs at h with h0 h1
  · exact .inl ⟨h0, Option.some.inj h⟩
  · exact .inr ⟨h1, Option.some.inj h⟩

/-- A byte access outside the launch memory has no step. -/
theorem exec_stuck {j : Instr} {a : Word} (h : accessedByte j s = some a) (hout : inLaunch s a = false) : exec j s = .next s := by
  cases j with
  | spiSend unit =>
    obtain ⟨x, hx, hframe⟩ := Option.bind_eq_some_iff.1 h
    refine (withSpi_eq (fun i => sendStep i s) hx).trans ?_
    obtain ⟨hp, rfl⟩ | ⟨hp, rfl⟩ := frameByte_eq_some hframe <;> simp only [sendStep, hp] <;> exact loadByte_stuck _ s _ hout
  | spiRecv unit =>
    obtain ⟨x, hx, hframe⟩ := Option.bind_eq_some_iff.1 h
    refine (withSpi_eq (fun i => recvStep i s) hx).trans ?_
    obtain ⟨hp, rfl⟩ | ⟨hp, rfl⟩ := frameByte_eq_some hframe <;> simp only [recvStep, hp] <;> exact storeByte_stuck _ _ s _ hout
  | spiIrq unit =>
    obtain ⟨x, hx, hframe⟩ := Option.bind_eq_some_iff.1 h
    obtain hframe | ⟨-, hframe⟩ := Option.or_eq_some_iff.1 hframe
    · obtain ⟨hp, rfl⟩ | ⟨hp, rfl⟩ := frameByte_eq_some hframe
      · rw [exec_spiIrq_of_txePhase (k := 3) hx hp (by decide), txeService, loadByte_stuck _ s _ hout]
      · rw [exec_spiIrq_of_txePhase (k := 4) hx hp (by decide), txeService, loadByte_stuck _ s _ hout]
    · obtain ⟨hp, rfl⟩ | ⟨hp, rfl⟩ := frameByte_eq_some hframe
      · rw [exec_spiIrq_of_rxnePhase (k := 4) hx hp (by decide), rxneService, storeByte_stuck _ _ s _ hout]
      · rw [exec_spiIrq_of_rxnePhase (k := 5) hx hp (by decide), rxneService, storeByte_stuck _ _ s _ hout]
  | i2cMsend unit a =>
    obtain ⟨u, hu, hbyte⟩ := Option.bind_eq_some_iff.1 h
    rw [exec_i2cMsend_eq _ hu]
    obtain ⟨hp, rfl⟩ : phaseOf s = 11 ∧ (locals s).b = _ := by simpa using hbyte
    simp only [msendStep, hp]
    exact loadByte_stuck _ s _ hout
  | _ => simp [accessedByte] at h

end

/-- Settles O22: a wait is `waitUntil`, and `Effect` says that a micro-step of any other kind moves the sequencer on. -/
theorem waitHoldsUntilItsFlag : Obligations.WaitHoldsUntilItsFlag := by
  refine ⟨fun j r bit s h hon => ?_, fun j a s => exec_stuck, fun j s hop => ⟨fun ⟨t, ht⟩ => ?_, fun h => ?_⟩⟩
  · rw [exec_of_awaited h, waitUntil_eq _ _ _ _ hon]
  · cases hexec : exec j s with
    | next u =>
      rw [hexec, outcome_next_eq_hold] at ht
      obtain ⟨rfl, hsome, hphase⟩ := ht
      obtain hnone | ⟨-, hhold⟩ := (effect_of_exec hexec).op
      · simp [hnone] at hsome
      · exact hhold hphase
    | fault f => simp [hexec] at ht
    | refused r => simp [hexec] at ht
  · have hsome : s.ctx.act.op.isSome = true := Option.isSome_iff_ne_none.2 hop
    obtain ⟨r, bit, hawaited, hon, hoff⟩ | ⟨a, hbyte, hout⟩ := h
    · refine ⟨afterRead r s, ?_⟩
      rw [exec_of_awaited hawaited, waitUntil_eq _ _ _ _ hon, if_neg (by simp [hoff]), outcome_next_eq_hold]
      simpa using hsome
    · refine ⟨s, ?_⟩
      rw [exec_stuck hbyte hout, outcome_next_eq_hold]
      exact ⟨rfl, hsome, rfl⟩

end Sys2Proof.Machine

namespace Sys2Proof.Machine

/-! # I2C_MSEND touches only I2C state (44 R213) -/

/-- `t` differs from `s` in I2C registers, the I2C history, the draw counter and the running sequencer at most. -/
def OnlyI2c (s t : State) : Prop :=
  t = { s with i2c := t.i2c, i2cOut := t.i2cOut, draws := t.draws, ctx := { s.ctx with act := t.ctx.act } }

namespace OnlyI2c

variable {s t : State}

theorem refl (s : State) : OnlyI2c s s := rfl

theorem updAct (h : OnlyI2c s t) (f : Act → Act) : OnlyI2c s (updAct f t) := by
  rw [OnlyI2c, h]
  rfl

theorem goto (h : OnlyI2c s t) (p : Nat) : OnlyI2c s (goto p t) := h.updAct _

theorem updLocals (h : OnlyI2c s t) (f : Locals → Locals) : OnlyI2c s (updLocals f t) := h.updAct _

theorem finish (h : OnlyI2c s t) : OnlyI2c s (finish t) := h.updAct _

theorem afterRead (h : OnlyI2c s t) (u : I2cId) (r : I2cReg) : OnlyI2c s (afterRead (.i2c u r) t) := by
  rw [OnlyI2c, h]
  cases r <;> rfl

theorem afterWrite (h : OnlyI2c s t) (u : I2cId) (r : I2cReg) (v : Word) : OnlyI2c s (afterWrite (.i2c u r) v t) := by
  rw [OnlyI2c, h]
  cases r <;> rfl

theorem held (u : I2cId) (r : I2cReg) (p : Nat) (s : State) : OnlyI2c s (held (.i2c u r) p s) :=
  ((refl s).afterRead u r).updLocals _ |>.goto p

theorem wait (u : I2cId) (r : I2cReg) (bit p : Nat) (s : State) : Sat (OnlyI2c s) (waitUntil (.i2c u r) bit p s) :=
  sat_waitUntil (((refl s).afterRead u r).goto p) fun _ _ => (refl s).afterRead u r

end OnlyI2c

theorem msendStep_onlyI2c (u : I2cId) (a : BitVec 7) (s : State) : Sat (OnlyI2c s) (msendStep u a s) := by
  have hs := OnlyI2c.refl s
  unfold msendStep
  simp only []
  split
  · exact sat_ite ((hs.updLocals _).goto _) trivial
  · exact (hs.updLocals _).goto _
  · exact sat_rmwRead (((hs.afterRead _ _).afterWrite _ _ _).goto _) (.held _ _ _ _)
  · exact sat_rmwWrite ((hs.afterWrite _ _ _).goto _)
  · exact OnlyI2c.wait _ _ _ _ _
  · exact sat_writeReg ((hs.afterWrite _ _ _).goto _)
  · exact OnlyI2c.wait _ _ _ _ _
  · exact sat_readReg ((hs.afterRead _ _).goto _)
  · exact sat_readReg ((hs.afterRead _ _).goto _)
  · exact hs.goto _
  · exact OnlyI2c.wait _ _ _ _ _
  · exact sat_loadByte hs fun x => (hs.updLocals _).goto _
  · exact sat_writeReg ((hs.afterWrite _ _ _).goto _)
  · exact (hs.updLocals _).goto _
  · exact OnlyI2c.wait _ _ _ _ _
  · exact OnlyI2c.wait _ _ _ _ _
  · exact sat_rmwRead ((hs.afterRead _ _).afterWrite _ _ _).finish (.held _ _ _ _)
  · exact sat_rmwWrite (hs.afterWrite _ _ _).finish

/-- Settles O51: phase by phase. -/
theorem masterSendTouchesOnlyI2c : Obligations.MasterSendTouchesOnlyI2c :=
  fun _ a s t h => (sat_iff _ _).1 (sat_withI2c fun u => msendStep_onlyI2c u a s) t h

end Sys2Proof.Machine

namespace Sys2Proof.Machine

/-! # Who sets the status flags (10 R40 to R43, R57) -/

/-! ## The shift unit and the I2C bus unit -/

/-- When the bus unit's step takes place (10 R57, log 18). -/
theorem envI2cFlag_eq (u : I2cId) (f : I2cFlag) (x : Bool) (s : State) : envI2cFlag u f x s =
    if hasI2c s.params u = true ∧ (x = true ∨ (f ≠ .addr ∧ ∃ e ∈ s.i2cOut, e.1 = u)) then updI2c u (setI2cFlag f x) s else s := by
  rw [envI2cFlag]
  exact if_congr (by simp) rfl rfl

theorem i2cFlagOf_setI2cFlag (f g : I2cFlag) (x : Bool) (r : I2cRegs) :
    i2cFlagOf g (setI2cFlag f x r) = if g = f then x else i2cFlagOf g r := by
  cases f <;> cases g <;> rfl

theorem setI2cFlag_frame (f : I2cFlag) (x : Bool) (r : I2cRegs) : setI2cFlag f x r = { r with
    sb := (setI2cFlag f x r).sb, addr := (setI2cFlag f x r).addr, txe := (setI2cFlag f x r).txe,
    btf := (setI2cFlag f x r).btf } := by
  cases f <;> rfl

/-! ## No status flag is set by a context or by the arbiter -/

/-- Every SPI flag that is 1 in `r'` is 1 in `r`. -/
def spiFlagsWithin (r r' : SpiRegs) : Prop :=
  (r'.txe = true → r.txe = true) ∧ (r'.rxne = true → r.rxne = true) ∧ (r'.ovr = true → r.ovr = true)

/-- Every I2C flag that is 1 in `r'` is 1 in `r`. -/
def i2cFlagsWithin (r r' : I2cRegs) : Prop := ∀ f, i2cFlagOf f r' = true → i2cFlagOf f r = true

/-- Every status flag that is 1 in `t` is 1 in `s`. -/
def flagsWithin (s t : State) : Prop :=
  (∀ i, spiFlagsWithin (s.spi.get i) (t.spi.get i)) ∧ ∀ u, i2cFlagsWithin (s.i2c.get u) (t.i2c.get u)

theorem spiFlagsWithin_refl (r : SpiRegs) : spiFlagsWithin r r := ⟨id, id, id⟩

theorem spiFlagsWithin.trans {r r' r'' : SpiRegs} (h : spiFlagsWithin r r') (h' : spiFlagsWithin r' r'') : spiFlagsWithin r r'' :=
  ⟨h.1 ∘ h'.1, h.2.1 ∘ h'.2.1, h.2.2 ∘ h'.2.2⟩

namespace flagsWithin

variable {s t : State}

theorem refl (s : State) : flagsWithin s s := ⟨fun _ => spiFlagsWithin_refl _, fun _ _ => id⟩

/-- An update that leaves the SPI and I2C registers alone. -/
theorem of_same {u : State} (h : flagsWithin s t) (hspi : u.spi = t.spi) (hi2c : u.i2c = t.i2c) : flagsWithin s u := by
  unfold flagsWithin
  rwa [hspi, hi2c]

theorem updSpi (h : flagsWithin s t) (i : SpiId) {f : SpiRegs → SpiRegs} (hf : spiFlagsWithin (t.spi.get i) (f (t.spi.get i))) :
    flagsWithin s (updSpi i f t) := by
  refine ⟨fun j => ?_, h.2⟩
  rw [updSpi_spi]
  by_cases hj : j = i
  · subst hj
    rw [PerSpi.get_set_self]
    exact (h.1 j).trans hf
  · rw [PerSpi.get_set_ne _ _ hj]
    exact h.1 j

theorem updI2c (h : flagsWithin s t) (u : I2cId) {f : I2cRegs → I2cRegs} (hf : i2cFlagsWithin (t.i2c.get u) (f (t.i2c.get u))) :
    flagsWithin s (updI2c u f t) := by
  refine ⟨h.1, fun v => ?_⟩
  rw [updI2c_i2c, PerI2c.get_set]
  split
  · next hv =>
    subst hv
    exact fun g hg => h.2 v g (hf g hg)
  · exact h.2 v

theorem writeSpi (h : flagsWithin s t) (i : SpiId) {f : SpiRegs → SpiRegs} (hf : ∀ r, spiFlagsWithin r (f r)) :
    flagsWithin s (writeSpi i f t) :=
  h.updSpi i (hf _)

theorem readSr (h : flagsWithin s t) (i : SpiId) (explicit : Bool) : flagsWithin s (readSr i explicit t) := by
  refine of_same (h.updSpi i (f := fun r => afterSrRead r explicit (Config.drawBit t.draws)) ⟨id, id, fun hovr => ?_⟩) rfl rfl
  simp only [afterSrRead] at hovr
  split at hovr
  · exact (Bool.and_eq_true_iff.1 hovr).1
  · exact hovr

/-- A read clears flags at most. -/
theorem afterRead (h : flagsWithin s t) (r : Reg) : flagsWithin s (afterRead r t) := by
  unfold Machine.afterRead
  split
  · exact h.readSr _ false
  · exact h.updSpi _ ⟨id, by simp, id⟩
  · refine h.updI2c _ fun g => ?_
    cases g <;> exact id
  · refine h.updI2c _ fun g => ?_
    cases g <;> simp +contextual [i2cFlagOf]
  · exact h
  · exact h

theorem writeI2c (h : flagsWithin s t) (u : I2cId) {f : I2cRegs → I2cRegs} (hf : ∀ r g, i2cFlagOf g (f r) = i2cFlagOf g r) :
    flagsWithin s (Machine.updI2c u f t) :=
  h.updI2c u fun g hg => by rwa [hf] at hg

/-- A write clears TXE at most. -/
theorem afterWrite (h : flagsWithin s t) (r : Reg) (v : Word) : flagsWithin s (afterWrite r v t) := by
  cases r with
  | spi i x =>
    cases x
    · exact h.writeSpi i fun r => ⟨id, id, id⟩
    · exact h.writeSpi i fun r => ⟨id, id, id⟩
    · exact h
    · exact of_same (h.writeSpi i (f := fun r => { r with txd := v.setWidth 16, txe := false }) fun r => ⟨by simp, id, id⟩) rfl rfl
  | i2c u x =>
    have hkept {f : I2cRegs → I2cRegs} (hf : ∀ r g, i2cFlagOf g (f r) = i2cFlagOf g r) := h.writeI2c u hf
    cases x
    · exact of_same (hkept (f := fun r => { r with cr1 := setBit (setBit v bitStart false) bitStop false })
        fun r g => by cases g <;> rfl) rfl rfl
    · exact hkept fun r g => by cases g <;> rfl
    · exact hkept fun r g => by cases g <;> rfl
    · exact hkept fun r g => by cases g <;> rfl
    · exact of_same (hkept (f := fun r => { r with dr := v.setWidth 8 }) fun r g => by cases g <;> rfl) rfl rfl
    · exact h
    · exact h
    · exact hkept fun r g => by cases g <;> rfl
    · exact hkept fun r g => by cases g <;> rfl
  | afio x =>
    cases x
    · exact h
    · exact h
    · exact of_same h (writeRoute_spi _ _ _) (writeRoute_i2c _ _ _)
  | exti x => cases x <;> exact h
  | gpio p x => cases x <;> exact h
  | rcc x => cases x <;> exact h
  | nvic x => cases x <;> exact h

/-- No update a micro-step is made of sets a status flag. -/
theorem keeps (s : State) : Keeps (flagsWithin s) where
  ctx _ _ h := h
  cfg _ _ _ h := h
  xfer _ _ _ _ h := h
  read _ r h := h.afterRead r
  clear _ i h := h.readSr i true
  write _ r v h := h.afterWrite r v
  store _ _ _ _ h := h
  emit _ _ _ h := h
  draw _ _ h := h

end flagsWithin

/-- A move of a context or of the arbiter sets no status flag. -/
theorem flagsWithin_of_makeMove {m : Move} {s t : State} (hm : m.agent = .foreground ∨ (∃ q, m.agent = .handler q) ∨ m.agent = .arbiter)
    (h : makeMove m s = .next t) : flagsWithin s t := by
  have hcontext (swap : Bool) (hstep : contextStep { s with swap := swap } = .next t) : flagsWithin s t :=
    (sat_iff _ _).1 (contextStep_keeps (flagsWithin.keeps s) { s with swap := swap } (flagsWithin.refl s)) t hstep
  cases m with
  | foreground swap =>
    simp only [makeMove] at h
    split at h
    · exact hcontext swap h
    · cases h
      exact .refl s
  | handler q swap =>
    simp only [makeMove] at h
    split at h
    · exact hcontext swap h
    · cases h
      exact .refl s
  | enter q =>
    cases h
    split <;> exact .refl s
  | leave =>
    cases h
    obtain h | ⟨q, c, rest, -, -, h⟩ := leaveIrq_eq s <;> rw [h] <;> exact .refl s
  | txEmpty i => simp [Move.agent] at hm
  | rxFrame i v => simp [Move.agent] at hm
  | overrun i => simp [Move.agent] at hm
  | i2cFlag u f x => simp [Move.agent] at hm
  | pin p n x => simp [Move.agent] at hm

/-- Settles O23: the environment's moves are their definitions, and no update of the other agents sets a flag. -/
theorem flagsAreSetByTheEnvironmentOnly : Obligations.FlagsAreSetByTheEnvironmentOnly := by
  refine ⟨fun i v s => ⟨rfl, fun hrxne => ?_, fun hrxne => ?_, rfl⟩, fun u f x s => ?_, fun m s t hm h => flagsWithin_of_makeMove hm h⟩
  · simp [makeMove, envRxFrame, hrxne, updSpi]
  · simp [makeMove, envRxFrame, hrxne]
  · refine ⟨envI2cFlag u f x s, rfl, ?_⟩
    rw [envI2cFlag_eq]
    split
    · refine ⟨?_, fun g hg => ?_, ?_⟩
      · simp only [updI2c, PerI2c.get_set_self]
        rw [← setI2cFlag_frame]
      · simp [i2cFlagOf_setI2cFlag, hg]
      · simp [i2cFlagOf_setI2cFlag]
    · have hself : s = { s with i2c := s.i2c.set u (s.i2c.get u) } := by rw [PerI2c.set_get]
      exact ⟨hself, fun _ _ => rfl, rfl⟩

end Sys2Proof.Machine

namespace Sys2Proof.Machine

/-! # The two transfer services of SPI_IRQ (42 R161, R162), run line by line -/

@[simp] theorem setXfer_seqAt (i : SpiId) (d : Dir) (x : Xfer) (p : Nat) (l : Locals) (s : State) :
    setXfer i d x (seqAt p l s) = seqAt p l (setXfer i d x s) := rfl

@[simp] theorem xfer_setXfer_self (i : SpiId) (d : Dir) (x : Xfer) (s : State) : xfer (setXfer i d x s) i d = x := by
  simp [xfer, setXfer]

theorem xfer_setXfer_ne (i : SpiId) {d e : Dir} (x : Xfer) (s : State) (h : e ≠ d) : xfer (setXfer i d x s) i e = xfer s i e := by
  simp [xfer, setXfer, Handle.dir_setDir_ne _ _ h]

@[simp] theorem setXfer_setXfer (i : SpiId) (d : Dir) (x y : Xfer) (s : State) : setXfer i d y (setXfer i d x s) = setXfer i d y s := by
  simp [setXfer]

/-- What the bus answers a read at some phase. -/
theorem readReg_seqAt {r : Reg} {s : State} (hon : accessible s r = true) (p : Nat) (l : Locals) (k : Word → State → Out) :
    readReg r (seqAt p l s) k = k (regVal r s) (seqAt p l (afterRead r s)) := by
  rw [readReg_eq _ _ _ ((accessible_seqAt p l s r).trans hon), regVal_seqAt, afterRead_seqAt]

/-- What the bus answers a write of an SPI register at some phase. -/
theorem writeReg_seqAt_spi {i : SpiId} {s : State} (hon : clkOn s (.spi i) = true) (x : SpiReg) (v : Word) (p : Nat) (l : Locals)
    (k : State → Out) : writeReg (.spi i x) v (seqAt p l s) k = k (seqAt p l (afterWrite (.spi i x) v s)) := by
  rw [writeReg_eq _ _ _ _ ((accessible_seqAt p l s (.spi i x)).trans hon), afterWrite_seqAt_spi]

section

variable {d : Dir} {unit : BitVec 4} {i : SpiId} {l : Locals} {s : State} {w : Word}

/-! ## The lines the services share -/

/-- Phases 2 to 5 are a service's own; the others are shared. -/
theorem exec_service_of_phase {k : Nat} (hi : spiOf unit = some i) (hs : phaseOf s = serviceBase d + k)
    (hk : k < 2 ∨ 5 < k ∧ k < 20) : exec (.spiIrq unit) s = serviceStep d i (serviceBase d) (nextCheck d) k s := by
  cases d
  · rw [exec_spiIrq_of_txePhase hi hs (by omega)]
    unfold txeService
    split <;> first | omega | rfl
  · rw [exec_spiIrq_of_rxnePhase hi hs (by omega)]
    unfold rxneService
    split <;> first | omega | rfl

theorem exec_service {k : Nat} (hi : spiOf unit = some i) (hk : k < 2 ∨ 5 < k ∧ k < 20) :
    exec (.spiIrq unit) (seqAt (serviceBase d + k) l s) =
      serviceStep d i (serviceBase d) (nextCheck d) k (seqAt (serviceBase d + k) l s) :=
  exec_service_of_phase hi rfl hk

/-- The guard of line b. -/
theorem serviceReady_iff {x : Xfer} : serviceReady x w = true ↔ x.st = .busy ∧ x.buf ≠ 0 ∧ w.toNat ≤ x.len.toNat := by
  simp [serviceReady, BitVec.ult, and_assoc]

/-- Lines a and b of a service that is ready. -/
theorem runOp_service_enter (hi : spiOf unit = some i) (hon : clkOn s (.spi i) = true) (hw : w = frameWidth (regVal (.spi i .cr1) s))
    (hready : serviceReady (xfer s i d) w = true) :
    runOp (.spiIrq unit) 2 (seqAt (serviceBase d) l s) = .next (seqAt (serviceBase d + 2) { l with w := w } s) := by
  have hfirst : exec (.spiIrq unit) (seqAt (serviceBase d) l s) = .next (seqAt (serviceBase d + 1) { l with w := w } s) := by
    rw [exec_service_of_phase (k := 0) hi rfl (by decide), serviceStep, readReg_seqAt ((accessible_spi i .cr1 s).trans hon)]
    simp [hw]
  have hsecond : exec (.spiIrq unit) (seqAt (serviceBase d + 1) { l with w := w } s) =
      .next (seqAt (serviceBase d + 2) { l with w := w } s) := by
    rw [exec_service hi (by decide), serviceStep]
    simp [hready]
  rw [runOp_succ 1 hfirst, runOp_succ 0 hsecond, runOp_zero]

/-- Lines e to g: the length goes down and the cursor up by the frame's width, and the length left says where the service goes on. -/
theorem runOp_service_advance (hi : spiOf unit = some i) (hlen : l.w.toNat ≤ (xfer s i d).len.toNat) :
    ∃ l', runOp (.spiIrq unit) 5 (seqAt (serviceBase d + 6) l s) = .next (seqAt
      (if (xfer s i d).len - l.w = 0 then serviceBase d + 11 else nextCheck d) l'
      (setXfer i d ⟨(xfer s i d).buf + l.w, (xfer s i d).len - l.w, (xfer s i d).st⟩ s)) := by
  have hshort : ((xfer s i d).len.ult l.w) = false := by simpa [BitVec.ult] using hlen
  refine ⟨{ l with n := (xfer s i d).len, b := (xfer s i d).buf }, ?_⟩
  simp [runOp, exec_service hi, serviceStep, hshort, updXfer_eq_setXfer]

/-! ## Lines c and d of the transmit service -/

theorem frameWidth_eq (v : Word) : frameWidth v = 1 ∨ frameWidth v = 2 := by
  unfold frameWidth
  split
  · exact .inr rfl
  · exact .inl rfl

/-- A write of DR: the frame is in the transmit latch and in the output history, TXE is 0 (10 R33). -/
def frameSent (i : SpiId) (v : Word) (s : State) : State := afterWrite (.spi i .dr) v s

theorem exec_txe {k : Nat} (hi : spiOf unit = some i) (hk : k < 20) :
    exec (.spiIrq unit) (seqAt (txeBase + k) l s) = txeService i txeBase 3 k (seqAt (txeBase + k) l s) :=
  exec_spiIrq_of_txePhase hi rfl hk

/-- The frame at the cursor is loaded and written to DR. -/
theorem runOp_txe_move (hi : spiOf unit = some i) (hon : clkOn s (.spi i) = true) (hw : l.w = 1 ∨ l.w = 2)
    (hlow : inLaunch s (xfer s i .tx).buf = true) (hhigh : l.w = 2 → inLaunch s ((xfer s i .tx).buf + 1) = true) :
    ∃ l', l'.w = l.w ∧ runOp (.spiIrq unit) (2 + l.w.toNat) (seqAt (txeBase + 2) l s) =
      .next (seqAt (txeBase + 6) l' (frameSent i (frameAt s (xfer s i .tx).buf l.w) s)) := by
  refine ⟨{ l with b := (xfer s i .tx).buf, v := frameAt s (xfer s i .tx).buf l.w }, rfl, ?_⟩
  obtain hw | hw := hw
  · simp [runOp, exec_txe hi, txeService, loadByte, hw, hlow, writeReg_seqAt_spi hon, frameAt, frameSent]
  · have hnext : inLaunch s ((xfer s i .tx).buf + 1#32) = true := hhigh hw
    simp [runOp, exec_txe hi, txeService, loadByte, hw, hlow, hnext, writeReg_seqAt_spi hon, frameAt, frameSent]

/-! ## Lines c and d of the receive service -/

/-- A frame's bytes stored at an address, the low byte there and the high byte of a wide frame after it (20 R72, R91). -/
def storeFrame (a w v : Word) (s : State) : State :=
  { s with mem := if w = 2 then (s.mem.write a.toNat (lowByte v)).write (a + 1).toNat (highByte v) else s.mem.write a.toNat (lowByte v) }

theorem storeFrame_narrow {w : Word} (hw : w = 1) (a v : Word) (s : State) : storeFrame a w v s = putByte a (lowByte v) s := by
  subst hw
  rfl

theorem storeFrame_wide {w : Word} (hw : w = 2) (a v : Word) (s : State) :
    storeFrame a w v s = putByte (a + 1) (highByte v) (putByte a (lowByte v) s) := by
  subst hw
  rfl

theorem exec_rxne {k : Nat} (hi : spiOf unit = some i) (hk : k < 20) :
    exec (.spiIrq unit) (seqAt (rxneBase + k) l s) = rxneService i rxneBase 6 k (seqAt (rxneBase + k) l s) :=
  exec_spiIrq_of_rxnePhase hi rfl hk

/-- DR is read and the frame stored at the cursor. -/
theorem runOp_rxne_move (hi : spiOf unit = some i) (hon : clkOn s (.spi i) = true) (hw : l.w = 1 ∨ l.w = 2)
    (hlow : inLaunch s (xfer s i .rx).buf = true) (hhigh : l.w = 2 → inLaunch s ((xfer s i .rx).buf + 1) = true) :
    ∃ l', l'.w = l.w ∧ runOp (.spiIrq unit) (2 + l.w.toNat) (seqAt (rxneBase + 2) l s) =
      .next (seqAt (rxneBase + 6) l'
        (storeFrame (xfer s i .rx).buf l.w (regVal (.spi i .dr) s) (afterRead (.spi i .dr) s))) := by
  refine ⟨{ l with b := (xfer s i .rx).buf, v := regVal (.spi i .dr) s }, rfl, ?_⟩
  have hin (a : Word) : inLaunch (afterRead (.spi i .dr) s) a = inLaunch s a := rfl
  have hin' (a b : Word) (x : Byte) : inLaunch (putByte b x (afterRead (.spi i .dr) s)) a = inLaunch s a := rfl
  obtain hw | hw := hw
  · rw [storeFrame_narrow hw]
    simp [runOp, exec_rxne hi, rxneService, readReg_seqAt ((accessible_spi i .dr s).trans hon), storeByte, hin, hw, hlow]
  · have hnext : inLaunch s ((xfer s i .rx).buf + 1#32) = true := hhigh hw
    rw [storeFrame_wide hw]
    simp [runOp, exec_rxne hi, rxneService, readReg_seqAt ((accessible_spi i .dr s).trans hon), storeByte, hin, hin', hw, hlow,
      hnext]

/-! ## The completion -/

/-- Lines g1 to g4: the interrupt is disabled, then the direction cleaned. -/
theorem runOp_service_complete (hi : spiOf unit = some i) (hon : clkOn s (.spi i) = true) :
    ∃ l', runOp (.spiIrq unit) (4 + extraStep s) (seqAt (serviceBase d + 11) l s) =
      .next (seqAt (serviceBase d + 16) l' (setXfer i d Xfer.clean (setCr2Bit i (enableBit d) false s))) := by
  have hdisable : runOp (.spiIrq unit) (1 + extraStep s) (seqAt (serviceBase d + 11) l s) =
      .next (seqAt (serviceBase d + 13) (fieldLocals (.spi i .cr2) l s) (setCr2Bit i (enableBit d) false s)) := by
    rw [runOp_fieldSet_goto (r := .spi i .cr2) (f := fun w => setBit w (enableBit d) false) (p := serviceBase d + 12)
      (q := serviceBase d + 13) hon (fun v p l t => afterWrite_seqAt_spi p l t i .cr2 v)
      (fun l => exec_service (k := 11) hi (by decide)) (fun l t => exec_service (k := 12) hi (by decide)),
      afterRead_spi_cr2, afterWrite_cr2_setBit]
  refine ⟨fieldLocals (.spi i .cr2) l s, ?_⟩
  rw [show 4 + extraStep s = (1 + extraStep s) + 3 by omega, runOp_add _ _ hdisable]
  simp [runOp, exec_service hi, serviceStep, updXfer_eq_setXfer, Xfer.clean]

/-- Line g5. -/
theorem exec_service_emit (hi : spiOf unit = some i) :
    exec (.spiIrq unit) (seqAt (serviceBase d + 16) l s) =
      .next (emitCallback i (completionEvent d) (nextCheck d) (seqAt (serviceBase d + 16) l s)) :=
  exec_service (k := 16) hi (by decide)

end

/-! ## The obligations about one service -/

/-- Settles O32: the guard of line b. -/
theorem serviceWithoutTransferFaults : Obligations.ServiceWithoutTransferFaults := by
  intro d unit i s hi hs
  have hstep : exec (.spiIrq unit) s = if serviceReady (xfer s i d) (locals s).w then .next (goto (serviceBase d + 2) s)
      else .fault .serviceWithoutTransfer := exec_service_of_phase hi hs (by decide)
  rw [hstep]
  refine ⟨fun h => if_neg fun hready => ?_, fun hbusy hbuf hlen => if_pos (serviceReady_iff.2 ⟨hbusy, hbuf, hlen⟩)⟩
  obtain ⟨hbusy, hbuf, hlen⟩ := serviceReady_iff.1 hready
  obtain hidle | hnull | hshort := h
  · simp [hidle] at hbusy
  · exact hbuf hnull
  · omega

/-- Settles O31: g1 to g4 clean the direction, and g5 emits. -/
theorem completionIsCleanBeforeTheCallback : Obligations.CompletionIsCleanBeforeTheCallback := by
  intro d unit i s hi hs hon
  obtain ⟨l', hrun⟩ := runOp_service_complete (d := d) (l := locals s) hi hon
  have hself : seqAt (serviceBase d + 11) (locals s) s = s := hs ▸ seqAt_self s
  rw [hself, show 4 + extraStep s = 3 + extraStep s + 1 by omega, runOp_succ_eq_next] at hrun
  obtain ⟨s1, hfirst, hrest⟩ := hrun
  refine ⟨s1, _, hfirst, hrest, ⟨xfer_setXfer_self _ _ _ _, ?_⟩, rfl, exec_service_emit hi⟩
  have hbit : enableBit d < 16 := by cases d <;> decide
  simp [setXfer, setCr2Bit, setBit_getLsbD _ _ _ _ hbit]

section

variable {d : Dir} {unit : BitVec 4} {i : SpiId} {l : Locals} {s : State} {w : Word}

/-- A direction has at least one frame of `w` bytes in flight, its cursor in the launch memory (42 R161, R162 lines a to d). -/
structure InFlight (s : State) (i : SpiId) (d : Dir) (w : Word) : Prop where
  width : w = frameWidth (regVal (.spi i .cr1) s)
  busy : (xfer s i d).st = .busy
  buffer : (xfer s i d).buf ≠ 0
  length : w.toNat ≤ (xfer s i d).len.toNat
  low : inLaunch s (xfer s i d).buf = true
  high : w = 2 → inLaunch s ((xfer s i d).buf + 1) = true

/-- The transfer of a direction after one frame. -/
def advanced (x : Xfer) (w : Word) : Xfer := ⟨x.buf + w, x.len - w, x.st⟩

/-- Where a service goes on after its frame: to its completion if no length is left, else to the next check. -/
def afterFrame (d : Dir) (x : Xfer) (w : Word) : Nat := if x.len - w = 0 then serviceBase d + 11 else nextCheck d

/-- The state after the transmit service's frame. -/
def txMoved (i : SpiId) (w : Word) (s : State) : State :=
  setXfer i .tx (advanced (xfer s i .tx) w) (frameSent i (frameAt s (xfer s i .tx).buf w) s)

/-- The state after the receive service's frame. -/
def rxMoved (i : SpiId) (w : Word) (s : State) : State :=
  setXfer i .rx (advanced (xfer s i .rx) w)
    (storeFrame (xfer s i .rx).buf w (regVal (.spi i .dr) s) (afterRead (.spi i .dr) s))

/-- Lines a to g of the transmit service. -/
theorem runOp_txe_service (hi : spiOf unit = some i) (hon : clkOn s (.spi i) = true) (h : InFlight s i .tx w) :
    ∃ l', runOp (.spiIrq unit) (9 + w.toNat) (seqAt txeBase l s) =
      .next (seqAt (afterFrame .tx (xfer s i .tx) w) l' (txMoved i w s)) := by
  obtain ⟨hw, hbusy, hbuf, hlen, hlow, hhigh⟩ := h
  have henter := runOp_service_enter (d := .tx) (l := l) hi hon hw (serviceReady_iff.2 ⟨hbusy, hbuf, hlen⟩)
  obtain ⟨l1, hl1, hmove⟩ := runOp_txe_move (l := { l with w := w }) hi hon (hw ▸ frameWidth_eq _) hlow hhigh
  obtain ⟨l2, hadvance⟩ := runOp_service_advance (d := .tx) (l := l1)
    (s := frameSent i (frameAt s (xfer s i .tx).buf w) s) hi (hl1 ▸ hlen)
  refine ⟨l2, ?_⟩
  rw [show 9 + w.toNat = 2 + ((2 + w.toNat) + 5) by omega]
  refine (runOp_add _ _ henter).trans ((runOp_add _ _ hmove).trans ?_)
  rw [hl1] at hadvance
  exact hadvance

/-- Lines a to g of the receive service. -/
theorem runOp_rxne_service (hi : spiOf unit = some i) (hon : clkOn s (.spi i) = true) (h : InFlight s i .rx w) :
    ∃ l', runOp (.spiIrq unit) (9 + w.toNat) (seqAt rxneBase l s) =
      .next (seqAt (afterFrame .rx (xfer s i .rx) w) l' (rxMoved i w s)) := by
  obtain ⟨hw, hbusy, hbuf, hlen, hlow, hhigh⟩ := h
  have henter := runOp_service_enter (d := .rx) (l := l) hi hon hw (serviceReady_iff.2 ⟨hbusy, hbuf, hlen⟩)
  obtain ⟨l1, hl1, hmove⟩ := runOp_rxne_move (l := { l with w := w }) hi hon (hw ▸ frameWidth_eq _) hlow hhigh
  obtain ⟨l2, hadvance⟩ := runOp_service_advance (d := .rx) (l := l1)
    (s := storeFrame (xfer s i .rx).buf w (regVal (.spi i .dr) s) (afterRead (.spi i .dr) s)) hi (hl1 ▸ hlen)
  refine ⟨l2, ?_⟩
  rw [show 9 + w.toNat = 2 + ((2 + w.toNat) + 5) by omega]
  refine (runOp_add _ _ henter).trans ((runOp_add _ _ hmove).trans ?_)
  rw [hl1] at hadvance
  exact hadvance

theorem afterFrame_eq (x : Xfer) (w : Word) :
    afterFrame d x w = if x.len = w then serviceBase d + 11 else nextCheck d := by
  unfold afterFrame
  exact if_congr sub_eq_zero rfl rfl

end

/-- Settles O29: lines a to g. -/
theorem transmitServiceMovesOneFrame : Obligations.TransmitServiceMovesOneFrame := by
  intro unit i s w hi hs hon hw hbusy hbuf hlen hlow hhigh
  obtain ⟨l', hrun⟩ := runOp_txe_service (l := locals s) hi hon ⟨hw, hbusy, hbuf, hlen, hlow, hhigh⟩
  have hself : seqAt txeBase (locals s) s = s := by
    rw [show txeBase = phaseOf s from hs.symm, seqAt_self]
  rw [hself, show 9 + w.toNat = 8 + w.toNat + 1 by omega, runOp_succ_eq_next] at hrun
  obtain ⟨s1, hfirst, hrest⟩ := hrun
  refine ⟨s1, _, hfirst, hrest, ?_, ?_⟩
  · rw [phaseOf_seqAt, afterFrame_eq]
  · rw [txMoved, advanced, hbusy]
    rfl

/-- Widening a value leaves the fields it has. -/
theorem extractLsb'_setWidth_of_le {n m : Nat} (v : BitVec n) (lo len : Nat) (h : lo + len ≤ m) :
    (v.setWidth m).extractLsb' lo len = v.extractLsb' lo len := by
  refine BitVec.eq_of_getLsbD_eq fun k hk => ?_
  have hlt : lo + k < m := by omega
  simp [hk, hlt]

/-- A stored frame's bytes. -/
theorem byteAt_storeFrame {a w v : Word} {s : State} (hw : w = 1 ∨ w = 2) :
    byteAt (storeFrame a w v s) a = v.extractLsb' 0 8 ∧ (w = 2 → byteAt (storeFrame a w v s) (a + 1) = v.extractLsb' 8 8) ∧
      ∀ c, c ≠ a → (w = 2 → c ≠ a + 1) → byteAt (storeFrame a w v s) c = byteAt s c := by
  have hne : a ≠ a + 1 := by simp
  obtain h1 | h2 := hw
  · rw [storeFrame_narrow h1]
    exact ⟨byteAt_putByte_self _ _ _, fun h => absurd (h1.symm.trans h) (by decide), fun c hc _ => byteAt_putByte_ne _ _ hc⟩
  · rw [storeFrame_wide h2]
    refine ⟨?_, fun _ => byteAt_putByte_self _ _ _, fun c hc hc1 => ?_⟩
    · exact (byteAt_putByte_ne _ _ hne).trans (byteAt_putByte_self _ _ _)
    · exact (byteAt_putByte_ne _ _ (hc1 h2)).trans (byteAt_putByte_ne _ _ hc)

/-- Settles O30: lines a to g. -/
theorem receiveServiceMovesOneFrame : Obligations.ReceiveServiceMovesOneFrame := by
  intro unit i s w hi hs hon hw hbusy hbuf hlen hlow hhigh
  obtain ⟨l', hrun⟩ := runOp_rxne_service (l := locals s) hi hon ⟨hw, hbusy, hbuf, hlen, hlow, hhigh⟩
  have hself : seqAt rxneBase (locals s) s = s := by
    rw [show rxneBase = phaseOf s from hs.symm, seqAt_self]
  rw [hself, show 9 + w.toNat = 8 + w.toNat + 1 by omega, runOp_succ_eq_next] at hrun
  obtain ⟨s1, hfirst, hrest⟩ := hrun
  obtain ⟨hlowbyte, hhighbyte, hother⟩ := byteAt_storeFrame (a := (xfer s i .rx).buf) (v := regVal (.spi i .dr) s)
    (s := afterRead (.spi i .dr) s) (hw ▸ frameWidth_eq _)
  have hfield (lo : Nat) (h : lo + 8 ≤ 32) : (regVal (.spi i .dr) s).extractLsb' lo 8 = (s.spi.get i).rxd.extractLsb' lo 8 :=
    extractLsb'_setWidth_of_le _ lo 8 h
  refine ⟨s1, _, hfirst, hrest, ?_, hlowbyte.trans (hfield 0 (by decide)),
    fun h2 => (hhighbyte h2).trans (hfield 8 (by decide)), hother, ?_⟩
  · rw [phaseOf_seqAt, afterFrame_eq]
  · rw [rxMoved, advanced, hbusy]
    rfl

end Sys2Proof.Machine

namespace Sys2Proof.Machine

/-! # The checks of SPI_IRQ (42 R160) -/

theorem afterRead_spi_sr (i : SpiId) (s : State) : afterRead (.spi i .sr) s = readSr i false s := rfl

/-- The three checks of a dispatch: the first phase, the flag and its enable bit, the service, and the next check's phase. -/
def checks : List (Nat × Nat × Nat × Nat × Nat) :=
  [(0, bitTxe, bitTxeie, txeBase, 3), (3, bitRxne, bitRxneie, rxneBase, 6), (6, bitOvr, bitErrie, ovrBase, 9)]

section

variable {unit : BitVec 4} {i : SpiId} {l : Locals} {s : State} {p flag enable service next : Nat}

/-- The three micro-steps of a check. -/
theorem dispatchStep_check (hc : (p, flag, enable, service, next) ∈ checks) :
    (phaseOf s = p → dispatchStep i s = sampleFlag i flag (p + 1) s) ∧
      (phaseOf s = p + 1 → dispatchStep i s = sampleEnable i enable (p + 2) s) ∧
        (phaseOf s = p + 2 → dispatchStep i s = serviceIf service next s) := by
  simp only [checks, List.mem_cons, Prod.mk.injEq, List.not_mem_nil, or_false] at hc
  obtain ⟨rfl, rfl, rfl, rfl, rfl⟩ | ⟨rfl, rfl, rfl, rfl, rfl⟩ | ⟨rfl, rfl, rfl, rfl, rfl⟩ := hc <;>
    refine ⟨fun h => ?_, fun h => ?_, fun h => ?_⟩ <;> simp only [dispatchStep, h]

theorem exec_check_flag (hi : spiOf unit = some i) (hon : clkOn s (.spi i) = true) (hc : (p, flag, enable, service, next) ∈ checks)
    (hs : phaseOf s = p) : exec (.spiIrq unit) s = .next (goto (p + 1)
      (updLocals (fun l => { l with t1 := (regVal (.spi i .sr) s).getLsbD flag }) (afterRead (.spi i .sr) s))) := by
  rw [exec_spiIrq_eq hi, (dispatchStep_check hc).1 hs, sampleFlag, readReg_eq _ _ _ ((accessible_spi i .sr s).trans hon)]

theorem exec_check_enable (hi : spiOf unit = some i) (hon : clkOn s (.spi i) = true) (hc : (p, flag, enable, service, next) ∈ checks)
    (hs : phaseOf s = p + 1) : exec (.spiIrq unit) s = .next (goto (p + 2)
      (updLocals (fun l => { l with t2 := (regVal (.spi i .cr2) s).getLsbD enable }) s)) := by
  rw [exec_spiIrq_eq hi, (dispatchStep_check hc).2.1 hs, sampleEnable, readReg_eq _ _ _ ((accessible_spi i .cr2 s).trans hon),
    afterRead_spi_cr2]

theorem exec_check_branch (hi : spiOf unit = some i) (hc : (p, flag, enable, service, next) ∈ checks) (hs : phaseOf s = p + 2) :
    exec (.spiIrq unit) s = .next (goto (if (locals s).t1 = true ∧ (locals s).t2 = true then service else next) s) := by
  rw [exec_spiIrq_eq hi, (dispatchStep_check hc).2.2 hs, serviceIf]
  simp

/-- A check reads SR and CR2 and goes to its service if its flag and its enable bit are 1. -/
theorem runOp_check (hi : spiOf unit = some i) (hon : clkOn s (.spi i) = true) (hc : (p, flag, enable, service, next) ∈ checks)
    (l : Locals) : ∃ l', runOp (.spiIrq unit) 3 (seqAt p l s) = .next (seqAt
      (if (regVal (.spi i .sr) s).getLsbD flag = true ∧ (regVal (.spi i .cr2) s).getLsbD enable = true then service else next)
      l' (readSr i false s)) := by
  refine ⟨{ l with t1 := (regVal (.spi i .sr) s).getLsbD flag, t2 := (regVal (.spi i .cr2) s).getLsbD enable }, ?_⟩
  have hcr2 : regVal (.spi i .cr2) (readSr i false s) = regVal (.spi i .cr2) s := by simp [regVal, readSr, afterSrRead]
  have hflag := exec_check_flag (s := seqAt p l s) hi hon hc rfl
  have henable := exec_check_enable
    (s := seqAt (p + 1) { l with t1 := (regVal (.spi i .sr) s).getLsbD flag } (readSr i false s)) hi hon hc rfl
  have hbranch := exec_check_branch (s := seqAt (p + 2)
    { l with t1 := (regVal (.spi i .sr) s).getLsbD flag, t2 := (regVal (.spi i .cr2) s).getLsbD enable } (readSr i false s)) hi hc rfl
  rw [regVal_seqAt, afterRead_seqAt, updLocals_seqAt, goto_seqAt] at hflag
  rw [regVal_seqAt, hcr2, updLocals_seqAt, goto_seqAt] at henable
  rw [locals_seqAt, goto_seqAt] at hbranch
  exact (runOp_succ 2 hflag).trans ((runOp_succ 1 henable).trans (runOp_succ 0 hbranch))

end

/-! ## A dispatch that finds nothing to do -/

section

variable {unit : BitVec 4} {i : SpiId} {l : Locals} {s : State}

theorem getLsbD_regVal_cr2 (i : SpiId) (s : State) {k : Nat} (hk : k < 16) :
    (regVal (.spi i .cr2) s).getLsbD k = (s.spi.get i).cr2.getLsbD k := by
  have hlt : k < 32 := by omega
  simp [regVal, hlt]

/-- The first check. -/
theorem runOp_checkTx (hi : spiOf unit = some i) (hon : clkOn s (.spi i) = true) (l : Locals) :
    ∃ l', runOp (.spiIrq unit) 3 (seqAt 0 l s) = .next (seqAt
      (if ((s.spi.get i).txe && (s.spi.get i).cr2.getLsbD bitTxeie) = true then txeBase else 3) l' (readSr i false s)) := by
  have hrun := runOp_check (s := s) hi hon (p := 0) (flag := bitTxe) (enable := bitTxeie) (service := txeBase) (next := 3)
    (by simp [checks]) l
  simp only [Bool.and_eq_true]
  rwa [getLsbD_regVal_cr2 i s (by decide), regVal, srWord_txe] at hrun

/-- The second check. -/
theorem runOp_checkRx (hi : spiOf unit = some i) (hon : clkOn s (.spi i) = true) (l : Locals) :
    ∃ l', runOp (.spiIrq unit) 3 (seqAt 3 l s) = .next (seqAt
      (if ((s.spi.get i).rxne && (s.spi.get i).cr2.getLsbD bitRxneie) = true then rxneBase else 6) l' (readSr i false s)) := by
  have hrun := runOp_check (s := s) hi hon (p := 3) (flag := bitRxne) (enable := bitRxneie) (service := rxneBase) (next := 6)
    (by simp [checks]) l
  simp only [Bool.and_eq_true]
  rwa [getLsbD_regVal_cr2 i s (by decide), regVal, srWord_rxne] at hrun

/-- The third check. -/
theorem runOp_checkOvr (hi : spiOf unit = some i) (hon : clkOn s (.spi i) = true) (l : Locals) :
    ∃ l', runOp (.spiIrq unit) 3 (seqAt 6 l s) = .next (seqAt
      (if ((s.spi.get i).ovr && (s.spi.get i).cr2.getLsbD bitErrie) = true then ovrBase else 9) l' (readSr i false s)) := by
  have hrun := runOp_check (s := s) hi hon (p := 6) (flag := bitOvr) (enable := bitErrie) (service := ovrBase) (next := 9)
    (by simp [checks]) l
  simp only [Bool.and_eq_true]
  rwa [getLsbD_regVal_cr2 i s (by decide), regVal, srWord_ovr] at hrun

/-- Line 7. -/
theorem exec_dispatch_end (hi : spiOf unit = some i) : exec (.spiIrq unit) (seqAt 9 l s) = .next (finish s) := by
  rw [exec_spiIrq_eq hi]
  rfl

@[simp] theorem readSr_spi_get (i : SpiId) (explicit : Bool) (s : State) : (readSr i explicit s).spi.get i =
    afterSrRead (s.spi.get i) explicit (Config.drawBit s.draws) := by
  simp [readSr]

/-- A pair that is not active is not active after a read of SR: OVR may have been cleared, and nothing has been set. -/
theorem ovrPair_readSr (h : ((s.spi.get i).ovr && (s.spi.get i).cr2.getLsbD bitErrie) = false) (explicit : Bool) :
    (((readSr i explicit s).spi.get i).ovr && ((readSr i explicit s).spi.get i).cr2.getLsbD bitErrie) = false := by
  rw [readSr_spi_get]
  simp only [afterSrRead]
  split
  · revert h
    cases (s.spi.get i).ovr <;> simp +contextual
  · exact h

/-- From the second check on, with neither a receive nor an overrun to serve: two reads of SR, and the end. -/
theorem runOp_quiet_checks (hi : spiOf unit = some i) (hon : clkOn s (.spi i) = true)
    (hrx : ((s.spi.get i).rxne && (s.spi.get i).cr2.getLsbD bitRxneie) = false)
    (hovr : ((s.spi.get i).ovr && (s.spi.get i).cr2.getLsbD bitErrie) = false) (l : Locals) :
    ∃ l', runOp (.spiIrq unit) 6 (seqAt 3 l s) = .next (seqAt 9 l' (readSr i false (readSr i false s))) := by
  obtain ⟨l1, h1⟩ := runOp_checkRx hi hon l
  obtain ⟨l2, h2⟩ := runOp_checkOvr (s := readSr i false s) hi hon l1
  rw [if_neg (by simp [hrx])] at h1
  rw [if_neg (Bool.eq_false_iff.1 (ovrPair_readSr hovr false))] at h2
  exact ⟨l2, (runOp_add 3 3 h1).trans h2⟩

/-- The second and the third read of SR in a row only draw. -/
theorem readSr_of_unarmed (h : (s.spi.get i).ovrArm = false) (explicit : Bool) :
    readSr i explicit s = { s with draws := s.draws + 1 } := by
  have hsame : afterSrRead (s.spi.get i) explicit (Config.drawBit s.draws) = s.spi.get i := by
    simp only [afterSrRead, h, Bool.false_eq_true, if_false]
    rw [← h]
  simp [readSr, updSpi, hsame]

end

/-- Settles O28: three checks that find nothing, and the end. -/
theorem spuriousDispatchChangesNothing : Obligations.SpuriousDispatchChangesNothing := by
  intro unit i s hi h0 hon htx hrx hovr
  obtain ⟨l1, h1⟩ := runOp_checkTx hi hon (locals s)
  rw [if_neg (by simp [htx]), ← h0, seqAt_self] at h1
  obtain ⟨l2, h2⟩ := runOp_quiet_checks (s := readSr i false s) hi hon (by simpa [afterSrRead] using hrx) (ovrPair_readSr hovr _) l1
  rw [← runOp_succ_eq_next]
  refine (runOp_add 3 7 h1).trans ((runOp_add 6 1 h2).trans ((runOp_succ 0 (exec_dispatch_end hi)).trans ?_))
  rw [readSr_of_unarmed (s := readSr i false (readSr i false s)) (by simp [afterSrRead]),
    readSr_of_unarmed (s := readSr i false s) (by simp [afterSrRead]), readSr_eq, readSr_ovr]
  simp

end Sys2Proof.Machine

namespace Sys2Proof.Machine

/-! # A dispatch that serves its causes (42 R160, R164, R173) -/

/-- The callback answers every event of handle `i` with no operation, under parameters `P`. -/
def NoCallback (i : SpiId) (P : Params) : Prop := ∀ ev t, t.params = P → callbackOps i ev t = []

/-- A direction cleaned with its interrupt disabled, and its completion event recorded. -/
def completed (i : SpiId) (d : Dir) (s : State) : State :=
  { setXfer i d Xfer.clean (setCr2Bit i (enableBit d) false s) with cbOut := s.cbOut ++ [(i, completionEvent d)] }

/-- The overrun cleared, and its event recorded. -/
def overrunServed (i : SpiId) (s : State) : State := { overrunCleared i s with cbOut := s.cbOut ++ [(i, .ovrErr)] }

section

variable {d e : Dir} {unit : BitVec 4} {i : SpiId} {l : Locals} {s t : State} {w : Word}

/-! ## The SPI registers and the transfers after each part of a dispatch -/

@[simp] theorem txMoved_spi_get : (txMoved i w s).spi.get i = { s.spi.get i with
    txd := (frameAt s (xfer s i .tx).buf w).setWidth 16, txe := false, ovrArm := false } := PerSpi.get_set_self _ _ _

@[simp] theorem rxMoved_spi_get : (rxMoved i w s).spi.get i = { s.spi.get i with rxne := false, ovrArm := true } :=
  PerSpi.get_set_self _ _ _

@[simp] theorem completed_spi_get : (completed i d s).spi.get i =
    { s.spi.get i with cr2 := setBit (s.spi.get i).cr2 (enableBit d) false, ovrArm := false } := PerSpi.get_set_self _ _ _

@[simp] theorem overrunServed_spi_get : (overrunServed i s).spi.get i =
    { s.spi.get i with rxne := false, ovr := false, ovrArm := false } := PerSpi.get_set_self _ _ _

@[simp] theorem xfer_txMoved : xfer (txMoved i w s) i .tx = advanced (xfer s i .tx) w := xfer_setXfer_self _ _ _ _

@[simp] theorem xfer_txMoved_rx : xfer (txMoved i w s) i .rx = xfer s i .rx := xfer_setXfer_ne _ _ _ (by decide)

@[simp] theorem xfer_rxMoved_tx : xfer (rxMoved i w s) i .tx = xfer s i .tx := xfer_setXfer_ne _ _ _ (by decide)

@[simp] theorem xfer_completed : xfer (completed i d s) i d = Xfer.clean := xfer_setXfer_self _ _ _ _

theorem xfer_completed_ne (h : e ≠ d) : xfer (completed i d s) i e = xfer s i e := xfer_setXfer_ne _ _ _ h

@[simp] theorem xfer_readSr (explicit : Bool) : xfer (readSr i explicit s) i d = xfer s i d := rfl

theorem getLsbD_setBit_ne {n k j : Nat} (v : BitVec n) (x : Bool) (hj : j < n) (h : j ≠ k) :
    (setBit v k x).getLsbD j = v.getLsbD j := by
  rw [setBit_getLsbD _ _ _ _ hj, if_neg h]

/-- A transfer stays in flight where its fields, the frame width and the launch memory do. -/
theorem InFlight.congr (h : InFlight s i d w) (hcr1 : (t.spi.get i).cr1 = (s.spi.get i).cr1) (hx : xfer t i d = xfer s i d)
    (hp : t.params = s.params) : InFlight t i d w := by
  have hin (a : Word) : inLaunch t a = inLaunch s a := by rw [inLaunch, hp, inLaunch]
  obtain ⟨hw, hbusy, hbuf, hlen, hlow, hhigh⟩ := h
  refine ⟨?_, ?_, ?_, ?_, ?_, ?_⟩
  · rw [hw, regVal, regVal, hcr1]
  all_goals simpa only [hx, hin]

/-! ## The services to their ends -/

theorem emitCallback_seqAt_of_noCallback {p q : Nat} {ev : Event} (h : NoCallback i s.params) :
    emitCallback i ev q (seqAt p l s) = seqAt q l { s with cbOut := s.cbOut ++ [(i, ev)] } := by
  rw [emitCallback_of_nil (s := seqAt p l s) (h ev _ rfl)]
  rfl

/-- Lines g1 to g5. -/
theorem runOp_service_end (hi : spiOf unit = some i) (hon : clkOn s (.spi i) = true) (hcb : NoCallback i s.params) (l : Locals) :
    ∃ l', runOp (.spiIrq unit) (5 + extraStep s) (seqAt (serviceBase d + 11) l s) =
      .next (seqAt (nextCheck d) l' (completed i d s)) := by
  obtain ⟨l', hrun⟩ := runOp_service_complete (d := d) (l := l) hi hon
  have hemit : exec (.spiIrq unit) (seqAt (serviceBase d + 16) l' (setXfer i d Xfer.clean (setCr2Bit i (enableBit d) false s))) =
      .next (seqAt (nextCheck d) l' (completed i d s)) := by
    rw [exec_service_emit hi]
    exact congrArg _ (emitCallback_seqAt_of_noCallback (s := setXfer i d Xfer.clean (setCr2Bit i (enableBit d) false s)) hcb)
  refine ⟨l', ?_⟩
  rw [show 5 + extraStep s = (4 + extraStep s) + 1 by omega]
  exact (runOp_add _ 1 hrun).trans (runOp_succ 0 hemit)

/-- The transmit service of the last frame. -/
theorem runOp_txe_last (hi : spiOf unit = some i) (hon : clkOn s (.spi i) = true) (hcb : NoCallback i s.params)
    (h : InFlight s i .tx w) (hlast : (xfer s i .tx).len = w) (l : Locals) :
    ∃ l', runOp (.spiIrq unit) ((9 + w.toNat) + (5 + extraStep s)) (seqAt txeBase l s) =
      .next (seqAt 3 l' (completed i .tx (txMoved i w s))) := by
  obtain ⟨l1, hmove⟩ := runOp_txe_service (l := l) hi hon h
  obtain ⟨l2, hend⟩ := runOp_service_end (d := .tx) (s := txMoved i w s) hi hon hcb l1
  rw [afterFrame_eq, if_pos hlast] at hmove
  exact ⟨l2, (runOp_add _ _ hmove).trans hend⟩

/-- The transmit service of another frame. -/
theorem runOp_txe_more (hi : spiOf unit = some i) (hon : clkOn s (.spi i) = true) (h : InFlight s i .tx w)
    (hmore : (xfer s i .tx).len ≠ w) (l : Locals) :
    ∃ l', runOp (.spiIrq unit) (9 + w.toNat) (seqAt txeBase l s) = .next (seqAt 3 l' (txMoved i w s)) := by
  obtain ⟨l1, hmove⟩ := runOp_txe_service (l := l) hi hon h
  rw [afterFrame_eq, if_neg hmore] at hmove
  exact ⟨l1, hmove⟩

/-- The receive service of the last frame. -/
theorem runOp_rxne_last (hi : spiOf unit = some i) (hon : clkOn s (.spi i) = true) (hcb : NoCallback i s.params)
    (h : InFlight s i .rx w) (hlast : (xfer s i .rx).len = w) (l : Locals) :
    ∃ l', runOp (.spiIrq unit) ((9 + w.toNat) + (5 + extraStep s)) (seqAt rxneBase l s) =
      .next (seqAt 6 l' (completed i .rx (rxMoved i w s))) := by
  obtain ⟨l1, hmove⟩ := runOp_rxne_service (l := l) hi hon h
  obtain ⟨l2, hend⟩ := runOp_service_end (d := .rx) (s := rxMoved i w s) hi hon hcb l1
  rw [afterFrame_eq, if_pos hlast] at hmove
  exact ⟨l2, (runOp_add _ _ hmove).trans hend⟩

/-- The overrun service while no transmit is Busy. -/
theorem runOp_ovr_idle (hi : spiOf unit = some i) (hon : clkOn s (.spi i) = true) (hcb : NoCallback i s.params)
    (hidle : (xfer s i .tx).st = .idle) (l : Locals) :
    runOp (.spiIrq unit) 4 (seqAt ovrBase l s) = .next (seqAt 9 l (overrunServed i s)) := by
  have htest : exec (.spiIrq unit) (seqAt ovrBase l s) = .next (seqAt (ovrBase + 1) l s) := by
    rw [exec_spiIrq_ovr_test hi rfl, xfer_seqAt, hidle]
    rfl
  have hclear := runOp_spiIrq_ovr_clear (s := seqAt (ovrBase + 1) l s) hi rfl hon
  exact (runOp_succ 3 htest).trans (hclear.trans (congrArg _ (emitCallback_seqAt_of_noCallback (s := overrunCleared i s) hcb)))

end

/-- The state after the first check and the transmit service of the last frame. -/
def txServed (i : SpiId) (w : Word) (s : State) : State := completed i .tx (txMoved i w (readSr i false s))

/-- The state after the second check and the receive service of the last frame. -/
def rxServed (i : SpiId) (w : Word) (s : State) : State := completed i .rx (rxMoved i w (readSr i false s))

/-- The state after the third check and the overrun service. -/
def ovrServed (i : SpiId) (s : State) : State := overrunServed i (readSr i false s)

section

variable {unit : BitVec 4} {i : SpiId} {s : State} {w : Word}

theorem runOp_trans {j : Instr} {s t u : State} {m n : Nat} (h : runOp j m s = .next t) (h' : runOp j n t = .next u) :
    runOp j (m + n) s = .next u :=
  (runOp_add m n h).trans h'

theorem runOp_causeTx (hi : spiOf unit = some i) (hon : clkOn s (.spi i) = true) (hcb : NoCallback i s.params)
    (hflag : (s.spi.get i).txe = true) (henable : (s.spi.get i).cr2.getLsbD bitTxeie = true) (h : InFlight s i .tx w)
    (hlast : (xfer s i .tx).len = w) (l : Locals) :
    ∃ l', runOp (.spiIrq unit) (3 + ((9 + w.toNat) + (5 + extraStep s))) (seqAt 0 l s) = .next (seqAt 3 l' (txServed i w s)) := by
  obtain ⟨l1, hcheck⟩ := runOp_checkTx hi hon l
  rw [if_pos (by simp [hflag, henable])] at hcheck
  obtain ⟨l2, hserve⟩ := runOp_txe_last (s := readSr i false s) hi hon hcb (h.congr (by simp [afterSrRead]) rfl rfl) hlast l1
  exact ⟨l2, runOp_trans hcheck hserve⟩

theorem runOp_causeRx (hi : spiOf unit = some i) (hon : clkOn s (.spi i) = true) (hcb : NoCallback i s.params)
    (hflag : (s.spi.get i).rxne = true) (henable : (s.spi.get i).cr2.getLsbD bitRxneie = true) (h : InFlight s i .rx w)
    (hlast : (xfer s i .rx).len = w) (l : Locals) :
    ∃ l', runOp (.spiIrq unit) (3 + ((9 + w.toNat) + (5 + extraStep s))) (seqAt 3 l s) = .next (seqAt 6 l' (rxServed i w s)) := by
  obtain ⟨l1, hcheck⟩ := runOp_checkRx hi hon l
  rw [if_pos (by simp [hflag, henable])] at hcheck
  obtain ⟨l2, hserve⟩ := runOp_rxne_last (s := readSr i false s) hi hon hcb (h.congr (by simp [afterSrRead]) rfl rfl) hlast l1
  exact ⟨l2, runOp_trans hcheck hserve⟩

theorem runOp_causeOvr (hi : spiOf unit = some i) (hon : clkOn s (.spi i) = true) (hcb : NoCallback i s.params)
    (hflag : (s.spi.get i).ovr = true) (henable : (s.spi.get i).cr2.getLsbD bitErrie = true) (hidle : (xfer s i .tx).st = .idle)
    (l : Locals) : ∃ l', runOp (.spiIrq unit) (3 + 4) (seqAt 6 l s) = .next (seqAt 9 l' (ovrServed i s)) := by
  obtain ⟨l1, hcheck⟩ := runOp_checkOvr hi hon l
  rw [if_pos (by simp [hflag, henable])] at hcheck
  exact ⟨l1, runOp_trans hcheck (runOp_ovr_idle (s := readSr i false s) hi hon hcb hidle l1)⟩

/-- What the transmit part leaves of the registers that the other parts read. -/
theorem txServed_spi_get : ∃ v, (txServed i w s).spi.get i = { s.spi.get i with
    cr2 := setBit (s.spi.get i).cr2 bitTxeie false, txe := false, txd := v, ovrArm := false
    ovr := (afterSrRead (s.spi.get i) false (Config.drawBit s.draws)).ovr } := by
  refine ⟨(frameAt (readSr i false s) (xfer s i .tx).buf w).setWidth 16, ?_⟩
  rw [txServed, completed_spi_get, txMoved_spi_get, readSr_spi_get]
  rfl

theorem rxServed_spi_get : (rxServed i w s).spi.get i = { s.spi.get i with
    cr2 := setBit (s.spi.get i).cr2 bitRxneie false, rxne := false, ovrArm := false
    ovr := (afterSrRead (s.spi.get i) false (Config.drawBit s.draws)).ovr } := by
  rw [rxServed, completed_spi_get, rxMoved_spi_get, readSr_spi_get]
  rfl

theorem ovr_afterSrRead_of_unarmed {r : SpiRegs} (h : r.ovrArm = false) (explicit keep : Bool) :
    (afterSrRead r explicit keep).ovr = r.ovr := by
  simp [afterSrRead, h]

theorem xfer_txServed_rx : xfer (txServed i w s) i .rx = xfer s i .rx :=
  (xfer_completed_ne (by decide)).trans xfer_txMoved_rx

theorem xfer_rxServed_tx : xfer (rxServed i w s) i .tx = xfer s i .tx :=
  (xfer_completed_ne (by decide)).trans xfer_rxMoved_tx

/-- A dispatch with all three causes active serves transmit, receive and overrun in this order. -/
theorem runOp_dispatch_all (hi : spiOf unit = some i) (hon : clkOn s (.spi i) = true) (hcb : NoCallback i s.params)
    (htxe : (s.spi.get i).txe = true) (hrxne : (s.spi.get i).rxne = true) (hovr : (s.spi.get i).ovr = true)
    (harm : (s.spi.get i).ovrArm = false) (htxeie : (s.spi.get i).cr2.getLsbD bitTxeie = true)
    (hrxneie : (s.spi.get i).cr2.getLsbD bitRxneie = true) (herrie : (s.spi.get i).cr2.getLsbD bitErrie = true)
    (hflight : ∀ d, InFlight s i d w ∧ (xfer s i d).len = w) (l : Locals) :
    ∃ k, runOp (.spiIrq unit) (k + 1) (seqAt 0 l s) = .next (finish (ovrServed i (rxServed i w (txServed i w s)))) := by
  obtain ⟨v, hsent⟩ := txServed_spi_get (i := i) (w := w) (s := s)
  rw [ovr_afterSrRead_of_unarmed harm, hovr] at hsent
  have hreceived := rxServed_spi_get (i := i) (w := w) (s := txServed i w s)
  rw [ovr_afterSrRead_of_unarmed (by rw [hsent]), hsent] at hreceived
  have hbits (k j : Nat) (b : BitVec 16) (hj : j < 16) (hne : j ≠ k) (hb : b.getLsbD j = true) :
      (setBit b k false).getLsbD j = true := (getLsbD_setBit_ne b false hj hne).trans hb
  obtain ⟨hrx, hrxlen⟩ := hflight .rx
  obtain ⟨l1, h1⟩ := runOp_causeTx hi hon hcb htxe htxeie (hflight .tx).1 (hflight .tx).2 l
  obtain ⟨l2, h2⟩ := runOp_causeRx (s := txServed i w s) hi hon hcb (by rw [hsent]; exact hrxne)
    (by rw [hsent]; exact hbits _ _ _ (by decide) (by decide) hrxneie) (hrx.congr (by rw [hsent]) xfer_txServed_rx rfl)
    (by rw [xfer_txServed_rx, hrxlen]) l1
  obtain ⟨l3, h3⟩ := runOp_causeOvr (s := rxServed i w (txServed i w s)) hi hon hcb (by rw [hreceived])
    (by
      rw [hreceived]
      exact hbits _ _ _ (by decide) (by decide) (hbits _ _ _ (by decide) (by decide) herrie))
    (by rw [xfer_rxServed_tx, txServed, xfer_completed]; rfl) l2
  refine ⟨_, runOp_trans (runOp_trans h1 (runOp_trans h2 h3)) ?_⟩
  rw [runOp_succ 0 (exec_dispatch_end hi), runOp_zero]

/-! What the parts leave of the rest of the state. -/

@[simp] theorem txServed_ctx : (txServed i w s).ctx = s.ctx := rfl

@[simp] theorem rxServed_ctx : (rxServed i w s).ctx = s.ctx := rfl

@[simp] theorem ovrServed_ctx : (ovrServed i s).ctx = s.ctx := rfl

@[simp] theorem txServed_cbOut : (txServed i w s).cbOut = s.cbOut ++ [(i, .txCmplt)] := rfl

@[simp] theorem rxServed_cbOut : (rxServed i w s).cbOut = s.cbOut ++ [(i, .rxCmplt)] := rfl

@[simp] theorem ovrServed_cbOut : (ovrServed i s).cbOut = s.cbOut ++ [(i, .ovrErr)] := rfl

@[simp] theorem txServed_spiOut :
    (txServed i w s).spiOut = s.spiOut ++ [(i, (frameAt s (xfer s i .tx).buf w).setWidth 16)] := rfl

@[simp] theorem rxServed_spiOut : (rxServed i w s).spiOut = s.spiOut := rfl

@[simp] theorem ovrServed_spiOut : (ovrServed i s).spiOut = s.spiOut := rfl

@[simp] theorem byteAt_finish (a : Word) : byteAt (finish s) a = byteAt s a := rfl

@[simp] theorem byteAt_ovrServed (a : Word) : byteAt (ovrServed i s) a = byteAt s a := rfl

theorem xfer_ovrServed (d : Dir) : xfer (ovrServed i s) i d = xfer s i d := rfl

theorem finish_ctx_congr {t : State} (h : t.ctx = s.ctx) : (finish t).ctx = (finish s).ctx := by
  simp only [finish, updAct, h]

/-- The frame the receive part stores. -/
theorem byteAt_rxServed (hw : w = 1 ∨ w = 2) : byteAt (rxServed i w s) (xfer s i .rx).buf = (s.spi.get i).rxd.extractLsb' 0 8 ∧
    (w = 2 → byteAt (rxServed i w s) ((xfer s i .rx).buf + 1) = (s.spi.get i).rxd.extractLsb' 8 8) := by
  have hbyte (a : Word) : byteAt (rxServed i w s) a = byteAt (storeFrame (xfer s i .rx).buf w
      (regVal (.spi i .dr) (readSr i false s)) (afterRead (.spi i .dr) (readSr i false s))) a := rfl
  have hfield (lo : Nat) (h : lo + 8 ≤ 32) :
      (regVal (.spi i .dr) (readSr i false s)).extractLsb' lo 8 = (s.spi.get i).rxd.extractLsb' lo 8 := by
    rw [regVal, readSr_spi_get]
    exact extractLsb'_setWidth_of_le _ lo 8 h
  obtain ⟨hlow, hhigh, -⟩ := byteAt_storeFrame (a := (xfer s i .rx).buf) (v := regVal (.spi i .dr) (readSr i false s))
    (s := afterRead (.spi i .dr) (readSr i false s)) hw
  rw [hbyte, hbyte]
  exact ⟨hlow.trans (hfield 0 (by decide)), fun h2 => (hhigh h2).trans (hfield 8 (by decide))⟩

end

/-- Settles O34: the checks one by one, and with all three causes active the three parts one after the other. -/
theorem dispatchServicesAllCausesInOrder : Obligations.DispatchServicesAllCausesInOrder := by
  refine ⟨fun unit i s p flag enable service next hi hon hc => ⟨exec_check_flag hi hon hc, exec_check_enable hi hon hc,
    exec_check_branch hi hc, fun hs => ?_⟩, ?_⟩
  · obtain ⟨l', hrun⟩ := runOp_check hi hon hc (locals s)
    rw [← hs, seqAt_self] at hrun
    exact ⟨_, hrun, rfl⟩
  · intro unit i s w hi h0 hon hw hcb htxe hrxne hovr harm htxeie hrxneie herrie hflight
    have hwidth : w = 1 ∨ w = 2 := hw ▸ frameWidth_eq _
    have hin (d : Dir) : InFlight s i d w ∧ (xfer s i d).len = w := by
      obtain ⟨hbusy, hbuf, hlen, hlow, hhigh⟩ := hflight d
      exact ⟨⟨hw, hbusy, hbuf, (congrArg BitVec.toNat hlen).ge, hlow, hhigh⟩, hlen⟩
    obtain ⟨k, hrun⟩ := runOp_dispatch_all hi hon hcb htxe hrxne hovr harm htxeie hrxneie herrie hin (locals s)
    rw [← h0, seqAt_self, runOp_succ_eq_next] at hrun
    obtain ⟨s1, hfirst, hrest⟩ := hrun
    obtain ⟨v, hsent⟩ := txServed_spi_get (i := i) (w := w) (s := s)
    have hreceived := rxServed_spi_get (i := i) (w := w) (s := txServed i w s)
    have hregs : (ovrServed i (rxServed i w (txServed i w s))).spi.get i =
        { (rxServed i w (txServed i w s)).spi.get i with rxne := false, ovr := false, ovrArm := false } := by
      rw [ovrServed, overrunServed_spi_get, readSr_spi_get]
      rfl
    obtain ⟨hlow, hhigh⟩ := byteAt_rxServed (i := i) (s := txServed i w s) hwidth
    rw [xfer_txServed_rx, hsent] at hlow hhigh
    have hcr2 (j : Nat) (hj : j < 16) : (setBit (setBit (s.spi.get i).cr2 bitTxeie false) bitRxneie false).getLsbD j =
        if j = bitRxneie then false else if j = bitTxeie then false else (s.spi.get i).cr2.getLsbD j := by
      rw [setBit_getLsbD _ _ _ _ hj, setBit_getLsbD _ _ _ _ hj]
    refine ⟨s1, k, _, hfirst, hrest, finish_ctx_congr (by simp), by simp, by simp, ?_, fun h2 => ?_, fun d => ⟨?_, ?_⟩, ?_, ?_, ?_⟩
    · rw [byteAt_finish, byteAt_ovrServed, hlow]
    · rw [byteAt_finish, byteAt_ovrServed, hhigh h2]
    · rw [xfer_finish, xfer_ovrServed]
      cases d
      · rw [xfer_rxServed_tx, txServed, xfer_completed]
      · rw [rxServed, xfer_completed]
    · simp only [finish_spi, hregs, hreceived, hsent]
      cases d <;> rw [hcr2 _ (by decide)] <;> simp [enableBit]
    all_goals simp [hregs, hreceived, hsent]

end Sys2Proof.Machine

namespace Sys2Proof.Machine

/-! # Buffers in the launch memory (20 R71, R74) -/

/-- The `n` bytes from `b` do not wrap and lie in the launch memory. -/
structure BufferAt (s : State) (b : Word) (n : Nat) : Prop where
  fits : b.toNat + n ≤ 2 ^ 32
  launch : ∀ k, k < n → inLaunch s (b + BitVec.ofNat 32 k) = true

/-- An admitted buffer is one. -/
theorem bufferAt_of_admitted {s : State} {b n : Word} (h : admittedBuffer s b n = true) : BufferAt s b n.toNat := by
  obtain rfl | ⟨-, hfits, hbytes⟩ := (admissionIsTheRangeCondition s b n).1 h
  · exact ⟨b.isLt.le, fun k hk => absurd hk (Nat.not_lt_zero k)⟩
  · refine ⟨hfits, fun k hk => ?_⟩
    obtain ⟨⟨r, hr, hlo, hhi⟩, -⟩ := hbytes (b.toNat + k) (by omega) (by omega)
    have haddr : (b + BitVec.ofNat 32 k).toNat = b.toNat + k := by
      rw [BitVec.toNat_add, BitVec.toNat_ofNat]
      omega
    exact List.any_eq_true.2 ⟨r, hr, by simp [haddr, hlo, hhi]⟩

namespace BufferAt

variable {s t : State} {b w : Word} {n : Nat}

theorem congr (h : BufferAt s b n) (hp : t.params = s.params) : BufferAt t b n :=
  ⟨h.fits, fun k hk => by rw [inLaunch, hp]; exact h.launch k hk⟩

/-- The first byte, and the second. -/
theorem first (h : BufferAt s b n) (hn : 0 < n) : inLaunch s b = true := by simpa using h.launch 0 hn

theorem second (h : BufferAt s b n) (hn : 1 < n) : inLaunch s (b + 1) = true := h.launch 1 hn

/-- What is left of a buffer after its first bytes. -/
theorem advance (h : BufferAt s b (w.toNat + n)) : BufferAt s (b + w) n := by
  obtain ⟨hfits, hlaunch⟩ := h
  refine ⟨?_, fun k hk => ?_⟩
  · rw [BitVec.toNat_add]
    have := Nat.mod_le (b.toNat + w.toNat) (2 ^ 32)
    omega
  · have haddr : b + w + BitVec.ofNat 32 k = b + BitVec.ofNat 32 (w.toNat + k) := by
      rw [BitVec.ofNat_add, BitVec.ofNat_toNat, BitVec.setWidth_eq, BitVec.add_assoc]
    rw [haddr]
    exact hlaunch _ (by omega)

/-- A cursor inside a buffer is not NULL once it has moved. -/
theorem advance_ne_zero (h : BufferAt s b (w.toNat + n)) (hn : 0 < n) (hw : 0 < w.toNat) : b + w ≠ 0 := by
  intro hzero
  have hsum := congrArg BitVec.toNat hzero
  have hfits := h.fits
  rw [BitVec.toNat_add, show (0 : Word).toNat = 0 from rfl] at hsum
  omega

end BufferAt

end Sys2Proof.Machine

namespace Sys2Proof.Machine

/-! # Dispatch after dispatch (42 R173) -/

section

variable {unit : BitVec 4} {i : SpiId} {s t : State} {w : Word}

/-! ## From micro-steps to a command's run -/

/-- A micro-step of a context with no command in progress puts none in progress. -/
theorem runOp_op_none {j : Instr} {k : Nat} (h : runOp j k s = .next t) (hs : s.ctx.act.op = none) : t.ctx.act.op = none := by
  induction k generalizing s with
  | zero =>
    cases h
    exact hs
  | succ k ih =>
    obtain ⟨s1, hfirst, hrest⟩ := runOp_succ_eq_next.1 h
    refine ih hrest ?_
    obtain hnone | ⟨hkept, -⟩ := (effect_of_exec hfirst).op
    · exact hnone
    · exact hkept.trans hs

/-- Micro-steps after which the command is still in progress are micro-steps of its run. -/
theorem runCommand_add {j : Instr} {k : Nat} (h : runOp j k s = .next t) (ht : t.ctx.act.op ≠ none) (fuel : Nat) :
    runCommand j (k + fuel) s = runCommand j fuel t := by
  induction k generalizing s with
  | zero =>
    cases h
    rw [Nat.zero_add]
  | succ k ih =>
    have hs : s.ctx.act.op ≠ none := fun hs => ht (runOp_op_none h hs)
    obtain ⟨s1, hfirst, hrest⟩ := runOp_succ_eq_next.1 h
    rw [Nat.succ_add, runCommand, if_neg hs, hfirst]
    exact ih hrest

/-- A command's last micro-step ends its run. -/
theorem runCommand_last {j : Instr} (hs : s.ctx.act.op ≠ none) (h : exec j s = .next t) (ht : t.ctx.act.op = none) (fuel : Nat) :
    runCommand j (fuel + 1) s = .next t := by
  rw [runCommand, if_neg hs, h]
  cases fuel with
  | zero => rfl
  | succ fuel => exact if_pos ht

/-! ## One dispatch of a transmit -/

theorem frameWidth_toNat_bounds (v : Word) : 0 < (frameWidth v).toNat ∧ (frameWidth v).toNat ≤ 2 := by
  obtain h | h := frameWidth_eq v <;> rw [h] <;> decide

/-- Of a dispatch's three causes the transmit alone is active. -/
structure OnlyTx (s : State) (i : SpiId) (w : Word) : Prop where
  clock : clkOn s (.spi i) = true
  callback : NoCallback i s.params
  flight : InFlight s i .tx w
  enabled : (s.spi.get i).cr2.getLsbD bitTxeie = true
  quietRx : ((s.spi.get i).rxne && (s.spi.get i).cr2.getLsbD bitRxneie) = false
  quietOvr : ((s.spi.get i).ovr && (s.spi.get i).cr2.getLsbD bitErrie) = false

/-- A dispatch whose transmit part ends in `t` goes through the other two checks and finishes. -/
theorem runCommand_of_txPart {k : Nat} {l : Locals} (hi : spiOf unit = some i) (hop : s.ctx.act.op ≠ none)
    (hpart : runOp (.spiIrq unit) k s = .next (seqAt 3 l t)) (hk : k ≤ 57) (hctx : t.ctx.act.op = s.ctx.act.op)
    (hon : clkOn t (.spi i) = true) (hrx : ((t.spi.get i).rxne && (t.spi.get i).cr2.getLsbD bitRxneie) = false)
    (hovr : ((t.spi.get i).ovr && (t.spi.get i).cr2.getLsbD bitErrie) = false) :
    runCommand (.spiIrq unit) 64 s = .next (finish (readSr i false (readSr i false t))) := by
  obtain ⟨l', hchecks⟩ := runOp_quiet_checks hi hon hrx hovr l
  have hlast : (seqAt 9 l' (readSr i false (readSr i false t))).ctx.act.op ≠ none := hctx ▸ hop
  rw [show 64 = (k + 6) + (57 - k + 1) by omega, runCommand_add (runOp_trans hpart hchecks) hlast,
    runCommand_last hlast (exec_dispatch_end hi) rfl]

theorem runCommand_dispatch_more (hi : spiOf unit = some i) (hop : s.ctx.act.op ≠ none) (h0 : phaseOf s = 0) (h : OnlyTx s i w)
    (hflag : (s.spi.get i).txe = true) (hmore : (xfer s i .tx).len ≠ w) : runCommand (.spiIrq unit) 64 s =
      .next (finish (readSr i false (readSr i false (txMoved i w (readSr i false s))))) := by
  obtain ⟨hon, hcb, hflight, henable, hrx, hovr⟩ := h
  have hbound := frameWidth_toNat_bounds (regVal (.spi i .cr1) s)
  rw [← hflight.width] at hbound
  obtain ⟨l1, hcheck⟩ := runOp_checkTx hi hon (locals s)
  rw [if_pos (by simp [hflag, henable]), ← h0, seqAt_self] at hcheck
  obtain ⟨l2, hserve⟩ := runOp_txe_more (s := readSr i false s) hi hon (hflight.congr (by simp [afterSrRead]) rfl rfl) hmore l1
  refine runCommand_of_txPart hi hop (runOp_trans hcheck hserve) (by omega) rfl hon ?_ ?_
  · simpa [afterSrRead] using hrx
  · simpa using ovrPair_readSr hovr false

theorem runCommand_dispatch_last (hi : spiOf unit = some i) (hop : s.ctx.act.op ≠ none) (h0 : phaseOf s = 0) (h : OnlyTx s i w)
    (hflag : (s.spi.get i).txe = true) (hlast : (xfer s i .tx).len = w) : runCommand (.spiIrq unit) 64 s =
      .next (finish (readSr i false (readSr i false (txServed i w s)))) := by
  obtain ⟨hon, hcb, hflight, henable, hrx, hovr⟩ := h
  have hbound := frameWidth_toNat_bounds (regVal (.spi i .cr1) s)
  rw [← hflight.width] at hbound
  have hextra : extraStep s ≤ 1 := by
    unfold extraStep
    split <;> decide
  obtain ⟨l1, hserve⟩ := runOp_causeTx hi hon hcb hflag henable hflight hlast (locals s)
  rw [← h0, seqAt_self] at hserve
  obtain ⟨v, hregs⟩ := txServed_spi_get (i := i) (w := w) (s := s)
  have hquiet := ovrPair_readSr hovr false
  rw [readSr_spi_get] at hquiet
  refine runCommand_of_txPart hi hop hserve (by omega) rfl hon ?_ ?_
  · rw [hregs, getLsbD_setBit_ne _ _ (by decide) (by decide)]
    exact hrx
  · rw [hregs, getLsbD_setBit_ne _ _ (by decide) (by decide)]
    exact hquiet

end

end Sys2Proof.Machine

namespace Sys2Proof.Machine

/-! ## A transmit of several frames -/

/-- A transmit of `m` frames of `w` bytes is in flight, and nothing else is for a dispatch to serve. -/
structure Sending (s : State) (i : SpiId) (w : Word) (m : Nat) : Prop where
  clock : clkOn s (.spi i) = true
  callback : NoCallback i s.params
  width : w = frameWidth (regVal (.spi i .cr1) s)
  busy : (xfer s i .tx).st = .busy
  buffer : (xfer s i .tx).buf ≠ 0
  length : (xfer s i .tx).len.toNat = m * w.toNat
  launch : BufferAt s (xfer s i .tx).buf (m * w.toNat)
  enabled : (s.spi.get i).cr2.getLsbD bitTxeie = true
  quietRx : ((s.spi.get i).rxne && (s.spi.get i).cr2.getLsbD bitRxneie) = false
  quietOvr : ((s.spi.get i).ovr && (s.spi.get i).cr2.getLsbD bitErrie) = false

/-- The state in which a dispatch of handle `i` begins: TXE has been set and the command word issued. -/
def issued (unit : BitVec 4) (i : SpiId) (s : State) : State := startCommand (encode (.spiIrq unit)) (envTxEmpty i s)

section

variable {unit : BitVec 4} {i : SpiId} {s t : State} {w : Word} {m : Nat}

@[simp] theorem issued_spi_get : (issued unit i s).spi.get i = { s.spi.get i with txe := true } := PerSpi.get_set_self _ _ _

theorem frameAt_congr (h : t.mem = s.mem) (b w : Word) : frameAt t b w = frameAt s b w := by
  simp only [frameAt, byteAt, h]

theorem framesAt_congr (h : t.mem = s.mem) (b w : Word) (n : Nat) : framesAt t b w n = framesAt s b w n := by
  induction n generalizing b with
  | zero => rfl
  | succ n ih => rw [framesAt, framesAt, frameAt_congr h, ih]

theorem dispatchTimes_succ (h : runCommand (.spiIrq unit) 64 (issued unit i s) = .next t) (n : Nat) :
    dispatchTimes unit i (n + 1) s = dispatchTimes unit i n t := by
  simp only [dispatchTimes]
  rw [issued] at h
  rw [h]

namespace Sending

theorem onlyTx (h : Sending s i w (m + 1)) : OnlyTx (issued unit i s) i w := by
  obtain ⟨hon, hcb, hw, hbusy, hbuf, hlen, hlaunch, henable, hrx, hovr⟩ := h
  have hbound := frameWidth_toNat_bounds (regVal (.spi i .cr1) s)
  rw [← hw] at hbound
  have hone : w.toNat ≤ (m + 1) * w.toNat := Nat.le_mul_of_pos_left _ (Nat.succ_pos m)
  have hflight : InFlight s i .tx w := by
    refine ⟨hw, hbusy, hbuf, hlen ▸ hone, hlaunch.first (by omega), fun h2 => hlaunch.second ?_⟩
    have : w.toNat = 2 := congrArg BitVec.toNat h2
    omega
  exact ⟨hon, hcb, hflight.congr (by simp) rfl rfl, by simpa using henable, by simpa using hrx, by simpa using hovr⟩

/-- The last frame's dispatch. -/
theorem last (h : Sending s i w 1) (hi : spiOf unit = some i) : ∃ t, runCommand (.spiIrq unit) 64 (issued unit i s) = .next t ∧
    t.cbOut = s.cbOut ++ [(i, .txCmplt)] ∧ cleanDirection t i .tx ∧
    t.spiOut = s.spiOut ++ [(i, (frameAt s (xfer s i .tx).buf w).setWidth 16)] ∧ t.mem = s.mem := by
  have hlast : (xfer (issued unit i s) i .tx).len = w := BitVec.eq_of_toNat_eq (h.length.trans (Nat.one_mul _))
  refine ⟨_, runCommand_dispatch_last hi (by simp [issued, startCommand]) rfl h.onlyTx (by simp) hlast, rfl, ⟨?_, ?_⟩, rfl, rfl⟩
  · rw [xfer_finish, xfer_readSr, xfer_readSr, txServed, xfer_completed]
  · obtain ⟨v, hregs⟩ := txServed_spi_get (i := i) (w := w) (s := issued unit i s)
    rw [finish_spi, readSr_spi_get, readSr_spi_get, hregs]
    exact (setBit_getLsbD _ _ _ _ (by decide)).trans (if_pos rfl)

/-- The dispatch of a frame that is not the last. -/
theorem more (h : Sending s i w (m + 2)) (hi : spiOf unit = some i) : ∃ t,
    runCommand (.spiIrq unit) 64 (issued unit i s) = .next t ∧ Sending t i w (m + 1) ∧ t.cbOut = s.cbOut ∧
      xfer t i .tx = advanced (xfer s i .tx) w ∧
      t.spiOut = s.spiOut ++ [(i, (frameAt s (xfer s i .tx).buf w).setWidth 16)] ∧ t.mem = s.mem := by
  have honly : OnlyTx (issued unit i s) i w := h.onlyTx
  obtain ⟨hon, hcb, hw, hbusy, hbuf, hlen, hlaunch, henable, hrx, hovr⟩ := h
  have hbound := frameWidth_toNat_bounds (regVal (.spi i .cr1) s)
  rw [← hw] at hbound
  have hsplit : (m + 2) * w.toNat = w.toNat + (m + 1) * w.toNat := by ring
  have hpos : 0 < (m + 1) * w.toNat := Nat.mul_pos (Nat.succ_pos m) hbound.1
  rw [hsplit] at hlen hlaunch
  have hmore : (xfer (issued unit i s) i .tx).len ≠ w := fun heq => by
    have := (congrArg BitVec.toNat heq).symm.trans hlen
    omega
  let moved := txMoved i w (readSr i false (issued unit i s))
  have hcr1 : ((finish (readSr i false (readSr i false moved))).spi.get i).cr1 = (s.spi.get i).cr1 := by simp [moved, afterSrRead]
  have hcr2 : ((finish (readSr i false (readSr i false moved))).spi.get i).cr2 = (s.spi.get i).cr2 := by simp [moved, afterSrRead]
  have hrxne : ((finish (readSr i false (readSr i false moved))).spi.get i).rxne = (s.spi.get i).rxne := by
    simp [moved, afterSrRead]
  have hovr' : ((moved.spi.get i).ovr && (moved.spi.get i).cr2.getLsbD bitErrie) = false := by
    have := ovrPair_readSr honly.quietOvr false
    simpa [moved] using this
  have hxfer : xfer (finish (readSr i false (readSr i false moved))) i .tx = advanced (xfer s i .tx) w := xfer_txMoved
  refine ⟨_, runCommand_dispatch_more hi (by simp [issued, startCommand]) rfl honly (by simp) hmore, ?_, rfl, hxfer, rfl, rfl⟩
  refine ⟨hon, hcb, ?_, ?_, ?_, ?_, ?_, ?_, ?_, ovrPair_readSr (ovrPair_readSr hovr' false) false⟩
  · exact hw.trans (by rw [regVal, regVal, hcr1])
  · rw [hxfer]
    exact hbusy
  · rw [hxfer]
    exact hlaunch.advance_ne_zero hpos hbound.1
  · rw [hxfer, advanced, BitVec.toNat_sub]
    omega
  · rw [hxfer]
    exact hlaunch.advance.congr rfl
  · rwa [hcr2]
  · rwa [hrxne, hcr2]

end Sending

/-- Where a transmit of `m` frames stands after `j` of them. -/
structure SentFrames (s t : State) (i : SpiId) (w : Word) (m j : Nat) : Prop where
  events : t.cbOut = s.cbOut
  busy : (xfer t i .tx).st = .busy
  length : (xfer t i .tx).len.toNat = (m - j) * w.toNat
  buffer : (xfer t i .tx).buf = (xfer s i .tx).buf + BitVec.ofNat 32 (j * w.toNat)
  output : t.spiOut = s.spiOut ++ (framesAt s (xfer s i .tx).buf w j).map (i, ·)

/-- Where a transmit of `m` frames stands after all of them. -/
structure SentAll (s t : State) (i : SpiId) (w : Word) (m : Nat) : Prop where
  events : t.cbOut = s.cbOut ++ [(i, .txCmplt)]
  clean : cleanDirection t i .tx
  output : t.spiOut = s.spiOut ++ (framesAt s (xfer s i .tx).buf w m).map (i, ·)
  memory : t.mem = s.mem

/-- What is sent after a first frame is, with it, what is sent from the beginning. -/
theorem output_cons {n : Nat} {u : State} (hout : t.spiOut = s.spiOut ++ [(i, (frameAt s (xfer s i .tx).buf w).setWidth 16)])
    (hx : xfer t i .tx = advanced (xfer s i .tx) w) (hmem : t.mem = s.mem)
    (h : u.spiOut = t.spiOut ++ (framesAt t (xfer t i .tx).buf w n).map (i, ·)) :
    u.spiOut = s.spiOut ++ (framesAt s (xfer s i .tx).buf w (n + 1)).map (i, ·) := by
  rw [h, hout, framesAt_congr hmem, hx, framesAt]
  simp [advanced]

/-- Frame after frame, by induction on the frames left. -/
theorem dispatchTimes_of_sending (hi : spiOf unit = some i) (h : Sending s i w (m + 1)) :
    (∀ j, j < m + 1 → ∃ t, dispatchTimes unit i j s = .next t ∧ SentFrames s t i w (m + 1) j) ∧
      ∃ t, dispatchTimes unit i (m + 1) s = .next t ∧ SentAll s t i w (m + 1) := by
  have hstart : SentFrames s s i w (m + 1) 0 := by
    refine ⟨rfl, h.busy, h.length, ?_, ?_⟩ <;> simp [framesAt]
  induction m generalizing s with
  | zero =>
    obtain ⟨t, hrun, hevents, hclean, hout, hmem⟩ := h.last hi
    refine ⟨fun j hj => ?_, t, (dispatchTimes_succ hrun 0).trans rfl, hevents, hclean, by simpa [framesAt] using hout, hmem⟩
    obtain rfl : j = 0 := by omega
    exact ⟨s, rfl, hstart⟩
  | succ m ih =>
    obtain ⟨t, hrun, hsending, hevents, hx, hout, hmem⟩ := h.more hi
    obtain ⟨hpart, u, hurun, hu⟩ := ih hsending ⟨rfl, hsending.busy, hsending.length, by simp, by simp [framesAt]⟩
    refine ⟨fun j hj => ?_, u, (dispatchTimes_succ hrun _).trans hurun, ?_⟩
    · cases j with
      | zero => exact ⟨s, rfl, hstart⟩
      | succ j =>
        obtain ⟨v, hvrun, hv⟩ := hpart j (by omega)
        refine ⟨v, (dispatchTimes_succ hrun _).trans hvrun, hv.events.trans hevents, hv.busy, ?_, ?_,
          output_cons hout hx hmem hv.output⟩
        · rw [hv.length, Nat.add_sub_add_right]
        · rw [hv.buffer, hx, advanced, BitVec.add_assoc, Nat.add_mul, Nat.one_mul, Nat.add_comm (j * _), BitVec.ofNat_add,
            BitVec.ofNat_toNat, BitVec.setWidth_eq]
    · exact ⟨hu.events.trans (by rw [hevents]), hu.clean, output_cons hout hx hmem hu.output, hu.memory.trans hmem⟩

end

/-- Settles O35: by induction on the frames, one dispatch each. -/
theorem dispatchesDriveATransmitToCompletion : Obligations.DispatchesDriveATransmitToCompletion := by
  intro unit i s w m hi hon hw hcb hm hbusy hbuf hlen hadm henable hrx hovr
  obtain ⟨m, rfl⟩ : ∃ n, m = n + 1 := ⟨m - 1, by omega⟩
  have hlaunch := bufferAt_of_admitted hadm
  rw [hlen] at hlaunch
  obtain ⟨hpart, t, hrun, ht⟩ := dispatchTimes_of_sending hi ⟨hon, hcb, hw, hbusy, hbuf, hlen, hlaunch, henable, hrx, hovr⟩
  refine ⟨fun j hj => ?_, t, hrun, ht.events, ht.clean, ht.output, ht.memory⟩
  obtain ⟨u, hurun, hu⟩ := hpart j hj
  exact ⟨u, hurun, hu.events, hu.busy, hu.length, hu.buffer, hu.output⟩

end Sys2Proof.Machine

namespace Sys2Proof.Machine

/-! # I2C_MSEND on a bus that never holds it up (44 R211) -/

/-- From `s` to `t`, on I2C unit `u`: the output history has grown by `out`, and nothing else has changed but the unit's data register,
flags and clear latch, and the draw counter. -/
structure BusRel (u : I2cId) (s t : State) (out : List I2cOut) : Prop where
  frame : t = { s with i2c := t.i2c, i2cOut := t.i2cOut, draws := t.draws }
  regs : t.i2c = s.i2c.set u { s.i2c.get u with
    dr := (t.i2c.get u).dr, sb := (t.i2c.get u).sb, addr := (t.i2c.get u).addr, txe := (t.i2c.get u).txe,
    btf := (t.i2c.get u).btf, addrArm := (t.i2c.get u).addrArm }
  output : t.i2cOut = s.i2cOut ++ out.map (u, ·)

namespace BusRel

variable {u : I2cId} {s t v : State} {out out' : List I2cOut}

theorem trans (h : BusRel u s t out) (h' : BusRel u t v out') : BusRel u s v (out ++ out') := by
  refine ⟨?_, ?_, ?_⟩
  · rw [h'.frame, h.frame]
  · rw [h'.regs, h.regs]
    simp
  · rw [h'.output, h.output, List.map_append, List.append_assoc]

/-- A step that puts nothing out, after one that puts `out` out. -/
theorem quiet (h : BusRel u s t out) (h' : BusRel u t v []) : BusRel u s v out := by
  simpa using h.trans h'

/-- The unit's registers replaced, but for its control and configuration registers, and `out` put out. -/
theorem of_set (u : I2cId) (s : State) {r : I2cRegs} (out : List I2cOut) (n : Nat)
    (hr : r = { s.i2c.get u with
      dr := r.dr, sb := r.sb, addr := r.addr, txe := r.txe, btf := r.btf, addrArm := r.addrArm }) :
    BusRel u s { s with i2c := s.i2c.set u r, i2cOut := s.i2cOut ++ out.map (u, ·), draws := n } out := by
  refine ⟨rfl, ?_, rfl⟩
  rw [PerI2c.get_set_self, ← hr]

/-- The same with nothing put out. -/
theorem updI2c (u : I2cId) (s : State) (f : I2cRegs → I2cRegs) (hf : ∀ r, f r = { r with
      dr := (f r).dr, sb := (f r).sb, addr := (f r).addr, txe := (f r).txe, btf := (f r).btf, addrArm := (f r).addrArm }) :
    BusRel u s (updI2c u f s) [] := by
  have h := of_set u s [] s.draws (hf (s.i2c.get u))
  rwa [List.map_nil, List.append_nil] at h

theorem bus (u : I2cId) (s : State) : BusRel u s (obligingBus u s) [] :=
  updI2c u s (fun r => { r with sb := true, addr := true, txe := true, btf := true }) fun _ => rfl

theorem readSr1 (u : I2cId) (s : State) : BusRel u s (afterRead (.i2c u .sr1) s) [] :=
  updI2c u s (fun r => { r with addrArm := r.addr }) fun _ => rfl

theorem readSr2 (u : I2cId) (s : State) : BusRel u s (afterRead (.i2c u .sr2) s) [] :=
  updI2c u s (fun r => { r with addr := r.addr && !r.addrArm, addrArm := false }) fun _ => rfl

theorem writeDr (u : I2cId) (w : Word) (s : State) : BusRel u s (afterWrite (.i2c u .dr) w s) [.byte (w.setWidth 8)] :=
  of_set u s (r := { s.i2c.get u with dr := w.setWidth 8 }) [.byte (w.setWidth 8)] s.draws rfl

/-- CR1 written back with one of its two requests set: it is made, and CR1 is as it was. -/
theorem writeCr1 (u : I2cId) (s : State) (hstart : (s.i2c.get u).cr1.getLsbD bitStart = false)
    (hstop : (s.i2c.get u).cr1.getLsbD bitStop = false) :
    BusRel u s (afterWrite (.i2c u .cr1) (setBit (regVal (.i2c u .cr1) s) bitStart true) s) [.start] ∧
      BusRel u s (afterWrite (.i2c u .cr1) (setBit (regVal (.i2c u .cr1) s) bitStop true) s) [.stop] := by
  have hback (k : Nat) (hk : k = bitStart ∨ k = bitStop) :
      setBit (setBit (setBit (s.i2c.get u).cr1 k true) bitStart false) bitStop false = (s.i2c.get u).cr1 := by
    refine BitVec.eq_of_getLsbD_eq fun j hj => ?_
    simp only [setBit_getLsbD _ _ _ _ hj]
    split_ifs with h1 h2 h3
    · rw [h1, hstop]
    · rw [h2, hstart]
    · omega
    · rfl
  have hbit (k j : Nat) (hj : j < 32) : (setBit (s.i2c.get u).cr1 k true).getLsbD j =
      if j = k then true else (s.i2c.get u).cr1.getLsbD j := setBit_getLsbD _ _ _ _ hj
  constructor
  · simp only [afterWrite, writeI2cCr1, regVal, hbit _ bitStart (by decide), hbit _ bitStop (by decide), hback _ (.inl rfl), hstop]
    exact of_set u s [.start] _ rfl
  · simp only [afterWrite, writeI2cCr1, regVal, hbit _ bitStart (by decide), hbit _ bitStop (by decide), hback _ (.inr rfl), hstart]
    exact of_set u s [.stop] _ rfl

theorem refl (u : I2cId) (s : State) : BusRel u s s [] := by
  refine ⟨rfl, ?_, by simp⟩
  exact (PerI2c.set_get _ _).symm

theorem ctx (h : BusRel u s t out) : t.ctx = s.ctx := by rw [h.frame]

theorem params (h : BusRel u s t out) : t.params = s.params := by rw [h.frame]

theorem clkOn (h : BusRel u s t out) (p : Peripheral) : clkOn t p = clkOn s p := by rw [h.frame]; rfl

theorem inLaunch (h : BusRel u s t out) (a : Word) : inLaunch t a = inLaunch s a := by rw [h.frame]; rfl

theorem byteAt (h : BusRel u s t out) (a : Word) : byteAt t a = byteAt s a := by rw [h.frame]; rfl

theorem extraStep (h : BusRel u s t out) : extraStep t = extraStep s := by rw [h.frame]; rfl

theorem cr1 (h : BusRel u s t out) : (t.i2c.get u).cr1 = (s.i2c.get u).cr1 := by
  rw [h.regs, PerI2c.get_set_self]

end BusRel

/-- Unit `u` can send: it is the operand's, its clock is on, and no request is stored. -/
structure CanSend (unit : BitVec 4) (u : I2cId) (s : State) : Prop where
  unit : i2cOf s.params unit = some u
  clock : clkOn s (.i2c u) = true
  start : (s.i2c.get u).cr1.getLsbD bitStart = false
  stop : (s.i2c.get u).cr1.getLsbD bitStop = false

theorem CanSend.of_rel {unit : BitVec 4} {u : I2cId} {s t : State} {out : List I2cOut} (h : CanSend unit u s) (hr : BusRel u s t out) :
    CanSend unit u t := by
  obtain ⟨hu, hon, hstart, hstop⟩ := h
  exact ⟨hr.params ▸ hu, (hr.clkOn _).trans hon, hr.cr1 ▸ hstart, hr.cr1 ▸ hstop⟩

@[simp] theorem accessible_i2c (u : I2cId) (r : I2cReg) (s : State) : accessible s (.i2c u r) = clkOn s (.i2c u) := rfl

theorem CanSend.accessible {unit : BitVec 4} {u : I2cId} {s : State} (h : CanSend unit u s) (x : I2cReg) (p : Nat) (l : Locals) :
    accessible (seqAt p l s) (.i2c u x) = true := h.clock

/-- What the bus answers a write of an I2C register at some phase. -/
theorem writeReg_seqAt_i2c {u : I2cId} {s : State} (hon : clkOn s (.i2c u) = true) (x : I2cReg) (v : Word) (p : Nat) (l : Locals)
    (k : State → Out) : writeReg (.i2c u x) v (seqAt p l s) k = k (seqAt p l (afterWrite (.i2c u x) v s)) := by
  rw [writeReg_eq _ _ _ _ ((accessible_seqAt p l s (.i2c u x)).trans hon), afterWrite_seqAt_i2c]

/-- A wait at some phase. -/
theorem waitUntil_seqAt {r : Reg} {s : State} (hon : accessible s r = true) (bit q p : Nat) (l : Locals) :
    waitUntil r bit q (seqAt p l s) = .next (seqAt (if (regVal r s).getLsbD bit then q else p) l (afterRead r s)) := by
  rw [waitUntil_def, readReg_seqAt hon, goto_seqAt]
  split <;> rfl

section

variable {unit : BitVec 4} {u : I2cId} {a : BitVec 7} {l : Locals} {s : State}

/-! ## One micro-step -/

theorem exec_msend (h : CanSend unit u s) (p : Nat) (l : Locals) :
    exec (.i2cMsend unit a) (seqAt p l s) = msendStep u a (seqAt p l s) :=
  exec_i2cMsend_eq a h.unit

theorem runOpWith_succ_eq_next {env : State → State} {j : Instr} {k : Nat} {s t : State} :
    runOpWith env j (k + 1) s = .next t ↔ ∃ s1, exec j (env s) = .next s1 ∧ runOpWith env j k s1 = .next t := by
  rw [runOpWith]
  cases exec j (env s) <;> simp

/-- A micro-step after the bus unit has acted. -/
theorem runOpWith_bus_succ {j : Instr} {p q n : Nat} {l' : Locals} {t : State}
    (h : exec j (seqAt p l (obligingBus u s)) = .next (seqAt q l' t)) :
    runOpWith (obligingBus u) j (n + 1) (seqAt p l s) = runOpWith (obligingBus u) j n (seqAt q l' t) :=
  runOpWith_succ n h

/-- The bus unit has set the flag that a wait awaits. -/
theorem exec_msend_wait {p bit : Nat} (h : CanSend unit u s) (hwait : (p, bit) ∈
      [(4, bitSb), (6, bitAddr), (10, bitI2cTxe), (14, bitI2cTxe), (15, bitBtf)]) (l : Locals) :
    ∃ t, exec (.i2cMsend unit a) (seqAt p l (obligingBus u s)) = .next (seqAt (p + 1) l t) ∧ BusRel u s t [] := by
  have hbus := BusRel.bus u s
  have hready := h.of_rel hbus
  have hflag : (regVal (.i2c u .sr1) (obligingBus u s)).getLsbD bit = true ∧
      awaited s.params (.i2cMsend unit a) p = some (.i2c u .sr1, bit) := by
    simp only [List.mem_cons, Prod.mk.injEq, List.not_mem_nil, or_false] at hwait
    obtain ⟨rfl, rfl⟩ | ⟨rfl, rfl⟩ | ⟨rfl, rfl⟩ | ⟨rfl, rfl⟩ | ⟨rfl, rfl⟩ := hwait <;>
      simp [awaited, h.unit, regVal, obligingBus, sr1Word_sb, sr1Word_addr, sr1Word_txe, sr1Word_btf]
  refine ⟨_, ?_, hbus.quiet (.readSr1 u _)⟩
  rw [exec_of_awaited (s := seqAt p l (obligingBus u s)) hflag.2, waitUntil_seqAt (r := .i2c u .sr1) hready.clock,
    if_pos hflag.1, phaseOf_seqAt]

/-! ## Segments of the run -/

/-- A request in CR1: one micro-step or two, the bus unit acting before each. -/
theorem runOpWith_msend_request {p : Nat} {f : Word → Word} {k : State → State} {out : List I2cOut} (h : CanSend unit u s) (l : Locals)
    (hread : ∀ t, CanSend unit u t → exec (.i2cMsend unit a) (seqAt p l t) = rmwRead (.i2c u .cr1) f (p + 1) k (seqAt p l t))
    (hwrite : ∀ l t, CanSend unit u t →
      exec (.i2cMsend unit a) (seqAt (p + 1) l t) = rmwWrite (.i2c u .cr1) f k (seqAt (p + 1) l t))
    (hf : ∀ t, CanSend unit u t → BusRel u t (afterWrite (.i2c u .cr1) (f (regVal (.i2c u .cr1) t)) t) out) :
    ∃ q l' t, runOpWith (obligingBus u) (.i2cMsend unit a) (1 + extraStep s) (seqAt p l s) = .next (k (seqAt q l' t)) ∧
      l'.n = l.n ∧ l'.b = l.b ∧ BusRel u s t out := by
  have hbus := BusRel.bus u s
  have hready := h.of_rel hbus
  have hatp := hread _ hready
  rw [rmwRead_eq _ _ _ _ _ (hready.accessible .cr1 p l), regVal_seqAt, seqAt_params, hbus.params] at hatp
  cases hatomic : s.params.rmwAtomic with
  | true =>
    rw [hatomic, if_pos rfl] at hatp
    refine ⟨p, l, _, ?_, rfl, rfl, hbus.trans (hf _ hready)⟩
    rw [extraStep, hatomic]
    refine (runOpWith_succ 0 hatp).trans ?_
    exact congrArg (fun t => Host.Outcome.next (k t)) (afterWrite_seqAt_i2c p l _ u .cr1 _)
  | false =>
    rw [hatomic, if_neg Bool.false_ne_true] at hatp
    let l1 : Locals := { l with v := regVal (.i2c u .cr1) (obligingBus u s) }
    have hkept : exec (.i2cMsend unit a) (seqAt p l (obligingBus u s)) = .next (seqAt (p + 1) l1 (obligingBus u s)) := hatp
    have hbus2 := BusRel.bus u (obligingBus u s)
    have hready2 := hready.of_rel hbus2
    have hatq := hwrite l1 _ hready2
    rw [rmwWrite_eq _ _ _ _ (hready2.accessible .cr1 (p + 1) l1), afterWrite_seqAt_i2c, locals_seqAt] at hatq
    have hval : l1.v = regVal (.i2c u .cr1) (obligingBus u (obligingBus u s)) := hbus2.cr1.symm
    rw [hval] at hatq
    refine ⟨p + 1, l1, _, ?_, rfl, rfl, (hbus.trans hbus2).trans (hf _ hready2)⟩
    rw [extraStep, hatomic]
    exact (runOpWith_bus_succ (n := 1) hkept).trans (runOpWith_succ 0 hatq)

/-- Line 1: START. -/
theorem runOpWith_msend_start (h : CanSend unit u s) (l : Locals) : ∃ l' t,
    runOpWith (obligingBus u) (.i2cMsend unit a) (1 + extraStep s) (seqAt 2 l s) = .next (seqAt 4 l' t) ∧ l'.n = l.n ∧ l'.b = l.b ∧
      BusRel u s t [.start] := by
  obtain ⟨q, l', t, hrun, hn, hb, hrel⟩ := runOpWith_msend_request (a := a) (p := 2) (k := goto 4) h l (fun t ht => exec_msend ht 2 l)
    (fun l t ht => exec_msend ht 3 l) fun t ht => (BusRel.writeCr1 u t ht.start ht.stop).1
  exact ⟨l', t, hrun, hn, hb, hrel⟩

/-- Line 12: STOP, and the end. -/
theorem runOpWith_msend_stop (h : CanSend unit u s) (l : Locals) : ∃ t,
    runOpWith (obligingBus u) (.i2cMsend unit a) (1 + extraStep s) (seqAt 16 l s) = .next (finish t) ∧ BusRel u s t [.stop] := by
  obtain ⟨q, l', t, hrun, -, -, hrel⟩ := runOpWith_msend_request (a := a) (p := 16) (k := finish) h l (fun t ht => exec_msend ht 16 l)
    (fun l t ht => exec_msend ht 17 l) fun t ht => (BusRel.writeCr1 u t ht.start ht.stop).2
  exact ⟨t, hrun, hrel⟩

/-- A write of the data register. -/
theorem exec_msend_write {p q : Nat} {w : Word} (h : CanSend unit u s)
    (hstep : ∀ t, CanSend unit u t → exec (.i2cMsend unit a) (seqAt p l t) =
      writeReg (.i2c u .dr) w (seqAt p l t) fun s1 => .next (goto q s1)) :
    ∃ t, exec (.i2cMsend unit a) (seqAt p l (obligingBus u s)) = .next (seqAt q l t) ∧ BusRel u s t [.byte (w.setWidth 8)] := by
  have hbus := BusRel.bus u s
  have hready := h.of_rel hbus
  refine ⟨_, ?_, hbus.trans (.writeDr u w _)⟩
  rw [hstep _ hready, writeReg_seqAt_i2c hready.clock, goto_seqAt]

/-- A read of a status register. -/
theorem exec_msend_read {p q : Nat} {r : I2cReg} (h : CanSend unit u s)
    (hstep : ∀ t, CanSend unit u t → exec (.i2cMsend unit a) (seqAt p l t) =
      readReg (.i2c u r) (seqAt p l t) fun _ s1 => .next (goto q s1))
    (hr : ∀ t, BusRel u t (afterRead (.i2c u r) t) []) :
    ∃ t, exec (.i2cMsend unit a) (seqAt p l (obligingBus u s)) = .next (seqAt q l t) ∧ BusRel u s t [] := by
  have hbus := BusRel.bus u s
  have hready := h.of_rel hbus
  refine ⟨_, ?_, hbus.quiet (hr _)⟩
  rw [hstep _ hready, readReg_seqAt (r := .i2c u r) hready.clock, goto_seqAt]

/-- Lines 2 to 5: the address byte goes out between two waits, and ADDR is cleared. -/
theorem runOpWith_msend_address (h : CanSend unit u s) (l : Locals) : ∃ t,
    runOpWith (obligingBus u) (.i2cMsend unit a) 5 (seqAt 4 l s) = .next (seqAt 9 l t) ∧
      BusRel u s t [.byte ((addrByte a).setWidth 8)] := by
  obtain ⟨t4, h4, r4⟩ := exec_msend_wait (a := a) h (p := 4) (bit := bitSb) (by simp) l
  obtain ⟨t5, h5, r5⟩ := exec_msend_write (a := a) (p := 5) (q := 6) (l := l) (w := addrByte a) (h.of_rel r4)
    fun t ht => exec_msend ht 5 l
  have c5 := (h.of_rel r4).of_rel r5
  obtain ⟨t6, h6, r6⟩ := exec_msend_wait (a := a) c5 (p := 6) (bit := bitAddr) (by simp) l
  have c6 := c5.of_rel r6
  obtain ⟨t7, h7, r7⟩ := exec_msend_read (a := a) (p := 7) (q := 8) (l := l) c6 (fun t ht => exec_msend ht 7 l) (.readSr1 u)
  obtain ⟨t8, h8, r8⟩ := exec_msend_read (a := a) (p := 8) (q := 9) (l := l) (c6.of_rel r7) (fun t ht => exec_msend ht 8 l)
    (.readSr2 u)
  refine ⟨t8, ?_, (((r4.trans r5).quiet r6).quiet r7).quiet r8⟩
  rw [runOpWith_bus_succ h4, runOpWith_bus_succ h5, runOpWith_bus_succ h6, runOpWith_bus_succ h7, runOpWith_bus_succ h8,
    runOpWith_zero]

/-- Line 6. -/
theorem exec_msend_branch (h : CanSend unit u s) : exec (.i2cMsend unit a) (seqAt 9 l (obligingBus u s)) =
    .next (seqAt (if l.n = 0 then 14 else 10) l (obligingBus u s)) :=
  exec_msend (h.of_rel (.bus u s)) 9 l

/-- Line 8, the load. -/
theorem exec_msend_load (h : CanSend unit u s) (hin : inLaunch s l.b = true) :
    exec (.i2cMsend unit a) (seqAt 11 l s) = .next (seqAt 12 { l with v := frameLow (byteAt s l.b) } s) := by
  have hstep : exec (.i2cMsend unit a) (seqAt 11 l s) = loadByte l.b (seqAt 11 l s) fun x =>
    .next (goto 12 (updLocals (fun l => { l with v := frameLow x }) (seqAt 11 l s))) := exec_msend h 11 l
  rw [hstep, loadByte_eq _ _ _ ((inLaunch_seqAt 11 l s l.b).trans hin), byteAt_seqAt, updLocals_seqAt, goto_seqAt]

/-- Lines 6 to 9: one byte of the buffer. -/
theorem runOpWith_msend_byte (h : CanSend unit u s) (hn : l.n ≠ 0) (hin : inLaunch s l.b = true) : ∃ v t,
    runOpWith (obligingBus u) (.i2cMsend unit a) 5 (seqAt 9 l s) =
      .next (seqAt 9 { l with v := v, n := l.n - 1, b := l.b + 1 } t) ∧ BusRel u s t [.byte (byteAt s l.b)] := by
  have r9 := BusRel.bus u s
  have c9 := h.of_rel r9
  have h9 := exec_msend_branch (a := a) (l := l) h
  rw [if_neg hn] at h9
  obtain ⟨t10, h10, r10⟩ := exec_msend_wait (a := a) c9 (p := 10) (bit := bitI2cTxe) (by simp) l
  have c10 := c9.of_rel r10
  have r11 := BusRel.bus u t10
  have c11 := c10.of_rel r11
  have rload : BusRel u s (obligingBus u t10) [] := (r9.quiet r10).quiet r11
  have h11 := exec_msend_load (a := a) (l := l) c11 ((rload.inLaunch l.b).trans hin)
  rw [rload.byteAt] at h11
  obtain ⟨t12, h12, r12⟩ := exec_msend_write (a := a) (p := 12) (q := 13) (l := { l with v := frameLow (byteAt s l.b) })
    (w := frameLow (byteAt s l.b)) c11 fun t ht => exec_msend ht 12 _
  have hbyte : (frameLow (byteAt s l.b)).setWidth 8 = byteAt s l.b := by
    simp [frameLow]
  rw [hbyte] at r12
  have c12 := (c11.of_rel r12).of_rel (.bus u t12)
  have h13 : exec (.i2cMsend unit a) (seqAt 13 { l with v := frameLow (byteAt s l.b) } (obligingBus u t12)) =
      .next (seqAt 9 { l with v := frameLow (byteAt s l.b), n := l.n - 1, b := l.b + 1 } (obligingBus u t12)) := exec_msend c12 13 _
  refine ⟨frameLow (byteAt s l.b), _, ?_, (rload.trans r12).quiet (.bus u t12)⟩
  rw [runOpWith_bus_succ h9, runOpWith_bus_succ h10, runOpWith_bus_succ h11, runOpWith_bus_succ h12, runOpWith_bus_succ h13,
    runOpWith_zero]

theorem bytesAt_congr {t : State} (h : ∀ a, byteAt t a = byteAt s a) (b : Word) (m : Nat) : bytesAt t b m = bytesAt s b m := by
  induction m generalizing b with
  | zero => rfl
  | succ m ih => rw [bytesAt, bytesAt, h, ih]

/-- All bytes of the buffer, by induction on those left. -/
theorem runOpWith_msend_bytes {m : Nat} (h : CanSend unit u s) (hm : l.n.toNat = m) (hbuf : BufferAt s l.b m) : ∃ l' t,
    runOpWith (obligingBus u) (.i2cMsend unit a) (5 * m) (seqAt 9 l s) = .next (seqAt 9 l' t) ∧ l'.n = 0 ∧
      BusRel u s t ((bytesAt s l.b m).map .byte) := by
  induction m generalizing l s with
  | zero => exact ⟨l, s, rfl, BitVec.eq_of_toNat_eq hm, .refl u s⟩
  | succ m ih =>
    have hne : l.n ≠ 0 := fun hzero => by simp [hzero] at hm
    obtain ⟨v, t, hbyte, hrel⟩ := runOpWith_msend_byte (a := a) h hne (hbuf.first (Nat.succ_pos m))
    have hrest : BufferAt t (l.b + 1) m := by
      rw [Nat.add_comm] at hbuf
      exact (hbuf.advance (w := 1)).congr hrel.params
    have hleft : (l.n - 1).toNat = m := by
      rw [BitVec.toNat_sub, show (1 : Word).toNat = 1 from rfl]
      omega
    obtain ⟨l', t', hrun, hn', hrel'⟩ := ih (l := { l with v := v, n := l.n - 1, b := l.b + 1 }) (h.of_rel hrel) hleft hrest
    have hbytes : bytesAt t (l.b + 1) m = bytesAt s (l.b + 1) m := bytesAt_congr hrel.byteAt _ _
    refine ⟨l', t', ?_, hn', ?_⟩
    · rw [show 5 * (m + 1) = 5 + 5 * m by ring, runOpWith_add _ _ hbyte]
      exact hrun
    · have := hrel.trans hrel'
      rwa [hbytes] at this

/-- Lines 10 and 11: the last waits. -/
theorem runOpWith_msend_drain (h : CanSend unit u s) (hn : l.n = 0) : ∃ t,
    runOpWith (obligingBus u) (.i2cMsend unit a) 3 (seqAt 9 l s) = .next (seqAt 16 l t) ∧ BusRel u s t [] := by
  have r9 := BusRel.bus u s
  have c9 := h.of_rel r9
  have h9 := exec_msend_branch (a := a) (l := l) h
  rw [if_pos hn] at h9
  obtain ⟨t14, h14, r14⟩ := exec_msend_wait (a := a) c9 (p := 14) (bit := bitI2cTxe) (by simp) l
  obtain ⟨t15, h15, r15⟩ := exec_msend_wait (a := a) (c9.of_rel r14) (p := 15) (bit := bitBtf) (by simp) l
  refine ⟨_, ?_, (r9.quiet r14).quiet r15⟩
  rw [runOpWith_bus_succ h9, runOpWith_bus_succ h14, runOpWith_bus_succ h15, runOpWith_zero]

/-! ## The whole run -/

/-- Line 0, the cursor: the buffer is checked (44 R211, log 40). -/
theorem exec_msend_first (hu : i2cOf s.params unit = some u) (h0 : phaseOf s = 0) : exec (.i2cMsend unit a) s =
    if admittedBuffer s s.ctx.arg0 s.ctx.arg1 then .next (goto 1 (updLocals (fun l => { l with b := s.ctx.arg0 }) s))
    else .refused .badAddress := by
  rw [exec_i2cMsend_eq a hu]
  simp only [msendStep, h0, admitSend]

/-- Every phase with a register access. -/
theorem exec_msend_clockOff (hu : i2cOf s.params unit = some u) (hoff : clkOn s (.i2c u) = false)
    (hp : phaseOf s ∈ [2, 3, 4, 5, 6, 7, 8, 10, 12, 14, 15, 16, 17]) : exec (.i2cMsend unit a) s = .refused .clockOff := by
  have hacc (x : I2cReg) : accessible s (.i2c u x) = false := hoff
  rw [exec_i2cMsend_eq a hu]
  simp only [List.mem_cons, List.not_mem_nil, or_false] at hp
  obtain h | h | h | h | h | h | h | h | h | h | h | h | h := hp <;>
    simp only [msendStep, h, rmwRead, rmwWrite, waitUntil_def, readReg_refused _ _ _ (hacc _), writeReg_refused _ _ _ _ (hacc _)]

/-- Line 0. -/
theorem runOpWith_msend_operands (h : CanSend unit u s) (hadm : admittedBuffer s s.ctx.arg0 s.ctx.arg1 = true) (l : Locals) : ∃ t,
    runOpWith (obligingBus u) (.i2cMsend unit a) 2 (seqAt 0 l s) =
      .next (seqAt 2 { l with b := s.ctx.arg0, n := s.ctx.arg1 } t) ∧ BusRel u s t [] := by
  have r0 := BusRel.bus u s
  have r1 := BusRel.bus u (obligingBus u s)
  have h0 : exec (.i2cMsend unit a) (seqAt 0 l (obligingBus u s)) =
      .next (seqAt 1 { l with b := s.ctx.arg0 } (obligingBus u s)) := by
    rw [exec_msend_first (s := seqAt 0 l (obligingBus u s)) h.unit rfl]
    exact if_pos hadm
  have h1 : exec (.i2cMsend unit a) (seqAt 1 { l with b := s.ctx.arg0 } (obligingBus u (obligingBus u s))) =
      .next (seqAt 2 { l with b := s.ctx.arg0, n := s.ctx.arg1 } (obligingBus u (obligingBus u s))) :=
    exec_msend ((h.of_rel r0).of_rel r1) 1 _
  refine ⟨_, ?_, r0.quiet r1⟩
  rw [runOpWith_bus_succ h0, runOpWith_bus_succ h1, runOpWith_zero]

/-- From the first micro-step to the last. -/
theorem runOpWith_msend (h : CanSend unit u s) (hadm : admittedBuffer s s.ctx.arg0 s.ctx.arg1 = true) (l : Locals) : ∃ t,
    runOpWith (obligingBus u) (.i2cMsend unit a) (12 + 5 * s.ctx.arg1.toNat + 2 * extraStep s) (seqAt 0 l s) = .next (finish t) ∧
      BusRel u s t (.start :: .byte ((addrByte a).setWidth 8) ::
        ((bytesAt s s.ctx.arg0 s.ctx.arg1.toNat).map .byte ++ [.stop])) := by
  obtain ⟨t0, h0, r0⟩ := runOpWith_msend_operands (a := a) h hadm l
  have c0 := h.of_rel r0
  obtain ⟨l1, t1, h1, hn1, hb1, r1⟩ := runOpWith_msend_start (a := a) c0 { l with b := s.ctx.arg0, n := s.ctx.arg1 }
  have c1 := c0.of_rel r1
  have q1 := r0.trans r1
  obtain ⟨t2, h2, r2⟩ := runOpWith_msend_address (a := a) c1 l1
  have c2 := c1.of_rel r2
  have q2 := q1.trans r2
  have hbuf : BufferAt t2 l1.b s.ctx.arg1.toNat := by
    rw [hb1]
    exact (bufferAt_of_admitted hadm).congr q2.params
  obtain ⟨l3, t3, h3, hn3, r3⟩ := runOpWith_msend_bytes (a := a) c2 (congrArg BitVec.toNat hn1) hbuf
  have c3 := c2.of_rel r3
  have q3 := q2.trans r3
  obtain ⟨t4, h4, r4⟩ := runOpWith_msend_drain (a := a) c3 hn3
  have q4 := q3.trans r4
  obtain ⟨t5, h5, r5⟩ := runOpWith_msend_stop (a := a) (c3.of_rel r4) l3
  refine ⟨t5, ?_, ?_⟩
  · have hsteps : 12 + 5 * s.ctx.arg1.toNat + 2 * extraStep s =
        2 + ((1 + extraStep t0) + (5 + (5 * s.ctx.arg1.toNat + (3 + (1 + extraStep t4))))) := by
      rw [r0.extraStep, q4.extraStep]
      omega
    rw [hsteps, runOpWith_add _ _ h0, runOpWith_add _ _ h1, runOpWith_add _ _ h2, runOpWith_add _ _ h3, runOpWith_add _ _ h4, h5]
  · have hout := q4.trans r5
    rw [hb1, bytesAt_congr q2.byteAt] at hout
    simpa using hout

end

/-- Settles O49: the operand, the admission and the clock decide the refusals; on a bus that never holds it up the run is put together
from its lines. -/
theorem masterSendProtocol : Obligations.MasterSendProtocol := by
  refine ⟨fun unit a s hu => ?_, fun unit u a s hu => ⟨fun h0 _ hadm => ?_, fun h0 hadm => ⟨?_, fun hoff => ?_⟩,
    fun hp hoff => exec_msend_clockOff hu hoff hp, fun h0 hon hadm hstart hstop => ?_⟩⟩
  · change withI2c s unit _ = _
    rw [withI2c, hu]
  · rw [exec_msend_first hu h0, hadm]
    rfl
  · rw [exec_msend_first hu h0, if_pos (hadm.elim (fun h => by simp [admittedBuffer, h]) id)]
  · have hadm' : admittedBuffer s s.ctx.arg0 s.ctx.arg1 = true := hadm.elim (fun h => by simp [admittedBuffer, h]) id
    have hfirst := (exec_msend_first (a := a) hu h0).trans (if_pos hadm')
    have hsecond : exec (.i2cMsend unit a) (goto 1 (updLocals (fun l => { l with b := s.ctx.arg0 }) s)) =
        .next (goto 2 (updLocals (fun l => { l with b := s.ctx.arg0, n := s.ctx.arg1 }) s)) :=
      exec_i2cMsend_eq (s := goto 1 (updLocals (fun l => { l with b := s.ctx.arg0 }) s)) a hu
    have hthird := exec_msend_clockOff (a := a) (s := goto 2 (updLocals (fun l => { l with b := s.ctx.arg0, n := s.ctx.arg1 }) s))
      hu hoff (by simp)
    rw [runOp_succ 2 hfirst, runOp_succ 1 hsecond, runOp, hthird]
  · obtain ⟨t, hrun, hrel⟩ := runOpWith_msend (a := a) ⟨hu, hon, hstart, hstop⟩ hadm (locals s)
    have hself : seqAt 0 (locals s) s = s := h0 ▸ seqAt_self s
    rw [hself, show 12 + 5 * s.ctx.arg1.toNat + 2 * extraStep s = 11 + 5 * s.ctx.arg1.toNat + 2 * extraStep s + 1 by omega,
      runOpWith_succ_eq_next] at hrun
    obtain ⟨s1, hfirst, hrest⟩ := hrun
    refine ⟨s1, finish t, hfirst, hrest, ?_, ?_, hrel.regs⟩
    · rw [finish_i2cOut, hrel.output]
      simp
    · have hframe := hrel.frame
      rw [hframe]
      rfl

end Sys2Proof.Machine

namespace Sys2Proof.Machine

/-! # The blocking loops, micro-step by micro-step (40 R133, R134) -/

section

variable {d : Dir} {unit : BitVec 4} {i : SpiId} {l : Locals} {s : State} {w : Word}

theorem exec_blocking {p : Nat} (hi : spiOf unit = some i) (hp : p < 6 ∨ 8 < p) :
    exec (blockingOf d unit) (seqAt p l s) = blockingStep d i (seqAt p l s) :=
  exec_blockingOf hi hp

/-- Line 0, the length. -/
theorem exec_blocking_length (hi : spiOf unit = some i) :
    exec (blockingOf d unit) (seqAt 1 l s) = .next (seqAt 2 { l with n := s.ctx.arg1 } s) :=
  exec_blocking hi (by decide)

/-- Line 1. -/
theorem exec_blocking_loop (hi : spiOf unit = some i) :
    exec (blockingOf d unit) (seqAt 2 l s) = .next (if l.n = 0 then finish s else seqAt 3 l s) :=
  exec_blocking hi (by decide)

/-- Line 2, the flag being 1. -/
theorem exec_blocking_wait (hi : spiOf unit = some i) (hon : clkOn s (.spi i) = true)
    (hflag : (regVal (.spi i .sr) s).getLsbD (flagBit d) = true) :
    exec (blockingOf d unit) (seqAt 3 l s) = .next (seqAt 4 l (readSr i false s)) := by
  refine (exec_blocking hi (by decide)).trans ((waitUntil_seqAt (r := .spi i .sr) hon (flagBit d) 4 3 l).trans ?_)
  rw [if_pos hflag, afterRead_spi_sr]

/-- Line 3. -/
theorem exec_blocking_width (hi : spiOf unit = some i) (hon : clkOn s (.spi i) = true) (hw : w = frameWidth (regVal (.spi i .cr1) s)) :
    exec (blockingOf d unit) (seqAt 4 l s) = .next (seqAt 5 { l with w := w } s) := by
  have hstep : exec (blockingOf d unit) (seqAt 4 l s) = readReg (.spi i .cr1) (seqAt 4 l s) fun v s1 =>
    .next (goto 5 (updLocals (fun l => { l with w := frameWidth v }) s1)) := exec_blocking hi (by decide)
  rw [hstep, readReg_seqAt (r := .spi i .cr1) hon, afterRead_spi_cr1, updLocals_seqAt, goto_seqAt, hw]

/-- Line 4, a whole frame being left. -/
theorem exec_blocking_whole (hi : spiOf unit = some i) (h : l.w.toNat ≤ l.n.toNat) :
    exec (blockingOf d unit) (seqAt 5 l s) = .next (seqAt 6 l s) := by
  rw [exec_blocking_remainder hi rfl, locals_seqAt, if_neg (Nat.not_lt.2 h), goto_seqAt]

/-- Line 7. -/
theorem exec_blocking_advance (hi : spiOf unit = some i) :
    exec (blockingOf d unit) (seqAt 9 l s) = .next (seqAt 10 { l with n := l.n - l.w, b := l.b + l.w } s) :=
  exec_blocking hi (by decide)

/-- Line 8. -/
theorem exec_blocking_back (hi : spiOf unit = some i) : exec (blockingOf d unit) (seqAt 10 l s) = .next (seqAt 2 l s) :=
  exec_blocking hi (by decide)

theorem exec_send (hi : spiOf unit = some i) (s : State) : exec (.spiSend unit) s = sendStep i s :=
  withSpi_eq (fun i => sendStep i s) hi

theorem exec_recv (hi : spiOf unit = some i) (s : State) : exec (.spiRecv unit) s = recvStep i s :=
  withSpi_eq (fun i => recvStep i s) hi

/-- A micro-step of a run with an environment that leaves the sequencer alone. -/
theorem runOpWith_env_succ {env : State → State} {j : Instr} {p q n : Nat} {l' : Locals} {s' t : State}
    (henv : env (seqAt p l s) = seqAt p l s') (h : exec j (seqAt p l s') = .next (seqAt q l' t)) :
    runOpWith env j (n + 1) (seqAt p l s) = runOpWith env j n (seqAt q l' t) := by
  rw [← henv] at h
  exact runOpWith_succ n h

end

end Sys2Proof.Machine

namespace Sys2Proof.Machine

/-! # SPI_SEND with a shift unit that never holds it up -/

/-- From `s` to `t`, on SPI unit `i`: the output history has grown by `out`, and nothing else has changed but the unit's TXE, transmit
latch, OVR and overrun arm, and the draw counter; OVR is not set, and kept where its clear sequence was not armed. -/
structure SendRel (i : SpiId) (s t : State) (out : List Half) : Prop where
  frame : t = { s with spi := t.spi, spiOut := t.spiOut, draws := t.draws }
  regs : t.spi = s.spi.set i { s.spi.get i with
    txe := (t.spi.get i).txe, txd := (t.spi.get i).txd, ovr := (t.spi.get i).ovr, ovrArm := (t.spi.get i).ovrArm }
  output : t.spiOut = s.spiOut ++ out.map (i, ·)
  ovr : (t.spi.get i).ovr = true → (s.spi.get i).ovr = true
  unarmed : (s.spi.get i).ovrArm = false → (t.spi.get i).ovrArm = false ∧ (t.spi.get i).ovr = (s.spi.get i).ovr

namespace SendRel

variable {i : SpiId} {s t v : State} {out out' : List Half}

theorem trans (h : SendRel i s t out) (h' : SendRel i t v out') : SendRel i s v (out ++ out') := by
  refine ⟨?_, ?_, ?_, h.ovr ∘ h'.ovr, fun harm => ?_⟩
  · rw [h'.frame, h.frame]
  · rw [h'.regs, h.regs]
    simp
  · rw [h'.output, h.output, List.map_append, List.append_assoc]
  · obtain ⟨harm', hovr⟩ := h.unarmed harm
    obtain ⟨harm'', hovr'⟩ := h'.unarmed harm'
    exact ⟨harm'', hovr'.trans hovr⟩

/-- A step that puts nothing out, after one that puts `out` out. -/
theorem quiet (h : SendRel i s t out) (h' : SendRel i t v []) : SendRel i s v out := by
  simpa using h.trans h'

theorem refl (i : SpiId) (s : State) : SendRel i s s [] :=
  ⟨rfl, (PerSpi.set_get _ _).symm, by simp, id, fun h => ⟨h, rfl⟩⟩

theorem txEmpty (i : SpiId) (s : State) : SendRel i s (envTxEmpty i s) [] := by
  refine ⟨rfl, ?_, by simp [envTxEmpty], ?_, ?_⟩ <;> simp [envTxEmpty]

theorem readSr (i : SpiId) (s : State) : SendRel i s (readSr i false s) [] := by
  refine ⟨rfl, ?_, by simp [Machine.readSr], ovr_of_readSr_ovr, fun harm => ?_⟩
  · simp [Machine.readSr, afterSrRead]
  · rw [readSr_of_unarmed harm]
    exact ⟨harm, rfl⟩

theorem frameSent (i : SpiId) (v : Word) (s : State) : SendRel i s (frameSent i v s) [v.setWidth 16] := by
  refine ⟨rfl, ?_, rfl, ?_, ?_⟩ <;> simp [Machine.frameSent, afterWrite, writeDr, writeSpi]

theorem params (h : SendRel i s t out) : t.params = s.params := by rw [h.frame]

theorem ctx (h : SendRel i s t out) : t.ctx = s.ctx := by rw [h.frame]

theorem clkOn (h : SendRel i s t out) (p : Peripheral) : clkOn t p = clkOn s p := by rw [h.frame]; rfl

theorem mem (h : SendRel i s t out) : t.mem = s.mem := by rw [h.frame]

theorem inLaunch (h : SendRel i s t out) (a : Word) : inLaunch t a = inLaunch s a := by rw [h.frame]; rfl

theorem byteAt (h : SendRel i s t out) (a : Word) : byteAt t a = byteAt s a := by rw [h.frame]; rfl

theorem cr1 (h : SendRel i s t out) : regVal (.spi i .cr1) t = regVal (.spi i .cr1) s := by
  rw [regVal, h.regs, PerSpi.get_set_self, regVal]

end SendRel

section

variable {unit : BitVec 4} {i : SpiId} {l : Locals} {s : State} {w : Word}

theorem ovrArm_frameSent (v : Word) : ((frameSent i v s).spi.get i).ovrArm = false := by
  simp [frameSent, afterWrite, writeDr, writeSpi]

end

end Sys2Proof.Machine

namespace Sys2Proof.Machine

section

variable {unit : BitVec 4} {i : SpiId} {l : Locals} {s : State} {w : Word}

/-! ## One frame -/

/-- The shift unit acts before a micro-step of SPI_SEND. -/
theorem runOpWith_send_succ {j : Instr} {p q n : Nat} {l' : Locals} {t : State}
    (h : exec j (seqAt p l (envTxEmpty i s)) = .next (seqAt q l' t)) :
    runOpWith (envTxEmpty i) j (n + 1) (seqAt p l s) = runOpWith (envTxEmpty i) j n (seqAt q l' t) :=
  runOpWith_env_succ rfl h

/-- A micro-step that only moves the sequencer. -/
theorem exec_send_local {p q : Nat} {l' : Locals}
    (h : ∀ t, SendRel i s t [] → exec (.spiSend unit) (seqAt p l t) = .next (seqAt q l' t)) :
    ∃ t, exec (.spiSend unit) (seqAt p l (envTxEmpty i s)) = .next (seqAt q l' t) ∧ SendRel i s t [] :=
  ⟨_, h _ (.txEmpty i s), .txEmpty i s⟩

/-- Line 2: TXE has just been set. -/
theorem exec_send_wait (hi : spiOf unit = some i) (hon : clkOn s (.spi i) = true) (l : Locals) : ∃ t,
    exec (.spiSend unit) (seqAt 3 l (envTxEmpty i s)) = .next (seqAt 4 l t) ∧ SendRel i s t [] := by
  have hflag : (regVal (.spi i .sr) (envTxEmpty i s)).getLsbD (flagBit .tx) = true := by
    rw [regVal, flagBit, srWord_txe]
    simp [envTxEmpty]
  exact ⟨_, exec_blocking_wait (d := .tx) hi hon hflag, (SendRel.txEmpty i s).quiet (.readSr i _)⟩

/-- Lines 1 to 4. -/
theorem runOpWith_send_enter (hi : spiOf unit = some i) (hon : clkOn s (.spi i) = true) (hw : w = frameWidth (regVal (.spi i .cr1) s))
    (hn : l.n ≠ 0) (hlen : w.toNat ≤ l.n.toNat) : ∃ t,
    runOpWith (envTxEmpty i) (.spiSend unit) 4 (seqAt 2 l s) = .next (seqAt 6 { l with w := w } t) ∧ SendRel i s t [] := by
  obtain ⟨t2, h2, r2⟩ := exec_send_local (unit := unit) (i := i) (s := s) (p := 2) (l := l) (q := 3) (l' := l) fun t _ =>
    (exec_blocking_loop (d := .tx) hi).trans (congrArg _ (if_neg hn))
  obtain ⟨t3, h3, r3⟩ := exec_send_wait hi ((r2.clkOn _).trans hon) l
  have q3 := r2.quiet r3
  obtain ⟨t4, h4, r4⟩ := exec_send_local (unit := unit) (i := i) (s := t3) (p := 4) (l := l) (q := 5) (l' := { l with w := w })
    fun t r => exec_blocking_width (d := .tx) hi (((q3.quiet r).clkOn _).trans hon) (hw.trans (congrArg _ (q3.quiet r).cr1.symm))
  obtain ⟨t5, h5, r5⟩ := exec_send_local (unit := unit) (i := i) (s := t4) (p := 5) (l := { l with w := w }) (q := 6)
    (l' := { l with w := w }) fun t _ => exec_blocking_whole (d := .tx) (l := { l with w := w }) hi hlen
  refine ⟨t5, ?_, (q3.quiet r4).quiet r5⟩
  rw [runOpWith_send_succ h2, runOpWith_send_succ h3, runOpWith_send_succ h4, runOpWith_send_succ h5, runOpWith_zero]

/-- Line 5, the byte at the cursor. -/
theorem exec_send_low (hi : spiOf unit = some i) (hin : inLaunch s l.b = true) : exec (.spiSend unit) (seqAt 6 l s) =
    .next (seqAt (if l.w = 2 then 7 else 8) { l with v := frameLow (byteAt s l.b) } s) := by
  have hstep : exec (.spiSend unit) (seqAt 6 l s) = loadByte l.b (seqAt 6 l s) fun x =>
    .next (goto (if l.w = 2 then 7 else 8) (updLocals (fun l => { l with v := frameLow x }) (seqAt 6 l s))) := exec_send hi _
  rw [hstep, loadByte_eq _ _ _ ((inLaunch_seqAt 6 l s l.b).trans hin), byteAt_seqAt, updLocals_seqAt, goto_seqAt]

/-- Line 5, the second byte of a wide frame. -/
theorem exec_send_high (hi : spiOf unit = some i) (hin : inLaunch s (l.b + 1) = true) : exec (.spiSend unit) (seqAt 7 l s) =
    .next (seqAt 8 { l with v := frameHigh l.v (byteAt s (l.b + 1)) } s) := by
  have hstep : exec (.spiSend unit) (seqAt 7 l s) = loadByte (l.b + 1) (seqAt 7 l s) fun x =>
    .next (goto 8 (updLocals (fun l => { l with v := frameHigh l.v x }) (seqAt 7 l s))) := exec_send hi _
  rw [hstep, loadByte_eq _ _ _ ((inLaunch_seqAt 7 l s (l.b + 1)).trans hin), byteAt_seqAt, updLocals_seqAt, goto_seqAt]

/-- Line 5: the frame at the cursor is loaded. -/
theorem runOpWith_send_load (hi : spiOf unit = some i) (hw : l.w = 1 ∨ l.w = 2) (hlow : inLaunch s l.b = true)
    (hhigh : l.w = 2 → inLaunch s (l.b + 1) = true) : ∃ t,
    runOpWith (envTxEmpty i) (.spiSend unit) l.w.toNat (seqAt 6 l s) = .next (seqAt 8 { l with v := frameAt s l.b l.w } t) ∧
      SendRel i s t [] := by
  obtain ⟨t6, h6, r6⟩ := exec_send_local (unit := unit) (i := i) (s := s) (p := 6) (l := l)
    (q := if l.w = 2 then 7 else 8) (l' := { l with v := frameLow (byteAt s l.b) }) fun t r => by
      rw [exec_send_low hi ((r.inLaunch _).trans hlow), r.byteAt]
  obtain h1 | h2 := hw
  · have hne : l.w ≠ 2 := by rw [h1]; decide
    rw [if_neg hne] at h6
    refine ⟨t6, ?_, r6⟩
    rw [frameAt, if_neg hne, show l.w.toNat = 0 + 1 by rw [h1]; rfl, runOpWith_send_succ h6, runOpWith_zero]
  · rw [if_pos h2] at h6
    obtain ⟨t7, h7, r7⟩ := exec_send_local (unit := unit) (i := i) (s := t6) (p := 7)
      (l := { l with v := frameLow (byteAt s l.b) }) (q := 8)
      (l' := { l with v := frameHigh (frameLow (byteAt s l.b)) (byteAt s (l.b + 1)) }) fun t r => by
        rw [exec_send_high (l := { l with v := frameLow (byteAt s l.b) }) hi (((r6.quiet r).inLaunch _).trans (hhigh h2)),
          (r6.quiet r).byteAt]
    refine ⟨t7, ?_, r6.quiet r7⟩
    rw [frameAt, if_pos h2, show l.w.toNat = 0 + 1 + 1 by rw [h2]; rfl, runOpWith_send_succ h6, runOpWith_send_succ h7,
      runOpWith_zero]

/-- Lines 6 to 8: the frame is written, and the cursor and the length move on. -/
theorem runOpWith_send_write (hi : spiOf unit = some i) (hon : clkOn s (.spi i) = true) (l : Locals) : ∃ t,
    runOpWith (envTxEmpty i) (.spiSend unit) 3 (seqAt 8 l s) = .next (seqAt 2 { l with n := l.n - l.w, b := l.b + l.w } t) ∧
      SendRel i s t [l.v.setWidth 16] ∧ (t.spi.get i).ovrArm = false := by
  have r := SendRel.txEmpty i s
  have h8 : exec (.spiSend unit) (seqAt 8 l (envTxEmpty i s)) = .next (seqAt 9 l (frameSent i l.v (envTxEmpty i s))) := by
    have hstep : exec (.spiSend unit) (seqAt 8 l (envTxEmpty i s)) =
      writeReg (.spi i .dr) l.v (seqAt 8 l (envTxEmpty i s)) fun s1 => .next (goto 9 s1) := exec_send hi _
    rw [hstep, writeReg_seqAt_spi (s := envTxEmpty i s) hon, goto_seqAt, frameSent]
  have r8 := r.trans (.frameSent i l.v (envTxEmpty i s))
  obtain ⟨t9, h9, r9⟩ := exec_send_local (unit := unit) (i := i) (s := frameSent i l.v (envTxEmpty i s)) (p := 9) (l := l) (q := 10)
    (l' := { l with n := l.n - l.w, b := l.b + l.w }) fun t _ => exec_blocking_advance (d := .tx) hi
  obtain ⟨t10, h10, r10⟩ := exec_send_local (unit := unit) (i := i) (s := t9) (p := 10)
    (l := { l with n := l.n - l.w, b := l.b + l.w }) (q := 2) (l' := { l with n := l.n - l.w, b := l.b + l.w }) fun t _ =>
      exec_blocking_back (d := .tx) hi
  refine ⟨t10, ?_, (r8.quiet r9).quiet r10, ?_⟩
  · rw [runOpWith_send_succ h8, runOpWith_send_succ h9, runOpWith_send_succ h10, runOpWith_zero]
  · exact ((r9.quiet r10).unarmed (ovrArm_frameSent _)).1

/-- One turn of the loop. -/
theorem runOpWith_send_frame (hi : spiOf unit = some i) (hon : clkOn s (.spi i) = true) (hw : w = frameWidth (regVal (.spi i .cr1) s))
    {m : Nat} (hm : l.n.toNat = (m + 1) * w.toNat) (hbuf : BufferAt s l.b ((m + 1) * w.toNat)) : ∃ l' t,
    runOpWith (envTxEmpty i) (.spiSend unit) (7 + w.toNat) (seqAt 2 l s) = .next (seqAt 2 l' t) ∧ l'.n.toNat = m * w.toNat ∧
      l'.b = l.b + w ∧ SendRel i s t [(frameAt s l.b w).setWidth 16] ∧ (t.spi.get i).ovrArm = false := by
  have hwidth : w = 1 ∨ w = 2 := hw ▸ frameWidth_eq _
  have hbound := frameWidth_toNat_bounds (regVal (.spi i .cr1) s)
  rw [← hw] at hbound
  have hsplit : (m + 1) * w.toNat = w.toNat + m * w.toNat := by ring
  rw [hsplit] at hm hbuf
  have hn : l.n ≠ 0 := fun hzero => by
    rw [hzero, show (0 : Word).toNat = 0 from rfl] at hm
    omega
  obtain ⟨t6, h6, r6⟩ := runOpWith_send_enter hi hon hw hn (by omega)
  obtain ⟨t8, h8, r8⟩ := runOpWith_send_load (l := { l with w := w }) (s := t6) hi hwidth
    ((r6.inLaunch _).trans (hbuf.first (by omega))) fun h2 => (r6.inLaunch _).trans (hbuf.second (by
      have : w.toNat = 2 := congrArg BitVec.toNat h2
      omega))
  have q8 := r6.quiet r8
  obtain ⟨t, h, r, harm⟩ := runOpWith_send_write (s := t8) hi ((q8.clkOn _).trans hon)
    { l with w := w, v := frameAt t6 l.b w }
  refine ⟨{ l with w := w, v := frameAt t6 l.b w, n := l.n - w, b := l.b + w }, t, ?_, ?_, rfl, ?_, harm⟩
  · rw [show 7 + w.toNat = 4 + (w.toNat + 3) by omega, runOpWith_add _ _ h6]
    exact (runOpWith_add _ _ h8).trans h
  · rw [BitVec.toNat_sub]
    omega
  · have hrel := q8.trans r
    rw [frameAt_congr r6.mem] at hrel
    exact hrel

/-! ## All frames -/

/-- The loop, by induction on the frames left. -/
theorem runOpWith_send_frames {m : Nat} (hi : spiOf unit = some i) (hon : m ≠ 0 → clkOn s (.spi i) = true)
    (hw : w = frameWidth (regVal (.spi i .cr1) s)) (hm : l.n.toNat = m * w.toNat) (hbuf : BufferAt s l.b (m * w.toNat)) : ∃ l' t,
    runOpWith (envTxEmpty i) (.spiSend unit) ((7 + w.toNat) * m) (seqAt 2 l s) = .next (seqAt 2 l' t) ∧ l'.n = 0 ∧
      SendRel i s t (framesAt s l.b w m) ∧ (m ≠ 0 → (t.spi.get i).ovrArm = false) ∧ (m = 0 → t = s) := by
  induction m generalizing l s with
  | zero =>
    refine ⟨l, s, rfl, BitVec.eq_of_toNat_eq (hm.trans (Nat.zero_mul _)), .refl i s, fun h => absurd rfl h, fun _ => rfl⟩
  | succ m ih =>
    have hon1 := hon (Nat.succ_ne_zero m)
    obtain ⟨l1, t1, h1, hn1, hb1, r1, harm1⟩ := runOpWith_send_frame hi hon1 hw hm hbuf
    have hrest : BufferAt t1 l1.b (m * w.toNat) := by
      rw [hb1]
      rw [show (m + 1) * w.toNat = w.toNat + m * w.toNat by ring] at hbuf
      exact hbuf.advance.congr r1.params
    obtain ⟨l2, t2, h2, hn2, r2, -, -⟩ := ih (fun _ => (r1.clkOn _).trans hon1) (hw.trans (congrArg _ r1.cr1.symm)) hn1 hrest
    rw [hb1, framesAt_congr r1.mem] at r2
    refine ⟨l2, t2, ?_, hn2, r1.trans r2, fun _ => (r2.unarmed harm1).1, fun h => absurd h (Nat.succ_ne_zero m)⟩
    rw [show (7 + w.toNat) * (m + 1) = (7 + w.toNat) + (7 + w.toNat) * m by ring, runOpWith_add _ _ h1, h2]

/-! ## The whole call -/

/-- The first micro-step of an admitted call. -/
theorem exec_blocking_admitted {d : Dir} (hi : spiOf unit = some i) (h0 : phaseOf s = 0)
    (hw : w = frameWidth (regVal (.spi i .cr1) s)) (hframes : s.ctx.arg1.toNat % w.toNat = 0)
    (hadm : admittedBuffer s s.ctx.arg0 s.ctx.arg1 = true) (hon : s.ctx.arg1 ≠ 0 → clkOn s (.spi i) = true) :
    exec (blockingOf d unit) s = .next (cursorSet s) := by
  rw [exec_blocking_first hi h0]
  by_cases hn : s.ctx.arg1 = 0
  · exact admitBlocking_zero hn
  · rw [admitBlocking_of_clockOn hn (hon hn), ← hw, if_pos hframes, if_pos hadm]

/-- A length that is a number of frames. -/
theorem length_eq_frames {n w : Word} (h : n.toNat % w.toNat = 0) :
    n.toNat = n.toNat / w.toNat * w.toNat ∧ (n.toNat / w.toNat = 0 ↔ n = 0) := by
  have hmul := Nat.div_mul_cancel (Nat.dvd_of_mod_eq_zero h)
  refine ⟨hmul.symm, fun hzero => BitVec.eq_of_toNat_eq ?_, fun hzero => by simp [hzero]⟩
  rw [hzero, Nat.zero_mul] at hmul
  exact hmul.symm

end

/-- Settles O20: the admission, the loop by induction on the frames, and the end. -/
theorem blockingSendWritesTheWholeBuffer : Obligations.BlockingSendWritesTheWholeBuffer := by
  intro unit i s w hi h0 hw hframes hadm hon
  obtain ⟨hlen, hzero⟩ := length_eq_frames hframes
  have r0 := SendRel.txEmpty i s
  have hfirst : exec (.spiSend unit) (envTxEmpty i s) = .next (cursorSet (envTxEmpty i s)) :=
    exec_blocking_admitted (d := .tx) hi h0 (hw.trans (congrArg _ r0.cr1.symm)) hframes hadm hon
  let l1 : Locals := { locals s with b := s.ctx.arg0 }
  let l2 : Locals := { l1 with n := s.ctx.arg1 }
  have hcursor : cursorSet (envTxEmpty i s) = seqAt 1 l1 (envTxEmpty i s) := rfl
  obtain ⟨t1, h1, r1⟩ : ∃ t, exec (.spiSend unit) (seqAt 1 l1 (envTxEmpty i (envTxEmpty i s))) = .next (seqAt 2 l2 t) ∧
      t = envTxEmpty i (envTxEmpty i s) := ⟨_, exec_blocking_length (d := .tx) hi, rfl⟩
  have q1 : SendRel i s t1 [] := r1 ▸ r0.quiet (.txEmpty i _)
  obtain ⟨l3, t2, h2, hn2, r2, harm2, hsame2⟩ := runOpWith_send_frames (l := l2) (s := t1) (w := w)
    (m := s.ctx.arg1.toNat / w.toNat) hi (fun hm => (q1.clkOn _).trans (hon fun hn => hm (hzero.2 hn)))
    (hw.trans (congrArg _ q1.cr1.symm)) hlen
    ((hlen ▸ bufferAt_of_admitted hadm).congr q1.params)
  have hend : exec (.spiSend unit) (envTxEmpty i (seqAt 2 l3 t2)) = .next (finish (envTxEmpty i t2)) :=
    (exec_blocking_loop (d := .tx) (s := envTxEmpty i t2) hi).trans (congrArg _ (if_pos hn2))
  have hrel := (q1.trans r2).quiet (.txEmpty i t2)
  rw [List.nil_append, framesAt_congr q1.mem] at hrel
  have hregs := hrel.regs
  have htxe : ((envTxEmpty i t2).spi.get i).txe = true := by simp [envTxEmpty]
  have harm : ((envTxEmpty i t2).spi.get i).ovrArm = ((s.spi.get i).ovrArm && decide (s.ctx.arg1 = 0)) := by
    have hkept : ((envTxEmpty i t2).spi.get i).ovrArm = (t2.spi.get i).ovrArm := by simp [envTxEmpty]
    rw [hkept]
    by_cases hn : s.ctx.arg1 = 0
    · rw [hsame2 (hzero.2 hn), r1]
      simp [envTxEmpty, hn]
    · rw [harm2 fun hm => hn (hzero.1 hm), decide_eq_false hn, Bool.and_false]
  rw [htxe, harm] at hregs
  refine ⟨_, seqAt 2 l3 t2, _, hfirst, ?_, hn2, hend, hrel.output, ?_, hregs, hrel.ovr, fun h => (hrel.unarmed h).2⟩
  · rw [hcursor, Nat.add_comm, runOpWith_send_succ h1, h2]
  · have hframe := hrel.frame
    rw [hframe]
    rfl

end Sys2Proof.Machine

namespace Sys2Proof.Machine

/-! # SPI_RECV with a shift unit that delivers frame after frame -/

/-- From `s` to `t`, on SPI unit `i`: nothing has changed but buffer memory, the unit's receive latch, RXNE, OVR and overrun arm, and
the draw counter; OVR is not set. -/
structure RecvRel (i : SpiId) (s t : State) : Prop where
  frame : t = { s with spi := t.spi, mem := t.mem, draws := t.draws }
  regs : t.spi = s.spi.set i { s.spi.get i with
    rxd := (t.spi.get i).rxd, rxne := (t.spi.get i).rxne, ovr := (t.spi.get i).ovr, ovrArm := (t.spi.get i).ovrArm }
  ovr : (t.spi.get i).ovr = true → (s.spi.get i).ovr = true

namespace RecvRel

variable {i : SpiId} {s t v : State}

theorem refl (i : SpiId) (s : State) : RecvRel i s s := ⟨rfl, (PerSpi.set_get _ _).symm, id⟩

theorem trans (h : RecvRel i s t) (h' : RecvRel i t v) : RecvRel i s v := by
  refine ⟨?_, ?_, h.ovr ∘ h'.ovr⟩
  · rw [h'.frame, h.frame]
  · rw [h'.regs, h.regs]
    simp

theorem params (h : RecvRel i s t) : t.params = s.params := by rw [h.frame]

theorem ctx (h : RecvRel i s t) : t.ctx = s.ctx := by rw [h.frame]

theorem clkOn (h : RecvRel i s t) (p : Peripheral) : clkOn t p = clkOn s p := by rw [h.frame]; rfl

theorem inLaunch (h : RecvRel i s t) (a : Word) : inLaunch t a = inLaunch s a := by rw [h.frame]; rfl

theorem cr1 (h : RecvRel i s t) : regVal (.spi i .cr1) t = regVal (.spi i .cr1) s := by
  rw [regVal, h.regs, PerSpi.get_set_self, regVal]

end RecvRel

/-- A frame delivered by the shift unit (10 R41). -/
def delivered (i : SpiId) (v : Half) (s : State) : State := updSpi i (fun r => { r with rxd := v, rxne := true }) s

theorem envRxFrame_eq (i : SpiId) (v : Half) (s : State) :
    envRxFrame i v s = if (s.spi.get i).rxne then s else delivered i v s := rfl

/-- The state after one turn of the receive loop: frame `v` has been read and stored at `a`, and the next one, `g`, delivered. -/
def turned (i : SpiId) (g : Half) (a w v : Word) (s : State) : State :=
  storeFrame a w v (delivered i g (afterRead (.spi i .dr) (readSr i false s)))

section

variable {unit : BitVec 4} {i : SpiId} {f : Nat → Half} {l : Locals} {s : State} {w : Word}

@[simp] theorem delivered_spi_get (g : Half) : (delivered i g s).spi.get i = { s.spi.get i with rxd := g, rxne := true } :=
  PerSpi.get_set_self _ _ _

@[simp] theorem turned_spi_get (g : Half) (a v : Word) : (turned i g a w v s).spi.get i = { s.spi.get i with
    rxd := g, rxne := true, ovrArm := true, ovr := (afterSrRead (s.spi.get i) false (Config.drawBit s.draws)).ovr } := by
  have hregs : (turned i g a w v s).spi.get i =
      (delivered i g (afterRead (.spi i .dr) (readSr i false s))).spi.get i := rfl
  rw [hregs, delivered_spi_get, afterRead_spi_dr, PerSpi.get_set_self, readSr_spi_get]
  rfl

theorem RecvRel.turned (g : Half) (a v : Word) : RecvRel i s (turned i g a w v s) := by
  refine ⟨rfl, ?_, fun h => ?_⟩
  · rw [turned_spi_get]
    simp [Machine.turned, storeFrame, delivered, afterRead_spi_dr, readSr, afterSrRead]
  · rw [turned_spi_get] at h
    exact ovr_of_readSr_ovr (explicit := false) (by rwa [readSr_spi_get])

theorem RecvRel.delivered (g : Half) : RecvRel i s (delivered i g s) := by
  refine ⟨rfl, ?_, ?_⟩ <;> simp [Machine.delivered]

/-! ## The environment -/

theorem frameStream_seqAt (p : Nat) : frameStream i f w (seqAt p l s) = seqAt p l
    (envRxFrame i (f (if p = 0 then 0 else (s.ctx.arg1.toNat - l.n.toNat) / w.toNat + 1)) s) := by
  rw [frameStream, envRxFrame_eq, envRxFrame_eq, seqAt_spi]
  split <;> rfl

/-- While RXNE is 1 the shift unit delivers nothing. -/
theorem runOpWith_recv_succ {j : Instr} {p q n : Nat} {l' : Locals} {t : State} (hrxne : (s.spi.get i).rxne = true)
    (h : exec j (seqAt p l s) = .next (seqAt q l' t)) :
    runOpWith (frameStream i f w) j (n + 1) (seqAt p l s) = runOpWith (frameStream i f w) j n (seqAt q l' t) := by
  refine runOpWith_env_succ ?_ h
  rw [frameStream_seqAt, envRxFrame_eq, if_pos hrxne]

/-! ## One frame -/

/-- Line 5. -/
theorem exec_recv_read (hi : spiOf unit = some i) (hon : clkOn s (.spi i) = true) : exec (.spiRecv unit) (seqAt 6 l s) =
    .next (seqAt 7 { l with v := regVal (.spi i .dr) s } (afterRead (.spi i .dr) s)) := by
  have hstep : exec (.spiRecv unit) (seqAt 6 l s) = readReg (.spi i .dr) (seqAt 6 l s) fun v s1 =>
    .next (goto 7 (updLocals (fun l => { l with v := v }) s1)) := exec_recv hi _
  rw [hstep, readReg_seqAt (r := .spi i .dr) hon, updLocals_seqAt, goto_seqAt]

/-- Line 6, the byte at the cursor. -/
theorem exec_recv_low (hi : spiOf unit = some i) (hin : inLaunch s l.b = true) : exec (.spiRecv unit) (seqAt 7 l s) =
    .next (seqAt (if l.w = 2 then 8 else 9) l (putByte l.b (lowByte l.v) s)) := by
  have hstep : exec (.spiRecv unit) (seqAt 7 l s) = storeByte l.b (lowByte l.v) (seqAt 7 l s) fun s1 =>
    .next (goto (if l.w = 2 then 8 else 9) s1) := exec_recv hi _
  rw [hstep, storeByte_eq _ _ _ _ ((inLaunch_seqAt 7 l s l.b).trans hin), putByte_seqAt, goto_seqAt]

/-- Line 6, the second byte of a wide frame. -/
theorem exec_recv_high (hi : spiOf unit = some i) (hin : inLaunch s (l.b + 1) = true) : exec (.spiRecv unit) (seqAt 8 l s) =
    .next (seqAt 9 l (putByte (l.b + 1) (highByte l.v) s)) := by
  have hstep : exec (.spiRecv unit) (seqAt 8 l s) = storeByte (l.b + 1) (highByte l.v) (seqAt 8 l s) fun s1 =>
    .next (goto 9 s1) := exec_recv hi _
  rw [hstep, storeByte_eq _ _ _ _ ((inLaunch_seqAt 8 l s (l.b + 1)).trans hin), putByte_seqAt, goto_seqAt]

/-- Lines 1 to 5: a frame has been delivered, so the wait goes on and DR is read. -/
theorem runOpWith_recv_read (hi : spiOf unit = some i) (hon : clkOn s (.spi i) = true) (hw : w = frameWidth (regVal (.spi i .cr1) s))
    (hrxne : (s.spi.get i).rxne = true) (hn : l.n ≠ 0) (hlen : w.toNat ≤ l.n.toNat) :
    runOpWith (frameStream i f w) (.spiRecv unit) 5 (seqAt 2 l s) = .next (seqAt 7 { l with w := w, v := regVal (.spi i .dr) s }
      (afterRead (.spi i .dr) (readSr i false s))) := by
  have hflag : (regVal (.spi i .sr) s).getLsbD (flagBit .rx) = true := by
    rw [regVal, flagBit, srWord_rxne, hrxne]
  have hrxne' : ((readSr i false s).spi.get i).rxne = true := by simpa [afterSrRead] using hrxne
  have hcr1 : regVal (.spi i .cr1) (readSr i false s) = regVal (.spi i .cr1) s := by simp [regVal, afterSrRead]
  have hdr : regVal (.spi i .dr) (readSr i false s) = regVal (.spi i .dr) s := by simp [regVal, afterSrRead]
  have h2 := (exec_blocking_loop (d := .rx) (unit := unit) (s := s) hi).trans (congrArg _ (if_neg hn))
  have h3 := exec_blocking_wait (d := .rx) (l := l) hi hon hflag
  have h4 := exec_blocking_width (d := .rx) (l := l) (s := readSr i false s) hi hon (hw.trans (congrArg _ hcr1.symm))
  have h5 := exec_blocking_whole (d := .rx) (l := { l with w := w }) (s := readSr i false s) hi hlen
  have h6 := exec_recv_read (l := { l with w := w }) (s := readSr i false s) hi hon
  rw [hdr] at h6
  rw [show blockingOf .rx unit = .spiRecv unit from rfl] at h2 h3 h4 h5
  rw [runOpWith_recv_succ hrxne h2, runOpWith_recv_succ hrxne h3, runOpWith_recv_succ hrxne' h4, runOpWith_recv_succ hrxne' h5,
    runOpWith_recv_succ hrxne' h6, runOpWith_zero]

/-- Line 6: the next frame is delivered, and the one read is stored. -/
theorem runOpWith_recv_store (hi : spiOf unit = some i) (hw : l.w = 1 ∨ l.w = 2) (hrxne : (s.spi.get i).rxne = false)
    (hlow : inLaunch s l.b = true) (hhigh : l.w = 2 → inLaunch s (l.b + 1) = true) :
    runOpWith (frameStream i f w) (.spiRecv unit) l.w.toNat (seqAt 7 l s) = .next (seqAt 9 l
      (storeFrame l.b l.w l.v (delivered i (f ((s.ctx.arg1.toNat - l.n.toNat) / w.toNat + 1)) s))) := by
  let next := delivered i (f ((s.ctx.arg1.toNat - l.n.toNat) / w.toNat + 1)) s
  have henv : frameStream i f w (seqAt 7 l s) = seqAt 7 l next := by
    rw [frameStream_seqAt, envRxFrame_eq, if_neg (by simp [hrxne]), if_neg (by decide)]
  have h7 := exec_recv_low (s := next) (l := l) hi hlow
  obtain h1 | h2 := hw
  · have hne : l.w ≠ 2 := by rw [h1]; decide
    rw [if_neg hne] at h7
    rw [storeFrame_narrow h1, show l.w.toNat = 0 + 1 by rw [h1]; rfl, runOpWith_env_succ henv h7, runOpWith_zero]
  · rw [if_pos h2] at h7
    have h8 := exec_recv_high (s := putByte l.b (lowByte l.v) next) (l := l) hi (hhigh h2)
    have hrxne' : ((putByte l.b (lowByte l.v) next).spi.get i).rxne = true := by simp [next]
    rw [storeFrame_wide h2, show l.w.toNat = 0 + 1 + 1 by rw [h2]; rfl, runOpWith_env_succ henv h7,
      runOpWith_recv_succ hrxne' h8, runOpWith_zero]

/-- One turn of the loop. -/
theorem runOpWith_recv_frame (hi : spiOf unit = some i) (hon : clkOn s (.spi i) = true) (hw : w = frameWidth (regVal (.spi i .cr1) s))
    (hrxne : (s.spi.get i).rxne = true) {m k : Nat} (hm : l.n.toNat = (m + 1) * w.toNat)
    (hk : s.ctx.arg1.toNat = (k + (m + 1)) * w.toNat) (hbuf : BufferAt s l.b ((m + 1) * w.toNat)) :
    ∃ l', runOpWith (frameStream i f w) (.spiRecv unit) (7 + w.toNat) (seqAt 2 l s) =
        .next (seqAt 2 l' (turned i (f (k + 1)) l.b w (regVal (.spi i .dr) s) s)) ∧
      l'.n.toNat = m * w.toNat ∧ l'.b = l.b + w := by
  have hwidth : w = 1 ∨ w = 2 := hw ▸ frameWidth_eq _
  have hbound := frameWidth_toNat_bounds (regVal (.spi i .cr1) s)
  rw [← hw] at hbound
  have hindex : (s.ctx.arg1.toNat - l.n.toNat) / w.toNat + 1 = k + 1 := by
    rw [hk, hm, ← Nat.sub_mul, Nat.add_sub_cancel, Nat.mul_div_cancel _ hbound.1]
  rw [show (m + 1) * w.toNat = w.toNat + m * w.toNat by ring] at hm hbuf
  have hn : l.n ≠ 0 := fun hzero => by
    rw [hzero, show (0 : Word).toNat = 0 from rfl] at hm
    omega
  have hread := runOpWith_recv_read (f := f) hi hon hw hrxne hn (by omega)
  have hstore := runOpWith_recv_store (f := f) (w := w) (l := { l with w := w, v := regVal (.spi i .dr) s })
    (s := afterRead (.spi i .dr) (readSr i false s)) hi hwidth (by simp [afterRead_spi_dr]) (hbuf.first (by omega))
    fun h2 => hbuf.second (by
      have : w.toNat = 2 := congrArg BitVec.toNat h2
      omega)
  have hnext : f (((afterRead (.spi i .dr) (readSr i false s)).ctx.arg1.toNat - l.n.toNat) / w.toNat + 1) = f (k + 1) :=
    congrArg f hindex
  rw [hnext] at hstore
  let l7 : Locals := { l with w := w, v := regVal (.spi i .dr) s }
  let t := turned i (f (k + 1)) l.b w (regVal (.spi i .dr) s) s
  have hrxne' : (t.spi.get i).rxne = true := by simp [t]
  have h9 := exec_blocking_advance (d := .rx) (unit := unit) (l := l7) (s := t) hi
  have h10 := exec_blocking_back (d := .rx) (unit := unit) (l := { l7 with n := l7.n - l7.w, b := l7.b + l7.w }) (s := t) hi
  refine ⟨{ l7 with n := l7.n - l7.w, b := l7.b + l7.w }, ?_, ?_, rfl⟩
  · rw [show 7 + w.toNat = 5 + (w.toNat + 2) by omega, runOpWith_add _ _ hread]
    refine (runOpWith_add _ _ hstore).trans ?_
    exact (runOpWith_recv_succ (n := 1) hrxne' h9).trans (runOpWith_recv_succ (n := 0) hrxne' h10)
  · change (l.n - w).toNat = _
    rw [BitVec.toNat_sub]
    omega

end

end Sys2Proof.Machine

namespace Sys2Proof.Machine

/-! ## The bytes of the buffer -/

/-- The addresses of a buffer do not wrap. -/
theorem BufferAt.toNat_offset {s : State} {b : Word} {n k : Nat} (h : BufferAt s b n) (hk : k < n) :
    (b + BitVec.ofNat 32 k).toNat = b.toNat + k := by
  have hfits := h.fits
  rw [BitVec.toNat_add, BitVec.toNat_ofNat]
  omega

theorem BufferAt.offset_ne {s : State} {b : Word} {n j k : Nat} (h : BufferAt s b n) (hj : j < n) (hk : k < n) (hne : j ≠ k) :
    b + BitVec.ofNat 32 j ≠ b + BitVec.ofNat 32 k := fun heq => by
  have := congrArg BitVec.toNat heq
  rw [h.toNat_offset hj, h.toNat_offset hk] at this
  omega

theorem offset_add (b w : Word) (k : Nat) : b + w + BitVec.ofNat 32 k = b + BitVec.ofNat 32 (w.toNat + k) := by
  rw [BitVec.ofNat_add, BitVec.ofNat_toNat, BitVec.setWidth_eq, BitVec.add_assoc]

section

variable {unit : BitVec 4} {i : SpiId} {f : Nat → Half} {l : Locals} {s t : State} {w : Word}

/-- The bytes of the frame that one turn of the loop stores. -/
theorem byteAt_turned (hw : w = 1 ∨ w = 2) (g : Half) (b : Word) :
    (∀ j, j < w.toNat → byteAt (turned i g b w (regVal (.spi i .dr) s) s) (b + BitVec.ofNat 32 j) =
        (s.spi.get i).rxd.extractLsb' (8 * j) 8) ∧
      ∀ a, (∀ j, j < w.toNat → a ≠ b + BitVec.ofNat 32 j) → byteAt (turned i g b w (regVal (.spi i .dr) s) s) a = byteAt s a := by
  have hfield (lo : Nat) (h : lo + 8 ≤ 32) : (regVal (.spi i .dr) s).extractLsb' lo 8 = (s.spi.get i).rxd.extractLsb' lo 8 :=
    extractLsb'_setWidth_of_le _ lo 8 h
  obtain ⟨hlow, hhigh, hother⟩ := byteAt_storeFrame (a := b) (v := regVal (.spi i .dr) s)
    (s := delivered i g (afterRead (.spi i .dr) (readSr i false s))) hw
  have hbound : w.toNat ≤ 2 := by obtain rfl | rfl := hw <;> decide
  refine ⟨fun j hj => ?_, fun a ha => ?_⟩
  · obtain rfl | rfl : j = 0 ∨ j = 1 := by omega
    · rw [BitVec.add_zero]
      exact hlow.trans (hfield 0 (by decide))
    · have h2 : w = 2 := hw.resolve_left fun h1 => by
        rw [h1] at hj
        exact absurd hj (by decide)
      exact (hhigh h2).trans (hfield 8 (by decide))
  · refine hother a ?_ fun h2 => ha 1 (by rw [h2]; decide)
    have h0 := ha 0 (by obtain rfl | rfl := hw <;> decide)
    rwa [BitVec.add_zero] at h0

/-- The `n` bytes from `b` hold the frames `f k`, `f (k + 1)`, … of `w` bytes, and every other byte is as in `s`. -/
structure FramesStored (s t : State) (f : Nat → Half) (w b : Word) (n k : Nat) : Prop where
  inside : ∀ j, j < n → byteAt t (b + BitVec.ofNat 32 j) = (f (k + j / w.toNat)).extractLsb' (8 * (j % w.toNat)) 8
  outside : ∀ a, (∀ j, j < n → a ≠ b + BitVec.ofNat 32 j) → byteAt t a = byteAt s a

/-- One frame and then the others. -/
theorem FramesStored.cons {u : State} {b : Word} {n k : Nat} (hpos : 0 < w.toNat) (hbuf : BufferAt s b (w.toNat + n))
    (hfirst : ∀ j, j < w.toNat → byteAt t (b + BitVec.ofNat 32 j) = (f k).extractLsb' (8 * j) 8)
    (hother : ∀ a, (∀ j, j < w.toNat → a ≠ b + BitVec.ofNat 32 j) → byteAt t a = byteAt s a)
    (h : FramesStored t u f w (b + w) n (k + 1)) : FramesStored s u f w b (w.toNat + n) k := by
  obtain ⟨hinside, houtside⟩ := h
  refine ⟨fun j hj => ?_, fun a ha => ?_⟩
  · by_cases hj1 : j < w.toNat
    · rw [houtside _ fun j' hj' => by
        rw [offset_add]
        exact hbuf.offset_ne hj (by omega) (by omega)]
      rw [hfirst j hj1, Nat.div_eq_of_lt hj1, Nat.mod_eq_of_lt hj1, Nat.add_zero]
    · obtain ⟨j', rfl⟩ : ∃ j', j = w.toNat + j' := ⟨j - w.toNat, by omega⟩
      rw [← offset_add, hinside j' (by omega), Nat.add_div_left _ hpos, Nat.add_mod_left, Nat.add_right_comm,
        Nat.add_assoc]
  · rw [houtside a fun j hj => by
      rw [offset_add]
      exact ha _ (by omega)]
    exact hother a fun j hj => ha j (by omega)

/-! ## All frames -/

/-- The loop, by induction on the frames left; `f k` has been delivered. -/
theorem runOpWith_recv_frames {m k : Nat} (hi : spiOf unit = some i) (hon : m ≠ 0 → clkOn s (.spi i) = true)
    (hw : w = frameWidth (regVal (.spi i .cr1) s)) (hrxne : (s.spi.get i).rxne = true) (hrxd : (s.spi.get i).rxd = f k)
    (hm : l.n.toNat = m * w.toNat) (hk : s.ctx.arg1.toNat = (k + m) * w.toNat) (hbuf : BufferAt s l.b (m * w.toNat)) : ∃ l' t,
    runOpWith (frameStream i f w) (.spiRecv unit) ((7 + w.toNat) * m) (seqAt 2 l s) = .next (seqAt 2 l' t) ∧ l'.n = 0 ∧
      RecvRel i s t ∧ (t.spi.get i).rxne = true ∧ (t.spi.get i).rxd = f (k + m) ∧
      (t.spi.get i).ovrArm = ((s.spi.get i).ovrArm || !decide (m = 0)) ∧ FramesStored s t f w l.b (m * w.toNat) k := by
  induction m generalizing l s k with
  | zero =>
    refine ⟨l, s, rfl, BitVec.eq_of_toNat_eq (hm.trans (Nat.zero_mul _)), .refl i s, hrxne, hrxd, by simp, fun j hj => ?_,
      fun _ _ => rfl⟩
    rw [Nat.zero_mul] at hj
    exact absurd hj (Nat.not_lt_zero j)
  | succ m ih =>
    have hon1 := hon (Nat.succ_ne_zero m)
    have hbound := frameWidth_toNat_bounds (regVal (.spi i .cr1) s)
    rw [← hw] at hbound
    obtain ⟨l1, h1, hn1, hb1⟩ := runOpWith_recv_frame (f := f) hi hon1 hw hrxne hm hk hbuf
    obtain ⟨hfirst, hother⟩ := byteAt_turned (i := i) (s := s) (hw ▸ frameWidth_eq _) (f (k + 1)) l.b
    have r1 := RecvRel.turned (i := i) (s := s) (w := w) (f (k + 1)) l.b (regVal (.spi i .dr) s)
    rw [show (m + 1) * w.toNat = w.toNat + m * w.toNat by ring] at hbuf ⊢
    obtain ⟨l2, t2, h2, hn2, r2, hrxne2, hrxd2, harm2, hbytes⟩ := ih (l := l1) (k := k + 1) (fun _ => (r1.clkOn _).trans hon1)
      (hw.trans (congrArg _ r1.cr1.symm)) (by simp) (by simp) hn1 (by rw [r1.ctx, hk]; ring)
      (by rw [hb1]; exact hbuf.advance.congr r1.params)
    refine ⟨l2, t2, ?_, hn2, r1.trans r2, hrxne2, ?_, ?_, ?_⟩
    · rw [show (7 + w.toNat) * (m + 1) = (7 + w.toNat) + (7 + w.toNat) * m by ring, runOpWith_add _ _ h1, h2]
    · rw [hrxd2, Nat.add_right_comm, Nat.add_assoc]
    · rw [harm2, turned_spi_get]
      simp
    · rw [hb1] at hbytes
      exact FramesStored.cons hbound.1 hbuf (fun j hj => (hfirst j hj).trans (by rw [hrxd])) hother hbytes

/-- The shift unit has delivered `f 0` before the first micro-step. -/
theorem envRxFrame_first (hfirst : (s.spi.get i).rxne = true → (s.spi.get i).rxd = f 0) :
    RecvRel i s (envRxFrame i (f 0) s) ∧ ((envRxFrame i (f 0) s).spi.get i).rxne = true ∧
      ((envRxFrame i (f 0) s).spi.get i).rxd = f 0 ∧ ((envRxFrame i (f 0) s).spi.get i).ovrArm = (s.spi.get i).ovrArm ∧
        ∀ a, byteAt (envRxFrame i (f 0) s) a = byteAt s a := by
  rw [envRxFrame_eq]
  split
  · next hrxne => exact ⟨.refl i s, hrxne, hfirst hrxne, rfl, fun _ => rfl⟩
  · exact ⟨.delivered _, by simp, by simp, by simp, fun _ => rfl⟩

end

/-- Settles O21: the admission, the loop by induction on the frames, and the end. -/
theorem blockingReceiveFillsTheWholeBuffer : Obligations.BlockingReceiveFillsTheWholeBuffer := by
  intro unit i s w f hi h0 hw hframes hadm hon hready
  obtain ⟨hlen, hzero⟩ := length_eq_frames hframes
  let x := envRxFrame i (f 0) s
  obtain ⟨r0, hrxne0, hrxd0, harm0, hbyte0⟩ := envRxFrame_first (f := f) hready
  have henv : frameStream i f w s = x := by rw [frameStream, if_pos h0]
  have hphase : phaseOf x = 0 := by rw [phaseOf, r0.ctx]; exact h0
  have hadm0 : admittedBuffer x x.ctx.arg0 x.ctx.arg1 = true := by
    rw [r0.ctx, admittedBuffer, r0.params]
    exact hadm
  have hfirst : exec (.spiRecv unit) (frameStream i f w s) = .next (cursorSet x) := by
    rw [henv]
    exact exec_blocking_admitted (d := .rx) hi hphase (hw.trans (congrArg _ r0.cr1.symm)) (by rw [r0.ctx]; exact hframes) hadm0
      fun hn => (r0.clkOn _).trans (hon (by rwa [r0.ctx] at hn))
  let l1 : Locals := { locals x with b := x.ctx.arg0 }
  let l2 : Locals := { l1 with n := x.ctx.arg1 }
  have h1 : exec (.spiRecv unit) (seqAt 1 l1 x) = .next (seqAt 2 l2 x) := exec_blocking_length (d := .rx) hi
  have hlen0 : x.ctx.arg1.toNat = s.ctx.arg1.toNat / w.toNat * w.toNat := by rw [r0.ctx]; exact hlen
  obtain ⟨l3, t, h2, hn2, r2, hrxne, hrxd, harm, hstored⟩ := runOpWith_recv_frames (l := l2) (s := x) (w := w) (f := f) (k := 0)
    (m := s.ctx.arg1.toNat / w.toNat) hi (fun hm => (r0.clkOn _).trans (hon fun hn => hm (hzero.2 hn)))
    (hw.trans (congrArg _ r0.cr1.symm)) hrxne0 hrxd0 hlen0 (by rw [Nat.zero_add]; exact hlen0)
    (hlen0 ▸ bufferAt_of_admitted hadm0)
  obtain ⟨hinside, houtside⟩ := hstored
  have hend : exec (.spiRecv unit) (frameStream i f w (seqAt 2 l3 t)) = .next (finish t) := by
    rw [frameStream_seqAt, envRxFrame_eq, if_pos hrxne]
    exact (exec_blocking_loop (d := .rx) hi).trans (congrArg _ (if_pos hn2))
  have hrel := r0.trans r2
  have hregs := hrel.regs
  have hempty : decide (s.ctx.arg1.toNat / w.toNat = 0) = decide (s.ctx.arg1 = 0) := decide_eq_decide.2 hzero
  rw [hrxne, hrxd, Nat.zero_add, harm, harm0, hempty] at hregs
  rw [← hlen] at hinside houtside
  have hbuf : l2.b = s.ctx.arg0 := by rw [← r0.ctx]
  rw [hbuf] at hinside houtside
  refine ⟨_, seqAt 2 l3 t, _, hfirst, ?_, hn2, hend, fun j hj => ?_, fun a ha => ?_, ?_, hregs, hrel.ovr⟩
  · rw [Nat.add_comm, show cursorSet x = seqAt 1 l1 x from rfl, runOpWith_recv_succ hrxne0 h1, h2]
  · exact (hinside j hj).trans (by rw [Nat.zero_add])
  · exact (houtside a ha).trans (hbyte0 a)
  · have hframe := hrel.frame
    rw [hframe]
    rfl

end Sys2Proof.Machine
